-- ==== Sys2Proof/Word.lean ====
section
/-! DEFINITION. The word types and the plainest arithmetic on them (spec/00_scope.md R5, R9). -/

namespace Sys2Proof

/-- One byte of memory. -/
abbrev Byte := BitVec 8
/-- A 32-bit register lane (spec/11 R294). -/
abbrev W32 := BitVec 32
/-- A 64-bit register or thread word. -/
abbrev W64 := BitVec 64
/-- A 16-byte part, the widest single-copy-atomic access (spec/08 R209). -/
abbrev W128 := BitVec 128
/-- A tile register (spec/11 R303). -/
abbrev W256 := BitVec 256
/-- A 57-bit virtual address (spec/07 R173). -/
abbrev VAddr := BitVec 57

/-- Bits [hi:lo] of a pattern, as an unsigned value (spec/00 R9). -/
def bits {n : Nat} (x : BitVec n) (hi lo : Nat) : Nat :=
  (x.toNat >>> lo) % 2 ^ (hi + 1 - lo)

/-- Bit `i` of a pattern. -/
def bit {n : Nat} (x : BitVec n) (i : Nat) : Bool := x.getLsbD i

/-- Division rounding up. -/
def ceilDiv (a b : Nat) : Nat := (a + b - 1) / b

end Sys2Proof
end

