-- ==== Sys2Proof/Syntax.lean ====
section
/-! DEFINITION. The instruction type: one constructor per row of spec/opcode_table.json. Thread instructions hold the
fields of spec/11 R305, tile slot operations those of R308, machine events the data that the event brings. -/

namespace Sys2Proof

/-- A source field of a thread word (spec/11 R296). `imm c` is the inline constant, a signed 7-bit value. -/
inductive Src where
  | v (n : BitVec 8)
  | s (n : BitVec 6)
  | y (n : BitVec 2)
  | imm (c : BitVec 7)
deriving DecidableEq, Repr

/-- A per-lane guard: predicate P0-P7, inverted when `neg` (spec/11 R305). -/
structure Guard where
  neg : Bool
  p : BitVec 3
deriving DecidableEq, Repr

/-- A guard of format B: `qg` names Q0-Q7 instead of P0-P7 (spec/11 R305). -/
structure BGuard where
  qg : Bool
  neg : Bool
  p : BitVec 3
deriving DecidableEq, Repr

/-- A V destination with its latch capture (spec/11 R297, R298). -/
structure VDst where
  n : BitVec 8
  nwb : Bool
  latch : BitVec 2
deriving DecidableEq, Repr

/-- An S destination with its latch capture (spec/11 R297, R298, R533). -/
structure SDst where
  n : BitVec 6
  nwb : Bool
  latch : BitVec 2
deriving DecidableEq, Repr

/-- A predicate destination (spec/11 R297). -/
structure PDst where
  q : Bool
  n : BitVec 3
deriving DecidableEq, Repr

/-- The integer types of IADD, IMUL, IMAD, IMNMX and ISET (spec/12 R317). -/
inductive IntTy where
  | i32 | n32 | i64 | n64
deriving DecidableEq, Repr

/-- Comparison codes 0-5 (spec/12 R318). -/
inductive Cmp where
  | eq | ne | lt | le | gt | ge
deriving DecidableEq, Repr

/-- The seven special functions (spec/05 R135). -/
inductive Fn where
  | rcp | rsq | ex2 | lg2 | sin | cos | tanh
deriving DecidableEq, Repr

/-- The types FCVT converts between: TC 0-13 of spec/12 R317. -/
inductive CvtTy where
  | i32 | n32 | i64 | n64 | i16 | n16 | i8 | n8 | f32 | f16 | bf16 | e4m3 | e5m2 | e2m1
deriving DecidableEq, Repr

/-- FCVT's destination: a type of its own or CB4 through a codebook (spec/14 R365). -/
inductive CvtDst where
  | ty (t : CvtTy)
  | cb4 (cb : BitVec 3)
deriving DecidableEq, Repr

/-- Widths of MOV (spec/15 R418). -/
inductive MovW where
  | b32 | b64 | b128
deriving DecidableEq, Repr

/-- SHFL modes 0-3 (spec/17 R465). -/
inductive ShflMode where
  | idx | up | down | xor
deriving DecidableEq, Repr

/-- VOTE modes 0-2, which write a predicate (spec/18 R501). -/
inductive VoteMode where
  | all | any | uni
deriving DecidableEq, Repr

/-- VOTE's destination: a predicate in modes 0-2, a V register in mode 3, .ballot (spec/18 R501). -/
inductive VoteDst where
  | pred (mode : VoteMode) (d : PDst)
  | ballot (d : VDst)
deriving DecidableEq, Repr

/-- REDUX operations with their types (spec/16 R439). -/
inductive ReduxOp where
  | add | minI | minN | maxI | maxN | and | or | xor
deriving DecidableEq, Repr

/-- DECW modes (spec/14 R354): CB4 unpack through a codebook, zero bitmap of 8, 16 or 32 bits, prefix code by a table. -/
inductive DecMode where
  | cb (n : BitVec 3)
  | zb (log2w : BitVec 2)
  | pc (table : BitVec 6)
deriving DecidableEq, Repr

/-- Orders of an access (spec/08 R212). -/
inductive Ord4 where
  | rlx | acq | rel | ar
deriving DecidableEq, Repr

/-- Scopes (spec/11 R305, spec/08 R211). -/
inductive Scope where
  | slice | gang | block | clus | dev | sys
deriving DecidableEq, Repr

/-- An order together with its scope; a relaxed access names none (spec/08 R212). -/
inductive Order where
  | rlx
  | acq (sc : Scope)
  | rel (sc : Scope)
  | ar (sc : Scope)
deriving DecidableEq, Repr

/-- Access sizes of format M (spec/11 R305). -/
inductive Size where
  | b8 | b16 | b32 | b64 | b128
deriving DecidableEq, Repr

/-- The address fields of format M: BASE + sext(INDEX) x 2^scale + sext(OFF) x size (spec/11 R305). -/
structure MemAddr where
  base : Src
  index : Src
  scale : BitVec 2
  off : BitVec 10
deriving DecidableEq, Repr

/-- ATOM and RED operations (spec/12 R319); RED takes every one but `exch`. -/
inductive AtomOp where
  | add | min | max | and | or | xor | exch | fadd | umin | umax
deriving DecidableEq, Repr

/-- MONWAIT comparisons (spec/15 R414). -/
inductive MonCmp where
  | eq | ne | lt | ge | ltu | geu
deriving DecidableEq, Repr

/-- CPY forms (spec/13 R351). -/
inductive CpyKind where
  | toLocal | toRemote | fromRemote
deriving DecidableEq, Repr

/-- Operations that compute one result from register sources alone: those that FORMAT 6 and the first half of a pair
share with the vector forms (spec/11 R533, spec/12 R316). The operands stand beside the operation. -/
inductive AluOp where
  | iadd (ty : IntTy) (sub sat : Bool)
  | imul (ty : IntTy) (hi : Bool)
  | imad (ty : IntTy) (hi : Bool)
  | imnmx (ty : IntTy) (max : Bool)
  | lop3 (w64 : Bool) (table : BitVec 8)
  | shf (w64 right arith : Bool)
  | popc (w64 : Bool)
  | clz (w64 : Bool)
  | brev (w64 : Bool)
  | bfx (w64 sext : Bool)
  | bfi (w64 : Bool)
  | mov (w : MovW)
  | idot4 (sa sb : Bool)
  | fadd (na nb : Bool)
  | fmul (na nb : Bool)
  | ffma (na nb nc : Bool)
  | fmnmx (max : Bool)
  | hadd2 (bf na nb : Bool)
  | hfma2 (bf na nb nc : Bool)
  | sfn (f : Fn)
  | fcvt (sat : Bool) (dt : CvtDst) (st : CvtTy)
deriving DecidableEq, Repr

/-- What a uniform word or the scalar half of a pair computes (spec/11 R306, R533). -/
inductive UniOp where
  | alu (op : AluOp) (a b c : Src)
  | movi (imm : BitVec 29)
  | lea (glob : Bool) (k : BitVec 2) (a b : Src)
  | redux (op : ReduxOp) (a : Src)
  | ballot (a : Src)
  | srd (sreg : BitVec 8)
deriving DecidableEq, Repr

/-- The second source of a KR slot (spec/11 R308). -/
inductive KSrc where
  | reg (n : BitVec 6)
  | imm (i : BitVec 16)
deriving DecidableEq, Repr

/-- KLOP operations (spec/15 R387). -/
inductive KLop where
  | and | or | xor | andn | shl | shr | sar
deriving DecidableEq, Repr

/-- KLD and KST sizes; `desc` moves a tile register (spec/15 R390). -/
inductive KSize where
  | b8 | b16 | b32 | b64 | desc
deriving DecidableEq, Repr

/-- The engine slots that own shape registers (spec/04 R99). -/
inductive Eng where
  | d | c | v | m
deriving DecidableEq, Repr

/-- SHPW fields (spec/04 R99). -/
inductive ShField where
  | rows | cols | pitch | row0 | col0
deriving DecidableEq, Repr

/-- SHPW sources (spec/17 R467). -/
inductive ShSrc where
  | reg (n : BitVec 6)
  | imm (i : BitVec 26)
deriving DecidableEq, Repr

/-- The swap field of a D, C, V or M slot (spec/04 R100): the shape register exchanged, or none. -/
abbrev Swap := Option (BitVec 2)

/-- TEW operations (spec/18 R491). -/
inductive TewBin where
  | add | sub | mul | max | min
deriving DecidableEq, Repr

/-- TEW forms (spec/18 R491): two tiles, a tile and a scalar, or one tile. -/
inductive TewForm where
  | tile (op : TewBin) (tb : BitVec 5)
  | scalar (op : TewBin) (kb : BitVec 6)
  | abs | neg | copy
deriving DecidableEq, Repr

/-- ROWRED operations (spec/16 R452). -/
inductive RowOp where
  | max | min | sum
deriving DecidableEq, Repr

/-- MLOOP modes (spec/15 R410). -/
inductive LoopMode where
  | cycle
  | streamW (tb : BitVec 5)
  | streamG (tb : BitVec 5)
deriving DecidableEq, Repr

/-- MDRAIN modes (spec/15 R405). -/
inductive DrainMode where
  | plain | cvt | add
deriving DecidableEq, Repr

/-- COLL operations (spec/13 R345). -/
inductive CollOp where
  | allreduce | reduceScatter | allgather | allToAll
deriving DecidableEq, Repr

/-- COLL reductions. -/
inductive CollRed where
  | sum | max | min
deriving DecidableEq, Repr

/-- COLL element types. -/
inductive CollTy where
  | f32 | bf16 | f16 | i32 | n32
deriving DecidableEq, Repr

/-- The frame's three timelines (spec/04 R104). -/
inductive TlKind where
  | copy | matrix | coll
deriving DecidableEq, Repr

/-- TBR and TCALL operands (spec/11 R308 layout BT). -/
structure TileTest where
  neg : Bool
  reg : BitVec 6
  bit : BitVec 6
  offset : BitVec 20
deriving DecidableEq, Repr

/-- Who issues: a slice group of a gang of a block, or the tile context of a frame, by the model's own names. -/
inductive Issuer where
  | none
  | group (blk gang grp : Nat)
  | tile (frame : Nat)
deriving DecidableEq, Repr

/-- What every flit of collective data says of its operation (spec/13 R346): the sender's rank, the operation's sequence in the group, its
operation, reduction, type and element count, and the place of its bytes in the sender's input. The spec gives it no place in the packet
(log 17). -/
structure CollTag where
  rank : Nat
  seq : Nat
  op : CollOp
  red : CollRed
  ty : CollTy
  count : Nat
  off : Nat
deriving DecidableEq, Repr

/-- A fabric packet: the header fields of spec/09 R232 and the bytes of the following flits. `checkOk` says whether
the CRC-32C of the header passes; `reserved` holds the reserved header bits; `coll` is what collective data says of its operation. -/
structure Packet where
  kind : BitVec 4
  flags : BitVec 4
  seq : BitVec 16
  stag : BitVec 16
  sctx : BitVec 12
  sdev : BitVec 19
  prio : BitVec 2
  hidx : BitVec 12
  dctx : BitVec 12
  ddev : BitVec 19
  addr : BitVec 57
  len : Nat
  nflit : Nat
  reserved : Nat
  checkOk : Bool
  data : List Byte
  coll : Option CollTag := none
deriving DecidableEq, Repr

/-- Where an uncorrectable storage error is found (spec/07 R204). Physical places name a granule or line; block
places name a resident block; `codeUnissued` names a gang's held 32-byte unit of code and `codeIssued` the fetching slice group; the
owner context is the owner tag read. -/
inductive ErrPlace where
  | l1Line (core line : Nat)
  | homeClean (granule : Nat)
  | homeDirty (part : Nat)
  | near (part : Nat)
  | far (part : Nat)
  | block (blk : Nat)
  | codeUnissued (blk gang unit : Nat)
  | codeIssued (i : Issuer)
  | ownerTag
deriving DecidableEq, Repr

/-- Host atomics at a device home (spec/09 R261): the operations of ATOM, on 4 or 8 bytes. -/
structure HostAtomicOp where
  op : AtomOp
  w64 : Bool
  operand : W64
deriving DecidableEq, Repr

/-- Registers that system software and the management image write and that have no row of their own: a context's control registers
(spec/10 R273; a CCTL write may set several bits, R535), and what the fabric manager sets: ATO, COLTO, the device number, the ports
of a destination, the devices of a context's partition (spec/09 R248, R252, R260). -/
inductive HostReg where
  | cdesc (ctx : BitVec 6)
  | cctl (ctx : BitVec 6)
  | cstat (ctx : BitVec 6)
  | cerr (ctx : BitVec 6)
  | fsc (ctx : BitVec 6)
  | reserved (ctx : BitVec 6)
  | ato
  | colto
  | devid
  | route (dev : BitVec 19) (ports : List Nat)
  | partition (ctx : BitVec 6) (devs : List Nat)
deriving DecidableEq, Repr

/-- The two words of a timeline control entry (spec/03 R63). -/
inductive TlWord where
  | count | control
deriving DecidableEq, Repr

/-- A management image in the image store or the staging window (spec/10 R288). -/
structure Image where
  body : List Byte
  digest : BitVec 512
  key : BitVec 256
  signature : BitVec 512
  epoch : BitVec 8
deriving DecidableEq, Repr, Inhabited

/-- What RECORD_START starts: the record in hand of a queue, or a node of a graph launch (spec/03 R57, R65). -/
inductive RecSrc where
  | queue (q : Nat)
  | node (launch n : Nat)
deriving DecidableEq, Repr

/-- The instructions, tile slot operations and machine events of spec/opcode_table.json, in its order. -/
inductive Instr where
  -- thread set: integer and logic
  | nop
  | iadd (g : Guard) (d : VDst) (ty : IntTy) (sub sat : Bool) (a b : Src)
  | imul (g : Guard) (d : VDst) (ty : IntTy) (hi : Bool) (a b : Src)
  | imad (g : Guard) (d : VDst) (ty : IntTy) (hi : Bool) (a b c : Src)
  | imnmx (g : Guard) (d : VDst) (ty : IntTy) (max : Bool) (a b : Src)
  | iset (g : Guard) (d : PDst) (cmp : Cmp) (ty : IntTy) (a b : Src)
  | lop3 (g : Guard) (d : VDst) (w64 : Bool) (table : BitVec 8) (a b c : Src)
  | shf (g : Guard) (d : VDst) (w64 right arith : Bool) (a b : Src)
  | popc (g : Guard) (d : VDst) (w64 : Bool) (a : Src)
  | clz (g : Guard) (d : VDst) (w64 : Bool) (a : Src)
  | brev (g : Guard) (d : VDst) (w64 : Bool) (a : Src)
  | bfx (g : Guard) (d : VDst) (w64 sext : Bool) (a b c : Src)
  | bfi (g : Guard) (d : VDst) (w64 : Bool) (a b c : Src)
  | sel (g : Guard) (d : VDst) (w64 : Bool) (p : BitVec 3) (neg : Bool) (a b : Src)
  | mov (g : Guard) (d : VDst) (w : MovW) (a : Src)
  | movi (g : Guard) (d : VDst) (imm : BitVec 29)
  | lea (g : Guard) (d : VDst) (glob : Bool) (k : BitVec 2) (a b : Src)
  | idot4 (g : Guard) (d : VDst) (sa sb : Bool) (a b c : Src)
  -- thread set: floating point
  | fadd (g : Guard) (d : VDst) (na nb : Bool) (a b : Src)
  | fmul (g : Guard) (d : VDst) (na nb : Bool) (a b : Src)
  | ffma (g : Guard) (d : VDst) (na nb nc : Bool) (a b c : Src)
  | fmnmx (g : Guard) (d : VDst) (max : Bool) (a b : Src)
  | fset (g : Guard) (d : PDst) (cmp : Cmp) (u : Bool) (a b : Src)
  | hadd2 (g : Guard) (d : VDst) (bf na nb : Bool) (a b : Src)
  | hfma2 (g : Guard) (d : VDst) (bf na nb nc : Bool) (a b c : Src)
  | sfn (g : Guard) (d : VDst) (f : Fn) (a : Src)
  | fcvt (g : Guard) (d : VDst) (sat : Bool) (dt : CvtDst) (st : CvtTy) (a : Src)
  | setfmt (g : Guard) (mask : BitVec 4) (a : Src)
  -- thread set: tables and decode
  | cbload (never : Bool) (cb : BitVec 3) (base : Src) (off : BitVec 10)
  | decw (g : Guard) (d : BitVec 8) (latch : BitVec 2) (a : BitVec 6) (e : Src) (mode : DecMode) (k : BitVec 3)
  | brecld (never : Bool) (rec : BitVec 8) (base : Src) (off : BitVec 10)
  -- thread set: lanes
  | shfl (g : Guard) (d : VDst) (mode : ShflMode) (a b : Src)
  | vote (g : Guard) (d : VoteDst) (a : Src)
  | redux (g : Guard) (d : VDst) (op : ReduxOp) (a : Src)
  -- thread set: memory
  | ld (g : Guard) (d : BitVec 8) (o : Order) (sz : Size) (m : MemAddr)
  | ldnc (g : Guard) (d : BitVec 8) (o : Order) (sz : Size) (m : MemAddr)
  | st (g : Guard) (d : BitVec 8) (o : Order) (sz : Size) (m : MemAddr)
  | ldb (g : Guard) (d : BitVec 8) (rec : BitVec 8) (e b : Src) (scale : BitVec 2)
  | stb (g : Guard) (d : BitVec 8) (rec : BitVec 8) (e b : Src) (scale : BitVec 2)
  | atom (g : Guard) (d : BitVec 8) (op : AtomOp) (o : Order) (w64 : Bool) (a b : Src)
  | cas (g : Guard) (d : BitVec 8) (o : Order) (sz : Size) (a b : Src)
  | red (g : Guard) (op : AtomOp) (o : Order) (w64 : Bool) (a b : Src)
  | fence (never : Bool) (o : Order)
  | sealRegion (g : Guard) (d : PDst) (a b : Src)
  | unseal (g : Guard) (d : PDst) (a : Src)
  | mapcommit (g : Guard) (p : BitVec 3) (a : Src)
  | maprelease (g : Guard) (p : BitVec 3) (a : Src)
  | poolget (g : Guard) (d : BitVec 8) (p : BitVec 3) (base : Src) (off : BitVec 10)
  | poolput (g : Guard) (d : BitVec 8) (base : Src) (off : BitVec 10)
  -- thread set: copies and waits
  | cpy (g : Guard) (kind : CpyKind) (a b c : Src)
  | cpbatch (never : Bool) (d : SDst)
  | cpwait (never : Bool) (a : Src) (imm : BitVec 29)
  | tlwait (never : Bool) (a b : Src)
  | bar (never : Bool) (n : BitVec 4)
  | cbar (never : Bool)
  | pbarrive (never : Bool) (base c : Src) (off : BitVec 10)
  | pbwait (never : Bool) (base p : Src) (off : BitVec 10)
  | monwait (g : Guard) (d : BitVec 8) (cmp : MonCmp) (o : Order) (w64 : Bool) (a b : Src)
  | racq (never : Bool) (d : BitVec 6) (sc : Scope) (base : Src) (off : BitVec 10)
  | rcommit (never : Bool) (sc : Scope) (base : Src) (s : BitVec 6) (off : BitVec 10)
  | rpeek (never : Bool) (d : BitVec 6) (sc : Scope) (base : Src) (off : BitVec 10)
  | rrel (never : Bool) (sc : Scope) (base : Src) (s : BitVec 6) (off : BitVec 10)
  -- thread set: control
  | bra (g : BGuard) (offset : BitVec 32)
  | brx (g : BGuard) (a b : Src) (len : BitVec 19)
  | call (g : BGuard) (offset : BitVec 32)
  | ret (g : BGuard)
  | join (never : Bool)
  | regang (g : BGuard) (mask : BitVec 8)
  | yield (g : BGuard)
  | exit (g : BGuard)
  | gate (never : Bool) (idx : BitVec 6)
  | spawn (g : BGuard) (qd : BitVec 3) (b : BitVec 6) (offset : BitVec 19)
  | flare (g : Guard) (p : BitVec 3) (code : Option (BitVec 8)) (a : BitVec 8) (b : Src) (rel trap : Bool)
  | reggive (never : Bool) (n : BitVec 9)
  | regclaim (never : Bool) (n : BitVec 9)
  | replay (g : Guard) (p : BitVec 3) (a : Src)
  | srd (g : Guard) (d : VDst) (sreg : BitVec 8)
  | swr (g : Guard) (sreg : BitVec 8) (a : Src)
  | trap (g : Guard) (imm : BitVec 16)
  | rft (never : Bool)
  -- whole words
  | pairWord (g : Guard) (d : SDst) (op : UniOp) (second : Instr)
  | uniformWord (g : Guard) (d : SDst) (op : UniOp)
  | tileBundle (w : W256)
  -- tile set: K slot
  | kadd (d : BitVec 6) (sub : Bool) (a : BitVec 6) (b : KSrc)
  | kmul (d : BitVec 6) (hi : Bool) (a : BitVec 6) (b : KSrc)
  | klop (d : BitVec 6) (op : KLop) (a : BitVec 6) (b : KSrc)
  | kmovi (d : BitVec 6) (imm : BitVec 28)
  | kcmp (f : BitVec 3) (cmp : Cmp) (u : Bool) (a : BitVec 6) (b : KSrc)
  | kld (sz : KSize) (reg : BitVec 6) (a : BitVec 6) (off : BitVec 16)
  | kst (sz : KSize) (reg : BitVec 6) (a : BitVec 6) (off : BitVec 16)
  | shpw (eng : Eng) (idx : BitVec 2) (field : ShField) (src : ShSrc)
  | setfmtK (a : BitVec 6) (mask : BitVec 4)
  | cbloadK (cb : BitVec 3) (a : BitVec 6)
  -- tile set: D slot
  | dmov (sw : Swap) (td ta : BitVec 5)
  | tfill (sw : Swap) (td : BitVec 5) (ka : BitVec 6)
  | racqTile (sw : Swap) (sc : Scope) (kd : BitVec 4) (ka : BitVec 6)
  | rcommitTile (sw : Swap) (sc : Scope) (ks : BitVec 4) (ka : BitVec 6)
  | rpeekTile (sw : Swap) (sc : Scope) (kd : BitVec 4) (ka : BitVec 6)
  | rrelTile (sw : Swap) (sc : Scope) (ks : BitVec 4) (ka : BitVec 6)
  -- tile set: C slot
  | tcopy (sw : Swap) (td ta : BitVec 5) (cvt : Bool) (remote : Option (BitVec 6))
  | tgath (sw : Swap) (td ta : BitVec 5) (ka : BitVec 6) (cvt : Bool)
  | tscat (sw : Swap) (td ta : BitVec 5) (ka : BitVec 6)
  | coll (sw : Swap) (td ta : BitVec 5) (ka : BitVec 6) (op : CollOp) (red : CollRed) (ty : CollTy)
  -- tile set: V slot
  | tew (sw : Swap) (td ta : BitVec 5) (form : TewForm)
  | teu (sw : Swap) (td ta : BitVec 5) (f : Fn)
  | tcvt (sw : Swap) (td ta : BitVec 5)
  | trans (sw : Swap) (td ta : BitVec 5)
  | rowred (sw : Swap) (td ta : BitVec 5) (op : RowOp)
  | rowstat (sw : Swap) (td ta : BitVec 5)
  | rowscale (sw : Swap) (tz tm tl : BitVec 5)
  -- tile set: M slot
  | mma (sw : Swap) (tz ta : BitVec 5) (l : BitVec 2)
  | mloop (sw : Swap) (tz ta : BitVec 5) (l : BitVec 2) (kc ki : BitVec 6) (mode : LoopMode)
  | mlatch (sw : Swap) (l : BitVec 2) (tb : BitVec 5)
  | mdrain (sw : Swap) (td tz : BitVec 5) (mode : DrainMode)
  | mzero (sw : Swap) (tz : BitVec 5)
  -- tile set: B slot
  | tbr (t : TileTest)
  | tcall (t : TileTest)
  | tret (ka : BitVec 6)
  | gret
  | nextw (ka : BitVec 6)
  | tlwaitTile (kind : TlKind) (ka : BitVec 6)
  | trapTile (imm : BitVec 16)
  -- events: accesses and engines
  | loadDataReturn (op unit : Nat)
  | storeAcknowledgement (op unit : Nat)
  | flareAnswer (p : Packet)
  | answerTimeout (req : Nat)
  | copyCompletion (op : Nat)
  | matrixOperationCompletion (op : Nat)
  | collectiveCompletion (op : Nat)
  | fixedLatencyWriteVisible (frame op part : Nat)
  | kldLanding (frame op : Nat)
  | kmulLanding (frame op : Nat)
  | nextwLanding (frame : Nat)
  | monwaitWake (i : Issuer)
  | monwaitPoll (i : Issuer)
  | ringWaitWake (i : Issuer)
  | gretCompletion (frame : Nat)
  | frameTakesTileContext (core : Nat)
  | tileContextSwitch (core : Nat)
  | sliceRotation (blk gang slice : Nat)
  | pendingGangPromotion (core quad : Nat)
  -- events: front end
  | launchTicketSeen (ctx queue : Nat)
  | frontEndPoll (ctx queue : Nat)
  | recordStart (ctx : Nat) (src : RecSrc)
  | recordFinish (ctx rec : Nat)
  | blockPlacement (die : Nat)
  | gridReservation (ctx grid : Nat)
  | timeSliceExpiry (ctx : Nat)
  | contextAutoResume (ctx : Nat)
  | handlerGangPlacement (ctx : Nat)
  | coalescingWindowExpiry (ctx group : Nat)
  | groupAgePromotion (ctx group : Nat)
  -- events: fabric
  | flareRequest (p : Packet)
  | remoteWrite (p : Packet)
  | remoteReadRequest (p : Packet)
  | readResponse (p : Packet)
  | writeAcknowledgement (p : Packet)
  | collectiveData (p : Packet)
  | collectiveAbort (group : BitVec 12) (p : Packet)
  | collectiveTimeout (ctx group : Nat)
  | linkFailure (port : BitVec 5) (lostDevs : List Nat)
  -- events: host
  | hostLoad (pa n : Nat)
  | hostStore (pa : Nat) (data : List Byte)
  | hostAtomic (pa : Nat) (f : HostAtomicOp)
  -- events: translation
  | faultEntryAssign (ctx : Nat)
  | shootdownRecord
  | shootdownCompletion (rec : Nat)
  | invalidationRingEnable (pa : Nat)
  -- events: context control
  | en (ctx : Nat)
  | stop (ctx : Nat)
  | resume (ctx : Nat)
  | kill (ctx : Nat)
  | clear (ctx : Nat)
  | qgen (ctx : Nat)
  | ggen (ctx : Nat)
  | timelineControlWrite (t : BitVec 12) (w : TlWord) (value : W64)
  | registerWrite (r : HostReg) (value : W64)
  | stopDrainComplete (ctx : Nat)
  -- events: reliability and firmware
  | uncorrectableError (p : ErrPlace)
  | scrubInterval (corrected : Nat)
  | powerLimit (temp : Byte)
  | overtempShutdown (temp : Byte)
  | bridgeFailure
  | coreFence (core : Nat)
  | deviceReset
  | imageCheckRequest
  | powerLoss
  | attestationQuote (nonce : W256)
  | droppedPacket (p : Packet)
  | linkRetransmission (port : BitVec 5)
  | flitPriorityAgeing (port : BitVec 5)
  | limitingEnd (temp : Byte)
  | rootMonitorIntegrityFailure
deriving DecidableEq, Repr

end Sys2Proof
end

