-- ==== Sys2Proof/WellFormed.lean ====
section
/-! DEFINITION. Which terms of Instr an encoding exists for: operand classes, alignments and allowed values of spec/11
R295-R310, spec/12 R316-R321 and the entries of spec/13-18. -/

namespace Sys2Proof

/-- Width in bits of an integer type. -/
def IntTy.width : IntTy → Nat
  | .i32 => 32
  | .n32 => 32
  | .i64 => 64
  | .n64 => 64

/-- Width in bits of a conversion type (spec/12 R317). -/
def CvtTy.width : CvtTy → Nat
  | .i32 | .n32 | .f32 => 32
  | .i64 | .n64 => 64
  | .i16 | .n16 | .f16 | .bf16 => 16
  | .i8 | .n8 | .e4m3 | .e5m2 => 8
  | .e2m1 => 4

/-- Whether a conversion type is a float format. -/
def CvtTy.isFloat : CvtTy → Bool
  | .f32 | .f16 | .bf16 | .e4m3 | .e5m2 | .e2m1 => true
  | _ => false

/-- Width of a type given as 32 or 64 bits. -/
def wSel (w64 : Bool) : Nat := if w64 then 64 else 32

/-- Widths of the destination and of the sources a, b, c of an operation; 0 for a source it does not have, and at
least 32 for one narrower (spec/11 R295, spec/12 R318). -/
def AluOp.widths : AluOp → Nat × Nat × Nat × Nat
  | .iadd t _ _ => (t.width, t.width, t.width, 0)
  | .imul t _ => (t.width, t.width, t.width, 0)
  | .imad t _ => (t.width, t.width, t.width, t.width)
  | .imnmx t _ => (t.width, t.width, t.width, 0)
  | .lop3 w _ => (wSel w, wSel w, wSel w, wSel w)
  | .shf w _ _ => (wSel w, wSel w, 32, 0)
  | .popc w => (32, wSel w, 0, 0)
  | .clz w => (32, wSel w, 0, 0)
  | .brev w => (wSel w, wSel w, 0, 0)
  | .bfx w _ => (wSel w, wSel w, 32, 32)
  | .bfi w => (wSel w, wSel w, wSel w, 32)
  | .mov .b32 => (32, 32, 0, 0)
  | .mov .b64 => (64, 64, 0, 0)
  | .mov .b128 => (128, 128, 0, 0)
  | .idot4 _ _ => (32, 32, 32, 32)
  | .fadd _ _ => (32, 32, 32, 0)
  | .fmul _ _ => (32, 32, 32, 0)
  | .ffma _ _ _ => (32, 32, 32, 32)
  | .fmnmx _ => (32, 32, 32, 0)
  | .hadd2 _ _ _ => (32, 32, 32, 0)
  | .hfma2 _ _ _ _ => (32, 32, 32, 32)
  | .sfn _ => (32, 32, 0, 0)
  | .fcvt _ dt st => (match dt with | .ty t => max 32 t.width | .cb4 _ => 32, max 32 st.width, 0, 0)

/-- Combinations of an operation's modifiers that have an encoding (spec/12 R318, spec/14 R367, spec/17 R464). -/
def AluOp.wf : AluOp → Bool
  | .shf _ right arith => right || !arith
  | .fcvt sat dt st =>
    (match dt with
     | .ty t => t != st && (!sat || !t.isFloat || t == .e5m2)
     | .cb4 _ => st.isFloat && !sat)
  | _ => true

/-- A 64-bit SHF does not write a latch alone (spec/17 R464). -/
def AluOp.latchWf (nwb : Bool) : AluOp → Bool
  | .shf true _ _ => !nwb
  | _ => true

/-- Operations that the first word of a pair may hold (spec/12 R316). -/
def AluOp.pairable : AluOp → Bool
  | .sfn _ => false
  | .fcvt _ _ _ => false
  | _ => true

/-- A source of `w` bits; `uni` allows S registers and constants only (spec/11 R295, R296, R306). Width 0 marks a field
that the operation does not have, which is 0 (V0). -/
def Src.wf (w : Nat) (uni : Bool) : Src → Bool
  | .v n => if w = 0 then n == 0 else !uni && n.toNat % (w / 32) == 0 && decide (n.toNat + w / 32 ≤ 256)
  | .s n => w != 0 && (w != 128 || n.toNat % 2 == 0)
  | .y _ => w == 32 && !uni
  | .imm _ => w != 0

/-- A V destination of `w` bits (spec/11 R295, R298). -/
def VDst.wf (w : Nat) (d : VDst) : Bool :=
  if d.nwb then d.n == 0 else d.n.toNat % (w / 32) == 0 && decide (d.n.toNat + w / 32 ≤ 256)

/-- An S destination of `w` bits. -/
def SDst.wf (w : Nat) (d : SDst) : Bool :=
  if d.nwb then d.n == 0 else w != 128 || d.n.toNat % 2 == 0

/-- V registers first to first + count - 1 exist, and the first is a multiple of `al`. -/
def vregsWf (n : BitVec 8) (al count : Nat) : Bool := n.toNat % al == 0 && decide (n.toNat + count ≤ 256)

/-- Guards that do not differ between lanes (spec/11 R305, spec/13 R342). -/
def BGuard.uniform (g : BGuard) : Bool := g.qg || g.p == 0

/-- V registers of one access of a size. -/
def Size.regs : Size → Nat
  | .b8 | .b16 | .b32 => 1
  | .b64 => 2
  | .b128 => 4

/-- Operand width of an access of a size, at least 32. -/
def Size.opWidth (z : Size) : Nat := 32 * z.regs

/-- The address fields of an access with an offset. -/
def MemAddr.wf (m : MemAddr) : Bool := m.base.wf 64 false && m.index.wf 32 false

/-- Orders that loads take. -/
def Order.loads : Order → Bool
  | .rlx | .acq _ => true
  | _ => false

/-- Orders that stores take. -/
def Order.stores : Order → Bool
  | .rlx | .rel _ => true
  | _ => false

/-- A scope of block or wider, as rings take (spec/16 R431). -/
def Scope.ring : Scope → Bool
  | .slice | .gang => false
  | _ => true

/-- Scalar numbers that can be read (spec/11 R302). -/
def kRead (n : BitVec 6) : Bool := !(decide (54 ≤ n.toNat) && decide (n.toNat ≤ 62))

/-- Scalar numbers that can be written. -/
def kWrite (n : BitVec 6) : Bool := decide (n.toNat ≤ 47) || n == 50 || n == 63

/-- A KR slot's second source. -/
def KSrc.wf : KSrc → Bool
  | .reg n => kRead n
  | .imm _ => true

/-- A register of KLD or KST: a tile register for .desc. -/
def kMemWf (sz : KSize) (reg : BitVec 6) (write : Bool) : Bool :=
  match sz with
  | .desc => decide (reg.toNat < 32)
  | _ => if write then kWrite reg else kRead reg

/-- A test of TBR or TCALL (spec/18 R484). -/
def TileTest.wf (t : TileTest) : Bool :=
  kRead t.reg && !(decide (40 ≤ t.reg.toNat) && decide (t.reg.toNat ≤ 47) && t.bit != 0)

/-- Special registers that exist (spec/11 R301). -/
def sregExists (n : BitVec 8) : Bool :=
  decide (n.toNat ≤ 0x11) || (decide (0x20 ≤ n.toNat) && decide (n.toNat ≤ 0x25)) ||
    (decide (0x30 ≤ n.toNat) && decide (n.toNat ≤ 0x37))

/-- Width of a special register (spec/11 R301). -/
def sregWidth (n : BitVec 8) : Nat :=
  if n.toNat = 0x03 ∨ n.toNat = 0x0D ∨ n.toNat = 0x0F ∨ n.toNat = 0x21 ∨ n.toNat = 0x22 ∨ 0x30 ≤ n.toNat then 64 else 32

/-- Special registers that SWR names: RW, and those whose SWR is ignored (spec/11 R301). -/
def sregSwr (n : BitVec 8) : Bool :=
  n == 0x11 || (decide (0x20 ≤ n.toNat) && decide (n.toNat ≤ 0x25))

/-- A vector operation with its operands. -/
def aluWf (d : VDst) (op : AluOp) (a b c : Src) : Bool :=
  let (wd, wa, wb, wc) := op.widths
  op.wf && op.latchWf d.nwb && d.wf wd && a.wf wa false && b.wf wb false && c.wf wc false

/-- The unused source of an operation. -/
def noSrc : Src := .v 0

/-- The operation of a scalar half or a uniform word; `pair` for the scalar half (spec/11 R306, R533). -/
def UniOp.wf (pair : Bool) (d : SDst) : UniOp → Bool
  | .alu op a b c =>
    let (wd, wa, wb, wc) := op.widths
    (!pair || op.pairable) && op.wf && op.latchWf d.nwb && d.wf wd && a.wf wa true && b.wf wb true && c.wf wc true
  | .movi _ => d.wf 64
  | .lea _ _ a b => !pair && d.wf 64 && a.wf 64 true && b.wf 64 true
  | .redux _ a => !pair && d.wf 32 && a.wf 32 false
  | .ballot a => !pair && d.wf 32 && a.wf 32 false
  | .srd r => !pair && d.wf (sregWidth r) && sregExists r && r != 0

/-- Element width of DECW and the TC it is encoded with. -/
def DecMode.wf : DecMode → Bool
  | .cb _ => true
  | .zb l => l != 3
  | .pc _ => true

/-- Sources of ISET and FSET: uniform when the destination is Q (spec/14 R375). -/
def setWf (d : PDst) (w : Nat) (a b : Src) : Bool := a.wf w d.q && b.wf w d.q

/-- Conditions on one constructor of Instr other than a pair. -/
def Instr.wfOne : Instr → Bool
  | .nop => true
  | .iadd _ d ty sub sat a b => aluWf d (.iadd ty sub sat) a b noSrc
  | .imul _ d ty hi a b => aluWf d (.imul ty hi) a b noSrc
  | .imad _ d ty hi a b c => aluWf d (.imad ty hi) a b c
  | .imnmx _ d ty mx a b => aluWf d (.imnmx ty mx) a b noSrc
  | .iset _ d _ ty a b => setWf d ty.width a b
  | .lop3 _ d w t a b c => aluWf d (.lop3 w t) a b c
  | .shf _ d w r ar a b => aluWf d (.shf w r ar) a b noSrc
  | .popc _ d w a => aluWf d (.popc w) a noSrc noSrc
  | .clz _ d w a => aluWf d (.clz w) a noSrc noSrc
  | .brev _ d w a => aluWf d (.brev w) a noSrc noSrc
  | .bfx _ d w s a b c => aluWf d (.bfx w s) a b c
  | .bfi _ d w a b c => aluWf d (.bfi w) a b c
  | .sel _ d w _ _ a b => d.wf (wSel w) && a.wf (wSel w) false && b.wf (wSel w) false
  | .mov _ d w a => aluWf d (.mov w) a noSrc noSrc
  | .movi _ d _ => d.wf 32
  | .lea _ d _ _ a b => d.wf 64 && a.wf 64 false && b.wf 64 false
  | .idot4 _ d sa sb a b c => aluWf d (.idot4 sa sb) a b c
  | .fadd _ d na nb a b => aluWf d (.fadd na nb) a b noSrc
  | .fmul _ d na nb a b => aluWf d (.fmul na nb) a b noSrc
  | .ffma _ d na nb nc a b c => aluWf d (.ffma na nb nc) a b c
  | .fmnmx _ d mx a b => aluWf d (.fmnmx mx) a b noSrc
  | .fset _ d _ _ a b => setWf d 32 a b
  | .hadd2 _ d bf na nb a b => aluWf d (.hadd2 bf na nb) a b noSrc
  | .hfma2 _ d bf na nb nc a b c => aluWf d (.hfma2 bf na nb nc) a b c
  | .sfn _ d f a => aluWf d (.sfn f) a noSrc noSrc
  | .fcvt _ d sat dt sty a => aluWf d (.fcvt sat dt sty) a noSrc noSrc
  | .setfmt _ _ a => a.wf 32 true
  | .cbload _ _ base _ => base.wf 64 true
  | .decw _ d _ _ e mode k => vregsWf d 1 (k.toNat + 1) && e.wf 32 true && mode.wf
  | .brecld _ _ base _ => base.wf 64 true
  | .shfl _ d _ a b => d.wf 32 && a.wf 32 false && b.wf 32 false
  | .vote _ d a => (match d with | .pred _ _ => true | .ballot v => v.wf 32) && a.wf 32 false
  | .redux _ d _ a => d.wf 32 && a.wf 32 false
  | .ld _ d o sz m => vregsWf d sz.regs sz.regs && o.loads && m.wf
  | .ldnc _ d o sz m => vregsWf d sz.regs sz.regs && o.loads && m.wf
  | .st _ d o sz m => vregsWf d sz.regs sz.regs && o.stores && m.wf
  | .ldb _ _ _ e b _ => e.wf 64 false && b.wf 32 false
  | .stb _ _ _ e b _ => e.wf 64 false && b.wf 32 false
  | .atom _ d op _ w a b => vregsWf d (wSel w / 32) (wSel w / 32) && (op != .fadd || !w) && a.wf 64 false && b.wf (wSel w) false
  | .cas _ d _ sz a b =>
    (sz == .b32 || sz == .b64 || sz == .b128) && vregsWf d sz.regs sz.regs && a.wf 64 false && b.wf sz.opWidth false
  | .red _ op o w a b => op != .exch && (op != .fadd || !w) && o.stores && a.wf 64 false && b.wf (wSel w) false
  | .fence _ o => o != .rlx
  | .sealRegion _ _ a b => a.wf 64 true && b.wf 64 true
  | .unseal _ _ a => a.wf 64 true
  | .mapcommit _ _ a => a.wf 64 false
  | .maprelease _ _ a => a.wf 64 false
  | .poolget _ d _ base _ => vregsWf d 2 2 && base.wf 64 true
  | .poolput _ d base _ => vregsWf d 2 2 && base.wf 64 true
  | .cpy _ k a b c => a.wf 64 false && b.wf 64 false && c.wf (if k == .toLocal then 32 else 64) false
  | .cpbatch _ d => d.wf 32
  | .cpwait _ a _ => a.wf 32 true
  | .tlwait _ a b => a.wf 32 true && b.wf 64 true
  | .bar _ _ => true
  | .cbar _ => true
  | .pbarrive _ base c _ => base.wf 64 true && c.wf 32 true
  | .pbwait _ base p _ => base.wf 64 true && p.wf 32 true
  | .monwait _ d _ o w a b =>
    vregsWf d (wSel w / 32) (wSel w / 32) && o.loads && a.wf 64 false && b.wf (wSel w) false
  | .racq _ _ sc base _ => sc.ring && base.wf 64 true
  | .rcommit _ sc base _ _ => sc.ring && base.wf 64 true
  | .rpeek _ _ sc base _ => sc.ring && base.wf 64 true
  | .rrel _ sc base _ _ => sc.ring && base.wf 64 true
  | .bra _ _ => true
  | .brx _ a b len => a.wf 64 false && b.wf 32 false && len != 0
  | .call g _ => g.uniform
  | .ret g => g.uniform
  | .join _ => true
  | .regang g _ => g.uniform
  | .yield g => g.uniform
  | .exit _ => true
  | .gate _ _ => true
  | .spawn g _ b _ => g.uniform && b.toNat % 8 == 0
  | .flare _ _ code a b _ _ =>
    (match code with | _ => true) && vregsWf a 8 8 &&
      (match b with | .v n => vregsWf n 2 2 | .s _ => true | .y _ => false | .imm _ => false)
  | .reggive _ n => n != 0 && n.toNat % 4 == 0
  | .regclaim _ n => n != 0 && n.toNat % 4 == 0
  | .replay _ _ a => a.wf 32 false
  | .srd _ d r => sregExists r && d.wf (sregWidth r)
  | .swr _ r a => sregSwr r && a.wf 64 true
  | .trap _ _ => true
  | .rft _ => true
  | .pairWord _ _ _ _ => false
  | .uniformWord _ d op => op.wf false d
  | .tileBundle w => bits w 247 240 == 0
  | .kadd d _ a b => kWrite d && kRead a && b.wf
  | .kmul d _ a b => kWrite d && kRead a && b.wf
  | .klop d _ a b => kWrite d && kRead a && b.wf
  | .kmovi d _ => kWrite d
  | .kcmp _ _ _ a b => kRead a && b.wf
  | .kld sz reg a _ => kMemWf sz reg true && kRead a
  | .kst sz reg a _ => kMemWf sz reg false && kRead a
  | .shpw _ _ _ src => (match src with | .reg n => kRead n | .imm _ => true)
  | .setfmtK a _ => kRead a
  | .cbloadK _ a => kRead a
  | .dmov _ _ _ => true
  | .tfill _ _ ka => kRead ka
  | .racqTile _ sc _ ka => sc.ring && kRead ka
  | .rcommitTile _ sc _ ka => sc.ring && kRead ka
  | .rpeekTile _ sc _ ka => sc.ring && kRead ka
  | .rrelTile _ sc _ ka => sc.ring && kRead ka
  | .tcopy _ _ _ _ remote => (match remote with | none => true | some ka => kRead ka)
  | .tgath _ _ _ ka _ => kRead ka
  | .tscat _ _ _ ka => kRead ka
  | .coll _ _ _ ka op rd _ => kRead ka && (op == .allreduce || op == .reduceScatter || rd == .sum)
  | .tew _ _ _ form => (match form with | .scalar _ kb => kRead kb | _ => true)
  | .teu _ _ _ _ => true
  | .tcvt _ _ _ => true
  | .trans _ _ _ => true
  | .rowred _ _ _ _ => true
  | .rowstat _ _ _ => true
  | .rowscale _ _ _ _ => true
  | .mma _ _ _ _ => true
  | .mloop _ _ _ _ kc ki _ => kRead kc && kRead ki
  | .mlatch _ _ _ => true
  | .mdrain _ _ _ _ => true
  | .mzero _ _ => true
  | .tbr t => t.wf
  | .tcall t => t.wf
  | .tret ka => kRead ka
  | .gret => true
  | .nextw ka => kRead ka
  | .tlwaitTile _ ka => kRead ka
  | .trapTile _ => true
  | _ => true

/-- Whether an instruction has FORMAT 0 or 1, a short class and is neither GATE nor TRAP, so that it may be a second word
(spec/11 R306, spec/12 R316). SHFL, REDUX and SFN are among them: log 10. -/
def Instr.secondHalf : Instr → Bool
  | .nop | .iadd .. | .imul .. | .imad .. | .imnmx .. | .iset .. | .lop3 .. | .shf .. | .popc .. | .clz .. | .brev ..
  | .bfx .. | .bfi .. | .sel .. | .mov .. | .movi .. | .lea .. | .idot4 .. | .fadd .. | .fmul .. | .ffma .. | .fmnmx ..
  | .fset .. | .hadd2 .. | .hfma2 .. | .sfn .. | .fcvt .. | .setfmt .. | .decw .. | .shfl .. | .vote .. | .redux ..
  | .sealRegion .. | .unseal .. | .mapcommit .. | .maprelease .. | .cpy .. | .cpbatch .. | .bar .. | .cbar ..
  | .reggive .. | .replay .. => true
  | _ => false

/-- The latch that an instruction's capture names, if it captures (spec/11 R298). -/
def Instr.capture : Instr → Option (BitVec 2)
  | .iadd _ d _ _ _ _ _ => some d.latch
  | .imul _ d _ _ _ _ => some d.latch
  | .imad _ d _ _ _ _ _ => some d.latch
  | .imnmx _ d _ _ _ _ => some d.latch
  | .lop3 _ d _ _ _ _ _ => some d.latch
  | .shf _ d _ _ _ _ _ => some d.latch
  | .popc _ d _ _ => some d.latch
  | .clz _ d _ _ => some d.latch
  | .brev _ d _ _ => some d.latch
  | .bfx _ d _ _ _ _ _ => some d.latch
  | .bfi _ d _ _ _ _ => some d.latch
  | .sel _ d _ _ _ _ _ => some d.latch
  | .mov _ d _ _ => some d.latch
  | .movi _ d _ => some d.latch
  | .lea _ d _ _ _ _ => some d.latch
  | .idot4 _ d _ _ _ _ _ => some d.latch
  | .fadd _ d _ _ _ _ => some d.latch
  | .fmul _ d _ _ _ _ => some d.latch
  | .ffma _ d _ _ _ _ _ _ => some d.latch
  | .fmnmx _ d _ _ _ => some d.latch
  | .hadd2 _ d _ _ _ _ _ => some d.latch
  | .hfma2 _ d _ _ _ _ _ _ _ => some d.latch
  | .sfn _ d _ _ => some d.latch
  | .fcvt _ d _ _ _ _ => some d.latch
  | .decw _ _ l _ _ _ _ => some l
  | .shfl _ d _ _ _ => some d.latch
  | .vote _ (.ballot d) _ => some d.latch
  | .redux _ d _ _ => some d.latch
  | .cpbatch _ d => some d.latch
  | _ => none

/-- The guard of a second word is always true, in the field its constructor has (spec/11 R306). -/
def Instr.plainGuard : Instr → Bool
  | .nop => true
  | .iadd g .. | .imul g .. | .imad g .. | .imnmx g .. | .iset g .. | .lop3 g .. | .shf g .. | .popc g .. | .clz g ..
  | .brev g .. | .bfx g .. | .bfi g .. | .sel g .. | .mov g .. | .movi g .. | .lea g .. | .idot4 g .. | .fadd g ..
  | .fmul g .. | .ffma g .. | .fmnmx g .. | .fset g .. | .hadd2 g .. | .hfma2 g .. | .sfn g .. | .fcvt g .. | .setfmt g ..
  | .decw g .. | .shfl g .. | .vote g .. | .redux g .. | .sealRegion g .. | .unseal g .. | .mapcommit g ..
  | .maprelease g .. | .cpy g .. | .replay g .. => g == ⟨false, 0⟩
  | .cpbatch n _ => !n
  | .bar n _ => !n
  | .cbar n => !n
  | .reggive n _ => !n
  | _ => false

/-- Well-formed instructions. -/
def Instr.wf : Instr → Bool
  | .pairWord _ d op second =>
    op.wf true d && second.secondHalf && second.plainGuard && second.wfOne && second.capture != some d.latch
  | i => i.wfOne

end Sys2Proof
end

