-- ==== Sys2Proof/Decode.lean ====
section
/-! DEFINITION. Decoding of thread words, pairs, uniform words and tile slots (spec/11 R295-R310, spec/12 R315-R321), and
after it the encoder written from the same layouts. -/

namespace Sys2Proof

/-- Why a word or a slot does not decode: ILLEGAL_OPCODE, or ILLEGAL_ENCODING with its %tinfo (spec/11 R300, R309). -/
inductive DecErr where
  | opcode
  | enc (tinfo : Nat)
deriving DecidableEq, Repr

/-! ### Layouts -/

/-- The fields that every thread word shares (spec/11 R305); `low` is bits [37:0]. -/
structure TWord where
  fmt : BitVec 3
  opc : BitVec 8
  gneg : Bool
  gp : BitVec 3
  dst : BitVec 8
  nwb : Bool
  latch : BitVec 2
  low : BitVec 38
deriving DecidableEq, Repr

/-- A Bool as one bit. -/
def bitN (b : Bool) : Nat := if b then 1 else 0

/-- Reading the shared fields of a word. -/
def TWord.split (w : W64) : TWord :=
  { fmt := w.extractLsb' 61 3, opc := w.extractLsb' 53 8, gneg := w.getLsbD 52, gp := w.extractLsb' 49 3,
    dst := w.extractLsb' 41 8, nwb := w.getLsbD 40, latch := w.extractLsb' 38 2, low := w.extractLsb' 0 38 }

/-- Placing the shared fields in a word. -/
def TWord.join (t : TWord) : W64 :=
  BitVec.ofNat 64 (t.fmt.toNat * 2 ^ 61 + t.opc.toNat * 2 ^ 53 + bitN t.gneg * 2 ^ 52 + t.gp.toNat * 2 ^ 49 +
    t.dst.toNat * 2 ^ 41 + bitN t.nwb * 2 ^ 40 + t.latch.toNat * 2 ^ 38 + t.low.toNat)

/-- Bits [37:0] of format R (spec/11 R305). -/
structure LowR where
  a : BitVec 9
  b : BitVec 9
  c : BitVec 9
  fn : BitVec 11
deriving DecidableEq, Repr

/-- Reading format R. -/
def LowR.split (l : BitVec 38) : LowR :=
  { a := l.extractLsb' 29 9, b := l.extractLsb' 20 9, c := l.extractLsb' 11 9, fn := l.extractLsb' 0 11 }

/-- Placing format R. -/
def LowR.join (r : LowR) : BitVec 38 :=
  BitVec.ofNat 38 (r.a.toNat * 2 ^ 29 + r.b.toNat * 2 ^ 20 + r.c.toNat * 2 ^ 11 + r.fn.toNat)

/-- Bits [37:0] of format I. -/
structure LowI where
  a : BitVec 9
  imm : BitVec 29
deriving DecidableEq, Repr

/-- Reading format I. -/
def LowI.split (l : BitVec 38) : LowI := { a := l.extractLsb' 29 9, imm := l.extractLsb' 0 29 }

/-- Placing format I. -/
def LowI.join (r : LowI) : BitVec 38 := BitVec.ofNat 38 (r.a.toNat * 2 ^ 29 + r.imm.toNat)

/-- Bits [37:0] of format M. -/
structure LowM where
  base : BitVec 9
  index : BitVec 9
  scale : BitVec 2
  ord : BitVec 2
  scope : BitVec 3
  size : BitVec 3
  off : BitVec 10
deriving DecidableEq, Repr

/-- Reading format M. -/
def LowM.split (l : BitVec 38) : LowM :=
  { base := l.extractLsb' 29 9, index := l.extractLsb' 20 9, scale := l.extractLsb' 18 2, ord := l.extractLsb' 16 2,
    scope := l.extractLsb' 13 3, size := l.extractLsb' 10 3, off := l.extractLsb' 0 10 }

/-- Placing format M. -/
def LowM.join (r : LowM) : BitVec 38 :=
  BitVec.ofNat 38 (r.base.toNat * 2 ^ 29 + r.index.toNat * 2 ^ 20 + r.scale.toNat * 2 ^ 18 + r.ord.toNat * 2 ^ 16 +
    r.scope.toNat * 2 ^ 13 + r.size.toNat * 2 ^ 10 + r.off.toNat)

/-- Bits [37:0] of format B, operand layout. The target layout reads QG and [31:0] of the same bits. -/
structure LowB where
  qg : Bool
  a : BitVec 9
  b : BitVec 9
  field : BitVec 19
deriving DecidableEq, Repr

/-- Reading format B, operand layout. -/
def LowB.split (l : BitVec 38) : LowB :=
  { qg := l.getLsbD 37, a := l.extractLsb' 28 9, b := l.extractLsb' 19 9, field := l.extractLsb' 0 19 }

/-- Placing format B, operand layout. -/
def LowB.join (r : LowB) : BitVec 38 :=
  BitVec.ofNat 38 (bitN r.qg * 2 ^ 37 + r.a.toNat * 2 ^ 28 + r.b.toNat * 2 ^ 19 + r.field.toNat)

/-- Bits [37:0] of format B, target layout. -/
structure LowT where
  qg : Bool
  zero : BitVec 5
  offset : BitVec 32
deriving DecidableEq, Repr

/-- Reading format B, target layout. -/
def LowT.split (l : BitVec 38) : LowT :=
  { qg := l.getLsbD 37, zero := l.extractLsb' 32 5, offset := l.extractLsb' 0 32 }

/-- Placing format B, target layout. -/
def LowT.join (r : LowT) : BitVec 38 :=
  BitVec.ofNat 38 (bitN r.qg * 2 ^ 37 + r.zero.toNat * 2 ^ 32 + r.offset.toNat)

/-- Bits [37:0] of format X. -/
structure LowX where
  a : BitVec 9
  sreg : BitVec 8
  field : BitVec 21
deriving DecidableEq, Repr

/-- Reading format X. -/
def LowX.split (l : BitVec 38) : LowX :=
  { a := l.extractLsb' 29 9, sreg := l.extractLsb' 21 8, field := l.extractLsb' 0 21 }

/-- Placing format X. -/
def LowX.join (r : LowX) : BitVec 38 :=
  BitVec.ofNat 38 (r.a.toNat * 2 ^ 29 + r.sreg.toNat * 2 ^ 21 + r.field.toNat)

/-! ### Operand fields -/

/-- The condition `bad` records %tinfo `n`. -/
def chk (bad : Bool) (n : Nat) : List Nat := if bad then [n] else []

/-- The source that a 9-bit field selects (spec/11 R296). A reserved value is refused by `srcErr`. -/
def srcOf (f : BitVec 9) : Src :=
  if f.toNat < 0x100 then .v (f.setWidth 8)
  else if f.toNat < 0x140 then .s (f.setWidth 6)
  else if f.toNat < 0x144 then .y (f.setWidth 2)
  else .imm (BitVec.ofNat 7 (f.toNat + 64))

/-- The field that selects a source. -/
def srcField : Src → BitVec 9
  | .v n => BitVec.ofNat 9 n.toNat
  | .s n => BitVec.ofNat 9 (0x100 + n.toNat)
  | .y n => BitVec.ofNat 9 (0x140 + n.toNat)
  | .imm c => BitVec.ofNat 9 (0x180 + (c.toNat + 64) % 128)

/-- Conditions of a source field of `w` bits: 0 for a field not used, 1 and 2 as spec/11 R300 gives. `hold` is the
gang's holding; `uni` allows S registers and constants only, and a V register or a latch records `code`. -/
def srcErrBy (code hold w : Nat) (uni : Bool) (f : BitVec 9) : List Nat :=
  let n := f.toNat
  if w = 0 then chk (n != 0) 0
  else if n < 0x100 then
    chk uni code ++ chk (n % (w / 32) != 0) 1 ++ chk (decide (hold < n + w / 32)) 2
  else if n < 0x140 then chk (w == 128 && n % 2 != 0) 1
  else if n < 0x144 then chk uni code ++ chk (w != 32) 1
  else chk (decide (n < 0x180)) 1

/-- Conditions of a source field outside a pair: a register that is not uniform records 1 (spec/11 R296, R300, R533). -/
def srcErr (hold w : Nat) (uni : Bool) (f : BitVec 9) : List Nat := srcErrBy 1 hold w uni f

/-- The V destination of a word. -/
def vdstOf (t : TWord) : VDst := { n := t.dst, nwb := t.nwb, latch := t.latch }

/-- The S destination of a word. -/
def sdstOf (t : TWord) : SDst := { n := t.dst.setWidth 6, nwb := t.nwb, latch := t.latch }

/-- Conditions of V registers from `n`: aligned to `al`, `count` of them below the holding. -/
def vErr (hold : Nat) (n : BitVec 8) (al count : Nat) : List Nat :=
  chk (n.toNat % al != 0) 1 ++ chk (decide (hold < n.toNat + count)) 2

/-- Conditions of a V destination of `w` bits (spec/11 R297, R298, R300). -/
def vdstErr (hold w : Nat) (t : TWord) : List Nat :=
  if t.nwb then chk (t.dst != 0) 0 else vErr hold t.dst (w / 32) (w / 32)

/-- Conditions of an S destination of `w` bits. -/
def sdstErr (w : Nat) (t : TWord) : List Nat :=
  if t.nwb then chk (t.dst != 0) 0
  else chk (decide (63 < t.dst.toNat)) 1 ++ chk (w == 128 && t.dst.toNat % 2 != 0) 1

/-- Bits [40:38] must be 0 (spec/11 R298, R300). -/
def noCap (t : TWord) : List Nat := chk (t.nwb || t.latch != 0) 4

/-- No destination: DST 0. -/
def noDst (t : TWord) : List Nat := chk (t.dst != 0) 0 ++ noCap t

/-- A predicate destination; `q` allows Q registers (spec/11 R297). -/
def pdstErr (q : Bool) (t : TWord) : List Nat :=
  chk (decide ((if q then 16 else 8) ≤ t.dst.toNat)) 1 ++ noCap t

/-- The predicate destination of a word. -/
def pdstOf (t : TWord) : PDst := { q := t.dst.getLsbD 3, n := t.dst.setWidth 3 }

/-- The per-lane guard of a word. -/
def guardOf (t : TWord) : Guard := { neg := t.gneg, p := t.gp }

/-- A guard that must be 0b0000 or 0b1000 (spec/11 R305). -/
def uniGuard (t : TWord) : List Nat := chk (t.gp != 0) 1

/-! ### Types of format R -/

/-- Integer types (spec/12 R317). -/
def intTyOf (tc : Nat) : IntTy :=
  match tc with
  | 0 => .i32
  | 1 => .n32
  | 2 => .i64
  | _ => .n64

/-- Their type codes. -/
def intTyCode : IntTy → Nat
  | .i32 => 0
  | .n32 => 1
  | .i64 => 2
  | .n64 => 3

/-- Conversion types (spec/12 R317). -/
def cvtTyOf (tc : Nat) : CvtTy :=
  match tc with
  | 0 => .i32
  | 1 => .n32
  | 2 => .i64
  | 3 => .n64
  | 4 => .i16
  | 5 => .n16
  | 6 => .i8
  | 7 => .n8
  | 8 => .f32
  | 9 => .f16
  | 10 => .bf16
  | 11 => .e4m3
  | 12 => .e5m2
  | _ => .e2m1

/-- Their type codes. -/
def cvtTyCode : CvtTy → Nat
  | .i32 => 0
  | .n32 => 1
  | .i64 => 2
  | .n64 => 3
  | .i16 => 4
  | .n16 => 5
  | .i8 => 6
  | .n8 => 7
  | .f32 => 8
  | .f16 => 9
  | .bf16 => 10
  | .e4m3 => 11
  | .e5m2 => 12
  | .e2m1 => 13

/-- The special functions by number (spec/05 R135). -/
def fnOf (n : Nat) : Fn :=
  match n with
  | 0 => .rcp
  | 1 => .rsq
  | 2 => .ex2
  | 3 => .lg2
  | 4 => .sin
  | 5 => .cos
  | _ => .tanh

/-- Their numbers. -/
def fnCode : Fn → Nat
  | .rcp => 0
  | .rsq => 1
  | .ex2 => 2
  | .lg2 => 3
  | .sin => 4
  | .cos => 5
  | .tanh => 6

/-- Comparisons by code (spec/12 R318). -/
def cmpOf (n : Nat) : Cmp :=
  match n with
  | 0 => .eq
  | 1 => .ne
  | 2 => .lt
  | 3 => .le
  | 4 => .gt
  | _ => .ge

/-- Their codes. -/
def cmpCode : Cmp → Nat
  | .eq => 0
  | .ne => 1
  | .lt => 2
  | .le => 3
  | .gt => 4
  | .ge => 5

/-- REDUX operations by code and TC (spec/12 R318). -/
def reduxOf (code tc : Nat) : ReduxOp :=
  match code, tc with
  | 0, _ => .add
  | 1, 0 => .minI
  | 1, _ => .minN
  | 2, 0 => .maxI
  | 2, _ => .maxN
  | 3, _ => .and
  | 4, _ => .or
  | _, _ => .xor

/-- The operation and the addend type of a REDUX encoding: code and TC. REDUX.add of .i32 and of .n32 are one
operation, encoded here with TC 0. -/
def reduxCode : ReduxOp → Nat × Nat
  | .add => (0, 0)
  | .minI => (1, 0)
  | .minN => (1, 1)
  | .maxI => (2, 0)
  | .maxN => (2, 1)
  | .and => (3, 17)
  | .or => (4, 17)
  | .xor => (5, 17)

/-- Conditions on REDUX's function field (spec/16 R440). -/
def reduxErr (fn : BitVec 11) : List Nat :=
  let code := bits fn 7 5
  let tc := bits fn 4 0
  chk (decide (5 < code) || bits fn 10 8 != 0 || (if code < 3 then decide (1 < tc) else tc != 17)) 1

/-- The shared operations of format R: conditions on FN, and the operation (spec/12 R318). Opcodes outside the list
of `aluOpcode` do not reach it. -/
def aluOf (opc : Nat) (fn : BitVec 11) (c : BitVec 9) : List Nat × AluOp :=
  let tc := bits fn 4 0
  let f5 := bit fn 5
  let f6 := bit fn 6
  let f7 := bit fn 7
  let w64 := tc == 18
  let b3264 := chk (tc != 17 && tc != 18) 1
  let it := chk (decide (3 < tc)) 1
  match opc with
  | 0x01 => (it ++ chk (bits fn 10 7 != 0) 1, .iadd (intTyOf tc) f5 f6)
  | 0x02 => (it ++ chk (bits fn 10 6 != 0) 1, .imul (intTyOf tc) f5)
  | 0x03 => (it ++ chk (bits fn 10 6 != 0) 1, .imad (intTyOf tc) f5)
  | 0x04 => (it ++ chk (bits fn 10 6 != 0) 1, .imnmx (intTyOf tc) f5)
  | 0x06 => (chk (bits fn 10 9 != 0) 1, .lop3 (bit fn 8) (fn.setWidth 8))
  | 0x07 => (b3264 ++ chk (bits fn 10 7 != 0) 1 ++ chk (f6 && !f5) 1, .shf w64 f5 f6)
  | 0x08 => (b3264 ++ chk (bits fn 10 5 != 0) 1, .popc w64)
  | 0x09 => (b3264 ++ chk (bits fn 10 5 != 0) 1, .clz w64)
  | 0x0A => (b3264 ++ chk (bits fn 10 5 != 0) 1, .brev w64)
  | 0x0B => (b3264 ++ chk (bits fn 10 6 != 0) 1, .bfx w64 f5)
  | 0x0C => (b3264 ++ chk (bits fn 10 5 != 0) 1, .bfi w64)
  | 0x0E => (chk (decide (tc < 17 ∨ 19 < tc) || bits fn 10 5 != 0) 1,
             .mov (if tc = 17 then .b32 else if tc = 18 then .b64 else .b128))
  | 0x11 => (chk (tc != 0 || bits fn 10 7 != 0) 1, .idot4 f5 f6)
  | 0x20 => (chk (tc != 8 || bits fn 10 7 != 0) 1, .fadd f5 f6)
  | 0x21 => (chk (tc != 8 || bits fn 10 7 != 0) 1, .fmul f5 f6)
  | 0x22 => (chk (tc != 8 || bits fn 10 8 != 0) 1, .ffma f5 f6 f7)
  | 0x23 => (chk (tc != 8 || bits fn 10 6 != 0) 1, .fmnmx f5)
  | 0x25 => (chk ((tc != 9 && tc != 10) || bits fn 10 7 != 0) 1, .hadd2 (tc == 10) f5 f6)
  | 0x26 => (chk ((tc != 9 && tc != 10) || bits fn 10 8 != 0) 1, .hfma2 (tc == 10) f5 f6 f7)
  | 0x27 => (chk (tc != 8 || bits fn 10 8 != 0 || bits fn 7 5 == 7) 1, .sfn (fnOf (bits fn 7 5)))
  | _ =>
    let dtc := bits fn 9 5
    let st := cvtTyOf tc
    let sat := bit fn 10
    if dtc = 14 then
      (chk (decide (13 < tc) || decide (c.toNat < 0x1C0 ∨ 0x1C7 < c.toNat) || !st.isFloat || sat) 1,
       .fcvt sat (.cb4 (c.setWidth 3)) st)
    else
      (chk (decide (13 < tc) || decide (13 < dtc) || dtc == tc || c != 0 || (sat && (cvtTyOf dtc).isFloat && dtc != 12)) 1,
       .fcvt sat (.ty (cvtTyOf dtc)) st)

/-- The opcodes of `aluOf`. -/
def aluOpcode (opc : Nat) : Bool :=
  [0x01, 0x02, 0x03, 0x04, 0x06, 0x07, 0x08, 0x09, 0x0A, 0x0B, 0x0C, 0x0E, 0x11, 0x20, 0x21, 0x22, 0x23, 0x25, 0x26, 0x27,
   0x40].contains opc

/-- The opcode of a shared operation (spec/12 R316). -/
def AluOp.opcode : AluOp → Nat
  | .iadd _ _ _ => 0x01
  | .imul _ _ => 0x02
  | .imad _ _ => 0x03
  | .imnmx _ _ => 0x04
  | .lop3 _ _ => 0x06
  | .shf _ _ _ => 0x07
  | .popc _ => 0x08
  | .clz _ => 0x09
  | .brev _ => 0x0A
  | .bfx _ _ => 0x0B
  | .bfi _ => 0x0C
  | .mov _ => 0x0E
  | .idot4 _ _ => 0x11
  | .fadd _ _ => 0x20
  | .fmul _ _ => 0x21
  | .ffma _ _ _ => 0x22
  | .fmnmx _ => 0x23
  | .hadd2 _ _ _ => 0x25
  | .hfma2 _ _ _ _ => 0x26
  | .sfn _ => 0x27
  | .fcvt _ _ _ => 0x40

/-- TC of a width of 32 or 64 bits. -/
def tcW (w64 : Bool) : Nat := if w64 then 18 else 17

/-- FN of a shared operation (spec/12 R318). -/
def AluOp.fn : AluOp → Nat
  | .iadd t sub sat => intTyCode t + bitN sub * 2 ^ 5 + bitN sat * 2 ^ 6
  | .imul t hi => intTyCode t + bitN hi * 2 ^ 5
  | .imad t hi => intTyCode t + bitN hi * 2 ^ 5
  | .imnmx t mx => intTyCode t + bitN mx * 2 ^ 5
  | .lop3 w t => t.toNat + bitN w * 2 ^ 8
  | .shf w r a => tcW w + bitN r * 2 ^ 5 + bitN a * 2 ^ 6
  | .popc w => tcW w
  | .clz w => tcW w
  | .brev w => tcW w
  | .bfx w s => tcW w + bitN s * 2 ^ 5
  | .bfi w => tcW w
  | .mov w => (match w with | .b32 => 17 | .b64 => 18 | .b128 => 19)
  | .idot4 sa sb => bitN sa * 2 ^ 5 + bitN sb * 2 ^ 6
  | .fadd na nb => 8 + bitN na * 2 ^ 5 + bitN nb * 2 ^ 6
  | .fmul na nb => 8 + bitN na * 2 ^ 5 + bitN nb * 2 ^ 6
  | .ffma na nb nc => 8 + bitN na * 2 ^ 5 + bitN nb * 2 ^ 6 + bitN nc * 2 ^ 7
  | .fmnmx mx => 8 + bitN mx * 2 ^ 5
  | .hadd2 bf na nb => 9 + bitN bf + bitN na * 2 ^ 5 + bitN nb * 2 ^ 6
  | .hfma2 bf na nb nc => 9 + bitN bf + bitN na * 2 ^ 5 + bitN nb * 2 ^ 6 + bitN nc * 2 ^ 7
  | .sfn f => 8 + fnCode f * 2 ^ 5
  | .fcvt sat dt st => cvtTyCode st + (match dt with | .ty t => cvtTyCode t | .cb4 _ => 14) * 2 ^ 5 + bitN sat * 2 ^ 10

/-- The C field of a shared operation: its third source, or FCVT's codebook (spec/14 R365). -/
def AluOp.cField (op : AluOp) (c : Src) : BitVec 9 :=
  match op with
  | .fcvt _ (.cb4 n) _ => BitVec.ofNat 9 (0x1C0 + n.toNat)
  | _ => srcField c

/-- The vector instruction of a shared operation. -/
def AluOp.instr (g : Guard) (d : VDst) (op : AluOp) (a b c : Src) : Instr :=
  match op with
  | .iadd t sub sat => .iadd g d t sub sat a b
  | .imul t hi => .imul g d t hi a b
  | .imad t hi => .imad g d t hi a b c
  | .imnmx t mx => .imnmx g d t mx a b
  | .lop3 w t => .lop3 g d w t a b c
  | .shf w r ar => .shf g d w r ar a b
  | .popc w => .popc g d w a
  | .clz w => .clz g d w a
  | .brev w => .brev g d w a
  | .bfx w s => .bfx g d w s a b c
  | .bfi w => .bfi g d w a b c
  | .mov w => .mov g d w a
  | .idot4 sa sb => .idot4 g d sa sb a b c
  | .fadd na nb => .fadd g d na nb a b
  | .fmul na nb => .fmul g d na nb a b
  | .ffma na nb nc => .ffma g d na nb nc a b c
  | .fmnmx mx => .fmnmx g d mx a b
  | .hadd2 bf na nb => .hadd2 g d bf na nb a b
  | .hfma2 bf na nb nc => .hfma2 g d bf na nb nc a b c
  | .sfn f => .sfn g d f a
  | .fcvt sat dt st => .fcvt g d sat dt st a

/-- Conditions of the operands of a shared operation. FCVT's B and C are judged with FN: a nonzero B records 1
(spec/14 R367). -/
def aluSrcErr (code hold : Nat) (uni : Bool) (op : AluOp) (r : LowR) : List Nat :=
  let (_, wa, wb, wc) := op.widths
  match op with
  | .fcvt _ _ _ => srcErrBy code hold wa uni r.a ++ chk (r.b != 0) 1
  | _ => srcErrBy code hold wa uni r.a ++ srcErrBy code hold wb uni r.b ++ srcErrBy code hold wc uni r.c

/-- A 64-bit SHF takes no lone latch as its destination (spec/17 R464). -/
def aluDstErr (op : AluOp) (t : TWord) : List Nat :=
  match op with
  | .shf true _ _ => chk t.nwb 1
  | _ => []

/-- A source of the shared operation `op`, V0 where it has none. -/
def aluSrc (w : Nat) (f : BitVec 9) : Src := if w = 0 then noSrc else srcOf f

/-! ### Orders, scopes and sizes -/

/-- Scopes by code (spec/11 R305). -/
def scopeOf (n : Nat) : Scope :=
  match n with
  | 0 => .slice
  | 1 => .gang
  | 2 => .block
  | 3 => .clus
  | 4 => .dev
  | _ => .sys

/-- Their codes. -/
def scopeCode : Scope → Nat
  | .slice => 0
  | .gang => 1
  | .block => 2
  | .clus => 3
  | .dev => 4
  | .sys => 5

/-- The order that ORD and SCOPE give (spec/08 R212). -/
def orderOf (ord scope : Nat) : Order :=
  match ord with
  | 0 => .rlx
  | 1 => .acq (scopeOf scope)
  | 2 => .rel (scopeOf scope)
  | _ => .ar (scopeOf scope)

/-- ORD and SCOPE of an order. -/
def orderCode : Order → Nat × Nat
  | .rlx => (0, 0)
  | .acq s => (1, scopeCode s)
  | .rel s => (2, scopeCode s)
  | .ar s => (3, scopeCode s)

/-- Conditions of ORD and SCOPE: SCOPE is 0 when ORD is 0, and 6 and 7 are reserved (spec/11 R305). -/
def orderErr (m : LowM) (ok : Order → Bool) : List Nat :=
  chk (decide (5 < m.scope.toNat) || (m.ord == 0 && m.scope != 0) || !ok (orderOf m.ord.toNat m.scope.toNat)) 1

/-- Sizes by code. -/
def sizeOf' (n : Nat) : Size :=
  match n with
  | 0 => .b8
  | 1 => .b16
  | 2 => .b32
  | 3 => .b64
  | _ => .b128

/-- Their codes. -/
def sizeCode : Size → Nat
  | .b8 => 0
  | .b16 => 1
  | .b32 => 2
  | .b64 => 3
  | .b128 => 4

/-- The address fields of a load or store. -/
def memAddrOf (m : LowM) : MemAddr := { base := srcOf m.base, index := srcOf m.index, scale := m.scale, off := m.off }

/-- Atomic operations by code (spec/12 R319). -/
def atomOf (n : Nat) : AtomOp :=
  match n with
  | 0 => .add
  | 1 => .min
  | 2 => .max
  | 3 => .and
  | 4 => .or
  | 5 => .xor
  | 6 => .exch
  | 7 => .fadd
  | 8 => .umin
  | _ => .umax

/-- Their codes. -/
def atomCode : AtomOp → Nat
  | .add => 0
  | .min => 1
  | .max => 2
  | .and => 3
  | .or => 4
  | .xor => 5
  | .exch => 6
  | .fadd => 7
  | .umin => 8
  | .umax => 9

/-- Conditions of the fields that ATOM and RED share (spec/13 R322, R325). -/
def atomErr (hold : Nat) (m : LowM) : List Nat :=
  let op := bits m.off 3 0
  chk (m.size != 2 && m.size != 3) 1 ++ chk (decide (9 < op) || (op == 7 && m.size != 2)) 1 ++
    chk (bits m.off 9 4 != 0) 0 ++ chk (m.scale != 0) 0 ++ srcErr hold 64 false m.base ++
    srcErr hold (if m.size = 3 then 64 else 32) false m.index

/-- MONWAIT comparisons by code (spec/12 R319). -/
def monCmpOf (n : Nat) : MonCmp :=
  match n with
  | 0 => .eq
  | 1 => .ne
  | 2 => .lt
  | 3 => .ge
  | 4 => .ltu
  | _ => .geu

/-- Their codes. -/
def monCmpCode : MonCmp → Nat
  | .eq => 0
  | .ne => 1
  | .lt => 2
  | .ge => 3
  | .ltu => 4
  | .geu => 5

/-- SCALE, ORD and SCOPE 0, each recording 1, as the entries of uniform accesses give it (spec/13 R344, spec/16 R426). -/
def plainM (m : LowM) : List Nat := chk (m.scale != 0 || m.ord != 0 || m.scope != 0) 1

/-- INDEX must be the constant 0. -/
def noIndex (m : LowM) : List Nat := chk (m.index.toNat != 0x1C0) 1

/-! ### The opcode map -/

/-- Format of an assigned thread opcode (spec/12 R316). -/
def opFormat (opc : Nat) : Option Nat :=
  if opc ≤ 0x0E then some 0
  else if opc = 0x0F then some 1
  else if opc ≤ 0x11 then some 0
  else if opc < 0x20 then none
  else if opc ≤ 0x27 then some 0
  else if opc < 0x40 then none
  else if opc = 0x42 ∨ opc = 0x44 then some 2
  else if opc ≤ 0x43 then some 0
  else if opc < 0x50 then none
  else if opc ≤ 0x52 then some 0
  else if opc < 0x60 then none
  else if opc ≤ 0x68 then some 2
  else if opc ≤ 0x6C then some 0
  else if opc ≤ 0x6E then some 2
  else if opc < 0x80 then none
  else if opc = 0x82 then some 1
  else if opc ≤ 0x83 then some 0
  else if opc < 0x90 then none
  else if opc ≤ 0x91 then some 1
  else if opc ≤ 0x98 then some 2
  else if opc < 0xA0 then none
  else if opc ≤ 0xA7 then some 3
  else if opc < 0xB0 then none
  else if opc = 0xB1 then some 3
  else if opc = 0xB2 ∨ opc = 0xB5 then some 0
  else if opc ≤ 0xB4 then some 1
  else if opc < 0xD0 then none
  else if opc = 0xD2 then some 1
  else if opc ≤ 0xD3 then some 4
  else none

/-- Opcodes that the first word of a pair may hold (spec/12 R316). -/
def pairFirst (opc : Nat) : Bool := (aluOpcode opc && opc != 0x27 && opc != 0x40) || opc == 0x0F

/-- Opcodes that FORMAT 6 accepts (spec/11 R533). -/
def uniformOpcode (opc : Nat) : Bool :=
  aluOpcode opc || opc == 0x0F || opc == 0x10 || opc == 0x51 || opc == 0x52 || opc == 0xD0

/-! ### Words of the opcode's own format -/

/-- Words of format R. -/
def decR (hold : Nat) (t : TWord) : List Nat × Instr :=
  let r := LowR.split t.low
  let opc := t.opc.toNat
  let g := guardOf t
  let d := vdstOf t
  let tc := bits r.fn 4 0
  let a := srcOf r.a
  let b := srcOf r.b
  let c := srcOf r.c
  let w := wSel (tc == 18)
  let zeroFn := chk (r.fn != 0) 1
  if aluOpcode opc then
    let (errs, op) := aluOf opc r.fn r.c
    let (wd, wa, wb, wc) := op.widths
    (errs ++ aluDstErr op t ++ vdstErr hold wd t ++ aluSrcErr 1 hold false op r, op.instr g d (aluSrc wa r.a) (aluSrc wb r.b) (aluSrc wc r.c))
  else match opc with
  | 0x00 => (chk (t.join != 0) 0, .nop)
  | 0x05 =>
    let ty := intTyOf tc
    let q := t.dst.getLsbD 3
    (chk (decide (3 < tc) || decide (5 < bits r.fn 7 5) || bits r.fn 10 8 != 0) 1 ++ pdstErr true t ++
      srcErr hold ty.width q r.a ++ srcErr hold ty.width q r.b ++ chk (r.c != 0) 0,
     .iset g (pdstOf t) (cmpOf (bits r.fn 7 5)) ty a b)
  | 0x0D =>
    (chk ((tc != 17 && tc != 18) || bits r.fn 10 9 != 0) 1 ++ vdstErr hold w t ++ srcErr hold w false r.a ++
      srcErr hold w false r.b ++ chk (r.c != 0) 0,
     .sel g d (tc == 18) (r.fn.extractLsb' 5 3) (bit r.fn 8) a b)
  | 0x10 =>
    (chk (tc != 18 || bits r.fn 10 8 != 0) 1 ++ vdstErr hold 64 t ++ srcErr hold 64 false r.a ++ srcErr hold 64 false r.b ++
      chk (r.c != 0) 0,
     .lea g d (bit r.fn 5) (r.fn.extractLsb' 6 2) a b)
  | 0x24 =>
    let q := t.dst.getLsbD 3
    (chk (tc != 8 || decide (5 < bits r.fn 7 5) || bits r.fn 10 9 != 0) 1 ++ pdstErr true t ++ srcErr hold 32 q r.a ++
      srcErr hold 32 q r.b ++ chk (r.c != 0) 0,
     .fset g (pdstOf t) (cmpOf (bits r.fn 7 5)) (bit r.fn 8) a b)
  | 0x41 =>
    (chk (tc != 0 || bits r.fn 10 9 != 0) 1 ++ noDst t ++ srcErr hold 32 true r.a ++ chk (r.b != 0) 0 ++ chk (r.c != 0) 0,
     .setfmt g (r.fn.extractLsb' 5 4) a)
  | 0x43 =>
    let mode := bits r.fn 6 5
    let k := r.fn.extractLsb' 8 3
    let dm : DecMode := match mode with
      | 0 => .cb (r.c.setWidth 3)
      | 1 => .zb (BitVec.ofNat 2 (tc - 15))
      | _ => .pc (r.c.setWidth 6)
    (chk (mode == 3 || (mode == 0 && tc != 10) || (mode == 1 && decide (tc < 15 ∨ 17 < tc)) || (mode == 2 && tc != 16) ||
        bit r.fn 7 || t.nwb) 1 ++
      vErr hold t.dst 1 (k.toNat + 1) ++ chk (decide (r.a.toNat < 0x100 ∨ 0x13F < r.a.toNat)) 1 ++ srcErr hold 32 true r.b ++
      chk (match mode with
        | 0 => decide (r.c.toNat < 0x1C0 ∨ 0x1C7 < r.c.toNat)
        | 1 => r.c.toNat != 0x1C0
        | _ => decide (r.c.toNat < 0x100 ∨ 0x13F < r.c.toNat)) 1,
     .decw g t.dst t.latch (r.a.setWidth 6) b dm k)
  | 0x50 =>
    (chk (tc != 17 || bits r.fn 10 7 != 0) 1 ++ vdstErr hold 32 t ++ srcErr hold 32 false r.a ++ srcErr hold 32 false r.b ++
      chk (r.c != 0) 0,
     .shfl g d (match bits r.fn 6 5 with | 0 => .idx | 1 => .up | 2 => .down | _ => .xor) a b)
  | 0x51 =>
    let mode := bits r.fn 6 5
    (chk (tc != 0 || bits r.fn 10 7 != 0) 1 ++ (if mode = 3 then vdstErr hold 32 t else pdstErr true t) ++
      srcErr hold 32 false r.a ++ chk (r.b != 0) 0 ++ chk (r.c != 0) 0,
     .vote g (match mode with
       | 0 => .pred .all (pdstOf t)
       | 1 => .pred .any (pdstOf t)
       | 2 => .pred .uni (pdstOf t)
       | _ => .ballot d) a)
  | 0x52 =>
    (reduxErr r.fn ++ vdstErr hold 32 t ++ srcErr hold 32 false r.a ++ chk (r.b != 0) 0 ++ chk (r.c != 0) 0,
     .redux g d (reduxOf (bits r.fn 7 5) tc) a)
  | 0x69 =>
    (zeroFn ++ pdstErr true t ++ srcErr hold 64 true r.a ++ srcErr hold 64 true r.b ++ chk (r.c != 0) 0,
     .sealRegion g (pdstOf t) a b)
  | 0x6A =>
    (zeroFn ++ pdstErr true t ++ srcErr hold 64 true r.a ++ chk (r.b != 0) 0 ++ chk (r.c != 0) 0, .unseal g (pdstOf t) a)
  | 0x6B =>
    (zeroFn ++ pdstErr false t ++ srcErr hold 64 false r.a ++ chk (r.b != 0) 0 ++ chk (r.c != 0) 0,
     .mapcommit g (t.dst.setWidth 3) a)
  | 0x6C =>
    (zeroFn ++ pdstErr false t ++ srcErr hold 64 false r.a ++ chk (r.b != 0) 0 ++ chk (r.c != 0) 0,
     .maprelease g (t.dst.setWidth 3) a)
  | 0x80 =>
    let mode := bits r.fn 6 5
    (chk (mode == 3 || tc != 0 || bits r.fn 10 7 != 0) 1 ++ noDst t ++ srcErr hold 64 false r.a ++ srcErr hold 64 false r.b ++
      srcErr hold (if mode = 0 then 32 else 64) false r.c,
     .cpy g (match mode with | 0 => .toLocal | 1 => .toRemote | _ => .fromRemote) a b c)
  | 0x81 =>
    (zeroFn ++ uniGuard t ++ sdstErr 32 t ++ chk (r.a != 0) 0 ++ chk (r.b != 0) 0 ++ chk (r.c != 0) 0,
     .cpbatch t.gneg (sdstOf t))
  | 0x83 =>
    (zeroFn ++ uniGuard t ++ noDst t ++ srcErr hold 32 true r.a ++ srcErr hold 64 true r.b ++ chk (r.c != 0) 0,
     .tlwait t.gneg a b)
  | 0xB2 =>
    (chk (tc != 0 || bits r.fn 10 7 != 0) 1 ++ pdstErr false t ++
      (if r.a.toNat < 0x100 then vErr hold (r.a.setWidth 8) 8 8 else [1]) ++
      (if r.b.toNat < 0x140 then srcErr hold 64 false r.b else [1]) ++
      (if r.c.toNat < 0x100 then srcErr hold 32 false r.c else chk (r.c.toNat != 0x1C0) 1),
     .flare g (t.dst.setWidth 3) (if r.c.toNat < 0x100 then some (r.c.setWidth 8) else none) (r.a.setWidth 8) b
       (bit r.fn 5) (bit r.fn 6))
  | _ =>
    (zeroFn ++ pdstErr false t ++ srcErr hold 32 false r.a ++ chk (r.b != 0) 0 ++ chk (r.c != 0) 0,
     .replay g (t.dst.setWidth 3) a)

/-- Words of format I. -/
def decI (hold : Nat) (t : TWord) : List Nat × Instr :=
  let r := LowI.split t.low
  let noA := chk (r.a != 0) 0
  match t.opc.toNat with
  | 0x0F => (vdstErr hold 32 t ++ noA, .movi (guardOf t) (vdstOf t) r.imm)
  | 0x82 => (uniGuard t ++ noDst t ++ srcErr hold 32 true r.a, .cpwait t.gneg (srcOf r.a) r.imm)
  | 0x90 => (uniGuard t ++ noDst t ++ noA ++ chk (bits r.imm 28 4 != 0) 0, .bar t.gneg (r.imm.setWidth 4))
  | 0x91 => (uniGuard t ++ noDst t ++ noA ++ chk (r.imm != 0) 0, .cbar t.gneg)
  | 0xB0 => (uniGuard t ++ noDst t ++ noA ++ chk (bits r.imm 28 6 != 0) 0, .gate t.gneg (r.imm.setWidth 6))
  | 0xB3 =>
    let n := bits r.imm 8 0
    (uniGuard t ++ noDst t ++ noA ++ chk (bits r.imm 28 9 != 0) 0 ++ chk (n == 0 || n % 4 != 0) 1,
     .reggive t.gneg (r.imm.setWidth 9))
  | 0xB4 =>
    let n := bits r.imm 8 0
    (uniGuard t ++ noDst t ++ noA ++ chk (bits r.imm 28 9 != 0) 0 ++ chk (n == 0 || n % 4 != 0) 1,
     .regclaim t.gneg (r.imm.setWidth 9))
  | _ => (noDst t ++ noA ++ chk (bits r.imm 28 16 != 0) 0, .trap (guardOf t) (r.imm.setWidth 16))

/-- Words of format M. -/
def decM (hold : Nat) (t : TWord) : List Nat × Instr :=
  let m := LowM.split t.low
  let g := guardOf t
  let sz := sizeOf' m.size.toNat
  let o := orderOf m.ord.toNat m.scope.toNat
  let base := srcOf m.base
  let index := srcOf m.index
  let dstSz := vErr hold t.dst sz.regs sz.regs ++ noCap t
  let addr := chk (decide (4 < m.size.toNat)) 1 ++ srcErr hold 64 false m.base ++ srcErr hold 32 false m.index
  let uni := uniGuard t ++ plainM m ++ srcErr hold 64 true m.base
  let sz3 := chk (m.size != 3) 1
  let elem := plainM { m with scale := 0 } ++ chk (m.size != 2) 1 ++ chk (bits m.off 9 8 != 0) 1 ++
    srcErr hold 64 false m.base ++ srcErr hold 32 false m.index ++ vErr hold t.dst 1 1 ++ noCap t
  let ring := uniGuard t ++ chk (m.scale != 0) 1 ++ sz3 ++ chk (decide (m.scope.toNat < 2 ∨ 5 < m.scope.toNat)) 1 ++
    srcErr hold 64 true m.base ++ noCap t
  let ringS := chk (decide (m.index.toNat < 0x100 ∨ 0x13F < m.index.toNat)) 1
  let sc := scopeOf m.scope.toNat
  match t.opc.toNat with
  | 0x42 =>
    (uni ++ chk (decide (7 < t.dst.toNat)) 1 ++ noCap t ++ noIndex m ++ chk (m.size != 4) 1,
     .cbload t.gneg (t.dst.setWidth 3) base m.off)
  | 0x44 => (uni ++ noCap t ++ noIndex m ++ sz3, .brecld t.gneg t.dst base m.off)
  | 0x60 => (dstSz ++ addr ++ orderErr m Order.loads, .ld g t.dst o sz (memAddrOf m))
  | 0x61 => (dstSz ++ addr ++ orderErr m Order.stores, .st g t.dst o sz (memAddrOf m))
  | 0x62 => (dstSz ++ addr ++ orderErr m Order.loads, .ldnc g t.dst o sz (memAddrOf m))
  | 0x63 => (elem, .ldb g t.dst (m.off.setWidth 8) base index m.scale)
  | 0x64 => (elem, .stb g t.dst (m.off.setWidth 8) base index m.scale)
  | 0x65 =>
    (atomErr hold m ++ orderErr m (fun _ => true) ++ dstSz, .atom g t.dst (atomOf (bits m.off 3 0)) o (m.size == 3) base index)
  | 0x66 =>
    (chk (m.size != 2 && m.size != 3 && m.size != 4) 1 ++ chk (m.off != 0) 0 ++ chk (m.scale != 0) 0 ++
      srcErr hold 64 false m.base ++ srcErr hold sz.opWidth false m.index ++ orderErr m (fun _ => true) ++ dstSz,
     .cas g t.dst o sz base index)
  | 0x67 =>
    (atomErr hold m ++ chk (bits m.off 3 0 == 6) 1 ++ orderErr m Order.stores ++ noDst t,
     .red g (atomOf (bits m.off 3 0)) o (m.size == 3) base index)
  | 0x68 =>
    (uniGuard t ++ noCap t ++
      chk (t.dst != 0 || m.base != 0 || m.index != 0 || m.scale != 0 || m.size != 0 || m.off != 0 || m.ord == 0 ||
        decide (5 < m.scope.toNat)) 1,
     .fence t.gneg o)
  | 0x6D =>
    (plainM m ++ srcErr hold 64 true m.base ++ sz3 ++ vErr hold t.dst 2 2 ++ noCap t ++
      chk (decide (m.index.toNat < 0x1C0 ∨ 0x1C7 < m.index.toNat)) 1,
     .poolget g t.dst (m.index.setWidth 3) base m.off)
  | 0x6E =>
    (plainM m ++ srcErr hold 64 true m.base ++ sz3 ++ vErr hold t.dst 2 2 ++ noCap t ++ noIndex m,
     .poolput g t.dst base m.off)
  | 0x92 => (uni ++ noDst t ++ sz3 ++ srcErr hold 32 true m.index, .pbarrive t.gneg base index m.off)
  | 0x93 => (uni ++ noDst t ++ sz3 ++ srcErr hold 32 true m.index, .pbwait t.gneg base index m.off)
  | 0x94 =>
    (chk (m.size != 2 && m.size != 3) 1 ++ chk (decide (5 < bits m.off 2 0)) 1 ++ chk (bits m.off 9 3 != 0) 0 ++
      chk (m.scale != 0) 1 ++ orderErr m Order.loads ++ srcErr hold 64 false m.base ++
      srcErr hold (if m.size = 3 then 64 else 32) false m.index ++ dstSz,
     .monwait g t.dst (monCmpOf (bits m.off 2 0)) o (m.size == 3) base index)
  | 0x95 =>
    (ring ++ chk (m.ord != 1) 1 ++ noIndex m ++ chk (decide (63 < t.dst.toNat)) 1,
     .racq t.gneg (t.dst.setWidth 6) sc base m.off)
  | 0x96 => (ring ++ chk (m.ord != 2) 1 ++ ringS ++ chk (t.dst != 0) 0, .rcommit t.gneg sc base (m.index.setWidth 6) m.off)
  | 0x97 =>
    (ring ++ chk (m.ord != 1) 1 ++ noIndex m ++ chk (decide (63 < t.dst.toNat)) 1,
     .rpeek t.gneg (t.dst.setWidth 6) sc base m.off)
  | _ => (ring ++ chk (m.ord != 2) 1 ++ ringS ++ chk (t.dst != 0) 0, .rrel t.gneg sc base (m.index.setWidth 6) m.off)

/-- Words of format B. -/
def decB (hold : Nat) (t : TWord) : List Nat × Instr :=
  let r := LowB.split t.low
  let x := LowT.split t.low
  let g : BGuard := { qg := r.qg, neg := t.gneg, p := t.gp }
  let uq := chk (!r.qg && t.gp != 0) 1
  let bare := noDst t ++ chk (r.a != 0) 0 ++ chk (r.b != 0) 0 ++ chk (r.field != 0) 0
  match t.opc.toNat with
  | 0xA0 => (noDst t ++ chk (x.zero != 0) 0, .bra g x.offset)
  | 0xA1 =>
    (noDst t ++ srcErr hold 64 false r.a ++ srcErr hold 32 false r.b ++ chk (r.field == 0) 1, .brx g (srcOf r.a) (srcOf r.b) r.field)
  | 0xA2 => (uq ++ noDst t ++ chk (x.zero != 0) 0, .call g x.offset)
  | 0xA3 => (uq ++ bare, .ret g)
  | 0xA4 => (uniGuard t ++ bare ++ chk r.qg 0, .join t.gneg)
  | 0xA5 =>
    (uq ++ noDst t ++ chk (r.a != 0) 0 ++ chk (r.b != 0) 0 ++ chk (bits r.field 18 8 != 0) 0, .regang g (r.field.setWidth 8))
  | 0xA6 => (uq ++ bare, .yield g)
  | 0xA7 => (bare, .exit g)
  | _ =>
    (uq ++ chk (bits t.dst 7 3 != 1) 1 ++ noCap t ++
      chk (decide (r.a.toNat < 0x100 ∨ 0x138 < r.a.toNat) || r.a.toNat % 8 != 0) 1 ++ chk (r.b != 0) 0,
     .spawn g (t.dst.setWidth 3) (r.a.setWidth 6) r.field)

/-- Words of format X. -/
def decX (hold : Nat) (t : TWord) : List Nat × Instr :=
  let r := LowX.split t.low
  match t.opc.toNat with
  | 0xD0 =>
    (chk (!sregExists r.sreg) 1 ++ vdstErr hold (sregWidth r.sreg) t ++ chk (r.a != 0) 0 ++ chk (r.field != 0) 0,
     .srd (guardOf t) (vdstOf t) r.sreg)
  | 0xD1 =>
    (chk (!sregExists r.sreg) 1 ++ chk (sregExists r.sreg && !sregSwr r.sreg) 6 ++ noDst t ++ srcErr hold 64 true r.a ++
      chk (r.field != 0) 0,
     .swr (guardOf t) r.sreg (srcOf r.a))
  | _ =>
    (uniGuard t ++ noDst t ++ chk (r.a != 0) 0 ++ chk (r.sreg != 0) 0 ++ chk (r.field != 0) 0, .rft t.gneg)

/-- Words of the opcode's own format. -/
def decOwn (hold fmt : Nat) (t : TWord) : List Nat × Instr :=
  match fmt with
  | 0 => decR hold t
  | 1 => decI hold t
  | 2 => decM hold t
  | 3 => decB hold t
  | _ => decX hold t

/-- The operation of a scalar half or of a uniform word: conditions and the operation. A V register or a latch as a source that
must be uniform records `code`: 3 in a scalar half (spec/11 R306), 1 in a uniform word (R533). -/
def decUni (code hold : Nat) (t : TWord) : List Nat × UniOp :=
  let r := LowR.split t.low
  let opc := t.opc.toNat
  if aluOpcode opc then
    let (errs, op) := aluOf opc r.fn r.c
    let (wd, wa, wb, wc) := op.widths
    (errs ++ aluDstErr op t ++ sdstErr wd t ++ aluSrcErr code hold true op r, .alu op (aluSrc wa r.a) (aluSrc wb r.b) (aluSrc wc r.c))
  else match opc with
  | 0x0F =>
    let i := LowI.split t.low
    (sdstErr 64 t ++ chk (i.a != 0) 0, .movi i.imm)
  | 0x10 =>
    (chk (bits r.fn 4 0 != 18 || bits r.fn 10 8 != 0) 1 ++ sdstErr 64 t ++ srcErr hold 64 true r.a ++ srcErr hold 64 true r.b ++
      chk (r.c != 0) 0,
     .lea (bit r.fn 5) (r.fn.extractLsb' 6 2) (srcOf r.a) (srcOf r.b))
  | 0x51 =>
    (chk (bits r.fn 4 0 != 0 || bits r.fn 10 7 != 0 || bits r.fn 6 5 != 3) 1 ++ sdstErr 32 t ++ srcErr hold 32 false r.a ++
      chk (r.b != 0) 0 ++ chk (r.c != 0) 0,
     .ballot (srcOf r.a))
  | 0x52 =>
    (reduxErr r.fn ++ sdstErr 32 t ++ srcErr hold 32 false r.a ++ chk (r.b != 0) 0 ++ chk (r.c != 0) 0,
     .redux (reduxOf (bits r.fn 7 5) (bits r.fn 4 0)) (srcOf r.a))
  | _ =>
    let x := LowX.split t.low
    (chk (!sregExists x.sreg || x.sreg == 0) 1 ++ sdstErr (sregWidth x.sreg) t ++ chk (x.a != 0) 0 ++ chk (x.field != 0) 0,
     .srd x.sreg)

/-! ### The decoder -/

/-- The answer from the conditions met: the lowest %tinfo among them (spec/11 R300). -/
def decided (errs : List Nat) (i : Instr) : Except DecErr Instr :=
  match errs with
  | [] => .ok i
  | e :: es => .error (.enc (es.foldl min e))

/-- A single word, in the order of spec/12 R315. A first word of a pair is refused here: it stands where no pair can
(spec/11 R306). -/
def decodeWord (hold : Nat) (w : W64) : Except DecErr Instr :=
  let t := TWord.split w
  match opFormat t.opc.toNat with
  | none => .error .opcode
  | some f =>
    if t.fmt = 7 then .error (.enc 0)
    else if t.fmt = 5 then .error (.enc 3)
    else if t.fmt = 6 then
      if uniformOpcode t.opc.toNat then
        let (errs, op) := decUni 1 hold t
        decided errs (.uniformWord (guardOf t) (sdstOf t) op)
      else .error (.enc 5)
    else if t.fmt.toNat ≠ f then .error (.enc 5)
    else
      let (errs, i) := decOwn hold f t
      decided errs i

/-- A pair: a format-5 word and the word after it (spec/11 R306). The checks of the first word's opcode come before the
second word's format, and those before the fields of both (log 10). -/
def decodePair (hold : Nat) (w w2 : W64) : Except DecErr Instr :=
  let t := TWord.split w
  let u := TWord.split w2
  match opFormat t.opc.toNat, opFormat u.opc.toNat with
  | some _, some f =>
    if !pairFirst t.opc.toNat then .error (.enc 3)
    else if u.fmt = 7 then .error (.enc 0)
    else if u.fmt = 5 ∨ u.fmt = 6 then .error (.enc 3)
    else if u.fmt.toNat ≠ f then .error (.enc 5)
    else if 1 < f then .error (.enc 3)
    else
      let (e1, op) := decUni 3 hold t
      let (e2, i) := decOwn hold f u
      decided (e1 ++ e2 ++ chk (!i.secondHalf || u.gneg || u.gp != 0 || i.capture == some t.latch) 3)
        (.pairWord (guardOf t) (sdstOf t) op i)
  | _, _ => .error .opcode

/-- The word at a program counter; `next` is the word after it, read for a pair. -/
def decodeThread (hold : Nat) (aligned16 : Bool) (w next : W64) : Except DecErr Instr :=
  if (TWord.split w).fmt = 5 ∧ aligned16 then decodePair hold w next else decodeWord hold w

/-! ### Tile slots -/

/-- The six slots of a bundle, in commit order (spec/04 R95, R97). -/
inductive Slot where
  | k | d | c | v | m | b
deriving DecidableEq, Repr

/-- Index of a slot (spec/04 R106). -/
def Slot.index : Slot → Nat
  | .k => 0
  | .d => 1
  | .c => 2
  | .v => 3
  | .m => 4
  | .b => 5

/-- Width of a slot (spec/04 R95). -/
def Slot.width : Slot → Nat
  | .k => 40
  | .d => 32
  | .c => 32
  | .v => 48
  | .m => 48
  | .b => 40

/-- Lowest bundle bit of a slot (spec/11 R308). -/
def Slot.low : Slot → Nat
  | .k => 200
  | .d => 168
  | .c => 136
  | .v => 88
  | .m => 40
  | .b => 0

/-- The slots in commit order. -/
def Slot.all : List Slot := [.k, .d, .c, .v, .m, .b]

/-- The bits of a slot. -/
def slotBits (w : W256) (x : Slot) : BitVec 48 :=
  BitVec.ofNat 48 (bits w (x.low + x.width - 1) x.low)

/-- Whether a slot is present. -/
def slotPresent (w : W256) (x : Slot) : Bool := bit w (255 - x.index)

/-- SAFE of a bundle. -/
def bundleSafe (w : W256) : Bool := bit w 249

/-- STOP of a bundle. -/
def bundleStop (w : W256) : Bool := bit w 248

/-- A reserved scalar number as a source. -/
def kReadErr (n : BitVec 6) : List Nat := chk (!kRead n) 1

/-- A scalar number as a destination: reserved, or read-only (spec/11 R302). -/
def kWriteErr (n : BitVec 6) : List Nat := chk (!kRead n) 1 ++ chk (kRead n && !kWrite n) 6

/-- A 6-bit field of a slot. -/
def k6 (x : BitVec 48) (lo : Nat) : BitVec 6 := x.extractLsb' lo 6

/-- A tile register field. -/
def t5 (x : BitVec 48) (lo : Nat) : BitVec 5 := x.extractLsb' lo 5

/-- Second source and its conditions in layout KR. -/
def krSrc (x : BitVec 48) : List Nat × KSrc :=
  if bit x 21 then ([], .imm (x.extractLsb' 5 16))
  else (kReadErr (k6 x 15) ++ chk (bits x 14 5 != 0) 0, .reg (k6 x 15))

/-- KLOP operations by code (spec/12 R321). -/
def klopOf (n : Nat) : KLop :=
  match n with
  | 0 => .and
  | 1 => .or
  | 2 => .xor
  | 3 => .andn
  | 4 => .shl
  | 5 => .shr
  | _ => .sar

/-- Their codes. -/
def klopCode : KLop → Nat
  | .and => 0
  | .or => 1
  | .xor => 2
  | .andn => 3
  | .shl => 4
  | .shr => 5
  | .sar => 6

/-- KLD and KST sizes by code. -/
def ksizeOf (n : Nat) : KSize :=
  match n with
  | 0 => .b8
  | 1 => .b16
  | 2 => .b32
  | 3 => .b64
  | _ => .desc

/-- Their codes. -/
def ksizeCode : KSize → Nat
  | .b8 => 0
  | .b16 => 1
  | .b32 => 2
  | .b64 => 3
  | .desc => 4

/-- Conditions of layout KM (spec/15 R392). -/
def kmErr (x : BitVec 48) (write : Bool) : List Nat :=
  let sz := bits x 5 3
  chk (decide (4 < sz)) 1 ++ chk (bits x 2 0 != 0) 0 ++ kReadErr (k6 x 22) ++
    (if sz = 4 then chk (bit x 33) 0 else if write then kWriteErr (k6 x 28) else kReadErr (k6 x 28))

/-- Engines by code. -/
def engOf (n : Nat) : Eng :=
  match n with
  | 0 => .d
  | 1 => .c
  | 2 => .v
  | _ => .m

/-- Their codes. -/
def engCode : Eng → Nat
  | .d => 0
  | .c => 1
  | .v => 2
  | .m => 3

/-- Shape fields by code (spec/04 R99). -/
def shFieldOf (n : Nat) : ShField :=
  match n with
  | 0 => .rows
  | 1 => .cols
  | 2 => .pitch
  | 3 => .row0
  | _ => .col0

/-- Their codes. -/
def shFieldCode : ShField → Nat
  | .rows => 0
  | .cols => 1
  | .pitch => 2
  | .row0 => 3
  | .col0 => 4

/-- The K slot. -/
def decK (x : BitVec 48) : Option (List Nat × Instr) :=
  let d := k6 x 28
  let a := k6 x 22
  let (be, b) := krSrc x
  match bits x 39 34 with
  | 0x01 => some (chk (bits x 4 1 != 0) 0 ++ kWriteErr d ++ kReadErr a ++ be, .kadd d (bit x 0) a b)
  | 0x02 => some (chk (bits x 4 1 != 0) 0 ++ kWriteErr d ++ kReadErr a ++ be, .kmul d (bit x 0) a b)
  | 0x03 =>
    some (chk (bit x 4) 0 ++ chk (decide (6 < bits x 3 0)) 1 ++ kWriteErr d ++ kReadErr a ++ be, .klop d (klopOf (bits x 3 0)) a b)
  | 0x04 => some (kWriteErr d, .kmovi d (x.extractLsb' 0 28))
  | 0x05 =>
    some (chk (bit x 4) 0 ++ chk (decide (5 < bits x 2 0)) 1 ++ chk (decide (d.toNat < 40 ∨ 47 < d.toNat)) 1 ++ kReadErr a ++ be,
      .kcmp (d.setWidth 3) (cmpOf (bits x 2 0)) (bit x 3) a b)
  | 0x06 => some (kmErr x true, .kld (ksizeOf (bits x 5 3)) d a (x.extractLsb' 6 16))
  | 0x07 => some (kmErr x false, .kst (ksizeOf (bits x 5 3)) d a (x.extractLsb' 6 16))
  | 0x08 =>
    some (chk (decide (4 < bits x 29 27)) 1 ++ (if bit x 26 then [] else kReadErr (k6 x 20) ++ chk (bits x 19 0 != 0) 0),
      .shpw (engOf (bits x 33 32)) (x.extractLsb' 30 2) (shFieldOf (bits x 29 27))
        (if bit x 26 then .imm (x.extractLsb' 0 26) else .reg (k6 x 20)))
  | 0x09 => some (kReadErr d ++ chk (bits x 27 4 != 0) 0, .setfmtK d (x.extractLsb' 0 4))
  | 0x0A => some (kReadErr d ++ chk (bits x 27 3 != 0) 0, .cbloadK (x.extractLsb' 0 3) d)
  | _ => none

/-- The swap field, whose SWP is bit `hi` (spec/04 R100). A SWI that no SWP uses must be 0 (spec/11 R308). -/
def swapOf (x : BitVec 48) (hi : Nat) : List Nat × Swap :=
  if bit x hi then ([], some (x.extractLsb' (hi - 2) 2)) else (chk (bits x (hi - 1) (hi - 2) != 0) 0, none)

/-- Ring slots: conditions (spec/16 R436). -/
def ringSlotErr (x : BitVec 48) : List Nat :=
  chk (decide (bits x 2 0 < 2 ∨ 5 < bits x 2 0)) 1 ++ chk (bits x 22 13 != 0) 0 ++ kReadErr (k6 x 7)

/-- The D slot. -/
def decD (x : BitVec 48) : Option (List Nat × Instr) :=
  let (se, sw) := swapOf x 25
  let td := t5 x 18
  let ta := t5 x 13
  let ka := k6 x 7
  let sc := scopeOf (bits x 2 0)
  let kd : BitVec 4 := x.extractLsb' 3 4
  match bits x 31 26 with
  | 0x01 => some (se ++ chk (bits x 12 0 != 0) 0, .dmov sw td ta)
  | 0x02 => some (se ++ chk (ta != 0 || bits x 6 0 != 0) 0 ++ kReadErr ka, .tfill sw td ka)
  | 0x03 => some (se ++ ringSlotErr x, .racqTile sw sc kd ka)
  | 0x04 => some (se ++ ringSlotErr x, .rcommitTile sw sc kd ka)
  | 0x05 => some (se ++ ringSlotErr x, .rpeekTile sw sc kd ka)
  | 0x06 => some (se ++ ringSlotErr x, .rrelTile sw sc kd ka)
  | _ => none

/-- COLL operations by code (spec/12 R321). -/
def collOpOf (n : Nat) : CollOp :=
  match n with
  | 0 => .allreduce
  | 1 => .reduceScatter
  | 2 => .allgather
  | _ => .allToAll

/-- Their codes. -/
def collOpCode : CollOp → Nat
  | .allreduce => 0
  | .reduceScatter => 1
  | .allgather => 2
  | .allToAll => 3

/-- COLL reductions by code. -/
def collRedOf (n : Nat) : CollRed :=
  match n with
  | 0 => .sum
  | 1 => .max
  | _ => .min

/-- Their codes. -/
def collRedCode : CollRed → Nat
  | .sum => 0
  | .max => 1
  | .min => 2

/-- COLL types by code. -/
def collTyOf (n : Nat) : CollTy :=
  match n with
  | 0 => .f32
  | 1 => .bf16
  | 2 => .f16
  | 3 => .i32
  | _ => .n32

/-- Their codes. -/
def collTyCode : CollTy → Nat
  | .f32 => 0
  | .bf16 => 1
  | .f16 => 2
  | .i32 => 3
  | .n32 => 4

/-- The C slot. -/
def decC (x : BitVec 48) : Option (List Nat × Instr) :=
  let (se, sw) := swapOf x 25
  let td := t5 x 18
  let ta := t5 x 13
  let ka := k6 x 7
  match bits x 31 26 with
  | 0x01 =>
    some (se ++ chk (bits x 6 2 != 0) 0 ++ (if bit x 1 then kReadErr ka else chk (ka != 0) 0),
      .tcopy sw td ta (bit x 0) (if bit x 1 then some ka else none))
  | 0x02 => some (se ++ chk (bits x 6 2 != 0) 0 ++ chk (bit x 1) 1 ++ kReadErr ka, .tgath sw td ta ka (bit x 0))
  | 0x03 => some (se ++ chk (bits x 6 2 != 0) 0 ++ chk (bit x 1 || bit x 0) 1 ++ kReadErr ka, .tscat sw td ta ka)
  | 0x04 =>
    some (se ++ kReadErr ka ++ chk (bits x 3 2 == 3 || decide (4 < bits x 6 4) || (decide (2 ≤ bits x 1 0) && bits x 3 2 != 0)) 1,
      .coll sw td ta ka (collOpOf (bits x 1 0)) (collRedOf (bits x 3 2)) (collTyOf (bits x 6 4)))
  | _ => none

/-- TEW's two-operand operations by code (spec/12 R321). -/
def tewBinOf (n : Nat) : TewBin :=
  match n with
  | 0 => .add
  | 1 => .sub
  | 2 => .mul
  | 3 => .max
  | _ => .min

/-- Their codes. -/
def tewBinCode : TewBin → Nat
  | .add => 0
  | .sub => 1
  | .mul => 2
  | .max => 3
  | .min => 4

/-- ROWRED operations by code. -/
def rowOpOf (n : Nat) : RowOp :=
  match n with
  | 0 => .max
  | 1 => .min
  | _ => .sum

/-- Their codes. -/
def rowOpCode : RowOp → Nat
  | .max => 0
  | .min => 1
  | .sum => 2

/-- The V slot. -/
def decV (x : BitVec 48) : Option (List Nat × Instr) :=
  let (se, sw) := swapOf x 41
  let td := t5 x 34
  let ta := t5 x 29
  let tb := t5 x 24
  let noTb := chk (tb != 0) 0
  let noK := chk (bits x 23 12 != 0) 0
  let noFn := chk (bits x 11 0 != 0) 0
  match bits x 47 42 with
  | 0x01 =>
    let op := bits x 4 0
    let sc := bit x 5
    let form : TewForm := match op with
      | 5 => .abs
      | 6 => .neg
      | 7 => .copy
      | _ => if sc then .scalar (tewBinOf op) (k6 x 12) else .tile (tewBinOf op) tb
    some (se ++ chk (decide (7 < op)) 1 ++ chk (bits x 11 6 != 0 || bits x 23 18 != 0) 0 ++
        (if 7 < op then chk (if sc then tb != 0 else bits x 17 12 != 0) 0
         else if 5 ≤ op then chk (sc || tb != 0 || bits x 17 12 != 0) 0
         else if sc then chk (tb != 0) 0 ++ kReadErr (k6 x 12)
         else chk (bits x 17 12 != 0) 0),
      .tew sw td ta form)
  | 0x02 => some (se ++ chk (bits x 2 0 == 7) 1 ++ chk (bits x 11 3 != 0) 0 ++ noTb ++ noK, .teu sw td ta (fnOf (bits x 2 0)))
  | 0x03 => some (se ++ noTb ++ noK ++ noFn, .tcvt sw td ta)
  | 0x04 => some (se ++ noTb ++ noK ++ noFn, .trans sw td ta)
  | 0x05 => some (se ++ chk (bits x 1 0 == 3) 1 ++ chk (bits x 11 2 != 0) 0 ++ noTb ++ noK, .rowred sw td ta (rowOpOf (bits x 1 0)))
  | 0x06 => some (se ++ noTb ++ noK ++ noFn, .rowstat sw td ta)
  | 0x07 => some (se ++ noK ++ noFn, .rowscale sw td ta tb)
  | _ => none

/-- The M slot. -/
def decM' (x : BitVec 48) : Option (List Nat × Instr) :=
  let (se, sw) := swapOf x 41
  let td := t5 x 34
  let ta := t5 x 29
  let tb := t5 x 24
  let noTb := chk (tb != 0) 0
  let noK := chk (bits x 23 12 != 0) 0
  let noTd := chk (td != 0) 0
  let l : BitVec 2 := x.extractLsb' 0 2
  match bits x 47 42 with
  | 0x01 => some (se ++ noTb ++ noK ++ chk (bits x 11 2 != 0) 0, .mma sw td ta l)
  | 0x02 =>
    let mode := bits x 3 2
    some (se ++ chk (mode == 3) 1 ++ chk (bits x 11 4 != 0) 0 ++ kReadErr (k6 x 18) ++ kReadErr (k6 x 12) ++
        (if mode = 0 then noTb else if mode = 3 then noTb else []),
      .mloop sw td ta l (k6 x 18) (k6 x 12) (match mode with | 0 => .cycle | 1 => .streamW tb | _ => .streamG tb))
  | 0x03 => some (se ++ noTd ++ noTb ++ noK ++ chk (bits x 11 2 != 0) 0, .mlatch sw l ta)
  | 0x04 =>
    some (se ++ chk (bits x 1 0 == 3) 1 ++ noTb ++ noK ++ chk (bits x 11 2 != 0) 0,
      .mdrain sw td ta (match bits x 1 0 with | 0 => .plain | 1 => .cvt | _ => .add))
  | 0x05 => some (se ++ chk (ta != 0) 0 ++ noTb ++ noK ++ chk (bits x 11 0 != 0) 0, .mzero sw td)
  | _ => none

/-- The B slot. -/
def decB' (x : BitVec 48) : Option (List Nat × Instr) :=
  let t : TileTest := { neg := bit x 32, reg := k6 x 26, bit := k6 x 20, offset := x.extractLsb' 0 20 }
  let te := chk (bit x 33) 0 ++ kReadErr t.reg ++ chk (decide (40 ≤ t.reg.toNat ∧ t.reg.toNat ≤ 47) && t.bit != 0) 0
  let ka := k6 x 28
  let noKa := chk (ka != 0) 0
  let noKb := chk (bits x 27 22 != 0) 0
  let noF := chk (bits x 21 0 != 0) 0
  match bits x 39 34 with
  | 0x01 => some (te, .tbr t)
  | 0x02 => some (te, .tcall t)
  | 0x03 => some (kReadErr ka ++ noKb ++ noF, .tret ka)
  | 0x04 => some (noKa ++ noKb ++ noF, .gret)
  | 0x05 => some (kReadErr ka ++ noKb ++ noF, .nextw ka)
  | 0x06 =>
    some (kReadErr ka ++ noKb ++ chk (bits x 21 2 != 0) 0 ++ chk (bits x 1 0 == 3) 1,
      .tlwaitTile (match bits x 1 0 with | 0 => .copy | 1 => .matrix | _ => .coll) ka)
  | 0x07 => some (noKa ++ noKb ++ chk (bits x 21 16 != 0) 0, .trapTile (x.extractLsb' 0 16))
  | _ => none

/-- What a slot holds: nothing to do, a swap alone, or an operation. -/
inductive SlotOp where
  | noop
  | swap (i : BitVec 2)
  | op (i : Instr)
deriving DecidableEq, Repr

/-- A slot of a bundle (spec/04 R95, R96, R100, spec/11 R309). -/
def decodeSlot (present : Bool) (s : Slot) (x : BitVec 48) : Except DecErr SlotOp :=
  if !present then if x = 0 then .ok .noop else .error (.enc 0)
  else if bits x (s.width - 1) (s.width - 6) = 0 then
    match s with
    | .k => if x = 0 then .ok .noop else .error (.enc 0)
    | .b => if x = 0 then .ok .noop else .error (.enc 0)
    | _ =>
      let (se, sw) := swapOf x (s.width - 7)
      if se ≠ [] ∨ bits x (s.width - 10) 0 ≠ 0 then .error (.enc 0)
      else match sw with
        | none => .ok .noop
        | some i => .ok (.swap i)
  else
    let r := match s with
      | .k => decK x
      | .d => decD x
      | .c => decC x
      | .v => decV x
      | .m => decM' x
      | .b => decB' x
    match r with
    | none => .error .opcode
    | some ([], i) => .ok (.op i)
    | some (e :: es, _) => .error (.enc (es.foldl min e))

/-- A slot of a bundle word. -/
def bundleSlot (w : W256) (s : Slot) : Except DecErr SlotOp := decodeSlot (slotPresent w s) s (slotBits w s)

/-- A bundle. Bits [247:240] are found at its issue; every other condition belongs to its slot and is found when the slot
commits (spec/04 R96). -/
def decodeBundle (w : W256) : Except DecErr Instr :=
  if bits w 247 240 ≠ 0 then .error (.enc 0) else .ok (.tileBundle w)

/-! ### The encoder -/

/-- Shared fields of a word with a per-lane guard. -/
def tw (fmt opc : Nat) (g : Guard) (dst : Nat) (nwb : Bool) (latch : BitVec 2) (low : BitVec 38) : TWord :=
  { fmt := BitVec.ofNat 3 fmt, opc := BitVec.ofNat 8 opc, gneg := g.neg, gp := g.p, dst := BitVec.ofNat 8 dst, nwb, latch, low }

/-- A guard of 0b0000 or 0b1000. -/
def neverG (never : Bool) : Guard := { neg := never, p := 0 }

/-- Number of a predicate destination. -/
def pdstN (d : PDst) : Nat := d.n.toNat + bitN d.q * 8

/-- Format R's low bits from operand fields. -/
def lowR (a b c : BitVec 9) (fn : Nat) : BitVec 38 := LowR.join { a, b, c, fn := BitVec.ofNat 11 fn }

/-- Format M's low bits. -/
def lowM (base index : BitVec 9) (scale : BitVec 2) (o : Nat × Nat) (size : Nat) (off : BitVec 10) : BitVec 38 :=
  LowM.join { base, index, scale, ord := BitVec.ofNat 2 o.1, scope := BitVec.ofNat 3 o.2, size := BitVec.ofNat 3 size, off }

/-- The field of the constant 0. -/
def f0 : BitVec 9 := 0x1C0#9

/-- A shared operation as a vector word. -/
def encAlu (g : Guard) (d : VDst) (op : AluOp) (a b c : Src) : TWord :=
  tw 0 op.opcode g d.n.toNat d.nwb d.latch (lowR (srcField a) (srcField b) (op.cField c) op.fn)

/-- A scalar half (FORMAT 5) or a uniform word (FORMAT 6). -/
def encUni (fmt : Nat) (g : Guard) (d : SDst) (op : UniOp) : TWord :=
  let w (opc : Nat) (low : BitVec 38) := tw fmt opc g d.n.toNat d.nwb d.latch low
  match op with
  | .alu op a b c => w op.opcode (lowR (srcField a) (srcField b) (op.cField c) op.fn)
  | .movi imm => w 0x0F (LowI.join { a := 0, imm })
  | .lea glob k a b => w 0x10 (lowR (srcField a) (srcField b) 0 (18 + bitN glob * 2 ^ 5 + k.toNat * 2 ^ 6))
  | .redux op a => w 0x52 (lowR (srcField a) 0 0 ((reduxCode op).1 * 2 ^ 5 + (reduxCode op).2))
  | .ballot a => w 0x51 (lowR (srcField a) 0 0 (3 * 2 ^ 5))
  | .srd r => w 0xD0 (LowX.join { a := 0, sreg := r, field := 0 })

/-- Format B's words: guard, destination and low bits. -/
def encBOp (opc : Nat) (g : BGuard) (dst : Nat) (a b : BitVec 9) (field : Nat) : TWord :=
  tw 3 opc { neg := g.neg, p := g.p } dst false 0 (LowB.join { qg := g.qg, a, b, field := BitVec.ofNat 19 field })

/-- Target words of format B. -/
def encBTgt (opc : Nat) (g : BGuard) (offset : BitVec 32) : TWord :=
  tw 3 opc { neg := g.neg, p := g.p } 0 false 0 (LowT.join { qg := g.qg, zero := 0, offset })

/-- A load or store. -/
def encMem (opc : Nat) (g : Guard) (d : BitVec 8) (o : Order) (sz : Size) (m : MemAddr) : TWord :=
  tw 2 opc g d.toNat false 0 (lowM (srcField m.base) (srcField m.index) m.scale (orderCode o) (sizeCode sz) m.off)

/-- A thread word other than a pair. -/
def encOne : Instr → Option TWord
  | .nop => some (tw 0 0 ⟨false, 0⟩ 0 false 0 0)
  | .iadd g d ty sub sat a b => some (encAlu g d (.iadd ty sub sat) a b noSrc)
  | .imul g d ty hi a b => some (encAlu g d (.imul ty hi) a b noSrc)
  | .imad g d ty hi a b c => some (encAlu g d (.imad ty hi) a b c)
  | .imnmx g d ty mx a b => some (encAlu g d (.imnmx ty mx) a b noSrc)
  | .iset g d cmp ty a b =>
    some (tw 0 0x05 g (pdstN d) false 0 (lowR (srcField a) (srcField b) 0 (intTyCode ty + cmpCode cmp * 2 ^ 5)))
  | .lop3 g d w t a b c => some (encAlu g d (.lop3 w t) a b c)
  | .shf g d w r ar a b => some (encAlu g d (.shf w r ar) a b noSrc)
  | .popc g d w a => some (encAlu g d (.popc w) a noSrc noSrc)
  | .clz g d w a => some (encAlu g d (.clz w) a noSrc noSrc)
  | .brev g d w a => some (encAlu g d (.brev w) a noSrc noSrc)
  | .bfx g d w s a b c => some (encAlu g d (.bfx w s) a b c)
  | .bfi g d w a b c => some (encAlu g d (.bfi w) a b c)
  | .sel g d w p neg a b =>
    some (tw 0 0x0D g d.n.toNat d.nwb d.latch (lowR (srcField a) (srcField b) 0 (tcW w + p.toNat * 2 ^ 5 + bitN neg * 2 ^ 8)))
  | .mov g d w a => some (encAlu g d (.mov w) a noSrc noSrc)
  | .movi g d imm => some (tw 1 0x0F g d.n.toNat d.nwb d.latch (LowI.join { a := 0, imm }))
  | .lea g d glob k a b =>
    some (tw 0 0x10 g d.n.toNat d.nwb d.latch (lowR (srcField a) (srcField b) 0 (18 + bitN glob * 2 ^ 5 + k.toNat * 2 ^ 6)))
  | .idot4 g d sa sb a b c => some (encAlu g d (.idot4 sa sb) a b c)
  | .fadd g d na nb a b => some (encAlu g d (.fadd na nb) a b noSrc)
  | .fmul g d na nb a b => some (encAlu g d (.fmul na nb) a b noSrc)
  | .ffma g d na nb nc a b c => some (encAlu g d (.ffma na nb nc) a b c)
  | .fmnmx g d mx a b => some (encAlu g d (.fmnmx mx) a b noSrc)
  | .fset g d cmp u a b =>
    some (tw 0 0x24 g (pdstN d) false 0 (lowR (srcField a) (srcField b) 0 (8 + cmpCode cmp * 2 ^ 5 + bitN u * 2 ^ 8)))
  | .hadd2 g d bf na nb a b => some (encAlu g d (.hadd2 bf na nb) a b noSrc)
  | .hfma2 g d bf na nb nc a b c => some (encAlu g d (.hfma2 bf na nb nc) a b c)
  | .sfn g d f a => some (encAlu g d (.sfn f) a noSrc noSrc)
  | .fcvt g d sat dt sty a => some (encAlu g d (.fcvt sat dt sty) a noSrc noSrc)
  | .setfmt g mask a => some (tw 0 0x41 g 0 false 0 (lowR (srcField a) 0 0 (mask.toNat * 2 ^ 5)))
  | .cbload n cb base off => some (tw 2 0x42 (neverG n) cb.toNat false 0 (lowM (srcField base) f0 0 (0, 0) 4 off))
  | .decw g d latch a e mode k =>
    let (m, tc, c) : Nat × Nat × BitVec 9 := match mode with
      | .cb n => (0, 10, BitVec.ofNat 9 (0x1C0 + n.toNat))
      | .zb l => (1, 15 + l.toNat, f0)
      | .pc s => (2, 16, BitVec.ofNat 9 (0x100 + s.toNat))
    some (tw 0 0x43 g d.toNat false latch
      (lowR (BitVec.ofNat 9 (0x100 + a.toNat)) (srcField e) c (tc + m * 2 ^ 5 + k.toNat * 2 ^ 8)))
  | .brecld n rec base off => some (tw 2 0x44 (neverG n) rec.toNat false 0 (lowM (srcField base) f0 0 (0, 0) 3 off))
  | .shfl g d mode a b =>
    let m := match mode with | .idx => 0 | .up => 1 | .down => 2 | .xor => 3
    some (tw 0 0x50 g d.n.toNat d.nwb d.latch (lowR (srcField a) (srcField b) 0 (17 + m * 2 ^ 5)))
  | .vote g d a =>
    match d with
    | .pred mode p =>
      let m := match mode with | .all => 0 | .any => 1 | .uni => 2
      some (tw 0 0x51 g (pdstN p) false 0 (lowR (srcField a) 0 0 (m * 2 ^ 5)))
    | .ballot v => some (tw 0 0x51 g v.n.toNat v.nwb v.latch (lowR (srcField a) 0 0 (3 * 2 ^ 5)))
  | .redux g d op a =>
    some (tw 0 0x52 g d.n.toNat d.nwb d.latch (lowR (srcField a) 0 0 ((reduxCode op).1 * 2 ^ 5 + (reduxCode op).2)))
  | .ld g d o sz m => some (encMem 0x60 g d o sz m)
  | .ldnc g d o sz m => some (encMem 0x62 g d o sz m)
  | .st g d o sz m => some (encMem 0x61 g d o sz m)
  | .ldb g d rec e b scale =>
    some (tw 2 0x63 g d.toNat false 0 (lowM (srcField e) (srcField b) scale (0, 0) 2 (rec.setWidth 10)))
  | .stb g d rec e b scale =>
    some (tw 2 0x64 g d.toNat false 0 (lowM (srcField e) (srcField b) scale (0, 0) 2 (rec.setWidth 10)))
  | .atom g d op o w a b =>
    some (tw 2 0x65 g d.toNat false 0
      (lowM (srcField a) (srcField b) 0 (orderCode o) (if w then 3 else 2) (BitVec.ofNat 10 (atomCode op))))
  | .cas g d o sz a b => some (tw 2 0x66 g d.toNat false 0 (lowM (srcField a) (srcField b) 0 (orderCode o) (sizeCode sz) 0))
  | .red g op o w a b =>
    some (tw 2 0x67 g 0 false 0
      (lowM (srcField a) (srcField b) 0 (orderCode o) (if w then 3 else 2) (BitVec.ofNat 10 (atomCode op))))
  | .fence n o => some (tw 2 0x68 (neverG n) 0 false 0 (lowM 0 0 0 (orderCode o) 0 0))
  | .sealRegion g d a b => some (tw 0 0x69 g (pdstN d) false 0 (lowR (srcField a) (srcField b) 0 0))
  | .unseal g d a => some (tw 0 0x6A g (pdstN d) false 0 (lowR (srcField a) 0 0 0))
  | .mapcommit g p a => some (tw 0 0x6B g p.toNat false 0 (lowR (srcField a) 0 0 0))
  | .maprelease g p a => some (tw 0 0x6C g p.toNat false 0 (lowR (srcField a) 0 0 0))
  | .poolget g d p base off =>
    some (tw 2 0x6D g d.toNat false 0 (lowM (srcField base) (BitVec.ofNat 9 (0x1C0 + p.toNat)) 0 (0, 0) 3 off))
  | .poolput g d base off => some (tw 2 0x6E g d.toNat false 0 (lowM (srcField base) f0 0 (0, 0) 3 off))
  | .cpy g kind a b c =>
    let m := match kind with | .toLocal => 0 | .toRemote => 1 | .fromRemote => 2
    some (tw 0 0x80 g 0 false 0 (lowR (srcField a) (srcField b) (srcField c) (m * 2 ^ 5)))
  | .cpbatch n d => some (tw 0 0x81 (neverG n) d.n.toNat d.nwb d.latch 0)
  | .cpwait n a imm => some (tw 1 0x82 (neverG n) 0 false 0 (LowI.join { a := srcField a, imm }))
  | .tlwait n a b => some (tw 0 0x83 (neverG n) 0 false 0 (lowR (srcField a) (srcField b) 0 0))
  | .bar n i => some (tw 1 0x90 (neverG n) 0 false 0 (LowI.join { a := 0, imm := i.setWidth 29 }))
  | .cbar n => some (tw 1 0x91 (neverG n) 0 false 0 0)
  | .pbarrive n base c off => some (tw 2 0x92 (neverG n) 0 false 0 (lowM (srcField base) (srcField c) 0 (0, 0) 3 off))
  | .pbwait n base p off => some (tw 2 0x93 (neverG n) 0 false 0 (lowM (srcField base) (srcField p) 0 (0, 0) 3 off))
  | .monwait g d cmp o w a b =>
    some (tw 2 0x94 g d.toNat false 0
      (lowM (srcField a) (srcField b) 0 (orderCode o) (if w then 3 else 2) (BitVec.ofNat 10 (monCmpCode cmp))))
  | .racq n d sc base off => some (tw 2 0x95 (neverG n) d.toNat false 0 (lowM (srcField base) f0 0 (1, scopeCode sc) 3 off))
  | .rcommit n sc base s off =>
    some (tw 2 0x96 (neverG n) 0 false 0 (lowM (srcField base) (BitVec.ofNat 9 (0x100 + s.toNat)) 0 (2, scopeCode sc) 3 off))
  | .rpeek n d sc base off => some (tw 2 0x97 (neverG n) d.toNat false 0 (lowM (srcField base) f0 0 (1, scopeCode sc) 3 off))
  | .rrel n sc base s off =>
    some (tw 2 0x98 (neverG n) 0 false 0 (lowM (srcField base) (BitVec.ofNat 9 (0x100 + s.toNat)) 0 (2, scopeCode sc) 3 off))
  | .bra g offset => some (encBTgt 0xA0 g offset)
  | .brx g a b len => some (encBOp 0xA1 g 0 (srcField a) (srcField b) len.toNat)
  | .call g offset => some (encBTgt 0xA2 g offset)
  | .ret g => some (encBOp 0xA3 g 0 0 0 0)
  | .join n => some (encBOp 0xA4 ⟨false, n, 0⟩ 0 0 0 0)
  | .regang g mask => some (encBOp 0xA5 g 0 0 0 mask.toNat)
  | .yield g => some (encBOp 0xA6 g 0 0 0 0)
  | .exit g => some (encBOp 0xA7 g 0 0 0 0)
  | .gate n idx => some (tw 1 0xB0 (neverG n) 0 false 0 (LowI.join { a := 0, imm := idx.setWidth 29 }))
  | .spawn g qd b offset => some (encBOp 0xB1 g (8 + qd.toNat) (BitVec.ofNat 9 (0x100 + b.toNat)) 0 offset.toNat)
  | .flare g p code a b rel trap =>
    let c : BitVec 9 := match code with | some v => BitVec.ofNat 9 v.toNat | none => f0
    some (tw 0 0xB2 g p.toNat false 0 (lowR (BitVec.ofNat 9 a.toNat) (srcField b) c (bitN rel * 2 ^ 5 + bitN trap * 2 ^ 6)))
  | .reggive n i => some (tw 1 0xB3 (neverG n) 0 false 0 (LowI.join { a := 0, imm := i.setWidth 29 }))
  | .regclaim n i => some (tw 1 0xB4 (neverG n) 0 false 0 (LowI.join { a := 0, imm := i.setWidth 29 }))
  | .replay g p a => some (tw 0 0xB5 g p.toNat false 0 (lowR (srcField a) 0 0 0))
  | .srd g d r => some (tw 4 0xD0 g d.n.toNat d.nwb d.latch (LowX.join { a := 0, sreg := r, field := 0 }))
  | .swr g r a => some (tw 4 0xD1 g 0 false 0 (LowX.join { a := srcField a, sreg := r, field := 0 }))
  | .trap g imm => some (tw 1 0xD2 g 0 false 0 (LowI.join { a := 0, imm := imm.setWidth 29 }))
  | .rft n => some (tw 4 0xD3 (neverG n) 0 false 0 0)
  | .uniformWord g d op => some (encUni 6 g d op)
  | _ => none

/-- The swap field's bits above the operands: SWP and SWI from bit `lo`. -/
def encSwap (sw : Swap) (lo : Nat) : Nat :=
  match sw with
  | none => 0
  | some i => 2 ^ (lo + 2) + i.toNat * 2 ^ lo

/-- A KR slot. -/
def encKR (opc dst : Nat) (a : BitVec 6) (b : KSrc) (fn : Nat) : Nat :=
  opc * 2 ^ 34 + dst * 2 ^ 28 + a.toNat * 2 ^ 22 + fn +
    (match b with | .reg n => n.toNat * 2 ^ 15 | .imm i => 2 ^ 21 + i.toNat * 2 ^ 5)

/-- A D or C slot. -/
def encDC (opc : Nat) (sw : Swap) (td ta : BitVec 5) (ka fn : Nat) : Nat :=
  opc * 2 ^ 26 + encSwap sw 23 + td.toNat * 2 ^ 18 + ta.toNat * 2 ^ 13 + ka * 2 ^ 7 + fn

/-- A V or M slot. -/
def encVM (opc : Nat) (sw : Swap) (td ta tb : BitVec 5) (ka kb fn : Nat) : Nat :=
  opc * 2 ^ 42 + encSwap sw 39 + td.toNat * 2 ^ 34 + ta.toNat * 2 ^ 29 + tb.toNat * 2 ^ 24 + ka * 2 ^ 18 + kb * 2 ^ 12 + fn

/-- A BT slot. -/
def encBT (opc : Nat) (t : TileTest) : Nat :=
  opc * 2 ^ 34 + bitN t.neg * 2 ^ 32 + t.reg.toNat * 2 ^ 26 + t.bit.toNat * 2 ^ 20 + t.offset.toNat

/-- A slot operation: its slot and the slot's bits. -/
def encSlot : Instr → Option (Slot × Nat)
  | .kadd d sub a b => some (.k, encKR 0x01 d.toNat a b (bitN sub))
  | .kmul d hi a b => some (.k, encKR 0x02 d.toNat a b (bitN hi))
  | .klop d op a b => some (.k, encKR 0x03 d.toNat a b (klopCode op))
  | .kmovi d imm => some (.k, 0x04 * 2 ^ 34 + d.toNat * 2 ^ 28 + imm.toNat)
  | .kcmp f cmp u a b => some (.k, encKR 0x05 (40 + f.toNat) a b (cmpCode cmp + bitN u * 2 ^ 3))
  | .kld sz reg a off =>
    some (.k, 0x06 * 2 ^ 34 + reg.toNat * 2 ^ 28 + a.toNat * 2 ^ 22 + off.toNat * 2 ^ 6 + ksizeCode sz * 2 ^ 3)
  | .kst sz reg a off =>
    some (.k, 0x07 * 2 ^ 34 + reg.toNat * 2 ^ 28 + a.toNat * 2 ^ 22 + off.toNat * 2 ^ 6 + ksizeCode sz * 2 ^ 3)
  | .shpw eng idx field src =>
    some (.k, 0x08 * 2 ^ 34 + engCode eng * 2 ^ 32 + idx.toNat * 2 ^ 30 + shFieldCode field * 2 ^ 27 +
      (match src with | .reg n => n.toNat * 2 ^ 20 | .imm i => 2 ^ 26 + i.toNat))
  | .setfmtK a mask => some (.k, 0x09 * 2 ^ 34 + a.toNat * 2 ^ 28 + mask.toNat)
  | .cbloadK cb a => some (.k, 0x0A * 2 ^ 34 + a.toNat * 2 ^ 28 + cb.toNat)
  | .dmov sw td ta => some (.d, encDC 0x01 sw td ta 0 0)
  | .tfill sw td ka => some (.d, encDC 0x02 sw td 0 ka.toNat 0)
  | .racqTile sw sc kd ka => some (.d, encDC 0x03 sw 0 0 ka.toNat (scopeCode sc + kd.toNat * 2 ^ 3))
  | .rcommitTile sw sc ks ka => some (.d, encDC 0x04 sw 0 0 ka.toNat (scopeCode sc + ks.toNat * 2 ^ 3))
  | .rpeekTile sw sc kd ka => some (.d, encDC 0x05 sw 0 0 ka.toNat (scopeCode sc + kd.toNat * 2 ^ 3))
  | .rrelTile sw sc ks ka => some (.d, encDC 0x06 sw 0 0 ka.toNat (scopeCode sc + ks.toNat * 2 ^ 3))
  | .tcopy sw td ta cvt remote =>
    some (.c, encDC 0x01 sw td ta (match remote with | none => 0 | some k => k.toNat) (bitN cvt + bitN remote.isSome * 2))
  | .tgath sw td ta ka cvt => some (.c, encDC 0x02 sw td ta ka.toNat (bitN cvt))
  | .tscat sw td ta ka => some (.c, encDC 0x03 sw td ta ka.toNat 0)
  | .coll sw td ta ka op rd ty =>
    some (.c, encDC 0x04 sw td ta ka.toNat (collOpCode op + collRedCode rd * 2 ^ 2 + collTyCode ty * 2 ^ 4))
  | .tew sw td ta form =>
    some (.v, match form with
      | .tile op tb => encVM 0x01 sw td ta tb 0 0 (tewBinCode op)
      | .scalar op kb => encVM 0x01 sw td ta 0 0 kb.toNat (tewBinCode op + 2 ^ 5)
      | .abs => encVM 0x01 sw td ta 0 0 0 5
      | .neg => encVM 0x01 sw td ta 0 0 0 6
      | .copy => encVM 0x01 sw td ta 0 0 0 7)
  | .teu sw td ta f => some (.v, encVM 0x02 sw td ta 0 0 0 (fnCode f))
  | .tcvt sw td ta => some (.v, encVM 0x03 sw td ta 0 0 0 0)
  | .trans sw td ta => some (.v, encVM 0x04 sw td ta 0 0 0 0)
  | .rowred sw td ta op => some (.v, encVM 0x05 sw td ta 0 0 0 (rowOpCode op))
  | .rowstat sw td ta => some (.v, encVM 0x06 sw td ta 0 0 0 0)
  | .rowscale sw tz tm tl => some (.v, encVM 0x07 sw tz tm tl 0 0 0)
  | .mma sw tz ta l => some (.m, encVM 0x01 sw tz ta 0 0 0 l.toNat)
  | .mloop sw tz ta l kc ki mode =>
    some (.m, match mode with
      | .cycle => encVM 0x02 sw tz ta 0 kc.toNat ki.toNat l.toNat
      | .streamW tb => encVM 0x02 sw tz ta tb kc.toNat ki.toNat (l.toNat + 1 * 2 ^ 2)
      | .streamG tb => encVM 0x02 sw tz ta tb kc.toNat ki.toNat (l.toNat + 2 * 2 ^ 2))
  | .mlatch sw l tb => some (.m, encVM 0x03 sw 0 tb 0 0 0 l.toNat)
  | .mdrain sw td tz mode =>
    some (.m, encVM 0x04 sw td tz 0 0 0 (match mode with | .plain => 0 | .cvt => 1 | .add => 2))
  | .mzero sw tz => some (.m, encVM 0x05 sw tz 0 0 0 0 0)
  | .tbr t => some (.b, encBT 0x01 t)
  | .tcall t => some (.b, encBT 0x02 t)
  | .tret ka => some (.b, 0x03 * 2 ^ 34 + ka.toNat * 2 ^ 28)
  | .gret => some (.b, 0x04 * 2 ^ 34)
  | .nextw ka => some (.b, 0x05 * 2 ^ 34 + ka.toNat * 2 ^ 28)
  | .tlwaitTile kind ka =>
    some (.b, 0x06 * 2 ^ 34 + ka.toNat * 2 ^ 28 + (match kind with | .copy => 0 | .matrix => 1 | .coll => 2))
  | .trapTile imm => some (.b, 0x07 * 2 ^ 34 + imm.toNat)
  | _ => none

/-- What encodes an instruction: a thread word, a pair, a bundle, a slot of a bundle; an event has no encoding. -/
inductive Code where
  | word (w : W64)
  | pair (w w2 : W64)
  | bundle (w : W256)
  | slot (s : Slot) (x : BitVec 48)
  | none
deriving DecidableEq, Repr

/-- The encoding of a well-formed instruction. -/
def encode (i : Instr) : Code :=
  match i with
  | .pairWord g d op second =>
    match encOne second with
    | some u => .pair (encUni 5 g d op).join u.join
    | none => .none
  | .tileBundle w => .bundle w
  | _ =>
    match encOne i with
    | some t => .word t.join
    | none =>
      match encSlot i with
      | some (s, x) => .slot s (BitVec.ofNat 48 x)
      | none => .none

/-- A bundle whose slots hold given bits: its SAFE and STOP bits, the presence bit of every slot that is there, and the slots' bits (spec/11
R308). A slot that is not there is zero. -/
def bundleWord (safe stop : Bool) (f : Slot → Option (BitVec 48)) : W256 :=
  BitVec.ofNat 256 (bitN safe * 2 ^ 249 + bitN stop * 2 ^ 248 + (Slot.all.map fun x =>
    match f x with
    | some y => 2 ^ (255 - x.index) + y.toNat % 2 ^ x.width * 2 ^ x.low
    | none => 0).sum)

/-- The decoder applied to an encoding, with every V register below the holding. -/
def decodeCode (c : Code) : Option Instr :=
  match c with
  | .word w => (decodeWord 256 w).toOption
  | .pair w w2 => (decodePair 256 w w2).toOption
  | .bundle w => (decodeBundle w).toOption
  | .slot s x => (match decodeSlot true s x with | .ok (.op i) => some i | _ => none)
  | .none => none

/-- The feature bits an instruction needs, in the order they are tested (spec/12 R315, R320). -/
def Instr.features (i : Instr) : List Nat :=
  match i with
  | .nop => []
  | .pairWord g d op second =>
    [(encUni 5 g d op).opc.toNat, 255] ++
      (match encOne second with | some u => if u.opc = 0 then [] else [u.opc.toNat] | none => [])
  | .uniformWord g d op => [(encUni 6 g d op).opc.toNat, 254]
  | _ =>
    match encOne i with
    | some t => [t.opc.toNat]
    | none =>
      match encSlot i with
      | some (s, x) => [256 + 32 * s.index + x / 2 ^ (s.width - 6)]
      | none => []

/-- Whether an instruction is of the long-latency class (spec/12 R316). -/
def Instr.long : Instr → Bool
  | .ld .. | .ldnc .. | .ldb .. | .atom .. | .cas .. | .poolget .. | .cpwait .. | .tlwait .. | .pbwait .. | .monwait ..
  | .racq .. | .rpeek .. | .yield .. | .flare .. | .regclaim .. => true
  | _ => false

/-- The instruction that the decoder reads from bits numbered as the opcode table numbers them: a thread word of 64 bits,
a pair of 128, a bundle of 256. -/
def decodeTableWord (nbits w : Nat) : Option Instr :=
  if nbits = 64 then (decodeWord 256 (BitVec.ofNat 64 w)).toOption
  else if nbits = 128 then
    (if (TWord.split (BitVec.ofNat 64 w)).fmt = 5 then
      (decodePair 256 (BitVec.ofNat 64 w) (BitVec.ofNat 64 (w / 2 ^ 64))).toOption
    else none)
  else if nbits = 256 then (decodeBundle (BitVec.ofNat 256 w)).toOption
  else none

end Sys2Proof
end

