-- ==== Sys2Proof/Config.lean ====
section
/-! DEFINITION. What this part fixes (spec/01, spec/07) and the free values: opaque constants with no body, which stand for
every value that the spec leaves open. -/

namespace Sys2Proof.Config

/-- Cores of the module (spec/01 R12). -/
def cores : Nat := 160
/-- Context slots (spec/03 R73, spec/10 R273). -/
def contexts : Nat := 64
/-- V registers per lane position of a core's pool (spec/01 R16). -/
def pool : Nat := 4096
/-- Shared-memory bytes of a core (spec/01 R16). -/
def sharedBytes : Nat := 262144
/-- Gang contexts of a quadrant, and places of its active set (spec/03, "The gang scheduler"). -/
def quadContexts : Nat := 16
/-- Places of a quadrant's active set (spec/03 R70). -/
def quadActive : Nat := 8
/-- Condition monitors of a home slice (spec/01 R14). -/
def monitorsPerSlice : Nat := 64
/-- Typed buffer sizes in bytes: W, X, Z (spec/01 R16). -/
def wBytes : Nat := 524288
/-- X buffer bytes. -/
def xBytes : Nat := 262144
/-- Z buffer bytes. -/
def zBytes : Nat := 262144
/-- Lines of 256 bytes of a core's first-level data cache (spec/01 R16). -/
def l1Lines : Nat := 2048
/-- Cycles of the core clock at 1.6 GHz in the 4,096 flit times of a fabric port (spec/09 R251, spec/01 R17). -/
def flitAge : Nat := 2098
/-- First address of the shared window (spec/07 R173). -/
def sharedBase : Nat := 0x01FFFE0000000000
/-- First address of the local window (spec/07 R173). -/
def localBase : Nat := 0x01FFFF0000000000
/-- Near memory's first physical address (spec/07 R177). -/
def nearBase : Nat := 0x010000000000
/-- End of near memory. -/
def nearEnd : Nat := 0x010080000000
/-- Host memory's first physical address (spec/07 R177). -/
def hostBase : Nat := 0x800000000000
/-- End of the 48-bit physical space. -/
def physEnd : Nat := 0x1000000000000
/-- FMT of a new slice (spec/05 R122). -/
def fmtReset : W32 := 0x80000000#32

/-- FREE: which enabled move comes next (log 1). -/
opaque freeChoice : Nat → Nat
/-- FREE: the cycles a step takes beyond one (log 8). -/
opaque freeCycles : Nat → Nat
/-- FREE: an undefined 32-bit register value, by a name and an index (spec/00 R7; log 6). -/
opaque freeWord : Nat → Nat → W32
/-- FREE: an undefined byte of a window or of shared memory, by a name and an index (spec/00 R7; log 5, 6). -/
opaque freeByte : Nat → Nat → Byte
/-- FREE: a special-function result within the spec's bound (spec/05 R135; log 7). -/
opaque freeFn : Fn → W32 → W32
/-- FREE: an inline constant read in a format that does not hold its integer value (spec/11 R295; log 12). -/
opaque freeConst : CvtTy → BitVec 7 → W32
/-- FREE: SHA-512 (spec/10 R288; log 4). -/
opaque sha512 : List Byte → BitVec 512
/-- FREE: whether an Ed25519 signature verifies: key, message, signature (spec/10 R288; log 4). -/
opaque ed25519Verify : BitVec 256 → BitVec 512 → BitVec 512 → Bool
/-- FREE: the identity key's signature over a digest (spec/10 R290; log 4). -/
opaque identitySign : BitVec 512 → BitVec 512
/-- FREE: SHA-512 of the root monitor, measured at reset (spec/10 R288; log 4). -/
opaque rootDigest : BitVec 512
/-- FREE: the fused digest of the image-signing key (spec/10 R287; log 4). -/
opaque fusedKeyDigest : BitVec 512
/-- FREE: the fused epoch counter (spec/10 R287; log 4). -/
opaque fusedEpoch : BitVec 8
/-- FREE: the management image that the bytes of the staging window hold, whose header's layout the spec does not give (spec/10
R288, R289; log 4). -/
opaque imageOf : List (Nat × Byte) → Image
/-- FREE: whether the corrected errors of a scrub interval pass the rate threshold, whose value the spec does not give (spec/10 R286;
log 24). -/
opaque rateExceeded : Nat → Bool
/-- FREE: the device serial number (spec/10 R290; log 4). -/
opaque serial : BitVec 128
/-- FREE: the fixed hash that chooses a path's port from the ports its destination lists (spec/09 R252; log 9). -/
opaque routeHash : Nat → Nat → Nat → Nat

end Sys2Proof.Config
end

