-- ==== Sys2Proof/Machine/Flags.lean ====
section
/-! DEFINITION. Number formats, exact values, rounding and the sticky flags (spec/05 R114-R140). A finite value is a sign, a
magnitude and a power of two, so every sum and product is exact until a rounding function is applied (spec/00 R8). -/

namespace Sys2Proof.Machine

/-! ### Sticky flags (spec/05 R124) -/

/-- The sticky flags of %fflags[5:0]. -/
abbrev FlagSet := BitVec 6
/-- NV: an invalid operation, a signalling NaN input, or a NaN converted to a format without NaN. -/
def fNV : FlagSet := 1
/-- DZ: a finite nonzero value is divided by zero. -/
def fDZ : FlagSet := 2
/-- OF: a finite exact result exceeds the format's range. -/
def fOF : FlagSet := 4
/-- UF: tiny after rounding and inexact, or flushed. -/
def fUF : FlagSet := 8
/-- NX: a rounded result differs from the exact result. -/
def fNX : FlagSet := 16
/-- SA: a conversion clamped a value. -/
def fSA : FlagSet := 32

/-- A flag when a condition holds. -/
def flagIf (c : Bool) (f : FlagSet) : FlagSet := if c then f else 0

/-! ### The format register (spec/05 R122) -/

/-- FMT.XV. -/
def fmtXV (fmt : W32) : BitVec 16 := fmt.extractLsb' 16 16
/-- FMT.FTZ. -/
def fmtFTZ (fmt : W32) : Bool := bit fmt 13
/-- FMT.SAT. -/
def fmtSAT (fmt : W32) : Bool := bit fmt 12

/-- Rounding directions: those of RM, and round_odd (spec/00 R9). -/
inductive RMode where
  | rne | rz | rup | rdn | odd
deriving DecidableEq, Repr

/-- FMT.RM. -/
def fmtRM (fmt : W32) : RMode :=
  match bits fmt 15 14 with
  | 0 => .rne
  | 1 => .rz
  | 2 => .rup
  | _ => .rdn

/-! ### Exact values -/

/-- A value: a NaN (signalling or not), an infinity, or (-1)^neg * m * 2^e. -/
inductive FV where
  | nan (sig : Bool)
  | inf (neg : Bool)
  | fin (neg : Bool) (m : Nat) (e : Int)
deriving DecidableEq, Repr

/-- Positive zero. -/
def FV.zero : FV := .fin false 0 0

/-- Whether a value is a NaN. -/
def FV.isNan : FV → Bool
  | .nan _ => true
  | _ => false

/-- Whether a value is a zero. -/
def FV.isZero : FV → Bool
  | .fin _ m _ => m == 0
  | _ => false

/-- Whether a value is an infinity. -/
def FV.isInf : FV → Bool
  | .inf _ => true
  | _ => false

/-- The sign of a value. -/
def FV.sign : FV → Bool
  | .nan _ => false
  | .inf s => s
  | .fin s _ _ => s

/-- A sign flip; a NaN is unchanged. -/
def FV.neg : FV → FV
  | .nan q => .nan q
  | .inf s => .inf !s
  | .fin s m e => .fin (!s) m e

/-- The magnitude of a value. -/
def FV.abs : FV → FV
  | .nan q => .nan q
  | .inf _ => .inf false
  | .fin _ m e => .fin false m e

/-- NV for a signalling NaN input (spec/05 R116). -/
def FV.sigFlag : FV → FlagSet
  | .nan true => fNV
  | _ => 0

/-- An integer as a value. -/
def FV.ofInt (i : Int) : FV := .fin (decide (i < 0)) i.natAbs 0

/-- Exponent of the most significant bit of a nonzero m * 2^e. -/
def topExp (m : Nat) (e : Int) : Int := (Nat.log2 m : Int) + e

/-- m * 2^(e - lo), for lo at most e. -/
def alignTo (m : Nat) (e lo : Int) : Nat := m * 2 ^ (e - lo).toNat

/-- The signed integer s*m*2^(e-lo). -/
def signedAt (s : Bool) (m : Nat) (e lo : Int) : Int := if s then -(alignTo m e lo : Int) else (alignTo m e lo : Int)

/-- Order of two finite values, as integers on a common exponent. -/
def finCmp (s1 : Bool) (m1 : Nat) (e1 : Int) (s2 : Bool) (m2 : Nat) (e2 : Int) : Int × Int :=
  let lo := min e1 e2
  (signedAt s1 m1 e1 lo, signedAt s2 m2 e2 lo)

/-- A value as an integer pair key: infinities lie beyond every finite value. -/
def FV.lt (a b : FV) : Bool :=
  match a, b with
  | .fin s1 m1 e1, .fin s2 m2 e2 => decide ((finCmp s1 m1 e1 s2 m2 e2).1 < (finCmp s1 m1 e1 s2 m2 e2).2)
  | .inf s, .inf t => s && !t
  | .inf s, .fin _ _ _ => s
  | .fin _ _ _, .inf t => !t
  | _, _ => false

/-- Equality of two values as numbers: -0 equals +0 and a NaN equals nothing. -/
def FV.numEq (a b : FV) : Bool := !a.isNan && !b.isNan && !a.lt b && !b.lt a

/-- The order of FMNMX and of the row operations: numbers, with -0 below +0 (spec/05 R138, spec/14 R363). -/
def FV.ltz (a b : FV) : Bool := a.lt b || (a.isZero && b.isZero && a.sign && !b.sign)

/-! ### Formats -/

/-- The floating formats with an encoding of their own (spec/05 R116-R118). -/
inductive FF where
  | f32 | f16 | bf16 | e4m3 | e5m2 | e2m1
deriving DecidableEq, Repr

/-- Width in bits. -/
def FF.width : FF → Nat
  | .f32 => 32
  | .f16 => 16
  | .bf16 => 16
  | .e4m3 => 8
  | .e5m2 => 8
  | .e2m1 => 4

/-- Fraction bits. -/
def FF.fb : FF → Nat
  | .f32 => 23
  | .f16 => 10
  | .bf16 => 7
  | .e4m3 => 3
  | .e5m2 => 2
  | .e2m1 => 1

/-- Exponent bias. -/
def FF.bias : FF → Int
  | .f32 => 127
  | .f16 => 15
  | .bf16 => 127
  | .e4m3 => 7
  | .e5m2 => 15
  | .e2m1 => 1

/-- Exponent of the smallest normal. -/
def FF.emin (f : FF) : Int := 1 - f.bias

/-- Code of the largest finite value. -/
def FF.maxCode : FF → Nat
  | .f32 => 0x7F7FFFFF
  | .f16 => 0x7BFF
  | .bf16 => 0x7F7F
  | .e4m3 => 0x7E
  | .e5m2 => 0x7B
  | .e2m1 => 0x7

/-- Code of +infinity, for the formats that have one. -/
def FF.infCode : FF → Option Nat
  | .f32 => some 0x7F800000
  | .f16 => some 0x7C00
  | .bf16 => some 0x7F80
  | .e5m2 => some 0x7C
  | .e4m3 => none
  | .e2m1 => none

/-- Canonical quiet NaN (spec/05 R116). E2M1 has none; conversions write +0. -/
def FF.nanCode : FF → Nat
  | .f32 => 0x7FC00000
  | .f16 => 0x7E00
  | .bf16 => 0x7FC0
  | .e4m3 => 0x7F
  | .e5m2 => 0x7E
  | .e2m1 => 0

/-- The formats that honour FMT.RM and FMT.FTZ as conversion targets (spec/05 R123). -/
def FF.wide : FF → Bool
  | .f32 => true
  | .f16 => true
  | .bf16 => true
  | _ => false

/-- Sign, magnitude and exponent of a finite code. -/
def FF.unpack (f : FF) (code : Nat) : Bool × Nat × Int :=
  let s := decide (code / 2 ^ (f.width - 1) % 2 = 1)
  let ex := code / 2 ^ f.fb % 2 ^ (f.width - 1 - f.fb)
  let fr := code % 2 ^ f.fb
  if ex = 0 then (s, fr, f.emin - f.fb) else (s, fr + 2 ^ f.fb, (ex : Int) - f.bias - f.fb)

/-- Value of a code of an IEEE-style format. -/
def FF.decodeIeee (f : FF) (code : Nat) : FV :=
  let s := decide (code / 2 ^ (f.width - 1) % 2 = 1)
  let eb := f.width - 1 - f.fb
  let ex := code / 2 ^ f.fb % 2 ^ eb
  let fr := code % 2 ^ f.fb
  if ex = 2 ^ eb - 1 then
    if fr = 0 then .inf s else .nan (decide (fr / 2 ^ (f.fb - 1) = 0))
  else
    let (sg, m, e) := f.unpack code
    .fin sg m e

/-- Value of a code (spec/05 R116-R118). `xv` is the value of E2M1 code 0b1000. -/
def FF.decode (f : FF) (xv : BitVec 16) (code : Nat) : FV :=
  match f with
  | .e4m3 => if code % 128 = 127 then .nan false else (let (s, m, e) := FF.e4m3.unpack code; .fin s m e)
  | .e2m1 => if code % 16 = 8 then FF.bf16.decodeIeee xv.toNat else (let (s, m, e) := FF.e2m1.unpack (code % 16); .fin s m e)
  | f => f.decodeIeee code

/-- Binary32 patterns as values. -/
def f32v (x : W32) : FV := FF.f32.decodeIeee x.toNat

/-! ### Rounding -/

/-- Whether the kept magnitude is incremented: `k` kept, remainder `r` of a unit `d`. -/
def roundUp (mode : RMode) (neg : Bool) (k r d : Nat) : Bool :=
  if r = 0 then false
  else match mode with
    | .rne => decide (d < 2 * r) || (2 * r == d && k % 2 == 1)
    | .rz => false
    | .rup => !neg
    | .rdn => neg
    | .odd => k % 2 == 0

/-- m * 2^e rounded to a multiple of 2^q: the multiple, and whether it is inexact. -/
def roundAt (mode : RMode) (neg : Bool) (m : Nat) (e q : Int) : Nat × Bool :=
  if q ≤ e then (m * 2 ^ (e - q).toNat, false)
  else
    let d := 2 ^ (q - e).toNat
    let k := m / d
    let r := m % d
    (if roundUp mode neg k r d then k + 1 else k, decide (r ≠ 0))

/-- m * 2^e rounded to `fb` fraction bits with exponents at least `emin` (none: unbounded): magnitude, exponent, inexact. -/
def roundFin (fb : Nat) (emin : Option Int) (mode : RMode) (neg : Bool) (m : Nat) (e : Int) : Nat × Int × Bool :=
  if m = 0 then (0, 0, false)
  else
    let q0 := topExp m e - fb
    let q := match emin with
      | some lo => max q0 (lo - fb)
      | none => q0
    let (k, inx) := roundAt mode neg m e q
    (k, q, inx)

/-- The code of k * 2^q, a value of the format, without its sign. -/
def FF.pack (f : FF) (k : Nat) (q : Int) : Nat :=
  if k = 0 then 0
  else
    let t := topExp k q
    if t < f.emin then k * 2 ^ (q - (f.emin - f.fb)).toNat
    else
      let fr := if (f.fb : Int) ≤ t - q then k / 2 ^ ((t - q).toNat - f.fb) else k * 2 ^ (f.fb - (t - q).toNat)
      (t + f.bias).toNat * 2 ^ f.fb + fr % 2 ^ f.fb

/-- How a conversion treats range: the rounding direction, flushing of subnormal results, saturation of E5M2, and the
saturation of scaled elements in a wide format (spec/05 R125, R129). -/
structure EncOpt where
  mode : RMode := .rne
  ftz : Bool := false
  sat : Bool := false
  wideSat : Bool := false
deriving DecidableEq, Repr

/-- Whether k * 2^q exceeds the format's largest finite value. -/
def FF.exceeds (f : FF) (k : Nat) (q : Int) : Bool :=
  let (_, m, e) := f.unpack f.maxCode
  decide ((finCmp false m e false k q).1 < (finCmp false m e false k q).2)

/-- Conversion of an exact value to a format: code and flags (spec/05 R125, R129). Overflow of E4M3 is judged on the exact value, as
R125 says; overflow of E2M1 on the rounded one, so that a magnitude above 6 that rounds to 6.0 sets NX alone (log 15). -/
def FF.encode (f : FF) (o : EncOpt) (v : FV) : Nat × FlagSet :=
  let mode := if f.wide then o.mode else .rne
  match v with
  | .nan sig => if f = .e2m1 then (0, fNV) else (f.nanCode, flagIf sig fNV)
  | .inf s =>
    let top := if s then 2 ^ (f.width - 1) else 0
    (match f.infCode with
     | some c => (top + c, 0)
     | none => (top + f.maxCode, fSA))
  | .fin s m e =>
    let top := if s then 2 ^ (f.width - 1) else 0
    if f = .e4m3 && f.exceeds m e then (top + f.maxCode, fSA)
    else if o.wideSat && f.wide && f.exceeds m e then (top + f.maxCode, fSA ||| fOF)
    else
      let (k, q, inx) := roundFin f.fb (some f.emin) mode s m e
      if f.exceeds k q then
        match f with
        | .e2m1 => (top + f.maxCode, fSA)
        | .e5m2 => if o.sat then (top + f.maxCode, fSA) else (top + 0x7C, fOF ||| fNX)
        | _ =>
          let toInf := mode == .rne || (mode == .rup && !s) || (mode == .rdn && s)
          (top + (if toInf then f.infCode.getD f.maxCode else f.maxCode), fOF ||| fNX)
      else
        let (k', q', _) := roundFin f.fb none mode s m e
        let tiny := inx && decide (topExp k' q' < f.emin)
        let fl := flagIf inx fNX ||| flagIf tiny fUF
        if k = 0 then (if f = .e2m1 then 0 else top, fl)
        else if o.ftz && f.wide && decide (topExp k q < f.emin) then (top, fl ||| fUF ||| fNX)
        else (top + f.pack k q, fl)

/-- round_rne to binary32 with its flags. -/
def rne32 (v : FV) : W32 × FlagSet :=
  let (c, fl) := FF.f32.encode {} v
  (BitVec.ofNat 32 c, fl)

/-- A value rounded by round_odd to a format's fraction, keeping its range above (spec/05 R127: every intermediate covers
the range of its source). -/
def FV.roundOdd (f : FF) (v : FV) : FV :=
  match v with
  | .fin s m e =>
    let (k, q, _) := roundFin f.fb (some f.emin) .odd s m e
    .fin s k q
  | v => v

/-! ### Exact arithmetic (IEEE 754 special values; spec/05 R8, R116, spec/14 R363) -/

/-- Exact sum; `mode` decides only the sign of an exact zero. -/
def FV.add (mode : RMode) (a b : FV) : FV × FlagSet :=
  let fl := a.sigFlag ||| b.sigFlag
  match a, b with
  | .nan _, _ => (.nan false, fl)
  | _, .nan _ => (.nan false, fl)
  | .inf s, .inf t => if s = t then (.inf s, fl) else (.nan false, fl ||| fNV)
  | .inf s, _ => (.inf s, fl)
  | _, .inf t => (.inf t, fl)
  | .fin s m e, .fin t n g =>
    let lo := min e g
    let z := signedAt s m e lo + signedAt t n g lo
    if z = 0 then
      (.fin (if m = 0 ∧ n = 0 ∧ s = t then s else decide (mode = .rdn)) 0 0, fl)
    else (.fin (decide (z < 0)) z.natAbs lo, fl)

/-- Exact product. -/
def FV.mul (a b : FV) : FV × FlagSet :=
  let fl := a.sigFlag ||| b.sigFlag
  if a.isNan || b.isNan then (.nan false, fl)
  else if (a.isInf && b.isZero) || (b.isInf && a.isZero) then (.nan false, fl ||| fNV)
  else match a, b with
    | .fin s m e, .fin t n g => (.fin (s != t) (m * n) (e + g), fl)
    | x, y => (.inf (x.sign != y.sign), fl)

/-- Exact a * b + c; zero times infinity is invalid whatever c is. -/
def FV.fma (mode : RMode) (a b c : FV) : FV × FlagSet :=
  let fl := a.sigFlag ||| b.sigFlag ||| c.sigFlag
  if (a.isInf && b.isZero) || (b.isInf && a.isZero) then (.nan false, fl ||| fNV)
  else if a.isNan || b.isNan || c.isNan then (.nan false, fl)
  else
    let (p, _) := a.mul b
    let (r, f2) := p.add mode c
    (r, fl ||| f2)

/-- The exact value divided by n, carrying a sticky bit far below every format's last bit. -/
def FV.divNat (v : FV) (n : Nat) : FV :=
  match v with
  | .fin s m e =>
    let k := 64 + Nat.log2 n
    let x := m * 2 ^ k
    .fin s (2 * (x / n) + (if x % n = 0 then 0 else 1)) (e - k - 1)
  | v => v

/-- FTZ on an input: a subnormal of format `f` becomes zero of its sign, with no flag (spec/05 R123). -/
def FV.flush (ftz : Bool) (f : FF) (v : FV) : FV :=
  match v with
  | .fin s m e => if ftz && m != 0 && decide (topExp m e < f.emin) then .fin s 0 0 else v
  | v => v

/-! ### Scalar float instructions (spec/14 R363, R374, R381) -/

/-- Sign flip of an operand under a negate modifier. -/
def FV.negIf (c : Bool) (v : FV) : FV := if c then v.neg else v

/-- FADD, FMUL and FFMA in format `f` under FMT. -/
def fArith (f : FF) (fmt : W32) (op : FV → FV → FV → FV × FlagSet) (a b c : FV) : Nat × FlagSet :=
  let ftz := fmtFTZ fmt
  let (v, fl) := op (a.flush ftz f) (b.flush ftz f) (c.flush ftz f)
  let (r, f2) := f.encode { mode := fmtRM fmt, ftz } v
  (r, fl ||| f2)

/-- FMNMX of two binary32 patterns (spec/14 R363). -/
def fMinMax (mx : Bool) (a b : W32) : W32 × FlagSet :=
  let x := f32v a
  let y := f32v b
  let fl := x.sigFlag ||| y.sigFlag
  if x.isNan && y.isNan then (0x7FC00000#32, fl)
  else if x.isNan then (b, fl)
  else if y.isNan then (a, fl)
  else if mx then (if x.ltz y then b else a, fl)
  else (if y.ltz x then b else a, fl)

/-- FSET's comparison: -0 equals +0; an unordered pair gives `u` (spec/14 R374). -/
def fCompare (cmp : Cmp) (u : Bool) (a b : W32) : Bool × FlagSet :=
  let x := f32v a
  let y := f32v b
  let fl := x.sigFlag ||| y.sigFlag
  if x.isNan || y.isNan then (u, fl)
  else
    (match cmp with
     | .eq => x.numEq y
     | .ne => !x.numEq y
     | .lt => x.lt y
     | .le => !y.lt x
     | .gt => y.lt x
     | .ge => !x.lt y, fl)

/-! ### Conversions to integers (spec/05 R126, spec/06 R170) -/

/-- Least and greatest value of an integer type of `w` bits. -/
def intRange (signed : Bool) (w : Nat) : Int × Int :=
  if signed then (-(2 ^ (w - 1) : Int), 2 ^ (w - 1) - 1) else (0, 2 ^ w - 1)

/-- A float value to an integer of `w` bits. -/
def toIntF (mode : RMode) (signed : Bool) (w : Nat) (v : FV) : Nat × FlagSet :=
  let (lo, hi) := intRange signed w
  let put (i : Int) : Nat := (BitVec.ofInt w i).toNat
  match v with
  | .nan _ => (0, fNV)
  | .inf s => (put (if s then lo else hi), fNV)
  | .fin s m e =>
    let (k, inx) := roundAt mode s m e 0
    let i : Int := if s then -(k : Int) else k
    if i < lo then (put lo, fNV)
    else if hi < i then (put hi, fNV)
    else (put i, flagIf inx fNX)

/-- An integer clamped to a type, with SA when it is clamped. -/
def satInt (signed : Bool) (w : Nat) (i : Int) : Nat × FlagSet :=
  let (lo, hi) := intRange signed w
  if i < lo then ((BitVec.ofInt w lo).toNat, fSA)
  else if hi < i then ((BitVec.ofInt w hi).toNat, fSA)
  else ((BitVec.ofInt w i).toNat, 0)

/-- A finite value cut toward zero, and whether that drops a fraction. -/
def FV.cut : FV → Int × Bool
  | .fin s m e =>
    let k := m * 2 ^ e.toNat / 2 ^ (-e).toNat
    (if s then -(k : Int) else (k : Int), m * 2 ^ e.toNat % 2 ^ (-e).toNat != 0)
  | _ => (0, false)

/-- The value of an integer element, under a scale where it has one, to an integer type: cut toward zero (log 15), then clamped with
SA; NX where the cut drops a fraction of a value in range (spec/05 R124, R126, spec/06 R170). -/
def FV.toInt (signed : Bool) (w : Nat) (v : FV) : Nat × FlagSet :=
  let (i, inx) := v.cut
  let (x, fl) := satInt signed w i
  (x, fl ||| flagIf (inx && fl == 0) fNX)

/-! ### Element formats (spec/05 R114, R120) -/

/-- What an element code names. -/
inductive EF where
  | flt (f : FF)
  | cb (n : BitVec 3)
  | int (signed : Bool) (w : Nat)
deriving DecidableEq, Repr

/-- The element formats by code; none for a reserved code. -/
def efOf (code : BitVec 6) : Option EF :=
  match code.toNat with
  | 0x01 => some (.flt .f32)
  | 0x02 => some (.flt .f16)
  | 0x03 => some (.flt .bf16)
  | 0x04 => some (.flt .e4m3)
  | 0x05 => some (.flt .e5m2)
  | 0x06 => some (.flt .e2m1)
  | 0x18 => some (.int true 8)
  | 0x19 => some (.int false 8)
  | 0x1A => some (.int true 16)
  | 0x1B => some (.int false 16)
  | 0x1C => some (.int true 32)
  | 0x1D => some (.int false 32)
  | n => if 0x10 ≤ n ∧ n ≤ 0x17 then some (.cb (BitVec.ofNat 3 n)) else none

/-- Width in bits of an element. -/
def EF.width : EF → Nat
  | .flt f => f.width
  | .cb _ => 4
  | .int _ w => w

/-- Width by code, 0 when reserved. -/
def efWidth (code : BitVec 6) : Nat := match efOf code with | some e => e.width | none => 0

/-- Entry `v` of a codebook (spec/05 R120). -/
def cbEntry (book : W256) (v : Nat) : FV := FF.bf16.decodeIeee (bits book (16 * (v % 16) + 15) (16 * (v % 16)))

/-- The codebook a code names, among the block's eight. -/
def EF.book (books : List W256) : EF → W256
  | .cb n => books.getD n.toNat 0
  | _ => 0

/-- Value of an element (spec/05 R116-R121). -/
def EF.decode (e : EF) (xv : BitVec 16) (books : List W256) (code : Nat) : FV :=
  match e with
  | .flt f => f.decode xv code
  | .cb n => cbEntry (books.getD n.toNat 0) code
  | .int signed w => FV.ofInt (if signed then (BitVec.ofNat w code).toInt else ((BitVec.ofNat w code).toNat : Int))

/-- FTZ on an element: judged in its own format, a CB4 element and code 0b1000 of E2M1 as BF16 (spec/05 R123). -/
def EF.flush (ftz : Bool) (e : EF) (code : Nat) (v : FV) : FV :=
  match e with
  | .flt f => v.flush ftz (if f = .e2m1 ∧ code % 16 = 8 then .bf16 else f)
  | .cb _ => v.flush ftz .bf16
  | .int _ _ => v

/-- Distance between a value and an entry: none when infinite. -/
def cbDist (a b : FV) : Option (Nat × Int) :=
  match a, b with
  | .fin s m e, .fin t n g =>
    let lo := min e g
    some ((signedAt s m e lo - signedAt t n g lo).natAbs, lo)
  | _, _ => none

/-- Whether distance `x` is less than `y`. -/
def cbLess (x y : Option (Nat × Int)) : Bool :=
  match x, y with
  | some (m, e), some (n, g) => decide ((finCmp false m e false n g).1 < (finCmp false m e false n g).2)
  | some _, none => true
  | none, _ => false

/-- The index, among candidates, that `better` prefers; the first of equals. -/
def bestIdx (better : Nat → Nat → Bool) : List Nat → Nat
  | [] => 0
  | i :: is => is.foldl (fun best j => if better j best then j else best) i

/-- Conversion into a codebook: index and flags (spec/05 R125). With no entry that is not a NaN the spec names no index:
it is a free value of the codebook (log 6), and a finite or infinite value sets NX (DESIGN CHOICE; log 15). An infinite value sets no flag
otherwise (log 15). -/
def cbEncode (book : W256) (v : FV) : Nat × FlagSet :=
  let ent := cbEntry book
  let all := List.range 16
  let ok := all.filter fun i => !(ent i).isNan
  match v with
  | .nan _ =>
    ((match all.filter fun i => (ent i).isNan with | i :: _ => i | [] => 0), fNV)
  | _ =>
    if ok = [] then ((Config.freeWord 3 book.toNat).toNat % 16, fNX)
    else match v with
      | .inf s =>
        (match ok.filter fun i => (ent i).sign == s with
         | [] => (bestIdx (fun i j => (ent i).abs.lt (ent j).abs) ok, 0)
         | same => (bestIdx (fun i j => (ent j).abs.lt (ent i).abs) same, 0))
      | v =>
        let i := bestIdx (fun i j => cbLess (cbDist v (ent i)) (cbDist v (ent j))) ok
        (i, flagIf (!(ent i).numEq v) fNX)

/-- Conversion of a value into an element format in one step (spec/05 R125, R126). -/
def EF.encode (e : EF) (o : EncOpt) (books : List W256) (v : FV) : Nat × FlagSet :=
  match e with
  | .flt f => f.encode o v
  | .cb n => cbEncode (books.getD n.toNat 0) v
  | .int signed w => toIntF .rz signed w v

/-- The conversion chains of spec/05 R127: `wide` for the path through binary32 as well (TCOPY, TGATH, STB). -/
def EF.chain (e : EF) (viaF32 viaBf16 : Bool) (o : EncOpt) (books : List W256) (v : FV) : Nat × FlagSet :=
  match e with
  | .flt f =>
    if f.wide then f.encode o v
    else
      let v1 := if viaF32 then v.roundOdd .f32 else v
      let v2 := if viaBf16 then v1.roundOdd .bf16 else v1
      f.encode o v2
  | e => e.encode o books v

/-! ### Block scales (spec/05 R128-R130) -/

/-- A scaled element. Code 255 reads as a NaN, which the spec calls neither quiet nor signalling: it is quiet (DESIGN CHOICE; log 15). -/
def FV.scale (s : Nat) (v : FV) : FV :=
  if s = 255 then .nan false
  else match v with
    | .fin sg m e => .fin sg m (e + (s : Int) - 127)
    | v => v

/-- A value divided by 2^(s - 127). -/
def FV.unscale (s : Nat) (v : FV) : FV :=
  match v with
  | .fin sg m e => .fin sg m (e - ((s : Int) - 127))
  | v => v

/-- emax of the scaled narrow formats (spec/05 R130). -/
def FF.emax : FF → Int
  | .e4m3 => 8
  | .e5m2 => 15
  | _ => 2

/-- The scale an encoder chooses for a block (spec/05 R130). The spec names no emax for a wide format or an integer: `free`
is the scale there (log 6). -/
def genScale (free : Nat) (e : EF) (vs : List FV) : Nat :=
  match e with
  | .flt f =>
    if f.wide then free
    else if vs.any FV.isNan then 255
    else
      let amax := vs.foldl (fun a v => if a.lt v.abs then v.abs else a) FV.zero
      (match amax with
       | .inf _ => 254
       | .fin _ m x => if m = 0 then 127 else (max 0 (min 254 (127 + topExp m x - f.emax))).toNat
       | .nan _ => 255)
  | .cb _ => 127
  | .int _ _ => free

/-! ### Special functions (spec/05 R135-R137) -/

/-- Fraction bits of the fixed-point reference values below. -/
def fpBits : Nat := 128

/-- The unit of the fixed-point reference values. -/
def fpOne : Int := 2 ^ fpBits

/-- A value in fixed point, truncated. -/
def FV.toFix : FV → Int
  | .fin s m e =>
    let x : Int := if 0 ≤ e + fpBits then (m * 2 ^ (e + fpBits).toNat : Nat) else (m / 2 ^ (-(e + fpBits)).toNat : Nat)
    if s then -x else x
  | _ => 0

/-- A value in fixed point, rounded down: what lies below an integer stays below it. -/
def FV.floorFix (v : FV) : Int :=
  match v with
  | .fin true m e => if e + fpBits < 0 ∧ m % 2 ^ (-(e + fpBits)).toNat ≠ 0 then v.toFix - 1 else v.toFix
  | v => v.toFix

/-- Fixed-point product. -/
def fxMul (a b : Int) : Int := a * b / fpOne

/-- A power series summed by its term ratio: term 0 is `t`, and `next` gives each following term. -/
def fxSeries (next : Nat → Int → Int) : Nat → Nat → Int → Int
  | 0, _, _ => 0
  | n + 1, k, t => t + fxSeries next n (k + 1) (next (k + 1) t)

/-- atanh(z) in fixed point for |z| at most 1/3: the sum of z^(2k+1)/(2k+1). -/
def fxAtanh (z : Int) : Int :=
  let z2 := fxMul z z
  let rec go : Nat → Nat → Int → Int
    | 0, _, _ => 0
    | n + 1, k, p => p / (2 * k + 1 : Nat) + go n (k + 1) (fxMul p z2)
  go 48 0 z

/-- ln 2. -/
def fxLn2 : Int := 2 * fxAtanh (fpOne / 3)

/-- e^x for small x. -/
def fxExp (x : Int) : Int := fxSeries (fun k t => fxMul t x / (k : Nat)) 44 0 fpOne

/-- sin of a reduced argument. -/
def fxSin (x : Int) : Int :=
  let x2 := fxMul x x
  fxSeries (fun k t => -(fxMul t x2) / ((2 * k) * (2 * k + 1) : Nat)) 40 0 x

/-- cos of a reduced argument. -/
def fxCos (x : Int) : Int :=
  let x2 := fxMul x x
  fxSeries (fun k t => -(fxMul t x2) / ((2 * k - 1) * (2 * k) : Nat)) 40 0 fpOne

/-- arctan(1/n) for an integer n, as a series. -/
def fxAtanInv (n : Nat) : Int :=
  let rec go : Nat → Nat → Int → Int
    | 0, _, _ => 0
    | f + 1, k, p => p / (2 * k + 1 : Nat) + go f (k + 1) (-(p / (n * n : Nat)))
  go 60 0 (fpOne / (n : Nat))

/-- 2 pi, by Machin's formula. -/
def fxTwoPi : Int := 2 * (16 * fxAtanInv 5 - 4 * fxAtanInv 239)

/-- The exact function's value at a finite input without an entry in R136, as a value accurate to far below the bounds of
R135; `none` where the function's own bound is judged without it. -/
def sfnRef (f : Fn) (v : FV) : FV :=
  match v with
  | .fin s m e =>
    match f with
    | .rcp => .fin s (2 ^ 192 / m) (-192 - e)
    | .rsq =>
      let (m2, e2) := if e % 2 = 0 then (m, e) else (2 * m, e - 1)
      .fin false (Nat.sqrt (2 ^ 256 / m2)) (-128 - e2 / 2)
    | .ex2 =>
      let x := v.floorFix
      let n := x / fpOne
      .fin false (fxExp (fxMul (x - n * fpOne) fxLn2)).toNat (n - fpBits)
    | .lg2 =>
      let t := topExp m e
      let mant : Int := (m * 2 ^ fpBits / 2 ^ Nat.log2 m : Nat)
      let r := 2 * fxAtanh ((mant - fpOne) * fpOne / (mant + fpOne))
      let y := t * fpOne + r * fpOne / fxLn2
      .fin (decide (y < 0)) y.natAbs (-fpBits)
    | .sin =>
      let r := v.toFix % fxTwoPi
      let y := fxSin (r - fxTwoPi / 2)
      .fin (decide (0 < y)) y.natAbs (-fpBits)
    | .cos =>
      let r := v.toFix % fxTwoPi
      let y := fxCos (r - fxTwoPi / 2)
      .fin (decide (0 < y)) y.natAbs (-fpBits)
    | .tanh =>
      if topExp m e < -40 then .fin s m e
      else
        let x := (FV.fin false m e).toFix
        let k := x / fpOne
        let step := fxExp fpOne
        let p := fxMul ((List.range k.toNat).foldl (fun a _ => fxMul a step) fpOne) (fxExp (x - k * fpOne))
        let p2 := fxMul p p
        .fin s ((p2 - fpOne) * fpOne / (p2 + fpOne)).toNat (-fpBits)
  | v => v

/-- The spacing of binary32 values at a value, as an exponent of two (spec/05 R135, "Ulp"). -/
def ulp32 (v : FV) : Int :=
  match v with
  | .fin _ m e => if m = 0 then -149 else max (topExp m e - 23) (-149)
  | _ => -149

/-- |a - b| is at most k * 2^q. -/
def withinPow (a b : FV) (k : Nat) (q : Int) : Bool :=
  match a, b with
  | .fin s m e, .fin t n g =>
    let lo := min (min e g) q
    decide ((signedAt s m e lo - signedAt t n g lo).natAbs ≤ alignTo k q lo)
  | _, _ => false

/-- The bound of R135 on a result `y`, given the reference value `r`. -/
def sfnWithin (f : Fn) (r y : FV) : Bool :=
  let ulps (k : Nat) := withinPow r y k (ulp32 r)
  match f with
  | .rcp => ulps 1
  | .rsq => ulps 1
  | .ex2 => ulps 2
  | .lg2 => if r.abs.lt (.fin false 1 0) then withinPow r y 1 (-22) else ulps 2
  | .sin => withinPow r y 1 (-21)
  | .cos => withinPow r y 1 (-21)
  | .tanh => ulps 2 || (r.abs.lt (.fin false 1 (-2)) && withinPow r y 1 (-23))

/-- A result where the spec gives a bound and no value: the free value when it is a finite value within the bound, else the
reference value rounded (log 7). -/
def sfnFree (f : Fn) (x : W32) : W32 :=
  let r := sfnRef f (f32v x)
  let y := Config.freeFn f x
  if sfnWithin f r (f32v y) then y
  else
    let (c, _) := FF.f32.encode { mode := .rz } r
    BitVec.ofNat 32 c

/-- The power of two that a value is, if it is one. -/
def FV.pow2 : FV → Option Int
  | .fin _ m e => if m ≠ 0 ∧ m = 2 ^ Nat.log2 m then some (topExp m e) else none
  | _ => none

/-- 2^n in binary32, exactly. -/
def pow2W (s : Bool) (n : Int) : W32 := (rne32 (.fin s 1 n)).1

/-- The integer a finite value is, if it is one. -/
def FV.toInt? : FV → Option Int
  | .fin s m e =>
    if m = 0 then some 0
    else if 0 ≤ e then some (signedAt s m e 0)
    else if m % 2 ^ (-e).toNat = 0 then some (if s then -((m / 2 ^ (-e).toNat : Nat) : Int) else (m / 2 ^ (-e).toNat : Nat))
    else none
  | _ => none

/-- A special function: result and flags (spec/05 R135-R137, spec/17 R463). -/
def sfnEval (f : Fn) (x : W32) : W32 × FlagSet :=
  let v := f32v x
  let inf (s : Bool) : W32 := if s then 0xFF800000#32 else 0x7F800000#32
  let zero (s : Bool) : W32 := if s then 0x80000000#32 else 0#32
  let one (s : Bool) : W32 := if s then 0xBF800000#32 else 0x3F800000#32
  let qnan : W32 := 0x7FC00000#32
  match v with
  | .nan sig => (qnan, flagIf sig fNV)
  | v =>
    match f with
    | .rcp =>
      if v.isZero then (inf v.sign, fDZ)
      else if v.isInf then (zero v.sign, 0)
      else if !(FV.fin false 1 (-128)).lt v.abs then (inf v.sign, fOF)
      else (match v.pow2 with
        | some n => if -126 ≤ n ∧ n ≤ 126 then (pow2W v.sign (-n), 0) else (sfnFree .rcp x, 0)
        | none => (sfnFree .rcp x, 0))
    | .rsq =>
      if v.isZero then (inf v.sign, fDZ)
      else if v.sign then (qnan, fNV)
      else if v.isInf then (0, 0)
      else (match v.pow2 with
        | some n => if n % 2 = 0 ∧ -126 ≤ n ∧ n ≤ 126 then (pow2W false (-(n / 2)), 0) else (sfnFree .rsq x, 0)
        | none => (sfnFree .rsq x, 0))
    | .ex2 =>
      if v.isInf then (if v.sign then 0 else inf false, 0)
      else if !v.lt (.fin false 128 0) then (inf false, fOF)
      else if v.lt (.fin true 150 0) then (0, fUF ||| fNX)
      else (match v.toInt? with
        | some n => if -149 ≤ n ∧ n ≤ 127 then (pow2W false n, 0) else (sfnFree .ex2 x, 0)
        | none => (sfnFree .ex2 x, 0))
    | .lg2 =>
      if v.isZero then (inf true, fDZ)
      else if v.sign then (qnan, fNV)
      else if v.isInf then (inf false, 0)
      else (match v.pow2 with
        | some n => ((rne32 (FV.ofInt n)).1, 0)
        | none => (sfnFree .lg2 x, 0))
    | .sin =>
      if v.isInf || !v.abs.lt (.fin false 1 20) then (qnan, fNV)
      else if v.isZero then (x, 0)
      else (sfnFree .sin x, 0)
    | .cos =>
      if v.isInf || !v.abs.lt (.fin false 1 20) then (qnan, fNV)
      else if v.isZero then (one false, 0)
      else (sfnFree .cos x, 0)
    | .tanh =>
      if v.isZero then (x, 0)
      else if v.isInf || !v.abs.lt (.fin false 10 0) then (one v.sign, 0)
      else (sfnFree .tanh x, 0)

/-! ### Binary32 arithmetic of tile operations: round_rne, FMT ignored (spec/05 R123) -/

/-- Binary32 sum. -/
def add32 (a b : W32) : W32 × FlagSet :=
  let (v, fl) := (f32v a).add .rne (f32v b)
  let (r, f2) := rne32 v
  (r, fl ||| f2)

/-- Binary32 difference. -/
def sub32 (a b : W32) : W32 × FlagSet :=
  let (v, fl) := (f32v a).add .rne (f32v b).neg
  let (r, f2) := rne32 v
  (r, fl ||| f2)

/-- Binary32 product. -/
def mul32 (a b : W32) : W32 × FlagSet :=
  let (v, fl) := (f32v a).mul (f32v b)
  let (r, f2) := rne32 v
  (r, fl ||| f2)

/-- The sums of neighbours, one level of spec/05 R138's tree. -/
def treeLevel : List W32 → List W32 × FlagSet
  | a :: b :: rest =>
    let (s, f) := add32 a b
    let (r, g) := treeLevel rest
    (s :: r, f ||| g)
  | r => (r, 0)

/-- tree_sum over at most 2^n values (spec/05 R138). -/
def treeSum : Nat → List W32 → W32 × FlagSet
  | 0, v => (v.headD 0, 0)
  | n + 1, v =>
    let (w, f) := treeLevel v
    let (r, g) := treeSum n w
    (r, f ||| g)

/-- A list cut into chunks of 64, the last padded with +0. -/
def chunks64 : Nat → List W32 → List (List W32)
  | 0, _ => []
  | n + 1, v => if v = [] then [] else (v.take 64 ++ List.replicate (64 - v.length) 0) :: chunks64 n (v.drop 64)

/-- The chunked sum of spec/05 R138: the running sum starts as the first chunk's tree, as the pseudocode of R139 has it (log 15), and
each next chunk's is added to it. -/
def chunkedSum (v : List W32) : W32 × FlagSet :=
  match chunks64 (v.length + 1) v with
  | [] => (0, 0)
  | c :: cs =>
    cs.foldl (fun (acc, fl) x =>
      let (t, f) := treeSum 6 x
      let (s, g) := add32 acc t
      (s, fl ||| f ||| g)) (treeSum 6 c)

/-- ROWRED (spec/05 R138). -/
def rowReduce (op : RowOp) (xs : List W32) : W32 × FlagSet :=
  match op with
  | .sum => chunkedSum xs
  | _ =>
    if xs.any fun x => (f32v x).isNan then (0x7FC00000#32, fNV)
    else
      match xs with
      | [] => (0, 0)
      | x :: rest =>
        (rest.foldl (fun a b =>
          let less := match op with
            | .max => (f32v a).ltz (f32v b)
            | _ => (f32v b).ltz (f32v a)
          if less then b else a) x, 0)

/-- ROWSTAT: mean, variance and flags (spec/05 R139). -/
def rowStat (xs : List W32) : W32 × W32 × FlagSet :=
  if xs.any fun x => (f32v x).isNan || (f32v x).isInf then (0x7FC00000#32, 0x7FC00000#32, fNV)
  else
    let sh := xs.headD 0
    let n := xs.length
    let ds := xs.map fun x => sub32 x sh
    let es := ds.map fun (d, _) => mul32 d d
    let fl0 := (ds ++ es).foldl (fun a (_, f) => a ||| f) 0
    let (s1, f1) := chunkedSum (ds.map (·.1))
    let (s2, f2) := chunkedSum (es.map (·.1))
    let (m, f3) := rne32 ((f32v s1).divNat n)
    let (mean, f4) := add32 sh m
    let (p, f5) := (f32v s1).mul (f32v m)
    let (num, f6) := (f32v s2).add .rne p.neg
    let (var, f7) := rne32 (num.divNat n)
    let isNeg := !(f32v var).isNan && bit var 31
    (mean, if isNeg then 0 else var, fl0 ||| f1 ||| f2 ||| f3 ||| f4 ||| f5 ||| f6 ||| f7)

/-- The correction factor of ROWSCALE (spec/05 R140). -/
def rowFactor (mOld mNew : W32) : W32 × FlagSet :=
  let (eq, f0) := fCompare .eq false mOld mNew
  if eq then (0x3F800000#32, f0)
  else
    let (d, f1) := sub32 mOld mNew
    let (f, f2) := sfnEval .ex2 d
    (f, f0 ||| f1 ||| f2)

/-! ### Summation in a matrix step (spec/05 R131-R133) -/

/-- One product term of a group with its flags. -/
def mmaTerm (a b : FV) : FV × FlagSet := a.mul b

/-- The exact sum of a group of terms under the special values of spec/05 R132. -/
def groupSum (ts : List (FV × FlagSet)) : FV × FlagSet :=
  let fl := ts.foldl (fun a (_, f) => a ||| f) 0
  let vs := ts.map (·.1)
  if vs.any FV.isNan then (.nan false, fl)
  else
    let pos := vs.any fun v => v.isInf && !v.sign
    let neg := vs.any fun v => v.isInf && v.sign
    if pos && neg then (.nan false, fl ||| fNV)
    else if pos || neg then (.inf neg, fl)
    else if vs.all FV.isZero then (.fin (vs.all FV.sign) 0 0, fl)
    else (vs.foldl (fun a v => (a.add .rne v).1) FV.zero, fl)

/-- One element of a matrix step: the accumulator after the groups of 16 terms, in ascending order. Only NV and OF are
kept (spec/05 R124). -/
def mmaAccum (acc : W32) (groups : List (List (FV × FlagSet))) : W32 × FlagSet :=
  groups.foldl (fun (z, fl) g =>
    let (s, f1) := groupSum g
    let (r, f2) := rne32 s
    let (z', f3) := add32 z r
    (z', fl ||| ((f1 ||| f2 ||| f3) &&& (fNV ||| fOF)))) (acc, 0)

end Sys2Proof.Machine
end

