-- ==== Sys2Proof/Machine/State.lean ====
section
/-! DEFINITION. The state of the machine as plain data, the reasons a step can stop, and the state after reset.
INVENTORY.md lists each field with its rule and reset value. -/

namespace Sys2Proof.Machine

/-- Why a step stops with a fault. No instruction of this part stops the machine: every condition of the spec is a
trap, a wait, a kill or a status. The constructor is raised by a slot or thread instruction that is executed while the
issuing party it needs is absent (State.cur names none), which no step does. Safe: a stop where nothing was to run. -/
inductive Fault where
  | noIssuer
deriving DecidableEq, Repr

/-- Why a step has no meaning. -/
inductive Refusal where
  /-- Raised by an arm of exec for an instruction that has no meaning yet. Safe. -/
  | notModelled (mnemonic : String)
deriving DecidableEq, Repr

/-- A trap: cause, %tinfo, %taddr (spec/10 R264, R265); `async` and `ovf` are bits [9] and [10] of %tcause. -/
structure Trap where
  cause : BitVec 8
  tinfo : W32 := 0
  taddr : VAddr := 0
  async : Bool := false
  ovf : Bool := false
deriving DecidableEq, Repr

/-! ### Memory, caches, translation -/

/-- A location: a byte of physical memory, or a byte of a block's shared memory (spec/08 R206, R208). -/
inductive Loc where
  | phys (a : Nat)
  | shared (blk off : Nat)
deriving DecidableEq, Repr

/-- The party that performs an access (spec/08 R210). -/
inductive Party where
  | lane (blk gang lane : Nat)
  | group (blk gang : Nat)
  | tile (frame : Nat)
  | agent
deriving DecidableEq, Repr

/-- A line of a core's first-level data cache; each 16-byte part is present or still being filled (spec/07 R179). A `late` one holds parts of
a fill that have been read at home and have not reached the cache: no load hits it, and stores and invalidations act on it as on a
resident line (spec/08 R217, R224, R226; log 11). -/
structure L1Line where
  core : Nat
  ctx : Nat
  line : Nat
  isSealed : Bool
  parts : List (Option W128)
  late : Bool
deriving DecidableEq, Repr

/-- A TLB entry of TYPE 2: `unit` is a core 0-159 or a die 160-161 (spec/07 R185). -/
structure TlbEntry where
  unit : Nat
  ctx : Nat
  va : Nat
  size : Nat
  pa : Nat
  sys : Bool
  x : Bool
  w : Bool
  r : Bool
deriving DecidableEq, Repr

/-- Where a loaded value goes: `d` is the first destination register. An element load also decodes, under the FMT and the
codebook as of its issue (spec/05 R119, R141); `scale` is the scale code read for it, if its buffer has scales. -/
inductive LoadDst where
  | v (lane : Nat) (d : BitVec 8)
  | elem (lane : Nat) (d : BitVec 8) (menc rfmt : BitVec 6) (nib : Bool) (fmt : W32) (book : W256) (scale : Option Nat)
  | none
deriving DecidableEq, Repr

/-- One lane's request of an atomic: lane, operand, comparand. -/
structure AtomReq where
  lane : Nat
  operand : W128
  comparand : W128
deriving DecidableEq, Repr

/-- What an atomic does at its home (spec/13 R323, spec/16 R437). -/
inductive AtomFn where
  | op (o : AtomOp)
  | cas
deriving DecidableEq, Repr

/-- One access in flight. -/
inductive UnitKind where
  /-- a store of `n` bytes under a bit mask (spec/07 R179, spec/06 R172) -/
  | store (data mask : W128)
  /-- a load of `n` bytes, home or ordinary (spec/08 R207); `got` holds the value of a first-level hit, taken at issue -/
  | load (home : Bool) (dst : LoadDst) (got : Option W128)
  /-- the lanes of one atomic that name one location, in ascending order (spec/13 R323) -/
  | atom (fn : AtomFn) (reqs : List AtomReq) (d : Option (BitVec 8))
  /-- a run of binary32 add-on-stores within one granule (spec/06 R162) -/
  | addRun (z : List W32)
  /-- the claim of a work index (spec/03 R77) -/
  | nextw
  /-- a part of a line fill that no lane waits for (spec/07 R179) -/
  | fill
deriving DecidableEq, Repr

/-- An access in flight: its name within the operation, its place, width and party. -/
structure OpUnit where
  name : Nat
  loc : Loc
  n : Nat
  party : Party
  kind : UnitKind
deriving DecidableEq, Repr

/-- An operation in flight: the units not yet performed. `work` names the launch record it belongs to; `order` acts when
a load or atomic completes. -/
structure Op where
  id : Nat
  core : Nat
  ctx : Nat
  blk : Nat
  gang : Nat
  slices : List Nat
  issuer : Issuer
  order : Order
  units : List OpUnit
  work : Nat
deriving DecidableEq, Repr

/-- A condition monitor of a home slice, armed for a waiter, or holding a ring mark (spec/08 R227, spec/16 R434). -/
inductive MonKind where
  | waiter (i : Issuer)
  | commit (rcb : Loc) (slot : Nat) (ctx : Nat)
  | release (rcb : Loc) (slot : Nat) (ctx : Nat)
  | frontEnd (ctx queue : Nat)
  | shoot
deriving DecidableEq, Repr

/-- A monitor in use, at the home slice of its word. `tests` holds the comparisons of a MONWAIT, each with its width and
operand; `hit` says that a write has satisfied one (spec/08 R227). -/
structure Monitor where
  slice : Nat
  loc : Loc
  kind : MonKind
  tests : List (MonCmp × Nat × Nat)
  hit : Bool
deriving DecidableEq, Repr

/-! ### Threads -/

/-- Kinds of mask-stack entry (spec/02 R31). -/
inductive EntryKind where
  | rejoin | path | call
deriving DecidableEq, Repr

/-- A mask-stack entry (spec/02 R31); `waited` is the ageing count of R49, which is not part of the 128 bits. -/
structure Entry where
  kind : EntryKind
  pc : VAddr
  fmt : W32
  mask : BitVec 4
  outer : BitVec 6
  tag : BitVec 6
  arr : Bool
  waited : Nat
deriving DecidableEq, Repr

/-- A condition that holds a slice or a gang until it is met; the instruction then issues again. -/
inductive WaitCond where
  /-- the release waits of spec/08 R225 -/
  | release
  /-- the release waits of every block of the cluster (spec/13 R327) -/
  | clusterRelease
  /-- a device timeline reaching a value (spec/18 R495) -/
  | timeline (t : Nat) (b : W64)
  /-- CPY batches up to a number (spec/13 R349) -/
  | batch (n : Nat)
  /-- a phase-bit barrier: an arrival that completes a phase ends the wait (spec/16 R425) -/
  | pbar (off : Nat)
  /-- a slot of a ring, of RPEEK or of RACQ, for register `d` under a scope, at control block `va`: RING_WAIT_WAKE grants it (spec/03 R70,
  spec/16 R433, R434) -/
  | ringTake (peek : Bool) (d : BitVec 6) (sc : Scope) (va : W64)
  /-- a free monitor for a ring mark, of RCOMMIT or of RREL, of the slot at address `slot` (spec/16 R434) -/
  | ringMark (commit : Bool) (rcb : List (Loc × Nat)) (slot : Nat)
  /-- a REPLAY that has been sent: its tokens reach the fault table when it issues again (spec/16 R448, spec/20 R516) -/
  | replay
  /-- places of the gang's copy queue (spec/13 R352) -/
  | copyRoom (n : Nat)
  /-- stores to a region being sealed (spec/07 R197, step 4) -/
  | seal (entry : Nat)
  /-- copies counted on a seal entry (spec/07 R199) -/
  | unseal (entry : Nat)
  /-- the shootdown of a page that the instruction itself released (spec/07 R187) -/
  | shootdown (rec : Nat)
  /-- a write held while a shootdown covers its address (spec/07 R202) -/
  | remap (va : Nat)
  /-- earlier accesses of the block to these bytes (spec/08 R223, R224) -/
  | earlier (loc : Loc) (n : Nat)
  /-- stores of a core to a line that is to be filled (spec/08 R224) -/
  | line (core pa : Nat)
deriving DecidableEq, Repr

/-- What a slice waits for. -/
inductive Wait where
  /-- running -/
  | none
  /-- data of operation `op`, written by LOAD_DATA_RETURN (spec/03 R70) -/
  | data (op : Nat)
  /-- a condition that the instruction tests again -/
  | retry (c : WaitCond)
  /-- arrived at a named barrier (spec/13 R327), by a BAR of its own word or in a pair -/
  | bar (n : Nat) (pair : Bool)
  /-- arrived at the cluster barrier -/
  | cbar (pair : Bool)
  /-- arrived at a REGANG with this effective mask (spec/02 R41) -/
  | regang (mask : BitVec 8)
  /-- arrived at a GATE with this index (spec/04 R85) -/
  | gate (idx : Nat)
  /-- blocked at the GATE by a frame (spec/04 R87) -/
  | frame (f : Nat)
  /-- in REGCLAIM; the claim is in the block's list (spec/16 R444) -/
  | claim (n : Nat)
  /-- in MONWAIT, armed, or polling with this interval (spec/15 R415) -/
  | monwait (poll : Option Nat)
  /-- in FLARE, until every answer is written (spec/14 R371) -/
  | flare
  /-- suspended for fault service, with its token once an entry is taken (spec/07 R188) -/
  | fault (token : Option W32)
deriving DecidableEq, Repr

/-- How far an instruction that issues again has come. -/
inductive Again where
  | fresh
  /-- a MONWAIT woken by its monitor: it completes with new loads (spec/08 R227) -/
  | woken
  /-- a MONWAIT whose polling interval ended (spec/15 R415) -/
  | polled (t : Nat)
  /-- an instruction that has waited for a condition: where it completes, its gang does not leave the active set for it again (spec/03
  R71); `n` is the batch number that a CPWAIT waits for (spec/13 R349) -/
  | waited (n : Nat)
  /-- lanes already performed and the statuses they gave; for the lane in hand, its shootdown and frame (spec/15 R403) -/
  | lanes (done status : BitVec 32) (shoot : Option (Nat × Nat))
deriving DecidableEq, Repr

/-- A slice (spec/02 R29, spec/11 R294, spec/10 R265). `group` names its slice group; `gone` holds its exited and
absent lanes; `trapMode` holds the entry depth and entry %dtag. `issued` counts R49's issues of the running path. -/
structure Slice where
  group : Nat
  pc : VAddr
  active : BitVec 4
  gone : BitVec 4
  fmt : W32
  fflags : BitVec 6
  stack : List Entry
  dtag : BitVec 6
  yValid : BitVec 4
  tcause : W32
  tpc : W64
  taddr : W64
  tinfo : W32
  gframe : W32
  tstat : W32
  trapMode : Option (Nat × BitVec 6)
  wait : Wait
  again : Again
  issued : Nat
  memErr : Bool
deriving DecidableEq, Repr

/-- A slice group's registers (spec/02 R40) and age (R50). -/
structure Group where
  id : Nat
  s : List W64
  q : BitVec 8
  age : Nat
deriving DecidableEq, Repr

/-- An entry of an asynchronous error queue (spec/10 R271). -/
structure AsyncErr where
  number : Nat
  cause : BitVec 8
  tinfo : W32
  addr : VAddr
deriving DecidableEq, Repr

/-- An asynchronous error queue of 4 entries with its OVF bit (spec/10 R271). -/
structure ErrQueue where
  entries : List AsyncErr
  ovf : Bool
deriving DecidableEq, Repr

/-- A gang. `v` lists the V registers written, by register x 32 + lane; an unlisted one is undefined (spec/11 R294).
`y` lists the latch lanes in the same way, by latch x 32 + lane. `code` holds the instruction-fetch lines of the gang, as 32-byte
units by address / 32 (spec/07 R202; log 21). `leaves` marks the gang that a quadrant has chosen to leave the active set (spec/02 R51). -/
structure Gang where
  no : Nat
  name : Nat
  quad : Nat
  slot : Nat
  spawned : Bool
  holding : Nat
  slices : List Slice
  groups : List Group
  v : List (Nat × W32)
  y : List (Nat × W32)
  p : List Byte
  active : Bool
  issuedActive : Nat
  readyFor : Nat
  batch : Nat
  cpyErr : ErrQueue
  code : List (Nat × W256)
  ended : Bool
  leaves : Bool := false
deriving DecidableEq, Repr

/-- The launch fields of a kernel descriptor (spec/11 R310, spec/03 R66, spec/06 R145). -/
structure Kernel where
  addr : Nat
  entry : Nat
  gtab : Nat
  ltab : Nat
  brtab : Nat
  shared : Nat
  priv : Nat
  argn : Nat
  idem : Bool
  csize : Nat
  regs : Nat
  lanes : Nat
  resv : Nat
  brcount : Nat
  gaten : Nat
  zwin : Nat
  xwin : Nat
  wwin : Nat
deriving DecidableEq, Repr

/-- A queued Flare packet with the handler entry that the intake read at its admission (spec/09 R237). -/
structure HEntry where
  code : Nat
  window : Nat
  maxg : Nat
  regs : Nat
  idem : Bool
  spill : Bool
  shared : Nat
  priv : Nat
deriving DecidableEq, Repr

/-- The packets of a handler block, for its class and index, and its handler's MAXG (spec/09 R243, R244). -/
structure HandlerInfo where
  hidx : Nat
  cls : Nat
  maxg : Nat
  pkts : List Packet
deriving DecidableEq, Repr

/-- A block (spec/02 R26). `grid` names the started grid it belongs to; `claims` lists the pending REGCLAIMs in arrival
order: gang, group, count (spec/16 R444). `written` lists shared memory's written bytes; an unlisted byte is undefined. -/
structure Block where
  uid : Nat
  ctx : Nat
  core : Nat
  grid : Nat
  queue : Nat
  ticket : W32
  cluster : Nat
  crank : Nat
  number : Nat
  bx : Nat
  bY : Nat
  bz : Nat
  args : W64
  kernel : Kernel
  handler : Option HandlerInfo
  slot : Nat
  share : Nat
  freePart : Nat
  claims : List (Nat × Nat × Nat)
  shared : List (Nat × Byte)
  cb : List W256
  gangs : List Gang
  relaunch : Nat
  trapExit : Bool
  gateSince : Option Nat := none
  poison : Bool := false
deriving DecidableEq, Repr

/-! ### Tiles -/

/-- The registers that a bundle's slots read at issue (spec/04 R97, R107): the kept sources. -/
structure TileRegs where
  k : List W64
  kw : List W64
  f : BitVec 8
  t : List W256
  live : List W128
  shadow : List W128
  fmt : W32
  fflags : BitVec 6
  rot : BitVec 3
  time : W64
deriving DecidableEq, Repr

/-- A pending NEXTW (spec/03 R78): its access in flight, its value once the home has answered, the bundle count at which
it lands, and its target. -/
structure NextW where
  id : Nat
  value : Option W64
  due : Nat
  target : Nat
deriving DecidableEq, Repr

/-- A register write that has not landed: KMUL by bundle count, KLD by its access `id` (spec/15 R388, R391). `reg` is a
scalar number. -/
structure Landing where
  id : Nat
  reg : Nat
  due : Option Nat
  value : Option W64
deriving DecidableEq, Repr

/-- Where a tile operation reads or writes: memory, a typed buffer of a frame (2 W, 3 X, 4 Z), a V register of a gang
(`out` marks the register of an out tile, R92), or a byte of a stationary latch: codes from 0, scales from 4,096, metadata
from 4,608. -/
inductive Place where
  | mem (l : Loc)
  | buf (frame : Nat) (space : Nat) (off : Nat)
  | vreg (blk gang lane reg : Nat) (out : Bool)
  | latch (core idx off : Nat)
deriving DecidableEq, Repr

/-- A write of one part of `n` bytes under a bit mask; `add` marks a run of binary32 add-on-stores. -/
structure Wr where
  place : Place
  n : Nat
  data : W128
  mask : W128
  add : List W32
deriving DecidableEq, Repr

/-- A stationary latch of a core (spec/06 R152, R153): its owner, the frame whose tile context filled it, and its source's
format code, XV and sparse count. `row0` is the dense row of the source window's first row. `bytes` lists the codes, scales
and metadata written: they stay until the next fill writes them, whether or not the latch is valid. -/
structure Latch where
  core : Nat
  idx : Nat
  owner : Nat
  efmt : BitVec 6
  xv : BitVec 16
  n : Nat
  row0 : Nat
  bytes : List (Nat × Byte)
  valid : Bool
deriving DecidableEq, Repr

/-- What a tile operation captures when it issues: its place, the registers (the live shapes of its slot after the slot's
swap), the codebooks (spec/05 R141), the layout entries, the gangs by number, the global pages it translated, the index array of a
gather or scatter, and the name bound of the accesses issued before its bundle. -/
structure OpEnv where
  frame : Nat
  blk : Nat
  core : Nat
  ctx : Nat
  img : TileRegs
  books : List W256
  maps : List (Nat × W128)
  gangs : List (Nat × Nat)
  pages : List (Nat × Nat)
  idx : List Nat
  since : Nat
deriving DecidableEq, Repr

/-- A part that an operation has read. -/
structure Got where
  place : Place
  data : W128
deriving DecidableEq, Repr

/-- A fixed-latency operation (spec/04 R101, R102). `srcs` lists the parts still to read, `got` those read; once all are
read, `writes` lists the parts not yet visible and `seen` those that are. It reads by time `rDue` and is visible from time
`wDue`. `dsts` lists the parts of shared memory that it will write; `seals` lists the seal entries that count its reads (spec/07 R199). -/
structure Fixed where
  id : Nat
  instr : Instr
  env : OpEnv
  rDue : Nat
  wDue : Nat
  srcs : List Place
  got : List Got
  computed : Bool
  writes : List Wr
  seen : List Wr
  dsts : List Place
  seals : List Nat
deriving DecidableEq, Repr

/-- Why a tile context has yielded (spec/04 R90); `remap` marks one whose bundle a shootdown holds, which does not yield. -/
inductive TileWait where
  | none
  | timeline (k : TlKind) (n : Nat)
  | ring (l : Loc)
  | remap (va : Nat)
deriving DecidableEq, Repr

/-- A tile context's frame (spec/04 R88, spec/11 R302). `maps` holds the layout entries read at the GATE, by number
(spec/04 R83, R376); `books` are the codebooks kept with the image (spec/05 R141); `w`, `x`, `z` place its windows; `buf` lists their written bytes and `written` the elements of out
tiles that the frame has written; `latches` are restored ones, written back when the frame takes a context. -/
structure Frame where
  uid : Nat
  number : BitVec 16
  ctx : Nat
  blk : Nat
  core : Nat
  tctx : Option Nat
  qseq : Nat
  desc : Nat
  retpc : VAddr
  status : BitVec 3
  refGang : Nat
  bases : List Nat
  issuedOps : List Nat
  doneOps : List Nat
  errs : List ErrQueue
  gangs : List Nat
  maps : List (Nat × W128)
  pc : VAddr
  regs : TileRegs
  sresume : BitVec 3
  image : Option TileRegs
  books : List W256 := []
  bundles : Nat
  nextws : List NextW
  landings : List Landing
  fixed : List Fixed
  w : Nat
  x : Nat
  z : Nat
  buf : List (Nat × Byte)
  written : List (Nat × Nat)
  token : Option (Option W32)
  draining : Bool
  wait : TileWait
  latches : List Latch
deriving DecidableEq, Repr

/-- What an asynchronous operation does when it runs. -/
inductive AWork where
  /-- a thread CPY: the source's address and runs, the source's parts still to be read and the destination's still to be written, each
  with its offset in the copy, and the bytes read by offset; `overlap` says that the two ranges share bytes (spec/13 R352) -/
  | cpy (va : Nat) (src : List (Loc × Nat)) (reads todo : List (Nat × Loc × Nat)) (overlap : Bool) (got : List (Nat × Byte))
  /-- a remote thread CPY: the local side's address, the remote address and whether it is the destination, the local parts still to be
  read or written, the bytes read or come by offset, and the ranges of the whole local side, which a remote side on this device may share
  (spec/13 R352) -/
  | cpyRemote (va : Nat) (dev ctx : Nat) (addr : Nat) (len : Nat) (toRemote : Bool) (todo : List (Nat × Loc × Nat)) (got : List (Nat × Byte))
      (near : List (Loc × Nat))
  /-- a slot operation; `step` counts an MLOOP's steps done and `acc` is its Z tile -/
  | slot (i : Instr) (env : OpEnv) (step : Nat) (acc : List W32)
  /-- a slot operation with a remote side: the bytes of the remote side, with their offsets, once known -/
  | remote (i : Instr) (env : OpEnv) (dev ctx : Nat) (toRemote : Bool) (back : List (Nat × Byte))
  /-- a collective: group, rank, members, sequence, inputs received by rank -/
  | coll (i : Instr) (env : OpEnv) (group rank members seq count : Nat) (inputs : List (Nat × List Byte))
deriving DecidableEq, Repr

/-- A remote part of a copy: its name, whose low 16 bits are its tag, its address, length and offset in the copy, and the time
at which it was sent (spec/09 R254). -/
structure RPart where
  id : Nat
  addr : Nat
  len : Nat
  off : Nat
  sent : Option Nat
deriving DecidableEq, Repr

/-- An asynchronous operation (spec/04 R104, spec/13 R349): of a frame on a timeline, or of a gang in the copy batch
`batch`, the number that the batch has or will be closed with. `lead` names the first operation of its instruction, or bounds the names
of the accesses issued before its bundle. `grid` names the launch record it belongs to. `ahead` holds the parts that the fetch unit has
read for later steps of an MLOOP (spec/06 R158). `seals` lists the seal
entries that count it (spec/07 R199) and `wruns` the runs of virtual addresses that a slot operation writes; `since` is the time of a collective's latest input (spec/09 R260);
`discard` marks one whose frame or block is gone, and whose results are discarded (spec/10 R270, spec/07 R205); `cut` marks a collective
that was cut short with its group (spec/09 R260). -/
structure AOp where
  id : Nat
  lead : Nat
  ctx : Nat
  blk : Nat
  core : Nat
  owner : Issuer
  kind : TlKind
  number : Nat
  batch : Option Nat
  grid : Nat
  work : AWork
  started : Bool
  srcs : List Place
  got : List Got
  ahead : List (Nat × Got)
  writes : List Wr
  parts : List RPart
  err : Option AsyncErr
  seals : List Nat
  wruns : List (Nat × Nat)
  since : Nat
  discard : Bool := false
  cut : Bool := false
deriving DecidableEq, Repr

/-! ### Contexts -/

/-- The context descriptor as read at EN (spec/10 R272, R291). -/
structure CtxDesc where
  root : Nat
  qtab : Nat
  thandler : Nat
  arena : Nat
  privmax : Nat
  aslots : Nat
  ftab : Nat
  fhidx : Nat
  ftcount : Nat
  fpool : Nat
  htab : Nat
  gcount : Nat
  hcount : Nat
  intake : Nat
  gtab : Nat
  emutab : Nat
  save : Nat
  savelen : Nat
  tslice : Nat
  prio : Nat
  cmask : BitVec 512
deriving DecidableEq, Repr

/-- A launch record (spec/03 R59); `recNo` is its record number. `cring` and `crlog` are those of its queue when it was taken: they
place its completion record (R62). -/
structure Record where
  recNo : Nat
  cring : Nat
  crlog : Nat
  ticket : W32
  kind : Nat
  nwait : Nat
  sigmode : Nat
  sigtl : Nat
  code : Nat
  args : W64
  gx : Nat
  gy : Nat
  gz : Nat
  waits : List (Nat × Nat)
deriving DecidableEq, Repr

/-- A launch queue as the front end holds it (spec/03 R55-R58): `inHand` is the record that it has read,
with its kernel, and `poll` its back-off interval while it has no monitor, else 0; `word` is the physical address of the word that it
polls. -/
structure Queue where
  idx : Nat
  base : Nat
  tail : Nat
  head : Nat
  cring : Nat
  crlog : Nat
  slog : Nat
  prio : Nat
  inHand : Option (Record × Option Kernel)
  poll : Nat
  word : Nat
deriving DecidableEq, Repr

/-- A started grid (spec/03 R67, R69, R75). `node` is the graph launch and node it runs, if any; `bad` marks one whose argument block could
not be read (spec/10 R534). -/
structure Grid where
  uid : Nat
  queue : Nat
  record : Record
  node : Option (Nat × Nat)
  kernel : Kernel
  next : Nat
  live : Nat
  total : Nat
  order : Nat
  unfitSince : Option Nat
  reserved : Bool
  trapExit : Bool
  bad : Bool := false
deriving DecidableEq, Repr

/-- A graph launch in flight (spec/03 R64, R65): launch-private predecessor counts; node states 0 waiting for
predecessors, 1 startable, 2 running, 3 finished. `taken` lists the nodes whose waits are in progress, with what was read and checked of
them (R63); `bad` marks a launch whose successor table could not be read (spec/10 R534). -/
structure Launch where
  uid : Nat
  queue : Nat
  record : Record
  nodes : Nat
  succ : Nat
  counts : List Nat
  states : List Nat
  trapExit : Bool
  taken : List (Nat × Record × Option Kernel) := []
  bad : Bool := false
deriving DecidableEq, Repr

/-- A packet that a context's intake holds, with the handler entry read at its admission (spec/09 R237): `pos` orders it among
the others, `place` is its entry in the queue or spill ring, none for a fault Flare (R241). -/
structure QPkt where
  pos : Nat
  place : Option Nat
  pkt : Packet
  h : HEntry
deriving DecidableEq, Repr

/-- An intake class (spec/09 R238, R239): the packets admitted and not yet placed, and those in the spill ring. -/
structure IntakeClass where
  cap : Nat
  scap : Nat
  base : Nat
  spillBase : Nat
  queue : List QPkt
  spill : List QPkt
deriving DecidableEq, Repr

/-- A coalescing group (spec/09 R242, R245). -/
structure CGroup where
  uid : Nat
  cls : Nat
  hidx : Nat
  h : HEntry
  pkts : List QPkt
  opened : Nat
  closed : Option Nat
  bumped : Nat
deriving DecidableEq, Repr

/-- A fault-table entry in use: STATE 1 or 2, its waiter, and its Flare until that is placed (spec/07 R190, spec/09 R241). -/
structure FaultEntry where
  idx : Nat
  gen : BitVec 20
  state : Nat
  waiter : Issuer
  held : Option QPkt
deriving DecidableEq, Repr

/-- A party waiting for a fault-table entry, with its argument record (spec/07 R188, R189). -/
structure FaultWait where
  waiter : Issuer
  va : VAddr
  kind : Nat
deriving DecidableEq, Repr

/-- A seal entry (spec/07 R197, R199, spec/17 R457): stage 0 taken, 1 marked, 2 valid, 3 being unsealed. -/
structure SealEntry where
  idx : Nat
  base : Nat
  len : Nat
  stage : Nat
  copies : Nat
  by_ : Issuer
deriving DecidableEq, Repr

/-- Blocks that wait for cores apart from their grid's order: restored ones, with their frames, or one that is launched
again, which takes a new arena slot and, in a cluster, stays in its core group (spec/10 R283, spec/07 R205). `bad` lists the
slices of gangs of blocks that hold a forbidden stack entry (spec/02 R31), `poison` the blocks saved with an error. -/
structure Pending where
  blocks : List Block
  frames : List Frame
  again : Bool
  near : Option Nat
  bad : List (Nat × Nat × List Nat)
deriving DecidableEq, Repr

/-- A context slot (spec/10 R273). `faultWords` holds the fault-table entries as the device keeps them (spec/07 R190); `saved` keeps,
of each block written to the save area, what a context frame has no place for; `used` counts the cycles of its time slice (spec/03 R73), and `byFront` says that the front end requested its latest stop
(R74). -/
structure Ctx where
  id : Nat
  state : Nat
  kcause : Nat
  cdesc : Nat
  cerr : BitVec 7
  desc : CtxDesc
  queues : List Queue
  grids : List Grid
  launches : List Launch
  intake : List IntakeClass
  groups : List CGroup
  faults : List FaultEntry
  faultWords : List (Nat × W128)
  faultWaits : List FaultWait
  seals : List SealEntry
  broken : List Nat
  collSeq : List (Nat × Nat)
  frameCtr : BitVec 16
  tlCount : List Nat
  used : Nat
  restored : Nat
  stoppedAt : Nat
  byFront : Bool
  pending : List Pending
  saved : List (Block × List Frame)
  intakeLogged : BitVec 4
  badIndex : List (BitVec 12 × BitVec 19 × BitVec 12) := []
  collPast : List (Nat × CollTag) := []
deriving DecidableEq, Repr

/-- A device timeline given, counted or marked (spec/03 R63); one not listed is all 0. -/
structure Timeline where
  t : Nat
  count : W64
  valid : Bool
  err : Bool
  owner : BitVec 12
deriving DecidableEq, Repr

/-- A Flare request awaiting its answer since `sent` (spec/09 R248). -/
structure FlareReq where
  id : Nat
  issuer : Issuer
  lane : Nat
  pkt : Packet
  answer : Option Nat
  sent : Nat
deriving DecidableEq, Repr

/-- A shootdown in progress (spec/07 R200-R202); `record` none for MAPRELEASE's own. `dropped` is the name bound of the accesses that
may still act under the old entry, once every TLB has dropped the range. -/
structure Shootdown where
  id : Nat
  record : Option Nat
  ctx : Nat
  va : Nat
  pages : Nat
  sigtl : Option Nat
  dropped : Option Nat
  done : Bool
deriving DecidableEq, Repr

/-- A register that system software reads: an 8-byte word of a context's control block or of the timeline window by its offset, or a
health register (spec/03 R63, spec/10 R273, R286). -/
inductive HostView where
  | context (ctx off : Nat)
  | timeline (off : Nat)
  | health
  | fenceC
  | fenceP
  | ecnt
deriving DecidableEq, Repr

/-- A host access's outcome (spec/09 R261). -/
inductive HostOut where
  | register (r : HostView) (v : Nat)
  | sent (port : Nat) (p : Packet)
  | loaded (pa : Nat) (data : List Byte)
  | stored (pa : Nat)
  | old (pa : Nat) (v : W64)
  | error (pa : Nat)
  | quote (bytes : List Byte)
  | refusedQuote
deriving DecidableEq, Repr

/-- Firmware state (spec/10 R287-R290). `writing` is the image that a passed check is writing to the image store. -/
structure Firmware where
  mreg0 : BitVec 512
  mreg1 : BitVec 512
  store : Option Image
  staging : List (Nat × Byte)
  writing : Option Image
  running : Bool
deriving DecidableEq, Repr

/-- A move of the machine that State.agenda may name: an event of the opcode table, the issue of a quadrant or of a
tile sequencer, or a move inside a cache or an engine that the spec leaves to the device. -/
inductive Act where
  | event (i : Instr)
  | issue (core quad : Nat)
  | bundle (core : Nat)
  | gate (blk : Nat)
  | evictLine (core line : Nat)
  | lateFetch (core ctx pa : Nat)
  | lateInstall (core pa : Nat)
  | evictTlb (k : Nat)
  | dropCode (blk gang k : Nat)
  | fetchAhead (blk gang va : Nat)
  | asyncStart (op : Nat)
  | asyncRead (op k : Nat)
  | asyncFetch (op step k : Nat)
  | asyncPart (op k : Nat)
  | fixedRead (frame op k : Nat)
  | shootDrop (id : Nat)
  | portSend (port prio : Nat)
  | hostRead (r : HostView)
deriving DecidableEq, Repr

/-- The machine. `shootBlock` holds the invalidation ring's control block, BASE and SLOG (spec/07 R201). `retired` keeps a block that has retired, for its shared memory, until another block takes its core's
(spec/14 R360). -/
structure State where
  agenda : List Act
  cur : Issuer
  ctr : Nat
  uid : Nat
  time : W64
  mem : List (Nat × Byte)
  poison : List Nat
  owners : List (Nat × Nat)
  l1 : List L1Line
  tlb : List TlbEntry
  ops : List Op
  aops : List AOp
  monitors : List Monitor
  timelines : List Timeline
  shootBlock : Option (Nat × Nat × Nat)
  shootRead : Nat
  shootdowns : List Shootdown
  ctxs : List Ctx
  blocks : List Block
  retired : List Block
  frames : List Frame
  running : List (Nat × Nat)
  seqLast : List (Nat × Nat)
  latches : List Latch
  devid : BitVec 19
  routes : List (Nat × List Nat)
  partitions : List (Nat × List Nat)
  ato : Nat
  colto : Nat
  seqs : List (Nat × Nat × Nat)
  flares : List FlareReq
  fabOut : List (Nat × Packet)
  selfPkts : List Packet
  collIn : List Packet
  fabErr : Nat
  rx : List (Nat × Nat × Nat)
  fenceC : BitVec 160
  fenceP : BitVec 32
  replace : Bool
  limiting : Bool
  recovery : Bool
  temp : Byte
  ecntCorrected : BitVec 32
  ecntUncorrectable : BitVec 16
  ecntDeferred : BitVec 16
  fw : Firmware
  hostOut : List HostOut
deriving DecidableEq, Repr

/-- An absent context slot (spec/10 R273; log 2). -/
def Ctx.absent (id : Nat) : Ctx :=
  { id, state := 0, kcause := 0, cdesc := 0, cerr := 0,
    desc := { root := 0, qtab := 0, thandler := 0, arena := 0, privmax := 0, aslots := 0, ftab := 0, fhidx := 0,
              ftcount := 0, fpool := 0, htab := 0, gcount := 0, hcount := 0, intake := 0, gtab := 0, emutab := 0,
              save := 0, savelen := 0, tslice := 0, prio := 0, cmask := 0 },
    queues := [], grids := [], launches := [], intake := [], groups := [], faults := [], faultWords := [], faultWaits := [],
    seals := [], broken := [], collSeq := [], frameCtr := 0, tlCount := [0, 0, 0],
    used := 0, restored := 0, stoppedAt := 0, byFront := false, pending := [], saved := [], intakeLogged := 0 }

/-- The machine right after reset: every context slot absent, every timeline 0 (spec/03 R63), caches, queues and
engines empty, ATO and COLTO at their defaults (spec/09 R248, R260), no core fenced (spec/10 R285). Values that the spec
does not state are log 2 and log 4. -/
def State.reset : State :=
  { agenda := [], cur := .none, ctr := 0, uid := 0, time := 0, mem := [], poison := [], owners := [], l1 := [],
    tlb := [], ops := [], aops := [], monitors := [], timelines := [], shootBlock := none, shootRead := 0,
    shootdowns := [], ctxs := (List.range Config.contexts).map Ctx.absent, blocks := [], retired := [], frames := [],
    running := [], seqLast := [], latches := [], devid := 0, routes := [], partitions := [], ato := 2 ^ 26, colto := 2 ^ 27,
    seqs := [], flares := [], fabOut := [], selfPkts := [], collIn := [], fabErr := 0,
    rx := [], fenceC := 0, fenceP := 0, replace := false, limiting := false, recovery := false,
    temp := 0, ecntCorrected := 0, ecntUncorrectable := 0, ecntDeferred := 0,
    fw := { mreg0 := Config.rootDigest, mreg1 := 0, store := none, staging := [], writing := none, running := false },
    hostOut := [] }

end Sys2Proof.Machine
end

