-- ==== Sys2Proof/Machine/Mem.lean ====
section
/-! DEFINITION. Physical memory in canonical form, shared memory, the first-level caches and the rules by which accesses
in flight reach their homes (spec/07 R177-R179, spec/08 R206-R224). -/

namespace Sys2Proof.Machine

/-! ### Finite maps kept as lists -/

/-- The value listed under a key. -/
def assocGet {α : Type} (k : Nat) : List (Nat × α) → Option α
  | [] => none
  | (j, v) :: rest => if j = k then some v else assocGet k rest

/-- The list with a key set: in place where the key is listed, else at the end. -/
def assocSet {α : Type} (k : Nat) (v : α) : List (Nat × α) → List (Nat × α)
  | [] => [(k, v)]
  | (j, u) :: rest => if j = k then (k, v) :: rest else (j, u) :: assocSet k v rest

/-- The list without a key. -/
def assocErase {α : Type} (k : Nat) (l : List (Nat × α)) : List (Nat × α) := l.filter fun p => p.1 != k

/-- The first of the least elements under a measure. -/
def leastBy {α : Type} (f : α → Nat) : List α → Option α
  | [] => none
  | x :: xs => some (xs.foldl (fun a b => if f b < f a then b else a) x)

/-- A register file of `n` registers with one written; a register that the list does not reach holds `d`. -/
def putAt {α : Type} (n : Nat) (d : α) (l : List α) (i : Nat) (v : α) : List α :=
  (List.range n).map fun j => if j = i then v else l.getD j d

/-! ### Memory -/

/-- What an address that is not listed reads as (log 3). -/
def Memory.unlisted : Byte := 0

/-- The byte at an address. -/
def Memory.get (m : List (Nat × Byte)) (a : Nat) : Byte := (assocGet a m).getD Memory.unlisted

/-- Memory with one byte written, in canonical form: addresses rising, no entry equal to an unlisted byte. -/
def Memory.set (m : List (Nat × Byte)) (a : Nat) (v : Byte) : List (Nat × Byte) :=
  match m with
  | [] => if v = Memory.unlisted then [] else [(a, v)]
  | (b, u) :: rest =>
    if a < b then if v = Memory.unlisted then (b, u) :: rest else (a, v) :: (b, u) :: rest
    else if a = b then if v = Memory.unlisted then rest else (a, v) :: rest
    else (b, u) :: Memory.set rest a v

/-- Addresses rise strictly from above `lo`, and no entry equals an unlisted byte. -/
def Memory.wfFrom : Option Nat → List (Nat × Byte) → Bool
  | _, [] => true
  | lo, (a, v) :: rest =>
    (match lo with | none => true | some l => decide (l < a)) && v != Memory.unlisted && Memory.wfFrom (some a) rest

/-- The canonical form. -/
def Memory.wf (m : List (Nat × Byte)) : Bool := Memory.wfFrom none m

/-- `n` bytes from an address, the lowest first. -/
def Memory.bytes (m : List (Nat × Byte)) (a : Nat) : Nat → List Byte
  | 0 => []
  | n + 1 => Memory.get m a :: Memory.bytes m (a + 1) n

/-- Memory with bytes written from an address. -/
def Memory.write (m : List (Nat × Byte)) (a : Nat) : List Byte → List (Nat × Byte)
  | [] => m
  | b :: bs => Memory.write (Memory.set m a b) (a + 1) bs

/-- The number that little-endian bytes hold. -/
def leNat : List Byte → Nat
  | [] => 0
  | b :: bs => b.toNat + 256 * leNat bs

/-- The `n` little-endian bytes of a number. -/
def leBytes : Nat → Nat → List Byte
  | 0, _ => []
  | n + 1, v => BitVec.ofNat 8 v :: leBytes n (v / 256)

/-- A number of `n` bytes at a physical address. -/
def Memory.nat (m : List (Nat × Byte)) (a n : Nat) : Nat := leNat (Memory.bytes m a n)

/-! ### Shared memory (spec/08 R208) -/

/-- A byte of a block's shared memory; one not written since the block was placed is free (log 5). -/
def Block.sharedByte (b : Block) (off : Nat) : Byte := (assocGet off b.shared).getD (Config.freeByte (2 * b.uid) off)

/-- `n` bytes of shared memory. -/
def Block.sharedBytes (b : Block) (off : Nat) : Nat → List Byte
  | 0 => []
  | n + 1 => b.sharedByte off :: b.sharedBytes (off + 1) n

/-- Shared memory with bytes written. -/
def Block.sharedWrite (b : Block) (off : Nat) : List Byte → Block
  | [] => b
  | v :: vs => Block.sharedWrite { b with shared := assocSet off v b.shared } (off + 1) vs

/-! ### Looking up and replacing the parts of the state -/

/-- The block of a name. -/
def State.block? (s : State) (uid : Nat) : Option Block := s.blocks.find? fun b => b.uid == uid

/-- The block that holds a shared memory: a resident one, or a retired one whose core's shared memory no other block has taken. -/
def State.holder? (s : State) (uid : Nat) : Option Block := (s.blocks ++ s.retired).find? fun b => b.uid == uid

/-- Replace a block. -/
def State.updBlock (s : State) (uid : Nat) (f : Block → Block) : State :=
  { s with blocks := s.blocks.map fun b => if b.uid = uid then f b else b }

/-- The gang of a name in a block. -/
def Block.gang? (b : Block) (name : Nat) : Option Gang := b.gangs.find? fun g => g.name == name

/-- Replace a gang of a block. -/
def Block.updGang (b : Block) (name : Nat) (f : Gang → Gang) : Block :=
  { b with gangs := b.gangs.map fun g => if g.name = name then f g else g }

/-- Replace a gang. -/
def State.updGang (s : State) (blk name : Nat) (f : Gang → Gang) : State := s.updBlock blk fun b => b.updGang name f

/-- The gang of a name. -/
def State.gang? (s : State) (blk name : Nat) : Option Gang := (s.block? blk).bind fun b => b.gang? name

/-- Replace a slice of a gang by its position. -/
def Gang.updSlice (g : Gang) (i : Nat) (f : Slice → Slice) : Gang :=
  { g with slices := g.slices.mapIdx fun j x => if j = i then f x else x }

/-- The frame of a name. -/
def State.frame? (s : State) (uid : Nat) : Option Frame := s.frames.find? fun f => f.uid == uid

/-- Replace a frame. -/
def State.updFrame (s : State) (uid : Nat) (f : Frame → Frame) : State :=
  { s with frames := s.frames.map fun x => if x.uid = uid then f x else x }

/-- The context of a number. -/
def State.ctx (s : State) (c : Nat) : Ctx := s.ctxs.getD c (Ctx.absent c)

/-- Replace a context. -/
def State.updCtx (s : State) (c : Nat) (f : Ctx → Ctx) : State :=
  { s with ctxs := s.ctxs.mapIdx fun j x => if j = c then f x else x }

/-- The core that an issuer runs on. -/
def State.coreOf (s : State) : Issuer → Nat
  | .none => 0
  | .group b _ _ => match s.block? b with | some x => x.core | none => 0
  | .tile f => match s.frame? f with | some x => x.core | none => 0

/-- A fresh name. -/
def State.fresh (s : State) : Nat × State := (s.uid, { s with uid := s.uid + 1 })

/-! ### Homes (spec/07 R178) -/

/-- Home slice of a physical address in far or near memory; none for host memory. -/
def homeSlice (pa : Nat) : Option Nat :=
  if pa < Config.nearBase then
    let g := pa / 256
    some ((g % 256) ^^^ (g / 2 ^ 8 % 256) ^^^ (g / 2 ^ 16 % 256) ^^^ (g / 2 ^ 24 % 256))
  else if pa < Config.nearEnd then
    let g := (pa - Config.nearBase) / 256
    some ((g % 256) ^^^ (g / 2 ^ 8 % 256) ^^^ (g / 2 ^ 16 % 256))
  else none

/-- Offset of a near-memory address in its home slice's near memory (spec/07 R178). -/
def nearOffset (pa : Nat) : Nat := (pa - Config.nearBase) / 256 / 256 % 2 ^ 15 * 256 + pa % 256

/-- Package, channel and offset of a far-memory address in the LPDDR channel of its home slice `h` (spec/07 R178). -/
def farPlace (h pa : Nat) : Nat × Nat × Nat := (h / 4, h % 4, pa / 256 / 256 % 2 ^ 24 * 256 + pa % 256)

/-- Whether a physical address exists (spec/07 R177). -/
def physExists (pa : Nat) : Bool :=
  decide (pa < Config.nearEnd) || (decide (Config.hostBase ≤ pa) && decide (pa < Config.physEnd))

/-- Bytes at a location's home. -/
def State.readLoc (s : State) (l : Loc) (n : Nat) : List Byte :=
  match l with
  | .phys a => Memory.bytes s.mem a n
  | .shared b off => match s.holder? b with
    | some x => x.sharedBytes off n
    | none => List.replicate n 0

/-- Bytes written to the shared memory of a block. -/
def State.updShared (s : State) (blk off : Nat) (bs : List Byte) : State :=
  let put (b : Block) : Block := if b.uid = blk then b.sharedWrite off bs else b
  { s with blocks := s.blocks.map put, retired := s.retired.map put }

/-- The number at a location's home. -/
def State.readNat (s : State) (l : Loc) (n : Nat) : Nat := leNat (s.readLoc l n)

/-- Bytes of a pattern merged under a bit mask. -/
def mergeMask (old data mask : W128) : W128 := (old &&& ~~~mask) ||| (data &&& mask)

/-- A location some bytes on. -/
def Loc.plus (l : Loc) (k : Nat) : Loc :=
  match l with
  | .phys a => .phys (a + k)
  | .shared b o => .shared b (o + k)

/-- Whether the `n` bytes at one location share a byte with the `m` bytes at another. -/
def Loc.overlaps (l : Loc) (n : Nat) (k : Loc) (m : Nat) : Bool :=
  match l, k with
  | .phys a, .phys b => decide (a < b + m) && decide (b < a + n)
  | .shared x a, .shared y b => x == y && decide (a < b + m) && decide (b < a + n)
  | _, _ => false

/-- The location of a byte of a range given in pieces. -/
def locAt : List (Loc × Nat) → Nat → Loc
  | [], _ => .phys 0
  | (l, k) :: ps, off => if off < k then l.plus off else locAt ps (off - k)

/-- `n` bytes from byte `off` of a range given in pieces, again in pieces. -/
def cutPieces : List (Loc × Nat) → Nat → Nat → List (Loc × Nat)
  | [], _, _ => []
  | (l, k) :: ps, off, n =>
    if n = 0 then []
    else if k ≤ off then cutPieces ps (off - k) n
    else (l.plus off, min n (k - off)) :: cutPieces ps 0 (n - min n (k - off))

/-- The bytes of a range given in pieces. -/
def State.readPieces (s : State) (ps : List (Loc × Nat)) : List Byte := ps.flatMap fun p => s.readLoc p.1 p.2

/-- Owner tag of a granule set by a fill or a write (spec/07 R203). -/
def State.setOwner (s : State) (pa ctx : Nat) : State := { s with owners := assocSet (pa / 256) ctx s.owners }

/-- A MONWAIT comparison of `w` bits (spec/15 R415). -/
def monCmp (c : MonCmp) (w m b : Nat) : Bool :=
  let x := (BitVec.ofNat w m).toInt
  let y := (BitVec.ofNat w b).toInt
  match c with
  | .eq => m == b
  | .ne => m != b
  | .lt => decide (x < y)
  | .ge => decide (y ≤ x)
  | .ltu => decide (m < b)
  | .geu => decide (b ≤ m)

/-- A write of `n` bytes at a physical address is compared by the monitors of its words (spec/08 R227). -/
def State.noteWrite (s : State) (a n : Nat) : State :=
  { s with monitors := s.monitors.map fun m =>
      match m.loc with
      | .phys b =>
        if m.tests.any fun t => decide (a < b + t.2.1 / 8) && decide (b < a + n) && monCmp t.1 t.2.1 (Memory.nat s.mem b (t.2.1 / 8)) t.2.2
        then { m with hit := true } else m
      | .shared _ _ => m }

/-- A write arriving at its home: bytes under a mask. A store of a whole poisoned part clears the poison (spec/07 R204). -/
def State.writeLoc (s : State) (ctx : Nat) (l : Loc) (n : Nat) (data mask : W128) : State :=
  let old := BitVec.ofNat 128 (s.readNat l n)
  let new := leBytes n (mergeMask old data mask).toNat
  match l with
  | .phys a =>
    let whole := n == 16 && mask == BitVec.allOnes 128
    ({ (s.setOwner a ctx) with
      mem := Memory.write s.mem a new,
      poison := if whole then s.poison.filter (· != a / 16) else s.poison } : State).noteWrite a n
  | .shared b off => s.updShared b off new

/-- Bytes written to physical memory by the device itself. -/
def State.poke (s : State) (pa : Nat) (bs : List Byte) : State :=
  ({ s with mem := Memory.write s.mem pa bs } : State).noteWrite pa bs.length

/-- A mask of the low `n` bytes. -/
def byteMask (n : Nat) : W128 := BitVec.ofNat 128 (2 ^ (8 * n) - 1)

/-- Whether a read of `n` bytes at a physical address meets a poisoned part (spec/07 R204). -/
def State.poisoned (s : State) (l : Loc) (n : Nat) : Bool :=
  match l with
  | .phys a => s.poison.any fun p => decide (a < 16 * p + 16) && decide (16 * p < a + n)
  | .shared _ _ => false

/-! ### First-level data caches (spec/07 R179, spec/08 R224, R226) -/

/-- Whether a line is that of an address on a core: the resident one, or the one still to come. -/
def L1Line.holds (x : L1Line) (core pa : Nat) (late : Bool) : Bool := x.core == core && x.line == pa / 256 && x.late == late

/-- The resident 16-byte part of a core's cache that holds an address, or the one still to come. -/
def State.l1Part (s : State) (core pa : Nat) (late : Bool := false) : Option W128 :=
  match s.l1.find? fun x => x.holds core pa late with
  | some x => (x.parts.getD (pa / 16 % 16) none)
  | none => none

/-- `n` bytes of a part from an address within it. -/
def partSlice (p : W128) (pa n : Nat) : W128 := (p >>> (8 * (pa % 16))) &&& byteMask n

/-- A store's update of the resident line it touches on its core, which takes the store's owner tag (spec/07 R203). -/
def State.l1Store (s : State) (core ctx : Nat) (l : Loc) (data mask : W128) : State :=
  match l with
  | .phys a =>
    let sh := 8 * (a % 16)
    { s with l1 := s.l1.map fun x =>
        if x.core = core ∧ x.line = a / 256 then
          { x with ctx, parts := x.parts.mapIdx fun i p =>
              if i = a / 16 % 16 then p.map fun v => mergeMask v (data <<< sh) (mask <<< sh) else p }
        else x }
  | .shared _ _ => s

/-- An atomic's invalidation of the resident line it touches on its core. -/
def State.l1Drop (s : State) (core : Nat) (l : Loc) : State :=
  match l with
  | .phys a => { s with l1 := s.l1.filter fun x => !(x.core == core && x.line == a / 256) }
  | .shared _ _ => s

/-- Lines with one added at the front; a core's full cache loses its oldest (spec/01 R16: 512 KiB; DESIGN CHOICE: log 11). -/
def l1Add (x : L1Line) (l : List L1Line) : List L1Line :=
  (x :: l.filter fun y => y.core == x.core).take Config.l1Lines ++ l.filter fun y => y.core != x.core

/-- A filled part: the line is allocated when absent, and takes the owner tag of the fill (spec/07 R203). -/
def State.l1Fill (s : State) (core ctx pa : Nat) (isSealed : Bool) (v : W128) (late : Bool := false) : State :=
  let set (x : L1Line) : L1Line := { x with ctx, parts := x.parts.set (pa / 16 % 16) (some v) }
  if s.l1.any fun x => x.holds core pa late then
    { s with l1 := s.l1.map fun x => if x.holds core pa late then set x else x }
  else
    { s with l1 := l1Add (set { core, ctx, line := pa / 256, isSealed, parts := List.replicate 16 none, late }) s.l1 }

/-- Whether a unit is a fill that no lane waits for. -/
def OpUnit.isFill (u : OpUnit) : Bool := match u.kind with | .fill => true | _ => false

/-- The invalidation of an acquire at .clus scope or wider: every unsealed line of the core, and its fills in flight. -/
def State.l1Acquire (s : State) (core : Nat) : State :=
  { s with
    l1 := s.l1.filter fun x => x.core != core || x.isSealed,
    ops := s.ops.map fun o =>
      if o.core = core then { o with units := o.units.filter (fun u => !u.isFill) } else o }

/-- The invalidation of every core: the acquires that spec/08 R216 gives to accesses that walk an entry which MAPCOMMIT wrote, or that
touch a region sealed or unsealed, are made when the entry or the seal changes. -/
def State.l1AcquireAll (s : State) : State :=
  { s with l1 := s.l1.filter fun x => x.isSealed, ops := s.ops.map fun o => { o with units := o.units.filter (fun u => !u.isFill) } }

/-! ### Accesses in flight (spec/08 R223-R225) -/

/-- Whether a unit writes at its home. -/
def OpUnit.writes (u : OpUnit) : Bool :=
  match u.kind with
  | .store _ _ => true
  | .atom _ _ _ => true
  | .addRun _ => true
  | .nextw => true
  | _ => false

/-- Whether a unit touches the 256-byte line of a physical address. -/
def OpUnit.onLine (u : OpUnit) (pa : Nat) : Bool :=
  match u.loc with
  | .phys a => a / 256 == pa / 256
  | .shared _ _ => false

/-- Whether a core has a write in flight to the line of an address. -/
def State.lineBusy (s : State) (core pa : Nat) : Bool :=
  s.ops.any fun o => o.core == core && o.units.any fun u => u.writes && u.onLine pa

/-- Whether a name lies below a bound, where there is one. -/
def below (upto : Option Nat) (id : Nat) : Bool := match upto with | some u => decide (id < u) | none => true

/-- Whether an access of the thread set or of a K slot of a block to any of `n` bytes is in flight. -/
def State.opsBusy (s : State) (blk : Nat) (upto : Option Nat) (l : Loc) (n : Nat) : Bool :=
  s.ops.any fun o => o.blk == blk && below upto o.id && o.units.any fun u => !u.isFill && u.loc.overlaps u.n l n

/-- Whether a fixed-latency operation still has to read or write any of `n` bytes of shared memory. -/
def Fixed.touches (x : Fixed) (l : Loc) (n : Nat) : Bool :=
  (x.srcs ++ if x.computed then x.writes.map (·.place) else x.dsts).any fun p =>
    match p with | .mem k => k.overlaps 16 l n | _ => false

/-- Whether a fixed-latency operation of a block's frames still has to access any of `n` bytes. -/
def State.fixedBusy (s : State) (blk : Nat) (upto : Option Nat) (l : Loc) (n : Nat) : Bool :=
  s.frames.any fun f => f.blk == blk && f.fixed.any fun x => below upto x.id && x.touches l n

/-- Whether a block has an access in flight to any of `n` bytes (spec/08 R215, R222, R223; log 11), among those named below a bound
where one is given: the slots of one bundle are not ordered (spec/08 R210). -/
def State.earlierBusy (s : State) (blk : Nat) (l : Loc) (n : Nat) (upto : Option Nat := none) : Bool :=
  s.opsBusy blk upto l n || s.fixedBusy blk upto l n

/-- The piece of a range of locations that an earlier access of the block still touches. -/
def State.earlierPiece (s : State) (blk : Nat) (ps : List (Loc × Nat)) (upto : Option Nat) : Option (Loc × Nat) :=
  ps.find? fun p => s.earlierBusy blk p.1 p.2 upto

/-- Whether a fixed-latency operation still has to write to shared memory. -/
def Fixed.storing (x : Fixed) : Bool :=
  (if x.computed then x.writes.map (·.place) else x.dsts).any fun p => match p with | .mem _ => true | _ => false

/-- Whether an asynchronous operation has a store to another device under way. -/
def AOp.storing (o : AOp) : Bool :=
  (match o.work with
   | .cpyRemote _ _ _ _ _ toRemote _ _ _ => toRemote
   | .remote _ _ _ _ toRemote _ => toRemote
   | _ => false) && o.parts.any fun p => p.sent.isSome

/-- Whether the block's stores issued on its core are all acknowledged: those of its lanes and tile contexts, and those of its
asynchronous operations, which are parties of the block (spec/08 R211, R225). -/
def State.storesDone (s : State) (blk core : Nat) : Bool :=
  !(s.ops.any fun o => o.blk == blk && o.core == core && o.units.any OpUnit.writes) &&
    !(s.frames.any fun f => f.blk == blk && f.fixed.any Fixed.storing) && !s.aops.any fun o => o.blk == blk && o.storing

/-- The operation of a name. -/
def State.op? (s : State) (id : Nat) : Option Op := s.ops.find? fun o => o.id == id

/-- The operations issued before one. -/
def opsBefore (id : Nat) : List Op → List Op
  | [] => []
  | o :: os => if o.id = id then [] else o :: opsBefore id os

/-- Whether a unit may be performed: no earlier access of its block to a common byte is in flight (spec/08 R222, R223), within its
operation units to common bytes act in order, and a load that fills waits for the core's earlier stores to the line. -/
def State.unitReady (s : State) (o : Op) (u : OpUnit) : Bool :=
  let before := opsBefore o.id s.ops
  let clash := before.any fun p => p.blk == o.blk && p.units.any fun v => !v.isFill && v.loc.overlaps v.n u.loc u.n
  let own := u.writes && (o.units.takeWhile fun v => v.name != u.name).any fun v => !v.isFill && v.loc.overlaps v.n u.loc u.n
  let line := match u.kind, u.loc with
    | .load false _ none, .phys a => before.any fun p => p.core == o.core && p.units.any fun v => v.writes && v.onLine a
    | .fill, .phys a => s.lineBusy o.core a
    | _, _ => false
  if u.isFill then !line else !clash && !own && !line && !s.fixedBusy o.blk (some o.id) u.loc u.n

/-- Remove a unit; an operation without units leaves the list. -/
def State.dropUnit (s : State) (id name : Nat) : State :=
  let ops := s.ops.map fun o => if o.id = id then { o with units := o.units.filter (fun u => u.name != name) } else o
  { s with ops := ops.filter (fun o => o.units != []) }

end Sys2Proof.Machine
end

