-- ==== Sys2Proof/Machine/Xlate.lean ====
section
/-! DEFINITION. The address space, the page walk, the TLBs and the checks of an access (spec/07 R173-R186, R197-R202). -/

namespace Sys2Proof.Machine

/-- Causes of spec/10 R264. -/
def cIllegalOpcode : BitVec 8 := 0x01
/-- ILLEGAL_ENCODING. -/
def cIllegalEncoding : BitVec 8 := 0x02
/-- FEATURE. -/
def cFeature : BitVec 8 := 0x03
/-- LATCH_STALE. -/
def cLatchStale : BitVec 8 := 0x04
/-- MISALIGNED. -/
def cMisaligned : BitVec 8 := 0x05
/-- PAGE_FAULT. -/
def cPageFault : BitVec 8 := 0x06
/-- PROTECTION. -/
def cProtection : BitVec 8 := 0x07
/-- BRX_RANGE. -/
def cBrxRange : BitVec 8 := 0x08
/-- REGANG_DEADLOCK. -/
def cRegangDeadlock : BitVec 8 := 0x09
/-- REGPOOL_DEADLOCK. -/
def cRegpoolDeadlock : BitVec 8 := 0x0A
/-- FLARE_REJECT. -/
def cFlareReject : BitVec 8 := 0x0B
/-- USER. -/
def cUser : BitVec 8 := 0x0C
/-- BOUNDS. -/
def cBounds : BitVec 8 := 0x0D
/-- MEM_UNCORRECTABLE. -/
def cMemUncorrectable : BitVec 8 := 0x0E
/-- COLL_PEER_LOST. -/
def cCollPeerLost : BitVec 8 := 0x0F
/-- RING_MISUSE. -/
def cRingMisuse : BitVec 8 := 0x10
/-- GATE_MISMATCH. -/
def cGateMismatch : BitVec 8 := 0x11
/-- STACK_OVERFLOW. -/
def cStackOverflow : BitVec 8 := 0x12
/-- POOL_MISUSE. -/
def cPoolMisuse : BitVec 8 := 0x13
/-- ENGINE_ACCESS. -/
def cEngineAccess : BitVec 8 := 0x14
/-- SHAPE_INVALID. -/
def cShapeInvalid : BitVec 8 := 0x15

/-- A trap from numbers. -/
def mkTrap (cause : BitVec 8) (tinfo : Nat) (taddr : Nat := 0) : Trap :=
  { cause, tinfo := BitVec.ofNat 32 tinfo, taddr := BitVec.ofNat 57 taddr }

/-- Kinds of access, numbered as V3[1:0] of the fault record (spec/07 R189). -/
inductive Acc where
  | load | store | fetch | atomic
  /-- an add-on-store, which reads no permission that a store does not (spec/07 R184, R189) -/
  | addStore
deriving DecidableEq, Repr

/-- Number of a kind. -/
def Acc.code : Acc → Nat
  | .load => 0
  | .store => 1
  | .fetch => 2
  | .atomic => 3
  | .addStore => 3

/-- Permissions of a mapping. -/
structure Perm where
  sys : Bool
  x : Bool
  w : Bool
  r : Bool
deriving DecidableEq, Repr

/-- The end of a page walk; `lost` is one that meets a poisoned table entry (spec/07 R204). -/
inductive Walk where
  | lost
  | page (pa size : Nat) (p : Perm)
  | bad (level : Nat) (malformed : Bool)
  | reserved (pte : Nat) (p : Perm)
deriving DecidableEq, Repr

/-- The levels of the table: level, lowest virtual bit, index bits (spec/07 R181). -/
def walkLevels : List (Nat × Nat × Nat) := [(4, 48, 9), (3, 39, 9), (2, 30, 9), (1, 21, 9), (0, 14, 7)]

/-- Bytes that a leaf at a level maps. -/
def leafSize (level : Nat) : Nat := if level = 2 then 2 ^ 30 else if level = 1 then 2 ^ 21 else 2 ^ 14

/-- Size of the table that an entry at a level names. -/
def nextTable (level : Nat) : Nat := if level = 1 then 1024 else 4096

/-- Permission bits of an entry. -/
def ptePerm (e : W64) : Perm := { sys := bit e 6, x := bit e 5, w := bit e 4, r := bit e 3 }

/-- Whether an entry is malformed (spec/07 R183). -/
def pteMalformed (e : W64) (level : Nat) : Bool :=
  let ty := bits e 1 0
  let pa := bits e 47 10 * 1024
  bits e 63 48 != 0 || bits e 9 7 != 0 || bit e 2 || (bit e 4 && bit e 5) || !physExists pa ||
    (match ty with
     | 1 => level == 0 || bits e 6 3 != 0 || pa % nextTable level != 0
     | 2 => decide (3 ≤ level) || pa % leafSize level != 0
     | 3 => decide (0 < level)
     | _ => false)

/-- The walk from a table (spec/07 R181, R183), with the poisoned parts of memory. -/
def walkFrom (m : List (Nat × Byte)) (poison : List Nat) (va : Nat) : List (Nat × Nat × Nat) → Nat → Walk
  | [], _ => .bad 0 true
  | (level, lo, nb) :: rest, table =>
    let pte := table + 8 * (va / 2 ^ lo % 2 ^ nb)
    let e := BitVec.ofNat 64 (Memory.nat m pte 8)
    if poison.contains (pte / 16) then .lost
    else if pteMalformed e level then .bad level true
    else match bits e 1 0 with
      | 0 => .bad level false
      | 1 => walkFrom m poison va rest (bits e 47 10 * 1024)
      | 2 => .page (bits e 47 10 * 1024) (leafSize level) (ptePerm e)
      | _ => .reserved pte (ptePerm e)

/-- The walk of a context's tables. -/
def State.walk (s : State) (ctx va : Nat) : Walk := walkFrom s.mem s.poison va walkLevels (s.ctx ctx).desc.root

/-- Die of a core. -/
def dieOf (core : Nat) : Nat := core / 80

/-- The TLB entry of a unit that maps an address. -/
def State.tlbHit (s : State) (unit ctx va : Nat) : Option TlbEntry :=
  s.tlb.find? fun t => t.unit == unit && t.ctx == ctx && decide (t.va ≤ va) && decide (va < t.va + t.size)

/-- Translation at a core: its TLB, its die's TLB, else the walk (spec/07 R185). -/
def State.lookup (s : State) (core ctx va : Nat) : Walk :=
  match s.tlbHit core ctx va with
  | some t => .page t.pa t.size { sys := t.sys, x := t.x, w := t.w, r := t.r }
  | none =>
    match s.tlbHit (160 + dieOf core) ctx va with
    | some t => .page t.pa t.size { sys := t.sys, x := t.x, w := t.w, r := t.r }
    | none => s.walk ctx va

/-- A TLB with an entry added at the front; a full one loses its oldest (DESIGN CHOICE for
spec/01 R16, which gives sizes and no replacement rule; log 11). -/
def tlbAdd (cap : Nat) (e : TlbEntry) (l : List TlbEntry) : List TlbEntry :=
  let mine := l.filter fun t => t.unit == e.unit
  let rest := l.filter fun t => t.unit != e.unit
  (e :: mine).take cap ++ rest

/-- The TLB fills of a successful translation. Only TYPE 2 is held (spec/07 R185). -/
def State.tlbFill (s : State) (core ctx va : Nat) : State :=
  match s.tlbHit core ctx va with
  | some _ => s
  | none =>
    match s.lookup core ctx va with
    | .page pa size p =>
      let e (unit : Nat) : TlbEntry :=
        { unit, ctx, va := va / size * size, size, pa, sys := p.sys, x := p.x, w := p.w, r := p.r }
      let l := match s.tlbHit (160 + dieOf core) ctx va with
        | some _ => s.tlb
        | none => tlbAdd 8192 (e (160 + dieOf core)) s.tlb
      { s with tlb := tlbAdd 256 (e core) l }
    | _ => s

/-- Whether an address lies in a region that the context's seals mark read-only (spec/07 R197, R198). -/
def Ctx.sealedAt (c : Ctx) (va : Nat) : Bool := c.seals.any fun e => decide (1 ≤ e.stage) && decide (e.base ≤ va) && decide (va < e.base + e.len)

/-- The device's own access through a context's tables (spec/10 R534): SYS does not forbid it, RD or W must allow it; a region that a
seal marks read-only it does not write (spec/07 R197). -/
def State.devPhys (s : State) (ctx va : Nat) (write : Bool) : Option Nat :=
  if Config.sharedBase ≤ va then none
  else match s.walk ctx va with
    | .page pa size p => if (if write then p.w && !(s.ctx ctx).sealedAt va else p.r) then some (pa + va % size) else none
    | _ => none

/-- The pages of a range of `n` bytes, each by its first byte in the range. -/
def pagesOf (a n : Nat) : List Nat :=
  if n = 0 then [] else (List.range ((a + n - 1) / 16384 - a / 16384 + 1)).map fun i => max a ((a / 16384 + i) * 16384)

/-- Physical addresses of `n` bytes accessed by the device itself, page by page. -/
def State.devRange (s : State) (ctx : Nat) (write : Bool) (va n : Nat) : Option (List Nat) :=
  (pagesOf va n).foldr (fun p acc =>
    match s.devPhys ctx p write, acc with
    | some a, some ps => some ((List.range (min (va + n) ((p / 16384 + 1) * 16384) - p)).map (a + ·) ++ ps)
    | _, _ => none) (some [])

/-- `n` bytes read by the device itself. One that is poisoned (spec/07 R204) it cannot reach (log 21). -/
def State.devRead (s : State) (ctx va n : Nat) : Option (List Byte) :=
  (s.devRange ctx false va n).bind fun ps =>
    if ps.any fun p => s.poisoned (.phys p) 1 then none else some (ps.map (Memory.get s.mem))

/-- A number of `n` bytes read by the device itself. -/
def State.devNat (s : State) (ctx va n : Nat) : Option Nat := (s.devRead ctx va n).map leNat

/-- Bytes written by the device itself; their granules take the context's owner tag (spec/07 R203). -/
def State.devWrite (s : State) (ctx va : Nat) (bs : List Byte) : Option State :=
  (s.devRange ctx true va bs.length).map fun ps =>
    ps.foldl (fun t p => (t.setOwner p ctx).noteWrite p 1) { s with mem := (ps.zip bs).foldl (fun m (p, b) => Memory.set m p b) s.mem }

/-! ### The spill arena (spec/07 R176) -/

/-- The places of a range, in pieces each within a 16-byte part. -/
abbrev Pieces := List (Loc × Nat)

/-- Bytes of an arena slot. -/
def CtxDesc.slotSize (d : CtxDesc) : Nat := ceilDiv (1024 * d.privmax + 196608) 16384 * 16384

/-- Backing address of byte `o` of a block lane's private memory. -/
def arenaAddr (d : CtxDesc) (slot priv lane o : Nat) : Nat := d.arena + slot * d.slotSize + lane * priv + o

/-- Address of the spill area of slice `i` of gang `g`. -/
def spillAddr (d : CtxDesc) (slot g i : Nat) : Nat := d.arena + slot * d.slotSize + 1024 * d.privmax + (g * 8 + i) * 768

/-- Whether an address lies in a spill area of the context. -/
def inSpill (d : CtxDesc) (va : Nat) : Bool :=
  decide (d.arena ≤ va) && decide (va < d.arena + d.aslots * d.slotSize) &&
    (let o := (va - d.arena) % d.slotSize
     decide (1024 * d.privmax ≤ o) && decide (o < 1024 * d.privmax + 196608))

/-! ### Checks of an access (spec/07 R173-R175, R184, R186, R198, R202) -/

/-- Why an access does not proceed. -/
inductive Stop where
  | trap (t : Trap)
  /-- fault service: the address that the page tables translate, and the kind (spec/07 R188, R189) -/
  | serve (va : Nat) (kind : Nat)
  | hold (c : WaitCond)
deriving DecidableEq, Repr

/-- Who performs an access: block (none for a party without one), context, core, lane in the block, whether fault service is open to
it (spec/07 R192), and, for a slot of a bundle, the name bound of the accesses issued before the bundle. -/
structure Who where
  blk : Option Block
  ctx : Nat
  core : Nat
  lane : Option Nat
  service : Bool
  upto : Option Nat := none
deriving DecidableEq, Repr

/-- The block that a shared-window address names, and its offset (spec/07 R174). -/
def State.sharedTarget (s : State) (b : Option Block) (va : Nat) : Option (Block × Nat) :=
  let o := va % 2 ^ 32
  let sel := va / 2 ^ 32 % 8
  if va / 2 ^ 35 % 32 ≠ 0 then none
  else match b with
    | none => none
    | some b =>
      if sel = 0 then some (b, o)
      else if 4 < sel then none
      else (s.blocks.find? fun x => x.cluster == b.cluster && x.crank == sel - 1).map fun x => (x, o)

/-- A shootdown from a record's 32 bytes (spec/07 R200); none for one that is dropped. -/
def shootOf (id i : Nat) (w : W256) : Option Shootdown :=
  if bits w 63 57 ≠ 0 ∨ bits w 95 88 ≠ 0 ∨ bits w 191 128 ≠ 0 ∨ bits w 255 224 ≠ 0 ∨ bits w 56 0 % 16384 ≠ 0 ∨ bits w 127 96 = 0 then none
  else some { id, record := some i, ctx := bits w 75 64, va := bits w 56 0, pages := bits w 127 96, sigtl := some (bits w 87 76),
              dropped := none, done := false }

/-- Whether a shootdown covers an address of a context. -/
def Shootdown.covers (d : Shootdown) (ctx va : Nat) : Bool :=
  d.ctx == ctx && decide (d.va ≤ va) && decide (va < d.va + d.pages * 16384)

/-- The shootdowns of the records that are posted and that the device has not taken yet, `n` records from `i` on (spec/07 R201). -/
def postedFrom (m : List (Nat × Byte)) (base slog : Nat) : Nat → Nat → List Shootdown
  | 0, _ => []
  | n + 1, i =>
    let slot := base + i % 2 ^ slog * 32
    (if Memory.nat m (slot + 24) 4 = i % 2 ^ 32 then (shootOf 0 i (BitVec.ofNat 256 (Memory.nat m slot 32))).toList else []) ++
      postedFrom m base slog n (i + 1)

/-- The same for the device's ring. -/
def State.posted (s : State) : List Shootdown :=
  match s.shootBlock with
  | some (pa, base, slog) => postedFrom s.mem base slog (min (2 ^ slog) (Memory.nat s.mem (pa + 8) 8 - s.shootRead)) s.shootRead
  | none => []

/-- The shootdown that covers an address, between the posting of its record and the moment at which every TLB has dropped the range
(spec/07 R202): writes there are held. -/
def State.shootdownAt (s : State) (ctx va : Nat) : Option Nat :=
  ((s.shootdowns.filter fun d => !d.done && d.dropped.isNone) ++ s.posted).findSome? fun d => if d.covers ctx va then some d.id else none

/-- Step 4 of R186 for one page: the walk. `va` is what the tables translate, `shown` the address reported. -/
def State.checkWalk (s : State) (w : Who) (acc : Acc) (va shown : Nat) : Except Stop (Nat × Perm) :=
  match (if acc = .load ∨ acc = .fetch then none else s.shootdownAt w.ctx va) with
  | some _ => .error (.hold (.remap va))
  | none =>
    match s.lookup w.core w.ctx va with
    | .page pa size p => .ok (pa + va % size, p)
    | .lost => .error (.trap (mkTrap cMemUncorrectable 0 shown))
    | .bad level mal => .error (.trap (mkTrap cPageFault (level + if mal then 8 else 0) shown))
    | .reserved _ _ =>
      if w.service then .error (.serve va acc.code) else .error (.trap (mkTrap cPageFault 0x10 shown))

/-- Step 5 of R186 for one page: permissions, in the order of spec/13 R324. -/
def State.checkPerm (s : State) (w : Who) (acc : Acc) (va shown : Nat) (p : Perm) : Except Stop Unit :=
  let c := s.ctx w.ctx
  if p.sys || inSpill c.desc va then .error (.trap (mkTrap cProtection 4 shown))
  else match acc with
    | .fetch => if p.x then .ok () else .error (.trap (mkTrap cProtection 3 shown))
    | .load => if p.r then .ok () else .error (.trap (mkTrap cProtection 5 shown))
    | .store | .addStore => if !p.w || c.sealedAt va then .error (.trap (mkTrap cProtection 2 shown)) else .ok ()
    | .atomic =>
      if !p.w || c.sealedAt va then .error (.trap (mkTrap cProtection 2 shown))
      else if p.r then .ok () else .error (.trap (mkTrap cProtection 5 shown))

/-- The regions of the address space (spec/07 R173). -/
inductive Region where
  | global | shared | local_
deriving DecidableEq, Repr

/-- Region of an address below 2^57. -/
def regionOf (va : Nat) : Region :=
  if va < Config.sharedBase then .global else if va < Config.localBase then .shared else .local_

/-- Step 3 of R186: the location of a shared access, the global address to translate, or BOUNDS. -/
def State.checkRegion (s : State) (w : Who) (va n : Nat) : Except Stop (Loc ⊕ Nat) :=
  match regionOf va with
  | .global =>
    if Config.sharedBase < va + n then .error (.trap (mkTrap cBounds 0x20 Config.sharedBase)) else .ok (.inr va)
  | .shared =>
    if Config.localBase < va + n then .error (.trap (mkTrap cBounds 0x20 Config.localBase))
    else match s.sharedTarget w.blk va with
      | none => .error (.trap (mkTrap cBounds 0x20 va))
      | some (b, o) =>
        if b.kernel.shared < o + n then .error (.trap (mkTrap cBounds 0x20 (va + (b.kernel.shared - o))))
        else .ok (.inl (.shared b.uid o))
  | .local_ =>
    match w.blk, w.lane with
    | some b, some l =>
      let o := va - Config.localBase
      if b.kernel.priv < o + n then .error (.trap (mkTrap cBounds 0x21 (va + (b.kernel.priv - o))))
      else .ok (.inr (arenaAddr (s.ctx w.ctx).desc b.slot b.kernel.priv l o))
    | _, _ => .error (.trap (mkTrap cBounds 0x21 va))

/-- Steps 1 and 2 of R186. -/
def checkForm (va : W64) (align : Nat) : Except Stop Unit :=
  if bits va 63 57 ≠ 0 then .error (.trap (mkTrap cProtection 1 va.toNat))
  else if va.toNat % align ≠ 0 then .error (.trap (mkTrap cMisaligned 0 va.toNat))
  else .ok ()

/-- One access of `n` bytes that lies within a page: the five steps of R186. -/
def State.check (s : State) (w : Who) (acc : Acc) (va : W64) (n align : Nat) : Except Stop Loc := do
  checkForm va align
  match ← s.checkRegion w va.toNat n with
  | .inl l => .ok l
  | .inr g =>
    let (pa, p) ← s.checkWalk w acc g va.toNat
    s.checkPerm w acc g va.toNat p
    .ok (.phys pa)

/-- The pieces of a range: each ends at a 16-byte part's end. `fuel` counts pieces. -/
def pieces : Nat → Nat → Nat → List (Nat × Nat)
  | 0, _, _ => []
  | f + 1, a, n => if n = 0 then [] else
      let k := min n (16 - a % 16)
      (a, k) :: pieces f (a + k) (n - k)

/-- A range of `n` bytes: form, region, every page's walk, then every page's permissions; the 16-byte pieces with their
locations (spec/07 R186, spec/04 R106). -/
def State.checkRange (s : State) (w : Who) (acc : Acc) (va : W64) (n align : Nat) : Except Stop (List (Loc × Nat)) := do
  checkForm va align
  if n = 0 then return []
  match ← s.checkRegion w va.toNat n with
  | .inl l => return (pieces (n / 16 + 2) va.toNat n).map fun (a, k) => (l.plus (a - va.toNat), k)
  | .inr g =>
    let shown (a : Nat) := va.toNat + (a - g)
    let maps ← (pagesOf g n).mapM fun a => (s.checkWalk w acc a (shown a)).map fun (pa, p) => (a, pa, p)
    let _ ← maps.mapM fun (a, _, p) => s.checkPerm w acc a (shown a) p
    return (pieces (n / 16 + 2) g n).map fun (a, k) =>
      match maps.find? fun (b, _, _) => b / 16384 == a / 16384 with
      | some (b, pa, _) => (.phys (pa + (a - b)), k)
      | none => (.phys 0, k)

/-- The TLB fills of an access: the pages of its range in the space that the tables translate. -/
def State.fillWho (s : State) (w : Who) (va n : Nat) : State :=
  match s.checkRegion w va n with
  | .ok (.inr g) => (pagesOf g n).foldl (fun t a => t.tlbFill w.core w.ctx a) s
  | _ => s

/-- Whether a physical address lies in a region of a context's address space, page by page. -/
def State.inRegion (s : State) (ctx base len pa : Nat) : Bool :=
  (List.range (len / 16384)).any fun k =>
    match s.walk ctx (base + 16384 * k) with
    | .page p size _ => decide (pa / 16384 = (p + (base + 16384 * k) % size) / 16384)
    | _ => false

/-- Whether a physical address lies in a region whose seal entry is valid (spec/07 R197): its lines carry the seal mark. -/
def State.sealedPa (s : State) (ctx pa : Nat) : Bool :=
  (s.ctx ctx).seals.any fun e => decide (2 ≤ e.stage) && s.inRegion ctx e.base e.len pa

end Sys2Proof.Machine
end

