-- ==== Sys2Proof/Machine/Groups.lean ====
section
/-! DEFINITION. The mask stack of a slice and the slice groups of a gang (spec/02 R29-R49). -/

namespace Sys2Proof.Machine

/-! ### The mask stack; entries are listed bottom first -/

/-- Whether an entry is a rejoin entry with a tag. -/
def Entry.isRejoin (e : Entry) (g : BitVec 6) : Bool := e.kind == .rejoin && e.tag == g

/-- The rejoin entry with a tag. -/
def rejoinOf (st : List Entry) (g : BitVec 6) : Option Entry := st.find? fun e => e.isRejoin g

/-- Tag `h` descends from tag `g` (spec/02 R32); `fuel` bounds the chain of OUTER tags. -/
def descends (st : List Entry) (g : BitVec 6) : Nat → BitVec 6 → Bool
  | 0, h => h == g
  | fuel + 1, h => h == g || (match rejoinOf st h with | some e => descends st g fuel e.outer | none => false)

/-- Position of the lowest path entry whose tag descends from `g`. -/
def lowestDesc (st : List Entry) (g : BitVec 6) : Option Nat :=
  st.findIdx? fun e => e.kind == .path && descends st g st.length e.tag

/-- Whether the stack holds a path entry. -/
def Slice.hasPath (x : Slice) : Bool := x.stack.any fun e => e.kind == .path

/-- Whether the slice has exited (spec/02 R35). -/
def Slice.exited (x : Slice) : Bool := x.gone == 15

/-- run_lowest_descendant for the entry at a position (spec/02 R34). The path that resumes begins to run: its issues are counted
anew (R49). -/
def Slice.runEntry (x : Slice) (i : Nat) : Slice :=
  match x.stack[i]? with
  | some e =>
    { x with stack := x.stack.eraseIdx i, active := e.mask, pc := e.pc, fmt := e.fmt, dtag := e.tag, issued := 0 }
  | none => x

/-- JOIN at an address (spec/02 R34). Where it closes the divergence, the count of R49 starts anew for the lanes that go on (log
25). -/
def Slice.join (x : Slice) (at_ : VAddr) : Slice :=
  if x.dtag = 63 then { x with pc := at_ + 8 }
  else match x.stack.findIdx? (fun e => e.isRejoin x.dtag) with
    | none => { x with pc := at_ + 8 }
    | some j =>
      match lowestDesc x.stack x.dtag, x.stack[j]? with
      | some i, some e =>
        let st := if e.arr then x.stack else x.stack.set j { e with pc := at_, arr := true }
        ({ x with stack := st } : Slice).runEntry i
      | none, some e =>
        { x with stack := x.stack.eraseIdx j, dtag := e.outer, fmt := e.fmt, active := e.mask &&& ~~~x.gone,
                 pc := at_ + 8, issued := 0 }
      | _, none => x

/-- running_path_empty (spec/02 R35): no lane of the running path is left. The lanes that resume are counted anew (R49; log 25). -/
def Slice.pathEmpty : Nat → Slice → Slice
  | 0, x => x
  | fuel + 1, x =>
    match lowestDesc x.stack x.dtag with
    | some i => x.runEntry i
    | none =>
      if x.dtag = 63 then x
      else match x.stack.findIdx? (fun e => e.isRejoin x.dtag) with
        | none => x
        | some j =>
          match x.stack[j]? with
          | none => x
          | some e =>
            let y := { x with stack := x.stack.eraseIdx j, dtag := e.outer, fmt := e.fmt, active := e.mask, issued := 0 }
            if e.mask ≠ 0 then { y with pc := e.pc + 8 } else Slice.pathEmpty fuel y

/-- Lanes of the slice exit (spec/02 R35). A slice that has then exited is not in trap mode (spec/14 R361). -/
def Slice.exitLanes (x : Slice) (lanes : BitVec 4) : Slice :=
  let y : Slice := { x with
    active := x.active &&& ~~~lanes, gone := x.gone ||| lanes,
    stack := (x.stack.map fun e => { e with mask := e.mask &&& ~~~lanes }).filter fun e => e.kind == .rejoin || e.mask != 0 }
  let z := if y.active = 0 then y.pathEmpty (y.stack.length + 1) else y
  if z.gone = 15 then { z with trapMode := none, wait := .none, again := .fresh } else z

/-- The lowest tag 0-62 that no rejoin entry holds. -/
def freeTag (st : List Entry) : BitVec 6 :=
  ((List.range 63).map (BitVec.ofNat 6)).find? (fun t => (rejoinOf st t).isNone) |>.getD 0

/-- diverge (spec/02 R33). The PC of a rejoin entry is 0 until its ARR is set (DESIGN CHOICE; log 25). `first` is the path that runs, with its lanes and next address, `others` the remaining paths
in ascending order of their lowest lanes. None: the stack would pass 64 entries. -/
def Slice.diverge (x : Slice) (first : BitVec 4 × VAddr) (others : List (BitVec 4 × VAddr)) : Option Slice :=
  if 64 < x.stack.length + 1 + others.length then none
  else
    let g := freeTag x.stack
    let rj : Entry := { kind := .rejoin, pc := 0, fmt := x.fmt, mask := x.active, outer := x.dtag, tag := g, arr := false, waited := 0 }
    let ps := others.map fun (m, pc) =>
      ({ kind := .path, pc, fmt := x.fmt, mask := m, outer := 0, tag := g, arr := false, waited := 0 } : Entry)
    some { x with stack := x.stack ++ rj :: ps, dtag := g, active := first.1, pc := first.2, issued := 0 }

/-- Rotation with the running path's next address (spec/02 R49). -/
def Slice.rotate (x : Slice) (pc : VAddr) : Slice :=
  let e : Entry := { kind := .path, pc, fmt := x.fmt, mask := x.active, outer := 0, tag := x.dtag, arr := false, waited := 0 }
  let y : Slice := { x with stack := x.stack ++ [e], wait := .none, again := .fresh }
  match y.stack.findIdx? (fun e => e.kind == .path) with
  | some i => y.runEntry i
  | none => y

/-- Whether the slice must rotate at its next instruction boundary (spec/02 R49). A path that has just begun to run issues once before an
entry that has waited 2,048 cycles displaces it: R52 counts one rotation for each issue. -/
def Slice.mustRotate (x : Slice) : Bool :=
  match x.stack.find? (fun e => e.kind == .path) with
  | none => false
  | some e => decide (64 ≤ x.issued) || decide (0 < x.issued ∧ 2048 ≤ e.waited)

/-- The 128 bits of an entry (spec/02 R31). -/
def Entry.bits (e : Entry) : W128 :=
  let kind := match e.kind with | .rejoin => 0 | .path => 1 | .call => 2
  BitVec.ofNat 128 (e.pc.toNat / 8 * 2 ^ 74 + e.fmt.toNat * 2 ^ 42 + e.mask.toNat * 2 ^ 38 + e.outer.toNat * 2 ^ 32 +
    e.tag.toNat * 2 ^ 26 + kind * 2 ^ 24 + (if e.arr then 2 ^ 23 else 0))

/-- The fields of an entry of 128 bits. Of one that R31 forbids, KIND 3 is read as 2. -/
def Entry.ofBits (w : W128) : Entry :=
  let kind := Sys2Proof.bits w 25 24
  { kind := if kind = 0 then .rejoin else if kind = 1 then .path else .call,
    pc := BitVec.ofNat 57 (Sys2Proof.bits w 127 74 * 8), fmt := w.extractLsb' 42 32, mask := w.extractLsb' 38 4,
    outer := w.extractLsb' 32 6, tag := w.extractLsb' 26 6, arr := bit w 23, waited := 0 }

/-- Whether R31 allows an entry of 128 bits. -/
def Entry.allowed (w : W128) : Bool :=
  let kind := Sys2Proof.bits w 25 24
  kind != 3 && Sys2Proof.bits w 22 0 == 0 && (kind == 0 || Sys2Proof.bits w 37 32 == 0 && !bit w 23) &&
    (kind != 2 || Sys2Proof.bits w 73 42 == 0)

/-! ### Slice groups -/

/-- Members of a group: its slices that have not exited, ascending (a gang has 1 to 8 slices, spec/02 R26). -/
def Gang.members (g : Gang) (id : Nat) : List Nat :=
  (List.range 8).filter fun i =>
    match g.slices[i]? with
    | some x => x.group == id && !x.exited
    | none => false

/-- A name that no group of the gang has, and none of its slices. -/
def Gang.newGroup (g : Gang) : Nat :=
  g.slices.foldl (fun n x => max n (x.group + 1)) (g.groups.foldl (fun n r => max n (r.id + 1)) 0)

/-- Slices of a gang that have not exited. -/
def Gang.live (g : Gang) : List Nat :=
  (List.range 8).filter fun i => match g.slices[i]? with | some x => !x.exited | none => false

/-- Slices listed move into a new group with the given registers. -/
def Gang.regroup (g : Gang) (ms : List Nat) (s : List W64) (q : BitVec 8) : Gang :=
  let id := g.newGroup
  { g with
    slices := g.slices.mapIdx fun i x => if ms.contains i then { x with group := id } else x,
    groups := g.groups ++ [{ id, s, q, age := 0 }] }

/-- Groups of which every slice has exited or left cease to exist. -/
def Gang.dropEmpty (g : Gang) : Gang := { g with groups := g.groups.filter fun r => !(g.members r.id).isEmpty }

/-- What a group's slices must share to stay in it: the program counter, and, after R46, whether they wait. -/
def Slice.partKey (x : Slice) : Nat := 2 * x.pc.toNat + (if x.wait = .none then 0 else 1)

/-- Parting of a group (spec/02 R39): one group for each distinct program counter. The part that holds the lowest slice
keeps the group's name, and its age; every other part takes a copy of its registers and is the group that becomes one, of age 0 (DESIGN
CHOICE for R50; log 25). `fuel` counts parts. -/
def Gang.part : Nat → Nat → Gang → Gang
  | 0, _, g => g
  | fuel + 1, id, g =>
    match g.members id, g.groups.find? (fun r => r.id == id) with
    | m :: ms, some r =>
      match g.slices[m]? with
      | none => g
      | some x =>
        let rest := ms.filter fun i => match g.slices[i]? with | some y => y.partKey != x.partKey | none => false
        if rest.isEmpty then g
        else Gang.part fuel g.newGroup (g.regroup rest r.s r.q)
    | _, _ => g

/-- Parting of a group, and the groups left empty dropped. -/
def Gang.settle (g : Gang) (id : Nat) : Gang := Gang.dropEmpty (Gang.part 8 id g)

/-- Slices merge into one group with the registers of the group that holds the lowest of them (spec/02 R42). -/
def Gang.merge (g : Gang) (ms : List Nat) : Gang :=
  match ms with
  | [] => g
  | m :: _ =>
    match g.slices[m]? with
    | none => g
    | some x =>
      match g.groups.find? (fun r => r.id == x.group) with
      | none => g
      | some r => (g.regroup ms r.s r.q).dropEmpty

/-! ### The issuing group -/

/-- The group that issues: its block, gang, registers and members. -/
structure View where
  b : Block
  g : Gang
  r : Group
  m : List Nat
deriving DecidableEq, Repr

/-- The view of the issuing group. -/
def State.view? (s : State) : Option View :=
  match s.cur with
  | .group bu gn gi =>
    match s.block? bu with
    | none => none
    | some b =>
      match b.gang? gn with
      | none => none
      | some g =>
        match g.groups.find? (fun r => r.id == gi), g.members gi with
        | some r, m :: ms => some { b, g, r, m := m :: ms }
        | _, _ => none
  | _ => none

/-- A slice of the issuing gang. -/
def View.slice (v : View) (i : Nat) : Slice :=
  v.g.slices.getD i
    { group := 0, pc := 0, active := 0, gone := 15, fmt := 0, fflags := 0, stack := [], dtag := 63, yValid := 0,
      tcause := 0, tpc := 0, taddr := 0, tinfo := 0, gframe := 0, tstat := 0, trapMode := none, wait := .none,
      again := .fresh, issued := 0, memErr := false }

/-- The lowest slice of the group. -/
def View.low (v : View) : Nat := v.m.headD 0

/-- Address of the instruction that issues. -/
def View.pc (v : View) : VAddr := (v.slice v.low).pc

/-- Active lanes of the group, ascending (spec/02 R28). -/
def View.lanes (v : View) : List Nat :=
  v.m.flatMap fun i => ((List.range 4).filter fun l => bit (v.slice i).active l).map fun l => 4 * i + l

/-- The issuer's name. -/
def View.issuer (v : View) : Issuer := .group v.b.uid v.g.name v.r.id

/-- The FMT that governs a lane. -/
def View.fmt (v : View) (lane : Nat) : W32 := (v.slice (lane / 4)).fmt

/-- Replace the issuing gang in the state. -/
def State.updIssuer (s : State) (v : View) (f : Gang → Gang) : State := s.updGang v.b.uid v.g.name f

/-- Replace slices of the issuing gang. -/
def State.updSlices (s : State) (v : View) (is : List Nat) (f : Nat → Slice → Slice) : State :=
  s.updIssuer v fun g => { g with slices := g.slices.mapIdx fun i x => if is.contains i then f i x else x }

/-- Replace the registers of the issuing group. -/
def State.updGroup (s : State) (v : View) (f : Group → Group) : State :=
  s.updIssuer v fun g => { g with groups := g.groups.map fun r => if r.id = v.r.id then f r else r }

/-- The members continue `n` bytes on. -/
def State.advance (s : State) (v : View) (n : Nat) : State :=
  s.updSlices v v.m fun _ x => { x with pc := x.pc + BitVec.ofNat 57 n, again := .fresh }

/-- The number of a lane among the lanes of its block by gang number, which places its private memory (spec/07 R176). -/
def Gang.laneIndex (g : Gang) (lane : Nat) : Nat := g.no * 32 + lane

/-- Who a lane's access belongs to. Fault service is closed to gangs started from the fault handler's index (R192). -/
def State.whoLane (s : State) (v : View) (lane : Option Nat) : Who :=
  let c := (s.ctx v.b.ctx).desc
  { blk := some v.b, ctx := v.b.ctx, core := v.b.core, lane := lane.map v.g.laneIndex,
    service := match v.b.handler with | some h => h.hidx != c.fhidx | none => true }

end Sys2Proof.Machine
end

