-- ==== Sys2Proof/Machine/Operands.lean ====
section
/-! DEFINITION. Operands of thread words: registers, predicates, latches and constants, guards, and the writes of results
(spec/11 R294-R299, spec/05 R124). -/

namespace Sys2Proof.Machine

/-! ### Registers -/

/-- A lane of a V register; one never written is free (log 6). -/
def Gang.vreg (g : Gang) (r lane : Nat) : W32 :=
  (assocGet (r * 32 + lane) g.v).getD (Config.freeWord (2 * g.name) (r * 32 + lane))

/-- A lane of a latch; in a lane that no capture wrote it is free (log 6). -/
def Gang.latch (g : Gang) (k lane : Nat) : W32 :=
  (assocGet (k * 32 + lane) g.y).getD (Config.freeWord (2 * g.name) (8192 + k * 32 + lane))

/-- `n` consecutive V registers of a lane, the lowest first in the bits. -/
def Gang.vwide (g : Gang) (r lane : Nat) : Nat → Nat
  | 0 => 0
  | n + 1 => (g.vreg r lane).toNat + 2 ^ 32 * g.vwide (r + 1) lane n

/-- Write `n` consecutive V registers of a lane. -/
def Gang.setV (g : Gang) (r lane : Nat) : Nat → Nat → Gang
  | 0, _ => g
  | n + 1, x => Gang.setV { g with v := assocSet (r * 32 + lane) (BitVec.ofNat 32 x) g.v } (r + 1) lane n (x / 2 ^ 32)

/-- An S register. -/
def Group.sreg (r : Group) (n : Nat) : W64 := r.s.getD n 0

/-- Predicate P of a lane; P0 reads true (spec/11 R294). -/
def Gang.pred (g : Gang) (n lane : Nat) : Bool := n == 0 || bit (g.p.getD lane 0) n

/-- How an inline constant reads (spec/11 R295). -/
inductive OpK where
  | int
  | cvt (t : CvtTy)
  | half (bf : Bool)
deriving DecidableEq, Repr

/-- The float format of a conversion type. -/
def cvtFF : CvtTy → Option FF
  | .f32 => some .f32
  | .f16 => some .f16
  | .bf16 => some .bf16
  | .e4m3 => some .e4m3
  | .e5m2 => some .e5m2
  | .e2m1 => some .e2m1
  | _ => none

/-- An inline constant as an operand of `w` bits. -/
def constOf (k : OpK) (w : Nat) (c : BitVec 7) : Nat :=
  match k with
  | .int => (BitVec.ofInt w c.toInt).toNat
  | .cvt t =>
    (match cvtFF t with
     | none => (BitVec.ofInt w c.toInt).toNat
     | some f =>
       let (x, fl) := f.encode {} (FV.ofInt c.toInt)
       if fl = 0 then x else (Config.freeConst t c).toNat % 2 ^ f.width)
  | .half bf =>
    let x := (FF.encode (if bf then .bf16 else .f16) {} (FV.ofInt c.toInt)).1
    x + 65536 * x

/-- A source of `w` bits (32, 64 or 128) in a lane (spec/11 R295, R296). -/
def View.src (v : View) (k : OpK) (w lane : Nat) : Src → Nat
  | .v n => v.g.vwide n.toNat lane (w / 32)
  | .s n => ((v.r.sreg n.toNat).toNat + (if w = 128 then 2 ^ 64 * (v.r.sreg (n.toNat + 1)).toNat else 0)) % 2 ^ w
  | .y n => (v.g.latch n.toNat lane).toNat
  | .imm c => constOf k w c

/-- A uniform source: an S register or a constant. -/
def View.uni (v : View) (w : Nat) (x : Src) : Nat := v.src .int w 0 x

/-- The first source that names an invalid latch, as the trap it raises (spec/11 R299). -/
def View.stale (v : View) : List Src → Option Trap
  | [] => none
  | .y n :: xs =>
    if v.m.all fun i => bit (v.slice i).yValid n.toNat then v.stale xs else some (mkTrap cLatchStale n.toNat)
  | _ :: xs => v.stale xs

/-! ### Guards -/

/-- A per-lane guard. -/
def View.guard (v : View) (g : Guard) (lane : Nat) : Bool := v.g.pred g.p.toNat lane != g.neg

/-- A guard of format B. -/
def View.bguard (v : View) (g : BGuard) (lane : Nat) : Bool :=
  (if g.qg then bit v.r.q g.p.toNat else v.g.pred g.p.toNat lane) != g.neg

/-- Active lanes whose guard is true. -/
def View.exec (v : View) (g : Guard) : List Nat := v.lanes.filter (v.guard g)

/-- Active lanes whose format-B guard is true. -/
def View.bexec (v : View) (g : BGuard) : List Nat := v.lanes.filter (v.bguard g)

/-- The guard that an instruction with the always-false guard 0b1000 has. -/
def neverGuard (never : Bool) : Guard := { neg := never, p := 0 }

/-- The FMT that governs a result computed once for the group (log 13). -/
def View.groupFmt (v : View) (lanes : List Nat) : W32 := v.fmt (lanes.headD (4 * v.low))

/-! ### Results -/

/-- Write V registers in lanes: lane and value of `n` registers. -/
def State.putV (s : State) (v : View) (d n : Nat) (vals : List (Nat × Nat)) : State :=
  s.updIssuer v fun g => vals.foldl (fun g x => g.setV d x.1 n x.2) g

/-- The capture of a latch: lanes written with their values; the other lanes of a slice in which the latch was invalid
hold an undefined value (spec/11 R298). -/
def State.capture (s : State) (v : View) (k : Nat) (vals : List (Nat × Nat)) : State :=
  let stale := v.m.filter fun i => !bit (v.slice i).yValid k
  let undef := stale.flatMap fun i => (List.range 4).map fun l => 4 * i + l
  let t := s.updIssuer v fun g =>
    let y0 := undef.foldl (fun y l => assocSet (k * 32 + l) (Config.freeWord (2 * s.ctr + 1) (k * 32 + l)) y) g.y
    { g with
      y := vals.foldl (fun y x => assocSet (k * 32 + x.1) (BitVec.ofNat 32 x.2) y) y0,
      slices := g.slices.mapIdx fun i x => if v.m.contains i then { x with yValid := x.yValid ||| BitVec.ofNat 4 (2 ^ k) } else x }
  { t with ctr := s.ctr + 1 }

/-- A result of `w` bits to a V destination in lanes. -/
def State.putVDst (s : State) (v : View) (d : VDst) (w : Nat) (vals : List (Nat × Nat)) : State :=
  let t := if d.nwb then s else s.putV v d.n.toNat (max w 32 / 32) vals
  t.capture v d.latch.toNat vals

/-- Write S registers of the issuing group: `w` bits, zero-extended to whole registers (spec/11 R295). -/
def State.putS (s : State) (v : View) (n w x : Nat) : State :=
  s.updGroup v fun r =>
    let s1 := putAt 64 0 r.s n (BitVec.ofNat 64 (x % 2 ^ w))
    { r with s := if w = 128 then putAt 64 0 s1 (n + 1) (BitVec.ofNat 64 (x / 2 ^ 64)) else s1 }

/-- A result of `w` bits to an S destination, written when some lane executes. -/
def State.putSDst (s : State) (v : View) (d : SDst) (w : Nat) (lanes : List Nat) (x : Nat) : State :=
  let t := if d.nwb || lanes.isEmpty then s else s.putS v d.n.toNat w x
  t.capture v d.latch.toNat (lanes.map fun l => (l, x))

/-- Predicate P in lanes; P0 keeps reading true. -/
def State.putP (s : State) (v : View) (n : Nat) (vals : List (Nat × Bool)) : State :=
  if n = 0 then s
  else s.updIssuer v fun g =>
    { g with p := vals.foldl (fun p x =>
        putAt 32 0 p x.1 (let b := p.getD x.1 0; if x.2 then b ||| BitVec.ofNat 8 (2 ^ n) else b &&& ~~~BitVec.ofNat 8 (2 ^ n))) g.p }

/-- Predicate Q of the issuing group. -/
def State.putQ (s : State) (v : View) (n : Nat) (x : Bool) : State :=
  s.updGroup v fun r => { r with q := if x then r.q ||| BitVec.ofNat 8 (2 ^ n) else r.q &&& ~~~BitVec.ofNat 8 (2 ^ n) }

/-- Flags of lanes, ORed into their slices (spec/05 R124). -/
def State.orFlags (s : State) (v : View) (fl : List (Nat × FlagSet)) : State :=
  s.updSlices v v.m fun i x => { x with fflags := fl.foldl (fun f y => if y.1 / 4 = i then f ||| y.2 else f) x.fflags }

/-! ### Outcomes of an instruction -/

/-- What an instruction comes to. `next`: the members continue past it; `moved`: their program counters and waits are
already set; `trap`: no effect but the trap; `hold`: no effect, it issues again when the condition is met; `serve`:
no effect, fault service; `kill`: the context is killed with a cause. -/
inductive Res where
  | next (s : State)
  | moved (s : State)
  | trap (t : Trap)
  | hold (c : WaitCond)
  | serve (va kind : Nat)
  | kill (cause : Nat)
deriving DecidableEq, Repr

/-- A failed check as an outcome. -/
def Stop.res : Stop → Res
  | .trap t => .trap t
  | .serve va k => .serve va k
  | .hold c => .hold c

/-- The outcome when a source names an invalid latch, else the rest of the instruction. -/
def View.fresh (v : View) (xs : List Src) (r : Res) : Res :=
  match v.stale xs with
  | some t => .trap t
  | none => r

end Sys2Proof.Machine
end

