-- ==== Sys2Proof/Machine/Send.lean ====
section
/-! DEFINITION. Sending packets, and the groups of collectives (spec/09 R232-R234, R251, R252, R256, R260). -/

namespace Sys2Proof.Machine

/-! ### Packets -/

/-- The next sequence number of a path from this device (spec/09 R233). -/
def State.pathSeq (s : State) (dev prio : Nat) : Nat :=
  match s.seqs.find? fun x => x.1 == dev && x.2.1 == prio with
  | some x => x.2.2
  | none => 0

/-- The path's next number taken. -/
def State.bumpSeq (s : State) (dev prio : Nat) : State :=
  let n := (s.pathSeq dev prio + 1) % 2 ^ 16
  { s with seqs := (dev, prio, n) :: s.seqs.filter fun x => !(x.1 == dev && x.2.1 == prio) }

/-- A packet with no payload, from this device. -/
def State.packet (s : State) (kind : Nat) (ddev dctx sctx prio : Nat) : Packet :=
  { kind := BitVec.ofNat 4 kind, flags := 0, seq := 0, stag := 0, sctx := BitVec.ofNat 12 sctx, sdev := s.devid,
    prio := BitVec.ofNat 2 prio, hidx := 0, dctx := BitVec.ofNat 12 dctx, ddev := BitVec.ofNat 19 ddev, addr := 0, len := 0,
    nflit := 0, reserved := 0, checkOk := true, data := [] }

/-- Whether a device can be reached: the route table lists a port for it (spec/09 R234). -/
def State.routed (s : State) (dev : Nat) : Bool :=
  dev == s.devid.toNat || s.routes.any fun r => r.1 == dev && !r.2.isEmpty

/-- The port of a path from this device: a fixed hash over the ports of its destination (spec/09 R252). -/
def State.portOf (s : State) (dev prio : Nat) : Nat :=
  let ps := (assocGet dev s.routes).getD []
  ps.getD (Config.routeHash s.devid.toNat dev prio % ps.length) 0

/-- The port that a packet leaves by. -/
def State.port (s : State) (p : Packet) : Nat := s.portOf p.ddev.toNat p.prio.toNat

/-- A packet put among those that leave, with its time: behind the last of its port of its own class or a higher one, ahead of the lower
ones that follow that (spec/09 R251). -/
def State.depart (s : State) (p : Packet) : State :=
  let first (q : Nat × Packet) : Bool := s.port q.2 == s.port p && decide (p.prio.toNat ≤ q.2.prio.toNat)
  let after := (s.fabOut.reverse.takeWhile fun q => !first q).reverse
  { s with fabOut := s.fabOut.take (s.fabOut.length - after.length) ++ (s.time.toNat, p) :: after }

/-- A packet takes its path's number and leaves: to this device's own intake and agents, or to a port. None: no route. -/
def State.send (s : State) (p : Packet) : Option (Packet × State) :=
  let d := p.ddev.toNat
  if !s.routed d then none
  else
    let q := { p with seq := BitVec.ofNat 16 (s.pathSeq d p.prio.toNat) }
    let t := s.bumpSeq d p.prio.toNat
    some (q, if d = s.devid.toNat then { t with selfPkts := t.selfPkts ++ [q] } else t.depart q)

/-! ### Groups (spec/09 R256) -/

/-- A group-table entry within its limits (spec/09 R256): members, rank, address of the member words. -/
def State.groupEntry (s : State) (ctx g : Nat) : Option (Nat × Nat × Nat) :=
  let d := (s.ctx ctx).desc
  if d.gcount ≤ g then none
  else match s.devRead ctx (d.gtab + 32 * g) 32 with
    | none => none
    | some bs =>
      let w : W256 := BitVec.ofNat 256 (leNat bs)
      let size := bits w 19 0
      let rank := bits w 51 32
      let mem := bits w 120 64
      if bits w 31 20 ≠ 0 ∨ bits w 63 52 ≠ 0 ∨ bits w 127 121 ≠ 0 ∨ bits w 255 128 ≠ 0 ∨ size < 2 ∨ 524288 < size ∨ size ≤ rank ∨
          mem % 4 ≠ 0 then none
      else some (size, rank, mem)

/-- Member `r` of a group: device and context. The reserved bit 31 of another rank's word is not looked at (DESIGN CHOICE; log 23). -/
def State.groupMember (s : State) (ctx mem r : Nat) : Option (Nat × Nat) :=
  (s.devNat ctx (mem + 4 * r) 4).map fun w => (w / 2 ^ 12 % 2 ^ 19, w % 2 ^ 12)

/-- A packet without payload of a collective's engines to a member, in priority class 0; one without a route does not leave. -/
def State.sendMember (s : State) (kind ctx g : Nat) (m : Nat × Nat) (f : Packet → Packet) : State :=
  match s.send (f { s.packet kind m.1 m.2 ctx 0 with hidx := BitVec.ofNat 12 g }) with
  | some (_, t) => t
  | none => s

/-- The members of a group but one rank; those whose words cannot be read are left out. -/
def State.otherMembers (s : State) (ctx mem m rank : Nat) : List (Nat × Nat) :=
  ((List.range m).filter (· != rank)).filterMap (s.groupMember ctx mem)

/-- The aborts of a killed context: a KIND 7 packet to every other member of each group whose entry names the context (spec/09 R260;
log 23). -/
def State.sendAborts (s : State) (c : Nat) : State :=
  (List.range (s.ctx c).desc.gcount).foldl (fun t g =>
    match s.groupEntry c g with
    | some (m, rank, mem) =>
      if s.groupMember c mem rank = some (s.devid.toNat, c) then
        (s.otherMembers c mem m rank).foldl (fun t x => t.sendMember 7 c g x id) t
      else t
    | none => t) s

end Sys2Proof.Machine
end

