-- ==== Sys2Proof/Machine/Ops.lean ====
section
/-! DEFINITION. The operations that several instructions share: signals of timelines, exits of lanes, barriers and merges,
the end of gangs and blocks, kills, and taking a trap and returning from one (spec/02, spec/10). -/

namespace Sys2Proof.Machine

/-! ### Contexts and timelines -/

/-- Set a sticky bit of CERR (spec/10 R273). -/
def State.setCerr (s : State) (c k : Nat) : State := s.updCtx c fun x => { x with cerr := x.cerr ||| BitVec.ofNat 7 (2 ^ k) }

/-- The control entry of a device timeline (spec/03 R63). -/
def State.timeline (s : State) (t : Nat) : Timeline :=
  (s.timelines.find? fun x => x.t == t).getD { t, count := 0, valid := false, err := false, owner := 0 }

/-- Replace the control entry of a device timeline. -/
def State.setTimeline (s : State) (x : Timeline) : State :=
  { s with timelines := if s.timelines.any (fun y => y.t == x.t) then s.timelines.map (fun y => if y.t = x.t then x else y)
                        else s.timelines ++ [x] }

/-- A signal to a device timeline, with or without the error flag: nothing while VALID is 0 (spec/03 R63). -/
def State.signal (s : State) (t : Nat) (err : Bool) : State :=
  let x := s.timeline t
  if x.valid then s.setTimeline { x with count := x.count + 1, err := x.err || err } else s

/-- Whether a timeline is given to a context. -/
def State.holdsTimeline (s : State) (c t : Nat) : Bool :=
  let x := s.timeline t
  x.valid && x.owner == BitVec.ofNat 12 c

/-! ### Error queues (spec/10 R271) -/

/-- Record an error: a fifth unreported one only sets OVF. -/
def ErrQueue.add (q : ErrQueue) (e : AsyncErr) : ErrQueue :=
  if 4 ≤ q.entries.length then { q with ovf := true } else { q with entries := q.entries ++ [e] }

/-- The lowest-numbered of two entries. -/
def lowerErr (a b : AsyncErr) : AsyncErr := if b.number < a.number then b else a

/-- The report of the lowest-numbered entry among those that `ok` admits: its trap and the queue without it. -/
def ErrQueue.report (q : ErrQueue) (ok : Nat → Bool) : Option (Trap × ErrQueue) :=
  match q.entries.filter fun e => ok e.number with
  | [] => none
  | e :: es =>
    let x := es.foldl lowerErr e
    some ({ cause := x.cause, tinfo := x.tinfo, taddr := x.addr, async := true, ovf := q.ovf },
      { entries := q.entries.erase x, ovf := false })

/-! ### Accesses and copies in flight -/

/-- Release waits of spec/08 R225 for a block's party: its loads returned, those of its fixed-latency operations from shared memory
among them, and the block's stores acknowledged. -/
def State.releaseDone (s : State) (blk core : Nat) (i : Issuer) : Bool :=
  s.storesDone blk core && !(s.ops.any fun o => o.issuer == i && o.units.any fun u => !u.isFill) &&
    !s.frames.any fun f => .tile f.uid == i && f.fixed.any fun x => x.srcs.any fun p => match p with | .mem _ => true | _ => false

/-- The seal entries that a dropped or finished copy counted on lose one count (spec/07 R199). -/
def State.uncount (s : State) (c : Nat) (seals : List Nat) : State :=
  s.updCtx c fun x => { x with seals := x.seals.map fun e => if seals.contains e.idx then { e with copies := e.copies - 1 } else e }

/-- The seal entries that a new copy counts on gain one count (spec/07 R199). -/
def State.recount (s : State) (c : Nat) (seals : List Nat) : State :=
  s.updCtx c fun x => { x with seals := x.seals.map fun e => if seals.contains e.idx then { e with copies := e.copies + 1 } else e }

/-- Whether an operation was cut short with its group (spec/09 R260): it completes at once with the error flag. -/
def AOp.cutShort (o : AOp) : Bool := o.cut

/-- Discard asynchronous operations: what they have not written they never write. -/
def State.dropAops (s : State) (f : AOp → Bool) : State :=
  let gone := s.aops.filter f
  let t := gone.foldl (fun t o => t.uncount o.ctx o.seals) s
  { t with aops := s.aops.filter fun o => !f o }

/-! ### Barriers and merges -/

/-- Slices of a gang that wait, replaced. -/
def Gang.mapWait (g : Gang) (f : Nat → Slice → Slice) : Gang := { g with slices := g.slices.mapIdx f }

/-- The effective mask of a REGANG (spec/02 R41). -/
def Gang.regangMask (g : Gang) (named : BitVec 8) (i : Nat) : BitVec 8 :=
  let live := g.live.foldl (fun m j => m ||| BitVec.ofNat 8 (2 ^ j)) 0
  (named ||| BitVec.ofNat 8 (2 ^ i)) &&& live

/-- Slices that a mask names. -/
def maskSlices (m : BitVec 8) : List Nat := (List.range 8).filter fun j => bit m j

/-- Waiting masks without the slices that have exited. -/
def Gang.trimMasks (g : Gang) : Gang :=
  g.mapWait fun i x => match x.wait with
    | .regang m => { x with wait := .regang (g.regangMask m i) }
    | _ => x

/-- Whether the REGANG that slice `i` waits at is complete. -/
def Gang.regangReady (g : Gang) (i : Nat) : Option (List Nat) :=
  match g.slices[i]? with
  | some x =>
    (match x.wait with
     | .regang m =>
       let ms := maskSlices m
       if ms.all fun j => match g.slices[j]? with
          | some y => y.wait == .regang m && y.pc == x.pc
          | none => false
       then some ms else none
     | _ => none)
  | none => none

/-- Completed REGANGs of a gang merge their slices and continue (spec/02 R42); `fuel` counts merges. -/
def Gang.regangs : Nat → Gang → Gang
  | 0, g => g
  | fuel + 1, g =>
    match g.live.findSome? g.regangReady with
    | none => g
    | some ms =>
      let h := g.merge ms
      Gang.regangs fuel (h.mapWait fun i x =>
        if ms.contains i then { x with wait := .none, pc := x.pc + 8, again := .fresh } else x)

/-- The slices that take part in a block's barriers: gang name and slice (spec/13 R327). -/
def Block.participants (b : Block) : List (Nat × Nat) :=
  (b.gangs.filter fun g => !g.spawned).flatMap fun g => g.live.map fun i => (g.name, i)

/-- Whether every participant of a block waits as `f` says. -/
def Block.allWait (b : Block) (f : Wait → Bool) : Bool :=
  b.gangs.all fun g => g.spawned || g.live.all fun i => match g.slices[i]? with | some x => f x.wait | none => true

/-- A slice departs from a barrier: past the instruction, or, from a pair, into its second issue. -/
def Slice.depart (x : Slice) (pair : Bool) : Slice :=
  if pair then { x with wait := .none, again := .woken } else { x with wait := .none, pc := x.pc + 8, again := .fresh }

/-- The named barriers of a block (spec/13 R327). -/
def Block.bars (b : Block) : Block :=
  match (List.range 16).find? fun n => !b.participants.isEmpty && b.allWait fun w => w == .bar n false || w == .bar n true with
  | none => b
  | some n =>
    { b with gangs := b.gangs.map fun g => g.mapWait fun _ x =>
        if x.wait = .bar n false then x.depart false else if x.wait = .bar n true then x.depart true else x }

/-- The cluster barrier of a block's cluster: once every participant has arrived and every store is acknowledged, the
slices depart and each core invalidates; while a store is not, each slice issues again when it is (spec/13 R327). -/
def State.cbars (s : State) (cluster : Nat) : State :=
  let bs := s.blocks.filter fun b => b.cluster == cluster
  let isC (w : Wait) : Bool := w == .cbar false || w == .cbar true
  if bs.any (fun b => !b.participants.isEmpty) && bs.all fun b => b.allWait isC then
    let now := bs.all fun b => s.storesDone b.uid b.core
    let go (x : Slice) : Slice :=
      if x.wait = .cbar false then
        (if now then x.depart false else { x with wait := .retry .clusterRelease, again := .woken })
      else if x.wait = .cbar true then { x with wait := .retry .clusterRelease, again := .woken }
      else x
    let t := { s with blocks := s.blocks.map fun b =>
      if b.cluster = cluster then { b with gangs := b.gangs.map fun g => g.mapWait fun _ x => go x } else b }
    if now then bs.foldl (fun t b => t.l1Acquire b.core) t else t
  else s

/-! ### The end of gangs and blocks -/

/-- Whether every slice of a gang has exited. -/
def Gang.finished (g : Gang) : Bool := g.live.isEmpty

/-- Whether a gang has loads or atomics that have not returned. -/
def State.gangBusy (s : State) (blk name : Nat) : Bool :=
  s.ops.any fun o => o.blk == blk && o.gang == name && o.units.any fun u =>
    match u.kind with | .load _ _ _ => true | .atom _ _ d => d.isSome | _ => false

/-- Grant of one claim: gang, slice of the claiming group, count. The claimed registers are undefined. -/
def State.grant (s : State) (blk : Nat) (c : Nat × Nat × Nat) : State :=
  let (gn, sl, n) := c
  let free (h k : Nat) : Nat × W32 := (h * 32 + k, Config.freeWord (2 * s.ctr + 1) (h * 32 + k))
  let t := s.updBlock blk fun b => { (b.updGang gn fun g =>
    let grp := match g.slices[sl]? with | some x => x.group | none => 0
    { g with holding := g.holding + n, v := g.v ++ (List.range (n * 32)).map (free g.holding),
             slices := g.slices.mapIdx fun _ x =>
               if x.group = grp ∧ x.wait = .claim n then { x with wait := .none, pc := x.pc + 8, again := .fresh } else x }) with
    claims := b.claims.erase c, freePart := b.freePart - n }
  { t with ctr := s.ctr + 1 }

/-- Grants of pending claims: the oldest that fits, as long as one does (spec/16 R444). -/
def State.grants (blk : Nat) : Nat → State → State
  | 0, s => s
  | fuel + 1, s =>
    match s.block? blk with
    | none => s
    | some b =>
      match b.claims.find? fun c => decide (c.2.2 ≤ b.freePart) with
      | none => s
      | some c => State.grants blk fuel (s.grant blk c)

/-- Ended gangs of a block return their registers and contexts (spec/02 R35, spec/14 R360). -/
def State.endGangs (s : State) (blk : Nat) : State :=
  match s.block? blk with
  | none => s
  | some b =>
    let done (g : Gang) : Bool := g.finished && !s.gangBusy blk g.name
    let freed := (b.gangs.filter fun g => g.finished && !g.ended).foldl (fun n g => n + g.holding) 0
    s.updBlock blk fun b =>
      { b with freePart := b.freePart + freed,
               gangs := (b.gangs.filter fun g => !done g).map fun g => if g.finished then { g with ended := true, holding := 0 } else g,
               claims := b.claims.filter fun c => b.gangs.any fun g => g.name == c.1 && !g.finished }

/-- A block retires when its gangs have ended and no frame of it remains (spec/14 R360). Its copies go on as if it were live, over the
shared memory that it leaves. -/
def State.retire (s : State) (blk : Nat) : State :=
  match s.block? blk with
  | none => s
  | some b =>
    if !b.gangs.isEmpty || s.frames.any (fun f => f.blk == blk) then s
    else
      let t := { s with blocks := s.blocks.filter fun x => x.uid != blk, retired := s.retired ++ [b] }
      t.updCtx b.ctx fun c => { c with grids := c.grids.map fun g =>
        if g.uid = b.grid then { g with live := g.live - 1, trapExit := g.trapExit || b.trapExit } else g }

/-- Lanes of slices of a gang exit (spec/02 R35). An exit in trap mode marks the record (spec/14 R361). -/
def State.exitSlices (s : State) (blk name : Nat) (ms : List (Nat × BitVec 4)) : State :=
  let lanesOf (i : Nat) : BitVec 4 := match ms.find? (fun m => m.1 == i) with | some m => m.2 | none => 0
  s.updBlock blk fun b =>
    let inTrap := match b.gang? name with
      | some g => ms.any fun m => m.2 != 0 && (match g.slices[m.1]? with | some x => x.trapMode.isSome | none => false)
      | none => false
    { (b.updGang name fun g => { g with slices := g.slices.mapIdx fun i x => if lanesOf i == 0 then x else x.exitLanes (lanesOf i) }) with
      trapExit := b.trapExit || inTrap }

/-- An operation whose results are discarded: it goes on until what it has sent is answered, but writes no more. A collective still
sends its input. -/
def AOp.discarded (o : AOp) : AOp :=
  { o with discard := true, writes := [], ahead := [], parts := o.parts.filter fun p => p.sent.isSome,
           srcs := match o.work with | .coll .. => o.srcs | _ => [] }

/-- Operations whose results are discarded (spec/10 R270, spec/07 R205). -/
def State.discardAops (s : State) (f : AOp → Bool) : State := { s with aops := s.aops.map fun o => if f o then o.discarded else o }

/-- A latch once some frames have lost their tile contexts: one that they filled is invalid and keeps its contents (spec/06 R152, R153). -/
def Latch.without (gone : Nat → Bool) (l : Latch) : Latch := if gone l.owner then { l with valid := false } else l

/-- A frame discarded (spec/10 R270): its operations are drained, their results discarded, its windows, latches and tile context freed,
and every gang that arrived at the GATE exits. -/
def State.discardFrame (s : State) (f : Frame) : State :=
  let s1 := (f.fixed.foldl (fun t x => t.uncount f.ctx x.seals) s).discardAops fun o => o.owner == .tile f.uid
  let s2 := { s1 with
    frames := s1.frames.filter fun x => x.uid != f.uid,
    running := s1.running.filter fun r => r.2 != f.uid,
    latches := s1.latches.map (Latch.without (· == f.uid)) }
  let exits (t : State) (gn : Nat) : State :=
    match t.gang? f.blk gn with
    | some g => t.exitSlices f.blk gn (g.live.map fun i => (i, 15))
    | none => t
  (f.gangs.foldl exits s2).updBlock f.blk fun b => { b with trapExit := true }

/-- Whether a frame is in a tile trap (spec/04 R108): it is suspended, and waits for no fault service. -/
def Frame.tileTrapped (f : Frame) : Bool := f.status == 3 && f.token.isNone

/-- Frames of a block whose reference gang has exited in a tile trap are discarded (spec/04 R108). A frame that is in none goes on
(spec/14 R379). -/
def State.dropFrames (s : State) (blk : Nat) : State :=
  (s.frames.filter fun f => f.blk == blk && f.tileTrapped && (match s.gang? blk f.refGang with | some g => g.finished | none => true)).foldl
    State.discardFrame s

/-- What follows in a block when lanes exit, arrive, or give registers: merges, barriers, ended gangs, grants, the
block's end (spec/02 R41, R44, spec/13 R327, spec/16 R444). -/
def State.settleBlock (s : State) (blk : Nat) : State :=
  match s.block? blk with
  | none => s
  | some b =>
    let s0 := s.dropFrames blk
    let s1 := s0.updBlock blk fun b => { b with gangs := b.gangs.map fun g => (Gang.regangs 8 g.trimMasks).dropEmpty }
    let s2 := s1.updBlock blk Block.bars
    let s3 := (s2.cbars b.cluster).endGangs blk
    let n := match s3.block? blk with | some b => b.claims.length | none => 0
    (State.grants blk n s3).retire blk

/-! ### Kills (spec/10 R278) -/

/-- Number of a fault-table entry's waiter words (spec/07 R190): the entry freed with its generation advanced. An
entry that cannot be written sets CERR[6], and its fault is over all the same (spec/10 R534). -/
def State.freeFault (s : State) (c : Nat) (e : FaultEntry) : State :=
  let word := BitVec.ofNat 32 ((e.gen + 1).toNat * 4096)
  let t := (s.devWrite c ((s.ctx c).desc.ftab + 16 * e.idx) (leBytes 4 word.toNat)).getD (s.setCerr c 6)
  t.updCtx c fun x => { x with
    faults := x.faults.filter fun f => f.idx != e.idx, faultWords := assocSet e.idx (word.setWidth 128) x.faultWords }

/-- The fault table as it stands when a context is enabled: later stores into it change nothing that the device does (spec/07 R190).
An entry that the device cannot read is read when it is needed. -/
def State.readFaults (s : State) (c : Nat) : State :=
  let d := (s.ctx c).desc
  s.updCtx c fun x => { x with faultWords := (List.range d.ftcount).filterMap fun i =>
    (s.devRead c (d.ftab + 16 * i) 16).map fun bs => (i, BitVec.ofNat 128 (leNat bs)) }

/-- A kill writes STATE 0 and advances GEN in every entry that is not free: those that the device took, and those whose STATE it read as 1 to
3 (spec/07 R190). -/
def State.killFaults (s : State) (c : Nat) : State :=
  (List.range (s.ctx c).desc.ftcount).foldl (fun t i =>
    match (s.ctx c).faults.find? fun e => e.idx == i with
    | some e => t.freeFault c e
    | none =>
      (match assocGet i (s.ctx c).faultWords with
       | some w =>
         if bits w 1 0 = 0 then t
         else
           let word := BitVec.ofNat 32 ((w.extractLsb' 12 20 + 1).toNat * 4096 + bits w 11 2 * 4)
           (t.devWrite c ((s.ctx c).desc.ftab + 16 * i) (leBytes 4 word.toNat)).getD (t.setCerr c 6)
       | none => t)) s

/-- Whether an issuer belongs to a context. -/
def State.issuerCtx (s : State) : Issuer → Option Nat
  | .none => none
  | .group b _ _ => (s.block? b).map (·.ctx)
  | .tile f => (s.frame? f).map (·.ctx)

/-- A kill: sources stop, gangs, frames and asynchronous operations are discarded, stores already issued still arrive,
collectives are aborted, intake, fault entries and seals are released, cached lines of the context are invalidated. -/
def State.kill (s : State) (c cause : Nat) : State :=
  let s1 := (if (s.ctx c).state = 0 then s else s.sendAborts c).dropAops fun o => o.ctx == c
  let s2 := s1.killFaults c
  let keep (o : Op) : Op :=
    if o.ctx = c then { o with units := o.units.filterMap fun u =>
      match u.kind with
      | .load _ _ _ => none
      | .fill => none
      | .atom f r _ => some { u with kind := .atom f r none }
      | _ => some u } else o
  let mine (i : Issuer) : Bool := s.issuerCtx i == some c
  let frames := (s.frames.filter fun f => f.ctx == c).map (·.uid)
  let s3 := { s2 with
    ops := (s2.ops.map keep).filter fun o => o.units != [],
    blocks := s2.blocks.filter fun b => b.ctx != c,
    retired := s2.retired.filter fun b => b.ctx != c,
    frames := s2.frames.filter fun f => f.ctx != c,
    running := s2.running.filter fun r => !frames.contains r.2,
    latches := s2.latches.map (Latch.without frames.contains),
    l1 := s2.l1.filter fun x => x.ctx != c,
    monitors := s2.monitors.filter fun m => match m.kind with
      | .waiter i => !mine i
      | .commit _ _ x => x != c
      | .release _ _ x => x != c
      | .frontEnd x _ => x != c
      | .shoot => true,
    flares := s2.flares.filter fun r => !mine r.issuer,
    collIn := s2.collIn.filter fun p => p.dctx.toNat != c }
  s3.updCtx c fun x => { x with
    state := 4, kcause := cause, queues := [], grids := [], launches := [], groups := [], faults := [], faultWaits := [],
    seals := [], pending := [], saved := [],
    intake := x.intake.map fun k => { k with queue := [], spill := [] } }

/-! ### The mask stack's spill area (spec/02 R38) -/

/-- The move of one spilled entry, by its position from the bottom: a store of the entry, or a refill. The `k`-th entry from the
bottom lies at offset 16 `k` of the slice's spill area (DESIGN CHOICE; log 25). A refill that reads a poisoned part raises
MEM_UNCORRECTABLE (spec/07 R204). -/
def State.spillMove (s : State) (v : View) (i k : Nat) (e : Option Entry) : Except Stop State :=
  let va := spillAddr (s.ctx v.b.ctx).desc v.b.slot v.g.no i + 16 * k
  let acc : Acc := if e.isSome then .store else .load
  match s.checkWalk (s.whoLane v none) acc va va with
  | .error st => .error st
  | .ok (pa, p) =>
    if acc = .store && !p.w then .error (.trap (mkTrap cProtection 2 va))
    else if acc = .load && !p.r then .error (.trap (mkTrap cProtection 5 va))
    else if acc = .load && s.poisoned (.phys pa) 16 then .error (.trap (mkTrap cMemUncorrectable 0 va))
    else .ok (match e with | some e => s.writeLoc v.b.ctx (.phys pa) 16 e.bits (BitVec.allOnes 128) | none => s)

/-- The entries below the 16 topmost lie in the spill area. Each position that an instruction changes is read, where an entry stood in it,
and written, where one then stands in it: those that JOIN or a rotation takes from the middle, and all above them, move (spec/02 R38). -/
def State.spillSlice (s : State) (v : View) (i : Nat) (old new : List Entry) : Except Stop State :=
  let so := old.length - 16
  let sn := new.length - 16
  (List.range (max so sn)).foldlM (fun t k =>
    if k < so ∧ k < sn ∧ old[k]? = new[k]? then .ok t
    else do
      let u ← if k < so then t.spillMove v i k none else .ok t
      if k < sn then u.spillMove v i k new[k]? else .ok u) s

/-- The spill and refill moves of the issuing group's slices, from their stacks before to those in `t`. -/
def State.spills (v : View) (t : State) : Except Stop State :=
  match t.gang? v.b.uid v.g.name with
  | none => .ok t
  | some g => v.m.foldlM (fun t i => match g.slices[i]? with
    | some x => if x.exited then .ok t else t.spillSlice v i (v.slice i).stack x.stack
    | none => .ok t) t

/-! ### Taking a trap (spec/10 R264-R270, R293) -/

/-- The emulation routine bound to a feature bit (spec/10 R292, R293). -/
def State.routine (s : State) (c f : Nat) : Option VAddr :=
  let d := (s.ctx c).desc
  if d.emutab = 0 then none
  else match s.devNat c (d.emutab + 8 * f) 8 with
    | some r => if r = 0 ∨ r % 8 ≠ 0 ∨ 2 ^ 57 ≤ r then none else some (BitVec.ofNat 57 r)
    | none => none

/-- A trap's look into the emulation table: an entry that the device cannot reach sets CERR[6] (spec/10 R534). -/
def State.seekRoutine (s : State) (c : Nat) (t : Trap) : State :=
  let d := (s.ctx c).desc
  if t.cause = cFeature ∧ d.emutab ≠ 0 ∧ (s.devNat c (d.emutab + 8 * t.tinfo.toNat) 8).isNone then s.setCerr c 6 else s

/-- The emulation routine that a trap runs in place of the handler. -/
def State.trapRoutine (s : State) (c : Nat) (t : Trap) : Option VAddr :=
  if t.cause = cFeature then s.routine c t.tinfo.toNat else none

/-- Whether a slice runs an emulation routine: its last trap was a FEATURE trap of a bound bit. -/
def State.inRoutine (s : State) (c : Nat) (x : Slice) : Bool :=
  x.trapMode.isSome && bits x.tcause 7 0 == cFeature.toNat && (s.routine c x.tinfo.toNat).isSome

/-- %tcause of a trap (spec/10 R265). -/
def Trap.word (t : Trap) (tile : Bool) : W32 :=
  BitVec.ofNat 32 (t.cause.toNat + (if tile then 2 ^ 8 else 0) + (if t.async then 2 ^ 9 else 0) + (if t.ovf then 2 ^ 10 else 0))

/-- A slice enters trap mode at a handler: the trap registers are written, stack depth and %dtag are recorded, the
latches become invalid (R267). `pc` is the trapping address; `tile` gives %gframe and %tstat of a tile trap (R268). -/
def Slice.enterTrap (x : Slice) (t : Trap) (pc handler : VAddr) (tile : Option (W32 × W32)) : Slice :=
  { x with
    tcause := t.word tile.isSome, tpc := pc.setWidth 64, taddr := t.taddr.setWidth 64, tinfo := t.tinfo,
    gframe := (match tile with | some (g, _) => g | none => 0),
    tstat := (match tile with | some (_, st) => st | none => x.tstat),
    trapMode := some (x.stack.length, x.dtag), yValid := 0, pc := handler, wait := .none, again := .fresh }

/-- Replace slices of a gang. -/
def State.updSlicesOf (s : State) (blk name : Nat) (is : List Nat) (f : Nat → Slice → Slice) : State :=
  s.updGang blk name fun g => { g with slices := g.slices.mapIdx fun i x => if is.contains i then f i x else x }

/-- Parting of every group of a gang. -/
def Gang.partAll (g : Gang) : Gang := (g.groups.map (·.id)).foldl (fun g id => Gang.part 8 id g) g |>.dropEmpty

/-- The issuing gang is suspended at its instruction and waits for a fault-table entry. -/
def State.suspend (s : State) (v : View) (va kind : Nat) : State :=
  let s1 := s.updSlices v v.m fun _ x => { x with wait := .fault none }
  s1.updCtx v.b.ctx fun c => { c with faultWaits := c.faultWaits ++ [{ waiter := v.issuer, va := BitVec.ofNat 57 va, kind }] }

/-- The lanes of a gang that trap with no handler exit (R270): the running path of each slice in `ms`, with the moves of its spilled
entries that this takes (spec/02 R38). A move that waits for fault service, or for a shootdown, makes a trapping instruction
that replays (`replay`) wait before it traps; where nothing replays, or where the move itself traps, the lanes exit all the same (log
25). -/
def State.trapExits (s : State) (b : Block) (g : Gang) (ms : List Nat) (replay : Bool) : State × Bool :=
  let active (i : Nat) : BitVec 4 := match g.slices[i]? with | some x => x.active | none => 0
  let s1 := s.updSlicesOf b.uid g.name ms fun _ x => { x with wait := .none, again := .fresh }
  let s2 := s1.exitSlices b.uid g.name (ms.map fun i => (i, active i))
  let grp := match g.slices[ms.headD 0]? with | some x => x.group | none => 0
  let v : View := { b, g, r := { id := grp, s := [], q := 0, age := 0 }, m := ms }
  match State.spills v s2 with
  | .ok t => (t, true)
  | .error (.serve va kind) => if replay then (s.suspend v va kind, false) else (s2, true)
  | .error (.hold c) => if replay then (s.updSlices v ms fun _ x => { x with wait := .retry c }, false) else (s2, true)
  | .error (.trap _) => (s2, true)

/-- Thread traps of slices of one gang, each at its own program counter (R267, R269, R270). `replay` says that the trapping instruction
raises the trap again when it issues again. -/
def State.enterTraps (s : State) (blk name : Nat) (ms : List (Nat × Trap)) (replay : Bool := false) : State :=
  match s.block? blk, s.gang? blk name, ms with
  | some b, some g, (_, t0) :: _ =>
    let slice (i : Nat) : Option Slice := g.slices[i]?
    let routine := s.trapRoutine b.ctx t0
    let inTrap := ms.any fun m => match slice m.1 with | some x => x.trapMode.isSome | none => false
    let nested := ms.any fun m => match slice m.1 with | some x => s.inRoutine b.ctx x | none => false
    let handler := routine.getD (BitVec.ofNat 57 (s.ctx b.ctx).desc.thandler)
    let s := s.seekRoutine b.ctx t0
    if nested || (inTrap && routine.isNone) then s.kill b.ctx 2
    else if handler = 0 then
      let (t, gone) := s.trapExits b g (ms.map (·.1)) replay
      if gone then (t.updBlock blk fun b => { (b.updGang name fun g => g.partAll) with trapExit := true }).settleBlock blk else t
    else
      let s1 := s.updSlicesOf blk name (ms.map (·.1)) fun i x =>
        match ms.find? (fun m => m.1 == i) with
        | some m => x.enterTrap m.2 x.pc handler none
        | none => x
      s1.updGang blk name fun g => g.partAll
  | _, _, _ => s

/-- REGPOOL_DEADLOCK: when every gang of a block has ended or waits in REGCLAIM with all its groups, and no claim fits,
every claimant takes the trap (spec/16 R445). -/
def State.poolDeadlock (s : State) (blk : Nat) : State :=
  match s.block? blk with
  | none => s
  | some b =>
    let claiming (x : Slice) : Bool := match x.wait with | .claim _ => true | _ => false
    let all := b.gangs.all fun g => g.live.all fun i => match g.slices[i]? with | some x => claiming x | none => true
    if b.claims.isEmpty || !all || b.claims.any (fun c => decide (c.2.2 ≤ b.freePart)) then s
    else
      let t := s.updBlock blk fun b => { b with claims := [] }
      b.gangs.foldl (fun t g => t.enterTraps blk g.name (g.live.filterMap fun i =>
        match g.slices[i]? with
        | some x => (match x.wait with | .claim n => some (i, mkTrap cRegpoolDeadlock n) | _ => none)
        | none => none)) t

/-- settleBlock, then the deadlock of claims that an exit or an arrival may have closed. -/
def State.settle (s : State) (blk : Nat) : State := (s.settleBlock blk).poolDeadlock blk

/-- Taking a trap: thread traps of slices of one gang, each at its own program counter. -/
def State.takeTrap (s : State) (blk name : Nat) (ms : List (Nat × Trap)) (replay : Bool := false) : State :=
  (s.enterTraps blk name ms replay).poolDeadlock blk

/-- A thread trap of the issuing group before its instruction has any effect (R267). -/
def State.threadTrap (s : State) (v : View) (t : Trap) : State := s.takeTrap v.b.uid v.g.name (v.m.map fun i => (i, t)) true

/-- A trap of the issuing group that its instruction does not raise again: after a request that has been sent, or for an error that its
report took from a queue (spec/14 R371, spec/10 R271). -/
def State.lateTrap (s : State) (v : View) (t : Trap) : State := s.takeTrap v.b.uid v.g.name (v.m.map fun i => (i, t))

/-- A frame is suspended at a slot of its bundle: STATUS 3, the resume point kept, the sequencer free (spec/04 R106). -/
def State.suspendFrame (s : State) (f : Nat) (slot : Nat) : State :=
  { (s.updFrame f fun x => { x with status := 3, sresume := BitVec.ofNat 3 slot, wait := .none }) with
    running := s.running.filter fun r => r.2 != f }

/-- A tile trap at a slot (spec/04 R106, R108, spec/10 R268): the frame is suspended and its reference gang enters trap
mode as one group with every lane that has not exited. A gang that is in trap mode already kills the context (R269); with no lane left
there is no gang to run the handler, and the frame is discarded. -/
def State.tileTrap (s : State) (f : Frame) (slot : Nat) (t : Trap) : State :=
  let s1 := (s.suspendFrame f.uid slot).seekRoutine f.ctx t
  let routine := s.trapRoutine f.ctx t
  let handler := routine.getD (BitVec.ofNat 57 (s.ctx f.ctx).desc.thandler)
  let live := match s.gang? f.blk f.refGang with
    | some g => g.slices.filter fun x => !x.exited
    | none => []
  if live.any (s.inRoutine f.ctx) || (live.any (·.trapMode.isSome) && routine.isNone) then s1.kill f.ctx 2
  else if handler = 0 ∨ live = [] then (s1.discardFrame f).settle f.blk
  else
    s1.updGang f.blk f.refGang fun g =>
      let h := g.merge g.live
      h.mapWait fun _ x => if x.exited then x else
        { (x.enterTrap t f.pc handler (some (BitVec.ofNat 32 (2 ^ 16 + f.number.toNat), BitVec.ofNat 32 (3 * 8 + slot)))) with
          active := 15 &&& ~~~x.gone }

/-- Address of the GATE that a frame's gangs entered by, as %tpc holds it. -/
def Frame.gatePc (f : Frame) : W64 := (f.retpc - 8).setWidth 64

/-- Return from a trap (spec/10 R269). A gang that trapped while its frame held it at the GATE (spec/13 R349) is blocked there again. -/
def State.rft (s : State) (v : View) : Res :=
  if v.m.all fun i => (v.slice i).trapMode.isNone then .trap (mkTrap cIllegalEncoding 1)
  else if !v.m.all fun i => (v.slice i).trapMode == some ((v.slice i).stack.length, (v.slice i).dtag) then .kill 2
  else
    let x0 := v.slice v.low
    let leave (x : Slice) : Slice := { x with trapMode := none, yValid := 0, again := .fresh }
    if x0.memErr then
      let s1 := s.exitSlices v.b.uid v.g.name (v.m.map fun i => (i, (v.slice i).active))
      .moved ((s1.updBlock v.b.uid fun b => { b with trapExit := true }).settle v.b.uid)
    else if bit x0.tcause 8 then
      match s.frames.find? fun f => f.blk == v.b.uid && f.number == BitVec.ofNat 16 (bits x0.gframe 15 0) with
      | none => .kill 2
      | some f =>
        let r := bits x0.tstat 2 0
        let s1 := s.updSlices v v.m fun _ x => { leave x with pc := f.retpc - 8, wait := .frame f.uid }
        .moved (s1.updFrame f.uid fun x =>
          { x with status := 1, pc := x0.tpc.setWidth 57, sresume := BitVec.ofNat 3 r,
                   image := if r = 0 then none else x.image })
    else match s.frames.find? fun f => f.blk == v.b.uid && f.gangs.contains v.g.name && f.gatePc == x0.tpc with
      | some f => .moved (s.updSlices v v.m fun _ x => { leave x with pc := f.retpc - 8, wait := .frame f.uid })
      | none => .moved (s.updSlices v v.m fun _ x => { leave x with pc := x.tpc.setWidth 57 })

/-! ### Fault service (spec/07 R188) -/

/-- A tile context is suspended at a slot and waits for a fault-table entry. -/
def State.suspendTile (s : State) (f : Frame) (slot va kind : Nat) : State :=
  let s1 := (s.suspendFrame f.uid slot).updFrame f.uid fun x => { x with token := some none }
  s1.updCtx f.ctx fun c => { c with faultWaits := c.faultWaits ++ [{ waiter := .tile f.uid, va := BitVec.ofNat 57 va, kind }] }

/-! ### The outcome of a thread instruction -/

/-- An outcome that leaves no effect of the instruction itself. -/
def State.finishStop (s : State) (v : View) : Stop → State
  | .trap t => s.threadTrap v t
  | .hold c => s.updSlices v v.m fun _ x => { x with wait := .retry c }
  | .serve va kind => s.suspend v va kind

/-- A thread instruction of `len` bytes: its outcome becomes the next state. -/
def State.finish (s : State) (v : View) (len : Nat) : Res → State
  | .next t => t.advance v len
  | .moved t =>
    (match State.spills v t with
     | .ok u => u.updIssuer v fun g => g.settle v.r.id
     | .error st => s.finishStop v st)
  | .trap t => s.finishStop v (.trap t)
  | .hold c => s.finishStop v (.hold c)
  | .serve va kind => s.finishStop v (.serve va kind)
  | .kill c => s.kill v.b.ctx c

/-- Run an instruction for the issuing group. -/
def runThread (s : State) (f : View → State → Res) : Host.Outcome State Fault Refusal :=
  match s.view? with
  | none => .fault .noIssuer
  | some v => .next (s.finish v 8 (f v s))

/-- A gang leaves the active set, and the latches of its issuing slices become invalid (spec/03 R71, spec/11 R299). -/
def longIssue (v : View) (t : State) : State :=
  t.updIssuer v fun g =>
    { g with active := false, issuedActive := 0, readyFor := 0, leaves := false,
             slices := g.slices.mapIdx fun i x => if v.m.contains i then { x with yValid := 0 } else x }

/-- The outcome of a long-class instruction: its gang leaves the active set when it issues. One that issues again and completes has left
the set when it issued first; one that must wait again (`moved`) leaves it again. -/
def Res.long (v : View) : Res → Res
  | .next t => .next (if (v.slice v.low).again != .fresh then t else longIssue v t)
  | .moved t => .moved (longIssue v t)
  | r => r

/-- Rotation under spec/02 R46: the slices that hold a path entry, and for which the condition `met` of a waiting
instruction fails, rotate, and the others execute the instruction as though they alone had issued it. A gang whose slices only rotate
stays active and keeps its latches, since the instruction has no effect for them (DEDUCED for R51; log 25). -/
def rotating (met : View → State → Nat → Bool) (f : View → State → Res) (v : View) (s : State) : Res :=
  let rot := v.m.filter fun i => (v.slice i).hasPath && !met v s i
  if rot.isEmpty then f v s
  else
    let s1 := s.updSlices v rot fun _ x => x.rotate x.pc
    match State.spills v s1 with
    | .error st => st.res
    | .ok s2 =>
      let rest := v.m.filter fun i => !rot.contains i
      match rest, s2.gang? v.b.uid v.g.name with
      | r :: rs, some g =>
        let h := g.regroup (r :: rs) v.r.s v.r.q
        let s3 := s2.updIssuer v fun _ => h
        (match ({ s3 with cur := .group v.b.uid v.g.name g.newGroup } : State).view? with
         | some w => .moved (s3.finish w 8 (f w s3))
         | none => .moved s3)
      | _, _ => .moved s2

end Sys2Proof.Machine
end

