-- ==== Sys2Proof/Machine/Access.lean ====
section
/-! DEFINITION. Accesses that an instruction makes at one instant, after its checks: ordinary loads through the first-level
cache, home reads, and stores put in flight (spec/07 R179, R186, spec/08 R207, R224). -/

namespace Sys2Proof.Machine

/-- An ordinary load of `n` bytes within one 16-byte part, at one instant. It waits for the block's earlier accesses to
the bytes, and a fill for the core's stores to the line. -/
def State.ordinary (s : State) (blk core ctx va : Nat) (l : Loc) (n : Nat) (upto : Option Nat := none) :
    Except Stop (Nat × State) :=
  if s.earlierBusy blk l n upto then .error (.hold (.earlier l n))
  else match l with
  | .shared _ _ => .ok (s.readNat l n, s)
  | .phys a =>
    match s.l1Part core a with
    | some p => .ok ((partSlice p a n).toNat, s)
    | none =>
      if s.poisoned l n then .error (.trap (mkTrap cMemUncorrectable 0 va))
      else if s.lineBusy core a then .error (.hold (.line core a))
      else
        let part := BitVec.ofNat 128 (s.readNat (.phys (a / 16 * 16)) 16)
        .ok ((partSlice part a n).toNat, s.l1Fill core ctx a (s.sealedPa ctx a) part)

/-- A home read of `n` bytes at one instant. -/
def State.homeRead (s : State) (blk va : Nat) (l : Loc) (n : Nat) : Except Stop Nat :=
  if s.earlierBusy blk l n then .error (.hold (.earlier l n))
  else if s.poisoned l n then .error (.trap (mkTrap cMemUncorrectable 0 va))
  else .ok (s.readNat l n)

/-- An ordinary load by a party: the checks of R186, then the load. -/
def State.load1 (s : State) (w : Who) (blk : Nat) (va : W64) (n align : Nat) : Except Stop (Nat × State) := do
  let l ← s.check w .load va n align
  (s.fillWho w va.toNat n).ordinary blk w.core w.ctx va.toNat l n w.upto

/-- A range of ordinary loads, at most `n` bytes, in 16-byte pieces; the bytes in order. -/
def State.loadRange (s : State) (w : Who) (blk : Nat) (va : W64) (n align : Nat) : Except Stop (List Byte × State) := do
  let ps ← s.checkRange w .load va n align
  let t := s.fillWho w va.toNat n
  ps.foldlM (fun (acc : List Byte × State) (p : Loc × Nat) => do
    let (x, u) ← acc.2.ordinary blk w.core w.ctx va.toNat p.1 p.2 w.upto
    pure (acc.1 ++ leBytes p.2 x, u)) ([], t)

/-- The launch record that an issuer's work belongs to. -/
def State.workOf (s : State) (i : Issuer) : Nat :=
  match i with
  | .group b _ _ => (match s.block? b with | some x => x.grid | none => 0)
  | .tile f => (match s.frame? f with | some x => (match s.block? x.blk with | some b => b.grid | none => 0) | none => 0)
  | .none => 0

/-- An access in flight is put at the end of the list of operations; its name is fresh. -/
def State.pushOp (s : State) (o : Op) : Nat × State := (s.uid, { s with ops := s.ops ++ [{ o with id := s.uid }], uid := s.uid + 1 })

/-- Units named in order. -/
def nameUnits (us : List OpUnit) : List OpUnit := us.mapIdx fun i u => { u with name := i }

/-- An operation of the issuing group. -/
def View.op (v : View) (s : State) (order : Order) (us : List OpUnit) : Op :=
  { id := 0, core := v.b.core, ctx := v.b.ctx, blk := v.b.uid, gang := v.g.name, slices := v.m, issuer := v.issuer,
    order, units := nameUnits us, work := s.workOf v.issuer }

end Sys2Proof.Machine
end

