-- ==== Sys2Proof/Machine/Alu.lean ====
section
/-! DEFINITION. The operations that compute one result from register sources alone, shared by vector words, uniform words
and the halves of pairs (spec/13 to 18). -/

namespace Sys2Proof.Machine

/-! ### Integer and logic -/

/-- Value of a pattern in an integer type. -/
def intVal (t : IntTy) (x : Nat) : Int :=
  match t with
  | .i32 => (BitVec.ofNat 32 x).toInt
  | .n32 => ((BitVec.ofNat 32 x).toNat : Int)
  | .i64 => (BitVec.ofNat 64 x).toInt
  | .n64 => ((BitVec.ofNat 64 x).toNat : Int)

/-- Whether a type is signed. -/
def intSigned (t : IntTy) : Bool := t == .i32 || t == .i64

/-- trunc of an integer to a type's width. -/
def truncTo (w : Nat) (i : Int) : Nat := (BitVec.ofInt w i).toNat

/-- Bit j of a number as 0 or 1. -/
def bitAt (x j : Nat) : Nat := x / 2 ^ j % 2

/-- A number from its bits. -/
def ofBitFn (f : Nat → Nat) : Nat → Nat
  | 0 => 0
  | n + 1 => ofBitFn f n + 2 ^ n * (f n % 2)

/-- LOP3 (spec/15 R401). -/
def lop3 (w : Nat) (t : BitVec 8) (a b c : Nat) : Nat :=
  ofBitFn (fun j => bitAt t.toNat (bitAt a j * 4 + bitAt b j * 2 + bitAt c j)) w

/-- SHF (spec/17 R464). -/
def shf (w : Nat) (right arith : Bool) (a n : Nat) : Nat :=
  if !right then if w ≤ n then 0 else a * 2 ^ n % 2 ^ w
  else if arith then truncTo w ((BitVec.ofNat w a).toInt / 2 ^ min n (w - 1))
  else if w ≤ n then 0 else a / 2 ^ n

/-- POPC (spec/16 R430). -/
def popc (a : Nat) : Nat → Nat
  | 0 => 0
  | n + 1 => popc a n + bitAt a n

/-- CLZ (spec/13 R331). -/
def clz (w a : Nat) : Nat := if a = 0 then w else w - 1 - Nat.log2 a

/-- BREV (spec/13 R331). -/
def brev (w a : Nat) : Nat := ofBitFn (fun j => bitAt a (w - 1 - j)) w

/-- BFX (spec/13 R331). -/
def bfx (w : Nat) (sext : Bool) (a b c : Nat) : Nat :=
  let pos := b % 256
  let len := min (c % 256) w
  if len = 0 then 0
  else
    let f := ofBitFn (fun j => if pos + j < w then bitAt a (pos + j) else if sext then bitAt a (w - 1) else 0) len
    if sext then truncTo w (BitVec.ofNat len f).toInt else f

/-- BFI (spec/13 R331). -/
def bfi (w a b c : Nat) : Nat :=
  let pos := c % 256
  let len := min (c / 256 % 256) w
  ofBitFn (fun j => if pos ≤ j ∧ j < pos + len then bitAt a (j - pos) else bitAt b j) w

/-- IDOT4 (spec/14 R385). -/
def idot4 (sa sb : Bool) (a b c : Nat) : Nat :=
  let ex (s : Bool) (x i : Nat) : Int :=
    let y := BitVec.ofNat 8 (x / 2 ^ (8 * i))
    if s then y.toInt else (y.toNat : Int)
  truncTo 32 ((BitVec.ofNat 32 c).toInt + ex sa a 0 * ex sb b 0 + ex sa a 1 * ex sb b 1 + ex sa a 2 * ex sb b 2 + ex sa a 3 * ex sb b 3)

/-- IADD (spec/14 R383). -/
def iadd (t : IntTy) (sub sat : Bool) (a b : Nat) : Nat :=
  let x := if sub then intVal t a - intVal t b else intVal t a + intVal t b
  if sat then (satInt (intSigned t) t.width x).1 else truncTo t.width x

/-- IMUL and IMAD; IMUL is IMAD of 0 (spec/14 R383). -/
def imad (t : IntTy) (hi : Bool) (a b c : Nat) : Nat :=
  let p := intVal t a * intVal t b
  if hi then truncTo t.width (p / 2 ^ t.width + intVal t c) else truncTo t.width (p + intVal t c)

/-- IMNMX (spec/14 R383). -/
def imnmx (t : IntTy) (mx : Bool) (a b : Nat) : Nat :=
  if decide (intVal t a < intVal t b) != mx then a else b

/-- ISET's comparison (spec/14 R374). -/
def icmp (cmp : Cmp) (x y : Int) : Bool :=
  match cmp with
  | .eq => decide (x = y)
  | .ne => decide (x ≠ y)
  | .lt => decide (x < y)
  | .le => decide (x ≤ y)
  | .gt => decide (y < x)
  | .ge => decide (y ≤ x)

/-! ### Floating point -/

/-- HADD2 and HFMA2: both halves alike (spec/14 R381). -/
def packed (bf : Bool) (fmt : W32) (na nb nc : Bool) (op : FV → FV → FV → FV × FlagSet) (a b c : Nat) : Nat × FlagSet :=
  let f : FF := if bf then .bf16 else .f16
  let half (k : Nat) : Nat × FlagSet :=
    let d (n : Bool) (x : Nat) : FV := (f.decodeIeee (x / 2 ^ (16 * k) % 65536)).negIf n
    fArith f fmt op (d na a) (d nb b) (d nc c)
  let (x, f0) := half 0
  let (y, f1) := half 1
  (x + 65536 * y, f0 ||| f1)

/-- The binary32 arithmetic of FADD, FMUL and FFMA (spec/14 R363). -/
def arith32 (fmt : W32) (na nb nc : Bool) (op : FV → FV → FV → FV × FlagSet) (a b c : Nat) : Nat × FlagSet :=
  let d (n : Bool) (x : Nat) : FV := (FF.f32.decodeIeee x).negIf n
  fArith .f32 fmt op (d na a) (d nb b) (d nc c)

/-- Signedness and width of an integer conversion type. -/
def cvtInt : CvtTy → Option (Bool × Nat)
  | .i32 => some (true, 32)
  | .n32 => some (false, 32)
  | .i64 => some (true, 64)
  | .n64 => some (false, 64)
  | .i16 => some (true, 16)
  | .n16 => some (false, 16)
  | .i8 => some (true, 8)
  | .n8 => some (false, 8)
  | _ => none

/-- FCVT (spec/14 R366). -/
def fcvt (fmt : W32) (books : List W256) (sat : Bool) (dt : CvtDst) (st : CvtTy) (a : Nat) : Nat × FlagSet :=
  let code := a % 2 ^ st.width
  match cvtInt st with
  | some (sg, w) =>
    let i : Int := if sg then (BitVec.ofNat w code).toInt else (code : Int)
    (match dt with
     | .cb4 n => cbEncode (books.getD n.toNat 0) (FV.ofInt i)
     | .ty t =>
       match cvtInt t with
       | some (ds, dw) => if sat then satInt ds dw i else (truncTo dw i, 0)
       | none =>
         match cvtFF t with
         | some f => f.encode { mode := fmtRM fmt, ftz := fmtFTZ fmt, sat := sat || fmtSAT fmt } (FV.ofInt i)
         | none => (0, 0))
  | none =>
    match cvtFF st with
    | none => (0, 0)
    | some sf =>
      let v := (EF.flt sf).decode (fmtXV fmt) books code
      (match dt with
       | .cb4 n => cbEncode (books.getD n.toNat 0) v
       | .ty t =>
         match cvtInt t with
         | some (ds, dw) => toIntF (fmtRM fmt) ds dw v
         | none =>
           match cvtFF t with
           | some f =>
             let ftz := fmtFTZ fmt && f.wide
             f.encode { mode := fmtRM fmt, ftz, sat := sat || fmtSAT fmt } ((EF.flt sf).flush ftz code v)
           | none => (0, 0))

/-! ### All of them -/

/-- How an operation reads inline constants. -/
def aluOpk : AluOp → OpK
  | .fadd _ _ | .fmul _ _ | .ffma _ _ _ | .fmnmx _ | .sfn _ => .cvt .f32
  | .hadd2 bf _ _ => .half bf
  | .hfma2 bf _ _ _ => .half bf
  | .fcvt _ _ st => .cvt st
  | _ => .int

/-- Result and flags of an operation on the patterns of its sources. -/
def aluEval (op : AluOp) (fmt : W32) (books : List W256) (a b c : Nat) : Nat × FlagSet :=
  match op with
  | .iadd t sub sat => (iadd t sub sat a b, 0)
  | .imul t hi => (imad t hi a b 0, 0)
  | .imad t hi => (imad t hi a b c, 0)
  | .imnmx t mx => (imnmx t mx a b, 0)
  | .lop3 w t => (lop3 (wSel w) t a b c, 0)
  | .shf w r ar => (shf (wSel w) r ar a b, 0)
  | .popc w => (popc a (wSel w), 0)
  | .clz w => (clz (wSel w) a, 0)
  | .brev w => (brev (wSel w) a, 0)
  | .bfx w s => (bfx (wSel w) s a b c, 0)
  | .bfi w => (bfi (wSel w) a b c, 0)
  | .mov _ => (a, 0)
  | .idot4 sa sb => (idot4 sa sb a b c, 0)
  | .fadd na nb => arith32 fmt na nb false (fun x y _ => x.add (fmtRM fmt) y) a b 0
  | .fmul na nb => arith32 fmt na nb false (fun x y _ => x.mul y) a b 0
  | .ffma na nb nc => arith32 fmt na nb nc (fun x y z => x.fma (fmtRM fmt) y z) a b c
  | .fmnmx mx => let (r, f) := fMinMax mx (BitVec.ofNat 32 a) (BitVec.ofNat 32 b); (r.toNat, f)
  | .hadd2 bf na nb => packed bf fmt na nb false (fun x y _ => x.add (fmtRM fmt) y) a b 0
  | .hfma2 bf na nb nc => packed bf fmt na nb nc (fun x y z => x.fma (fmtRM fmt) y z) a b c
  | .sfn f => let (r, fl) := sfnEval f (BitVec.ofNat 32 a); (r.toNat, fl)
  | .fcvt sat dt st => fcvt fmt books sat dt st a

/-- An operation in one lane of the issuing group. -/
def View.alu (v : View) (op : AluOp) (fmt : W32) (a b c : Src) (lane : Nat) : Nat × FlagSet :=
  let (_, wa, wb, wc) := op.widths
  let k := aluOpk op
  aluEval op fmt v.b.cb (v.src k wa lane a) (v.src k wb lane b) (v.src k wc lane c)

/-- A vector operation: every active lane whose guard is true (spec/11 R305). -/
def vecAlu (g : Guard) (d : VDst) (op : AluOp) (a b c : Src) (v : View) (s : State) : Res :=
  v.fresh [a, b, c]
    (let rs := (v.exec g).map fun l => (l, v.alu op (v.fmt l) a b c l)
     let t := s.putVDst v d op.widths.1 (rs.map fun r => (r.1, r.2.1))
     .next (t.orFlags v (rs.map fun r => (r.1, r.2.2))))

end Sys2Proof.Machine
end

