-- ==== Sys2Proof/Machine/Integer.lean ====
section
/-! DEFINITION. Integer, logic and move instructions of the thread set (spec/13 R330-R332, spec/14 R373-R385,
spec/15 R399-R401, R418, spec/16 R430, spec/17 R459, R464). -/

namespace Sys2Proof.Machine

/-- NOP. -/
def execNop (s : State) : Host.Outcome State Fault Refusal := runThread s fun _ s => .next s

/-- IADD (spec/14 R383). -/
def execIadd (g : Guard) (d : VDst) (ty : IntTy) (sub sat : Bool) (a b : Src) (s : State) : Host.Outcome State Fault Refusal :=
  runThread s (vecAlu g d (.iadd ty sub sat) a b noSrc)

/-- IMUL (spec/14 R383). -/
def execImul (g : Guard) (d : VDst) (ty : IntTy) (hi : Bool) (a b : Src) (s : State) : Host.Outcome State Fault Refusal :=
  runThread s (vecAlu g d (.imul ty hi) a b noSrc)

/-- IMAD (spec/14 R383). -/
def execImad (g : Guard) (d : VDst) (ty : IntTy) (hi : Bool) (a b c : Src) (s : State) : Host.Outcome State Fault Refusal :=
  runThread s (vecAlu g d (.imad ty hi) a b c)

/-- IMNMX (spec/14 R383). -/
def execImnmx (g : Guard) (d : VDst) (ty : IntTy) (max : Bool) (a b : Src) (s : State) : Host.Outcome State Fault Refusal :=
  runThread s (vecAlu g d (.imnmx ty max) a b noSrc)

/-- A comparison to a predicate: P in each executing lane, Q once for the group (spec/14 R374). -/
def vecSet (g : Guard) (d : PDst) (srcs : List Src) (f : View → Nat → Bool × FlagSet) (v : View) (s : State) : Res :=
  v.fresh srcs
    (let rs := (v.exec g).map fun l => (l, f v l)
     let t := if d.q then (match rs with | [] => s | r :: _ => s.putQ v d.n.toNat r.2.1)
              else s.putP v d.n.toNat (rs.map fun r => (r.1, r.2.1))
     .next (t.orFlags v (rs.map fun r => (r.1, r.2.2))))

/-- ISET. -/
def vecIset (g : Guard) (d : PDst) (cmp : Cmp) (ty : IntTy) (a b : Src) : View → State → Res :=
  vecSet g d [a, b] fun v l => (icmp cmp (intVal ty (v.src .int ty.width l a)) (intVal ty (v.src .int ty.width l b)), 0)

/-- ISET (spec/14 R374). -/
def execIset (g : Guard) (d : PDst) (cmp : Cmp) (ty : IntTy) (a b : Src) (s : State) : Host.Outcome State Fault Refusal :=
  runThread s (vecIset g d cmp ty a b)

/-- LOP3 (spec/15 R401). -/
def execLop3 (g : Guard) (d : VDst) (w64 : Bool) (table : BitVec 8) (a b c : Src) (s : State) : Host.Outcome State Fault Refusal :=
  runThread s (vecAlu g d (.lop3 w64 table) a b c)

/-- SHF (spec/17 R464). -/
def execShf (g : Guard) (d : VDst) (w64 right arith : Bool) (a b : Src) (s : State) : Host.Outcome State Fault Refusal :=
  runThread s (vecAlu g d (.shf w64 right arith) a b noSrc)

/-- POPC (spec/16 R430). -/
def execPopc (g : Guard) (d : VDst) (w64 : Bool) (a : Src) (s : State) : Host.Outcome State Fault Refusal :=
  runThread s (vecAlu g d (.popc w64) a noSrc noSrc)

/-- CLZ (spec/13 R331). -/
def execClz (g : Guard) (d : VDst) (w64 : Bool) (a : Src) (s : State) : Host.Outcome State Fault Refusal :=
  runThread s (vecAlu g d (.clz w64) a noSrc noSrc)

/-- BREV (spec/13 R331). -/
def execBrev (g : Guard) (d : VDst) (w64 : Bool) (a : Src) (s : State) : Host.Outcome State Fault Refusal :=
  runThread s (vecAlu g d (.brev w64) a noSrc noSrc)

/-- BFX (spec/13 R331). -/
def execBfx (g : Guard) (d : VDst) (w64 sext : Bool) (a b c : Src) (s : State) : Host.Outcome State Fault Refusal :=
  runThread s (vecAlu g d (.bfx w64 sext) a b c)

/-- BFI (spec/13 R331). -/
def execBfi (g : Guard) (d : VDst) (w64 : Bool) (a b c : Src) (s : State) : Host.Outcome State Fault Refusal :=
  runThread s (vecAlu g d (.bfi w64) a b c)

/-- A value of `w` bits for each executing lane, without flags. -/
def vecVal (g : Guard) (d : VDst) (w : Nat) (srcs : List Src) (f : View → Nat → Nat) (v : View) (s : State) : Res :=
  v.fresh srcs (.next (s.putVDst v d w ((v.exec g).map fun l => (l, f v l))))

/-- SEL. -/
def vecSel (g : Guard) (d : VDst) (w64 : Bool) (p : BitVec 3) (neg : Bool) (a b : Src) : View → State → Res :=
  vecVal g d (wSel w64) [a, b] fun v l =>
    if v.g.pred p.toNat l != neg then v.src .int (wSel w64) l a else v.src .int (wSel w64) l b

/-- SEL (spec/17 R459). -/
def execSel (g : Guard) (d : VDst) (w64 : Bool) (p : BitVec 3) (neg : Bool) (a b : Src) (s : State) : Host.Outcome State Fault Refusal :=
  runThread s (vecSel g d w64 p neg a b)

/-- MOV (spec/15 R418). -/
def execMov (g : Guard) (d : VDst) (w : MovW) (a : Src) (s : State) : Host.Outcome State Fault Refusal :=
  runThread s (vecAlu g d (.mov w) a noSrc noSrc)

/-- MOVI. -/
def vecMovi (g : Guard) (d : VDst) (imm : BitVec 29) : View → State → Res :=
  vecVal g d 32 [] fun _ _ => (imm.signExtend 32).toNat

/-- MOVI (spec/15 R418). -/
def execMovi (g : Guard) (d : VDst) (imm : BitVec 29) (s : State) : Host.Outcome State Fault Refusal :=
  runThread s (vecMovi g d imm)

/-- LEA in one lane: the address, or BOUNDS (spec/15 R400). -/
def View.lea (v : View) (s : State) (glob : Bool) (k : BitVec 2) (a b : Src) (lane : Nat) : Except Trap Nat :=
  let x := (v.src .int 64 lane a + v.src .int 64 lane b * 2 ^ k.toNat) % 2 ^ 64
  if glob && decide (Config.localBase ≤ x) && decide (x < 2 ^ 57) then
    let o := x - Config.localBase
    if v.b.kernel.priv ≤ o then .error (mkTrap cBounds 0x21 x)
    else .ok (arenaAddr (s.ctx v.b.ctx).desc v.b.slot v.b.kernel.priv (v.g.laneIndex lane) o)
  else .ok x

/-- LEA. -/
def vecLea (g : Guard) (d : VDst) (glob : Bool) (k : BitVec 2) (a b : Src) (v : View) (s : State) : Res :=
  v.fresh [a, b]
    (match (v.exec g).mapM fun l => (v.lea s glob k a b l).map fun x => (l, x) with
     | .error t => .trap t
     | .ok xs => .next (s.putVDst v d 64 xs))

/-- LEA (spec/15 R400). -/
def execLea (g : Guard) (d : VDst) (glob : Bool) (k : BitVec 2) (a b : Src) (s : State) : Host.Outcome State Fault Refusal :=
  runThread s (vecLea g d glob k a b)

/-- IDOT4 (spec/14 R385). -/
def execIdot4 (g : Guard) (d : VDst) (sa sb : Bool) (a b c : Src) (s : State) : Host.Outcome State Fault Refusal :=
  runThread s (vecAlu g d (.idot4 sa sb) a b c)

end Sys2Proof.Machine
end

