-- ==== Sys2Proof/Machine/Lanes.lean ====
section
/-! DEFINITION. Instructions that combine the lanes of the issuing slice group (spec/16 R439, R440, spec/17 R465, R466,
spec/18 R501, R502). -/

namespace Sys2Proof.Machine

/-- The lane a shuffle reads, if it names one (spec/17 R466). -/
def shflLane (mode : ShflMode) (l b : Nat) : Option Nat :=
  match mode with
  | .idx => if b < 32 then some b else none
  | .up => if b ≤ l then some (l - b) else none
  | .down => if l + b < 32 then some (l + b) else none
  | .xor => some (l ^^^ (b % 32))

/-- SHFL. -/
def vecShfl (g : Guard) (d : VDst) (mode : ShflMode) (a b : Src) : View → State → Res :=
  vecVal g d 32 [a, b] fun v l =>
    match shflLane mode l (v.src .int 32 l b) with
    | some j => if v.lanes.contains j then v.src .int 32 j a else v.src .int 32 l a
    | none => v.src .int 32 l a

/-- SHFL (spec/17 R466). -/
def execShfl (g : Guard) (d : VDst) (mode : ShflMode) (a b : Src) (s : State) : Host.Outcome State Fault Refusal :=
  runThread s (vecShfl g d mode a b)

/-- The ballot of the executing lanes (spec/18 R502). -/
def View.ballot (v : View) (ls : List Nat) (a : Src) : Nat :=
  ls.foldl (fun x l => if v.src .int 32 l a = 0 then x else x + 2 ^ l) 0

/-- VOTE. -/
def vecVote (g : Guard) (d : VoteDst) (a : Src) (v : View) (s : State) : Res :=
  let ls := v.exec g
  let on (l : Nat) : Bool := v.src .int 32 l a != 0
  v.fresh [a]
    (match d with
     | .ballot d => .next (s.putVDst v d 32 (ls.map fun l => (l, v.ballot ls a)))
     | .pred mode d =>
       let x := match mode with
         | .all => ls.all on
         | .any => ls.any on
         | .uni => ls.all on || !ls.any on
       if ls.isEmpty then .next s
       else if d.q then .next (s.putQ v d.n.toNat x)
       else .next (s.putP v d.n.toNat (ls.map fun l => (l, x))))

/-- VOTE (spec/18 R502). -/
def execVote (g : Guard) (d : VoteDst) (a : Src) (s : State) : Host.Outcome State Fault Refusal :=
  runThread s (vecVote g d a)

/-- REDUX's combination of two values (spec/16 R440). -/
def reduxOp (op : ReduxOp) (x y : Nat) : Nat :=
  match op with
  | .add => (x + y) % 2 ^ 32
  | .minI => imnmx .i32 false x y
  | .minN => imnmx .n32 false x y
  | .maxI => imnmx .i32 true x y
  | .maxN => imnmx .n32 true x y
  | .and => x &&& y
  | .or => x ||| y
  | .xor => x ^^^ y

/-- The reduction over the executing lanes. -/
def View.redux (v : View) (op : ReduxOp) (a : Src) (ls : List Nat) : Nat :=
  match ls.map fun l => v.src .int 32 l a with
  | [] => 0
  | x :: xs => xs.foldl (reduxOp op) x

/-- REDUX. -/
def vecRedux (g : Guard) (d : VDst) (op : ReduxOp) (a : Src) (v : View) (s : State) : Res :=
  let ls := v.exec g
  v.fresh [a] (.next (s.putVDst v d 32 (ls.map fun l => (l, v.redux op a ls))))

/-- REDUX (spec/16 R440). -/
def execRedux (g : Guard) (d : VDst) (op : ReduxOp) (a : Src) (s : State) : Host.Outcome State Fault Refusal :=
  runThread s (vecRedux g d op a)

end Sys2Proof.Machine
end

