-- ==== Sys2Proof/Machine/Special.lean ====
section
/-! DEFINITION. Special registers, TRAP, RFT, and the uniform word (spec/11 R301, R533, spec/10 R269, spec/17 R471-R474,
spec/18 R498). -/

namespace Sys2Proof.Machine

/-- The device feature mask (spec/10 R291): the bits that spec/12 R315 and R320 assign. -/
def deviceMask : BitVec 512 :=
  let thread := (List.range 256).filter fun o => o != 0 && ((opFormat o).isSome || decide (254 ≤ o))
  let slots := [(0, 10), (1, 6), (2, 4), (3, 7), (4, 5), (5, 7)].flatMap fun x => (List.range x.2).map fun o => 256 + 32 * x.1 + o + 1
  (thread ++ slots).foldl (fun m b => m ||| BitVec.ofNat 512 (2 ^ b)) 0

/-- Cores not fenced: %ncores (spec/10 R286). -/
def State.ncores (s : State) : Nat := 160 - popc s.fenceC.toNat 160

/-- A special register as a lane reads it (spec/11 R301). -/
def State.sreg (s : State) (v : View) (lane : Nat) (n : BitVec 8) : Nat :=
  let x := v.slice (lane / 4)
  match n.toNat with
  | 0x00 => lane
  | 0x01 => lane / 4
  | 0x02 => v.g.no
  | 0x03 => v.b.number
  | 0x04 => v.b.bx
  | 0x05 => v.b.bY
  | 0x06 => v.b.bz
  | 0x07 => v.b.crank
  | 0x08 => v.b.core
  | 0x09 => v.g.quad
  | 0x0A => v.b.ctx
  | 0x0B => s.devid.toNat
  | 0x0C => s.ncores
  | 0x0D => v.b.args.toNat
  | 0x0E => v.g.holding
  | 0x0F => s.time.toNat
  | 0x10 => x.dtag.toNat
  | 0x11 => x.fflags.toNat
  | 0x20 => x.tcause.toNat
  | 0x21 => x.tpc.toNat
  | 0x22 => x.taddr.toNat
  | 0x23 => x.tinfo.toNat
  | 0x24 => x.gframe.toNat
  | 0x25 => x.tstat.toNat
  | k => if 0x30 ≤ k ∧ k ≤ 0x37 then bits deviceMask (64 * (k - 0x30) + 63) (64 * (k - 0x30)) else 0

/-- SRD. -/
def vecSrd (g : Guard) (d : VDst) (r : BitVec 8) (v : View) (s : State) : Res :=
  .next (s.putVDst v d (sregWidth r) ((v.exec g).map fun l => (l, s.sreg v l r)))

/-- SRD (spec/17 R472). -/
def execSrd (g : Guard) (d : VDst) (sreg : BitVec 8) (s : State) : Host.Outcome State Fault Refusal :=
  runThread s (vecSrd g d sreg)

/-- SWR's effect on a slice (spec/17 R473). -/
def Slice.swr (x : Slice) (r : BitVec 8) (a : W64) : Slice :=
  match r.toNat with
  | 0x11 => { x with fflags := a.setWidth 6 }
  | 0x21 => { x with tpc := a &&& 0x01FFFFFFFFFFFFFF#64 }
  | 0x25 => if 6 ≤ bits a 2 0 then x else { x with tstat := (x.tstat &&& 0xFFFFFFF8#32) ||| BitVec.ofNat 32 (bits a 2 0) }
  | _ => x

/-- SWR. -/
def vecSwr (g : Guard) (r : BitVec 8) (a : Src) (v : View) (s : State) : Res :=
  let x : W64 := BitVec.ofNat 64 (v.uni 64 a)
  let is := v.m.filter fun i => (v.exec g).any fun l => l / 4 == i
  v.fresh [a]
    (if r = 0x21 ∧ bits x 63 57 ≠ 0 ∧ is ≠ [] then .trap (mkTrap cProtection 1)
     else .next (s.updSlices v is fun _ y => y.swr r x))

/-- SWR (spec/17 R473). -/
def execSwr (g : Guard) (sreg : BitVec 8) (a : Src) (s : State) : Host.Outcome State Fault Refusal :=
  runThread s (vecSwr g sreg a)

/-! ### Uniform operations (spec/11 R533) -/

/-- A uniform operation for the executing lanes: its width, value and flags. -/
def View.uniOp (v : View) (s : State) (ls : List Nat) (op : UniOp) : Except Trap (Nat × Nat × FlagSet) :=
  let lane := ls.headD (4 * v.low)
  match op with
  | .alu op a b c => let (x, f) := v.alu op (v.groupFmt ls) a b c lane; .ok (op.widths.1, x, f)
  | .movi imm => .ok (64, (imm.signExtend 64).toNat, 0)
  | .lea glob k a b => if ls.isEmpty then .ok (64, 0, 0) else (v.lea s glob k a b lane).map fun x => (64, x, 0)
  | .redux op a => .ok (32, v.redux op a ls, 0)
  | .ballot a => .ok (32, v.ballot ls a, 0)
  | .srd r => .ok (sregWidth r, s.sreg v lane r, 0)

/-- Sources of a uniform operation. -/
def UniOp.srcs (op : UniOp) : List Src :=
  match op with
  | .alu _ a b c => [a, b, c]
  | .lea _ _ a b => [a, b]
  | .redux _ a => [a]
  | .ballot a => [a]
  | _ => []

/-- The write of a uniform operation: its S destination, and its flags in the slices that execute. -/
def State.putUni (s : State) (v : View) (d : SDst) (ls : List Nat) (r : Nat × Nat × FlagSet) : State :=
  (s.putSDst v d r.1 ls r.2.1).orFlags v (ls.map fun l => (l, r.2.2))

/-- UNIFORM_WORD (spec/11 R533). -/
def execUniformWord (g : Guard) (d : SDst) (op : UniOp) (s : State) : Host.Outcome State Fault Refusal :=
  runThread s fun v s =>
    v.fresh (UniOp.srcs op)
      (match v.uniOp s (v.exec g) op with
       | .error t => .trap t
       | .ok r => .next (s.putUni v d (v.exec g) r))

end Sys2Proof.Machine
end

