-- ==== Sys2Proof/Machine/Control.lean ====
section
/-! DEFINITION. Control instructions of the thread set: branches, calls, joins, merges, barriers, exits, gangs, registers
given and claimed, traps (spec/13 R326-R342, spec/14 R360, spec/15 R386, spec/16 R441-R451, spec/17 R469, spec/18 R497,
R503). -/

namespace Sys2Proof.Machine

/-! ### Branches -/

/-- Address of the instruction after a word `words` on, before it is cut to 57 bits. -/
def branchTo (pc : VAddr) (words : Int) : Int := (pc.toNat : Int) + 8 + 8 * words

/-- A branch target, when it lies in the 57-bit space. -/
def inSpace (a : Int) : Option VAddr := if 0 ≤ a ∧ a < 2 ^ 57 then some (BitVec.ofInt 57 a) else none

/-- The trap of a target outside the space (spec/13 R334). -/
def outOfSpace : Trap := mkTrap cProtection 1

/-- A slice's lanes grouped by the address they name, in ascending order of their lowest lanes. -/
def lanesByTarget (ls : List (Nat × VAddr)) : List (BitVec 4 × VAddr) :=
  ls.foldl (fun acc x =>
    let b : BitVec 4 := BitVec.ofNat 4 (2 ^ x.1)
    if acc.any fun y => y.2 == x.2 then acc.map fun y => if y.2 = x.2 then (y.1 ||| b, y.2) else y
    else acc ++ [(b, x.2)]) []

/-- A slice continues where its active lanes name: at one address, or it diverges; `isFirst` marks the path that runs
first (spec/02 R30, R33). -/
def Slice.branch (x : Slice) (ls : List (Nat × VAddr)) (isFirst : BitVec 4 × VAddr → Bool) : Except Trap Slice :=
  match lanesByTarget ls with
  | [] => .ok x
  | [(_, pc)] => .ok { x with pc, again := .fresh }
  | p :: ps =>
    let first := ((p :: ps).find? isFirst).getD p
    match x.diverge first ((p :: ps).filter (· != first)) with
    | some y => .ok { y with again := .fresh }
    | none => .error (mkTrap cStackOverflow 0)

/-- Each member slice of the group replaced, the lowest one that meets a trap deciding. -/
def State.eachSlice (s : State) (v : View) (f : Nat → Slice → Except Trap Slice) : Res :=
  match v.m.mapM fun i => (f i (v.slice i)).map fun y => (i, y) with
  | .error t => .trap t
  | .ok ys => .moved (s.updSlices v v.m fun i x => match ys.find? (fun y => y.1 == i) with | some y => y.2 | none => x)

/-- The targets that the lanes of one slice name, by lane of the slice. -/
def sliceTargets (ts : List (Nat × VAddr)) (i : Nat) : List (Nat × VAddr) :=
  (ts.filter fun t => t.1 / 4 == i).map fun t => (t.1 % 4, t.2)

/-- BRA (spec/13 R333). -/
def execBra (g : BGuard) (offset : BitVec 32) (s : State) : Host.Outcome State Fault Refusal :=
  runThread s fun v s =>
    let taken := v.bexec g
    let fall := v.pc + 8
    match inSpace (branchTo v.pc offset.toInt) with
    | none => if taken.isEmpty then .next s else .trap outOfSpace
    | some tgt =>
      let ts := v.lanes.map fun l => (l, if taken.contains l then tgt else fall)
      s.eachSlice v fun i x => x.branch (sliceTargets ts i) fun p => p.2 == fall

/-- The table entry that a lane of a BRX names, read as an ordinary load (spec/13 R339). -/
def State.brxEntry (s : State) (v : View) (a : Src) (lane i : Nat) : Except Stop (Int × State) := do
  let va : W64 := BitVec.ofNat 64 (v.src .int 64 lane a + 4 * i)
  let (x, t) ← s.load1 (s.whoLane v (some lane)) v.b.uid va 4 4
  pure ((BitVec.ofNat 32 x).toInt, t)

/-- The table entries of lanes: checks of every lane before any is read (spec/07 R186). -/
def State.brxEntries (s : State) (v : View) (a : Src) (ls : List (Nat × Nat)) : Except Stop (List (Nat × Int) × State) := do
  for x in ls do
    let _ ← s.check (s.whoLane v (some x.1)) .load (BitVec.ofNat 64 (v.src .int 64 x.1 a + 4 * x.2)) 4 4
  ls.foldlM (fun (acc : List (Nat × Int) × State) x => do
    let (e, t) ← acc.2.brxEntry v a x.1 x.2
    pure (acc.1 ++ [(x.1, e)], t)) ([], s)

/-- BRX (spec/13 R339, R340). -/
def execBrx (g : BGuard) (a b : Src) (len : BitVec 19) (s : State) : Host.Outcome State Fault Refusal :=
  runThread s fun v s =>
    let idx := (v.bexec g).map fun l => (l, v.src .int 32 l b)
    v.fresh [a, b]
      (match s.brxEntries v a (idx.filter fun x => decide (x.2 < len.toNat)) with
       | .error st => st.res
       | .ok (es, t) =>
         match idx.find? fun x => decide (len.toNat ≤ x.2) with
         | some x => .trap (mkTrap cBrxRange x.2)
         | none =>
           let next (l : Nat) : Option VAddr := match es.find? (fun e => e.1 == l) with
             | some e => inSpace (branchTo v.pc e.2)
             | none => some (v.pc + 8)
           match v.lanes.mapM fun l => (next l).map fun p => (l, p) with
           | none => .trap outOfSpace
           | some ts =>
             t.eachSlice v fun i x =>
               x.branch (sliceTargets ts i) fun p => bit p.1 (((List.range 4).find? (bit x.active)).getD 0))

/-! ### Calls -/

/-- CALL in one slice (spec/13 R341). -/
def Slice.call (x : Slice) (pc tgt : VAddr) : Except Trap Slice :=
  if 64 ≤ x.stack.length then .error (mkTrap cStackOverflow 0)
  else
    let e : Entry := { kind := .call, pc := pc + 8, fmt := 0, mask := x.active, outer := 0, tag := x.dtag, arr := false, waited := 0 }
    .ok { x with stack := x.stack ++ [e], pc := tgt, again := .fresh }

/-- CALL (spec/13 R341, R342). -/
def execCall (g : BGuard) (offset : BitVec 32) (s : State) : Host.Outcome State Fault Refusal :=
  runThread s fun v s =>
    if (v.bexec g).isEmpty then .next s
    else match inSpace (branchTo v.pc offset.toInt) with
      | none => .trap outOfSpace
      | some tgt => s.eachSlice v fun _ x => x.call v.pc tgt

/-- RET in one slice (spec/02 R36). -/
def Slice.ret (x : Slice) : Except Trap Slice :=
  match (List.range x.stack.length).reverse.find? fun i => match x.stack[i]? with
      | some e => e.kind == .call && x.active &&& ~~~e.mask == 0
      | none => false with
  | none => .error (mkTrap cStackOverflow 2)
  | some i =>
    match x.stack[i]? with
    | some e =>
      if e.tag = x.dtag then .ok { x with stack := x.stack.eraseIdx i, pc := e.pc, again := .fresh }
      else .error (mkTrap cStackOverflow 1)
    | none => .error (mkTrap cStackOverflow 2)

/-- RET (spec/16 R449). -/
def execRet (g : BGuard) (s : State) : Host.Outcome State Fault Refusal :=
  runThread s fun v s => if (v.bexec g).isEmpty then .next s else s.eachSlice v fun _ x => x.ret

/-- JOIN (spec/15 R386). -/
def execJoin (never : Bool) (s : State) : Host.Outcome State Fault Refusal :=
  runThread s fun v s => if never then .next s else s.eachSlice v fun _ x => .ok { x.join x.pc with again := .fresh }

/-! ### Merges and barriers -/

/-- The members arrive at a REGANG. -/
def State.regangArrive (s : State) (v : View) (mask : BitVec 8) : State :=
  s.updSlices v v.m fun i x => { x with wait := .regang (v.g.regangMask mask i) }

/-- Slices that wait at a REGANG, with address and mask. -/
def Gang.regangWaiters (g : Gang) : List (Nat × VAddr × BitVec 8) :=
  g.live.filterMap fun i => match g.slices[i]? with
    | some x => (match x.wait with | .regang m => some (i, x.pc, m) | _ => none)
    | none => none

/-- Slices among the waiters that a slice waits for: named by its mask, arrived with another address or mask. -/
def regangEdges (ws : List (Nat × VAddr × BitVec 8)) (i : Nat) : List Nat :=
  match ws.find? fun w => w.1 == i with
  | none => []
  | some w => (ws.filter fun u => bit w.2.2 u.1 && u.2 != w.2).map (·.1)

/-- Slices reached along the waits; `fuel` bounds the length. -/
def regangReach (ws : List (Nat × VAddr × BitVec 8)) : Nat → List Nat → List Nat
  | 0, xs => xs
  | fuel + 1, xs => regangReach ws fuel ((xs ++ xs.flatMap (regangEdges ws)).eraseDups)

/-- REGANG_DEADLOCK: every waiting slice of a cycle takes the trap (spec/02 R43). -/
def State.regangDeadlock (s : State) (blk name : Nat) : State :=
  match s.gang? blk name with
  | none => s
  | some g =>
    let ws := g.regangWaiters
    match ws.filter fun w => (regangReach ws 8 (regangEdges ws w.1)).contains w.1 with
    | [] => s
    | cyc => s.takeTrap blk name (cyc.map fun w => (w.1, mkTrap cRegangDeadlock w.2.2.toNat))

/-- Whether the arrival of the group completes the merge of slice `i`. A slice that holds a path entry arrives only with an arrival that
completes its merge: R46 judges the instruction by what this arrival brings about, and R41 lets a slice arrive with no path entry
(DEDUCED; log 25). -/
def regangMet (mask : BitVec 8) (v : View) (s : State) (i : Nat) : Bool :=
  match (s.regangArrive v mask).gang? v.b.uid v.g.name with
  | some g => (g.regangReady i).isSome
  | none => false

/-- REGANG (spec/16 R441). -/
def execRegang (g : BGuard) (mask : BitVec 8) (s : State) : Host.Outcome State Fault Refusal :=
  runThread s fun v s =>
    if (v.bexec g).isEmpty then .next s
    else rotating (regangMet mask)
      (fun v s => .moved (((s.regangArrive v mask).settle v.b.uid).regangDeadlock v.b.uid v.g.name)) v s

/-- The members arrive at a barrier. -/
def State.arrive (s : State) (v : View) (w : Wait) : State := s.updSlices v v.m fun _ x => { x with wait := w }

/-- BAR, in its own word or in a pair: an arrival; departing from a pair, its second issue. -/
def vecBar (never : Bool) (n : BitVec 4) (pair : Bool) (v : View) (s : State) : Res :=
  if never || v.g.spawned || (pair && v.m.all fun i => (v.slice i).again == .woken) then .next s
  else
    let at_ (w : Wait) : Bool := w == .bar n.toNat false || w == .bar n.toNat true
    rotating
      (fun v s _ => match (s.arrive v (.bar n.toNat pair)).block? v.b.uid with | some b => b.allWait at_ | none => false)
      (fun v s => .moved ((s.arrive v (.bar n.toNat pair)).settle v.b.uid)) v s

/-- BAR (spec/13 R327). -/
def execBar (never : Bool) (n : BitVec 4) (s : State) : Host.Outcome State Fault Refusal := runThread s (vecBar never n false)

/-- CBAR, in its own word or in a pair. An instruction whose cluster's stores were not acknowledged at the last arrival
issues again when they are, and then invalidates. -/
def vecCbar (never pair : Bool) (v : View) (s : State) : Res :=
  if never || v.g.spawned then .next s
  else if v.m.all fun i => (v.slice i).again == .woken then .next (s.l1Acquire v.b.core)
  else
    let at_ (w : Wait) : Bool := w == .cbar false || w == .cbar true
    rotating
      (fun v s _ => ((s.arrive v (.cbar pair)).blocks.filter fun b => b.cluster == v.b.cluster).all fun b => b.allWait at_)
      (fun v s => .moved ((s.arrive v (.cbar pair)).settle v.b.uid)) v s

/-- CBAR (spec/13 R327). -/
def execCbar (never : Bool) (s : State) : Host.Outcome State Fault Refusal := runThread s (vecCbar never false)

/-- YIELD (spec/18 R503). -/
def execYield (g : BGuard) (s : State) : Host.Outcome State Fault Refusal :=
  runThread s fun v s => let _ := g; Res.long v (.next s)

/-! ### Exits and gangs -/

/-- EXIT of lanes, by lane of the gang: the other active lanes continue past it (spec/14 R360). -/
def State.exitGroup (s : State) (v : View) (lanes : List Nat) : State :=
  let mask (i : Nat) : BitVec 4 := (lanes.filter fun l => l / 4 == i).foldl (fun m l => m ||| BitVec.ofNat 4 (2 ^ (l % 4))) 0
  let s1 := s.updSlices v v.m fun _ x => { x with pc := x.pc + 8, again := .fresh }
  (s1.exitSlices v.b.uid v.g.name (v.m.map fun i => (i, mask i))).settle v.b.uid

/-- EXIT (spec/14 R360). -/
def execExit (g : BGuard) (s : State) : Host.Outcome State Fault Refusal :=
  runThread s fun v s => if (v.bexec g).isEmpty then .next s else .moved (s.exitGroup v (v.bexec g))

/-- A slice as its gang starts (spec/02 R29, spec/11 R294; the trap registers log 2). -/
def Slice.start (pc : VAddr) (fmt : W32) (present : BitVec 4) : Slice :=
  { group := 0, pc, active := present, gone := ~~~present, fmt, fflags := 0, stack := [], dtag := 63, yValid := 0, tcause := 0,
    tpc := 0, taddr := 0, tinfo := 0, gframe := 0, tstat := 0, trapMode := none, wait := .none, again := .fresh, issued := 0,
    memErr := false }

/-- Gangs resident in a quadrant of a core. -/
def State.quadGangs (s : State) (core quad : Nat) : List Gang :=
  (s.blocks.filter fun b => b.core == core).flatMap fun b => b.gangs.filter fun g => g.quad == quad

/-- The free gang context of a quadrant that a gang takes: the lowest-numbered (DESIGN CHOICE for spec/02 R47, spec/03 R68; log 25). -/
def State.freeContext (s : State) (core quad : Nat) : Option Nat :=
  let used := (s.quadGangs core quad).map (·.slot)
  (List.range Config.quadContexts).find? fun i => !used.contains i

/-- A gang as it starts, pending and ready. -/
def Gang.start (no name quad slot holding : Nat) (spawned : Bool) (slices : List Slice) (regs : List W64) : Gang :=
  { no, name, quad, slot, spawned, holding, slices, groups := [{ id := 0, s := regs, q := 0, age := 0 }], v := [], y := [],
    p := List.replicate 32 0, active := false, issuedActive := 0, readyFor := 0, batch := 0,
    cpyErr := { entries := [], ovf := false }, code := [], ended := false }

/-- SPAWN's new gang, when it can be created (spec/02 R47). -/
def State.spawn (s : State) (v : View) (b : Nat) (tgt : VAddr) : Option State :=
  let quads := v.g.quad :: (List.range 4)
  let place := quads.findSome? fun q => (s.freeContext v.b.core q).map fun c => (q, c)
  let no := (List.range 32).find? fun n => !v.b.gangs.any fun g => g.no == n && !g.ended
  match place, no with
  | some (q, c), some n =>
    if v.b.freePart < v.g.holding then none
    else
      let regs := (List.range 64).map fun i => if i < 8 then v.r.sreg (b + i) else 0
      let x := Slice.start tgt (v.slice v.low).fmt 15
      let g := Gang.start n s.uid q c v.g.holding true (List.replicate 8 x) regs
      some { (s.updBlock v.b.uid fun b => { b with gangs := b.gangs ++ [g], freePart := b.freePart - v.g.holding }) with uid := s.uid + 1 }
  | _, _ => none

/-- SPAWN (spec/17 R470). -/
def execSpawn (g : BGuard) (qd : BitVec 3) (b : BitVec 6) (offset : BitVec 19) (s : State) : Host.Outcome State Fault Refusal :=
  runThread s fun v s =>
    if (v.bexec g).isEmpty then .next s
    else match inSpace (branchTo v.pc offset.toInt) with
      | none => .trap outOfSpace
      | some tgt =>
        match s.spawn v b.toNat tgt with
        | some t => .next (t.putQ v qd.toNat true)
        | none => .next (s.putQ v qd.toNat false)

/-- REGGIVE. -/
def vecReggive (never : Bool) (n : BitVec 9) (v : View) (s : State) : Res :=
  if never then .next s
  else if v.g.holding < n.toNat + 4 then .trap (mkTrap cIllegalEncoding 2)
  else
    let r := v.g.holding - n.toNat
    let t := s.updBlock v.b.uid fun b => { (b.updGang v.g.name fun g =>
      { g with holding := r, v := g.v.filter fun x => decide (x.1 / 32 < r) }) with freePart := b.freePart + n.toNat }
    .next (t.settle v.b.uid)

/-- REGGIVE (spec/16 R444). -/
def execReggive (never : Bool) (n : BitVec 9) (s : State) : Host.Outcome State Fault Refusal := runThread s (vecReggive never n)

/-- REGCLAIM (spec/16 R444). -/
def execRegclaim (never : Bool) (n : BitVec 9) (s : State) : Host.Outcome State Fault Refusal :=
  runThread s fun v s =>
    if never then Res.long v (.next s)
    else if 256 < v.g.holding + n.toNat then .trap (mkTrap cIllegalEncoding 2)
    else rotating (fun v _ _ => decide (n.toNat ≤ v.b.freePart))
      (fun v s =>
        let s1 := longIssue v (s.updSlices v v.m fun _ x => { x with wait := .claim n.toNat })
        let s2 := s1.updBlock v.b.uid fun b => { b with claims := b.claims ++ [(v.g.name, v.low, n.toNat)] }
        .moved (s2.settle v.b.uid)) v s

/-! ### Traps -/

/-- TRAP (spec/18 R498). -/
def execTrap (g : Guard) (imm : BitVec 16) (s : State) : Host.Outcome State Fault Refusal :=
  runThread s fun v s => if (v.exec g).isEmpty then .next s else .trap (mkTrap cUser imm.toNat)

/-- RFT (spec/16 R450). -/
def execRft (never : Bool) (s : State) : Host.Outcome State Fault Refusal :=
  runThread s fun v s => if never then .next s else s.rft v

end Sys2Proof.Machine
end

