-- ==== Sys2Proof/Machine/Memory.lean ====
section
/-! DEFINITION. Loads, stores, atomics and fences of the thread set (spec/13 R322-R325, spec/14 R368, R369,
spec/15 R393-R395, spec/16 R437, R438, spec/17 R475-R477). -/

namespace Sys2Proof.Machine

/-! ### Addresses and checks -/

/-- The effective address of a lane (spec/11 R305, R312). -/
def View.addr (v : View) (m : MemAddr) (sz lane : Nat) : W64 :=
  BitVec.ofNat 64 (v.src .int 64 lane m.base) +
    ((BitVec.ofNat 32 (v.src .int 32 lane m.index)).signExtend 64) * BitVec.ofNat 64 (2 ^ m.scale.toNat) +
    m.off.signExtend 64 * BitVec.ofNat 64 sz

/-- Bytes of an access size. -/
def Size.bytes' : Size → Nat
  | .b8 => 1
  | .b16 => 2
  | .b32 => 4
  | .b64 => 8
  | .b128 => 16

/-- The checks of every lane, the lowest one that fails deciding (spec/07 R186). -/
def State.checkLanes (s : State) (v : View) (acc : Acc) (n : Nat) (xs : List (Nat × W64)) : Except Stop (List (Nat × Loc)) :=
  xs.mapM fun x => (s.check (s.whoLane v (some x.1)) acc x.2 n n).map fun l => (x.1, l)

/-- The TLB fills of lanes. -/
def State.fillLanes (s : State) (v : View) (n : Nat) (xs : List (Nat × W64)) : State :=
  xs.foldl (fun t x => t.fillWho (s.whoLane v (some x.1)) x.2.toNat n) s

/-- Whether a scope is .clus or wider (spec/08 R225, R226). -/
def scopeWide : Scope → Bool
  | .clus | .dev | .sys => true
  | _ => false

/-- Whether an order holds a release at .clus or wider. -/
def orderRel : Order → Bool
  | .rel sc => scopeWide sc
  | .ar sc => scopeWide sc
  | _ => false

/-- Whether an order holds an acquire at .clus or wider. -/
def orderAcq : Order → Bool
  | .acq sc => scopeWide sc
  | .ar sc => scopeWide sc
  | _ => false

/-- The outcome once the release half of an order has waited (spec/08 R225). -/
def State.afterRelease (s : State) (v : View) (o : Order) (r : Res) : Res :=
  if orderRel o && !s.releaseDone v.b.uid v.b.core v.issuer then .hold .release else r

/-- The party of a lane. -/
def View.party (v : View) (lane : Nat) : Party := .lane v.b.uid v.g.name lane

/-- Units put in flight, unless there are none; with a wait, the members wait for the data. -/
def State.issueOp (s : State) (v : View) (o : Order) (us : List OpUnit) (waits : Bool) : State :=
  if us.isEmpty then s
  else
    let (id, t) := s.pushOp (v.op s o us)
    if waits then t.updSlices v v.m fun _ x => { x with wait := .data id } else t

/-! ### Loads -/

/-- What a lane's load finds in the core's cache at issue. -/
def State.l1Hit (s : State) (core : Nat) (l : Loc) (n : Nat) : Option W128 :=
  match l with
  | .phys a => (s.l1Part core a).map fun p => partSlice p a n
  | .shared _ _ => none

/-- The first lane whose read goes to a poisoned part (spec/07 R204). -/
def State.poisonHit (s : State) (xs : List (Nat × W64)) (us : List OpUnit) : Option W64 :=
  (us.zip xs).findSome? fun p =>
    let reads := match p.1.kind with
      | .load _ _ got => got.isNone
      | .atom _ _ _ => true
      | _ => false
    if reads && s.poisoned p.1.loc p.1.n then some p.2.2 else none

/-- The parts of the missed lines that no lane reads: the rest of each fill (spec/07 R179), but for poisoned ones, which no load may
hit (spec/07 R204, spec/15 R395). -/
def State.fillUnits (s : State) (core : Nat) (us : List OpUnit) : List OpUnit :=
  let missed := us.filterMap fun u =>
    match u.kind, u.loc with
    | .load false _ none, .phys a => some (a / 16)
    | _, _ => none
  let lines := (missed.map (· / 16)).eraseDups
  lines.flatMap fun ln => ((List.range 16).map (16 * ln + ·)).filterMap fun p =>
    if missed.contains p || (s.l1Part core (16 * p)).isSome || s.poisoned (.phys (16 * p)) 16 then none
    else some { name := 0, loc := .phys (16 * p), n := 16, party := .agent, kind := .fill }

/-- A load's unit for a lane. -/
def State.loadUnit (s : State) (v : View) (home : Bool) (n : Nat) (dst : Nat → LoadDst) (x : Nat × Loc) : OpUnit :=
  { name := 0, loc := x.2, n, party := v.party x.1,
    kind := .load home (dst x.1) (if home then none else s.l1Hit v.b.core x.2 n) }

/-- LD and LDNC (spec/15 R394). -/
def vecLoad (g : Guard) (d : BitVec 8) (o : Order) (sz : Size) (m : MemAddr) (nc : Bool) (v : View) (s : State) : Res :=
  let n := Size.bytes' sz
  let xs := (v.exec g).map fun l => (l, v.addr m n l)
  v.fresh [m.base, m.index]
    (match s.checkLanes v .load n xs with
     | .error st => st.res
     | .ok ls =>
       let us := ls.map (s.loadUnit v (nc || orderAcq o) n fun l => .v l d)
       match s.poisonHit xs us with
       | some a => .trap (mkTrap cMemUncorrectable 0 a.toNat)
       | none => Res.long v (.next ((s.fillLanes v n xs).issueOp v o (us ++ s.fillUnits v.b.core us) true)))

/-- LD (spec/15 R394). -/
def execLd (g : Guard) (d : BitVec 8) (o : Order) (sz : Size) (m : MemAddr) (s : State) : Host.Outcome State Fault Refusal :=
  runThread s (vecLoad g d o sz m false)

/-- LDNC (spec/15 R394). -/
def execLdnc (g : Guard) (d : BitVec 8) (o : Order) (sz : Size) (m : MemAddr) (s : State) : Host.Outcome State Fault Refusal :=
  runThread s (vecLoad g d o sz m true)

/-! ### Stores -/

/-- A store's unit. -/
def storeUnit (party : Party) (l : Loc) (n x : Nat) (mask : W128) : OpUnit :=
  { name := 0, loc := l, n, party, kind := .store (BitVec.ofNat 128 x &&& mask) mask }

/-- The resident lines that stores touch, updated in their order (spec/08 R224). -/
def State.l1Stores (s : State) (core ctx : Nat) (us : List OpUnit) : State :=
  us.foldl (fun t u => match u.kind with | .store d m => t.l1Store core ctx u.loc d m | _ => t.l1Drop core u.loc) s

/-- ST (spec/17 R476). -/
def vecSt (g : Guard) (d : BitVec 8) (o : Order) (sz : Size) (m : MemAddr) (v : View) (s : State) : Res :=
  let n := Size.bytes' sz
  let xs := (v.exec g).map fun l => (l, v.addr m n l)
  v.fresh [m.base, m.index]
    (match s.checkLanes v .store n xs with
     | .error st => st.res
     | .ok ls =>
       let us := ls.map fun x => storeUnit (v.party x.1) x.2 n (v.g.vwide d.toNat x.1 sz.regs) (byteMask n)
       s.afterRelease v o (.next (((s.fillLanes v n xs).l1Stores v.b.core v.b.ctx us).issueOp v o us false)))

/-- ST (spec/17 R476). -/
def execSt (g : Guard) (d : BitVec 8) (o : Order) (sz : Size) (m : MemAddr) (s : State) : Host.Outcome State Fault Refusal :=
  runThread s (vecSt g d o sz m)

/-! ### Atomics -/

/-- The lanes of an atomic gathered by location, in ascending lane order (spec/13 R323). -/
def atomUnits (v : View) (fn : AtomFn) (n : Nat) (d : Option (BitVec 8)) (rs : List (Loc × AtomReq)) : List OpUnit :=
  let locs := (rs.map (·.1)).eraseDups
  locs.map fun l =>
    let mine := (rs.filter fun r => r.1 == l).map (·.2)
    { name := 0, loc := l, n, party := v.party (match mine with | r :: _ => r.lane | [] => 0), kind := .atom fn mine d }

/-- The form that ATOM, CAS and RED share: `rd` is the register that receives the old values. -/
def vecAtomic (g : Guard) (fn : AtomFn) (n : Nat) (o : Order) (rd : Option (BitVec 8)) (cmp : Nat → Nat) (a b : Src)
    (v : View) (s : State) : Res :=
  let xs := (v.exec g).map fun l => (l, BitVec.ofNat 64 (v.src .int 64 l a))
  v.fresh [a, b]
    (match s.checkLanes v .atomic n xs with
     | .error st => st.res
     | .ok ls =>
       match xs.find? fun x => ls.any fun y => y.1 == x.1 && s.poisoned y.2 n with
       | some x => .trap (mkTrap cMemUncorrectable 0 x.2.toNat)
       | none =>
         let rs := ls.map fun x => (x.2, { lane := x.1, operand := BitVec.ofNat 128 (v.src .int (8 * n) x.1 b),
                                           comparand := BitVec.ofNat 128 (cmp x.1) : AtomReq })
         let us := atomUnits v fn n rd rs
         let t := ((s.fillLanes v n xs).l1Stores v.b.core v.b.ctx us).issueOp v o us rd.isSome
         s.afterRelease v o (if rd.isSome then Res.long v (.next t) else .next t))

/-- ATOM (spec/13 R323). -/
def execAtom (g : Guard) (d : BitVec 8) (op : AtomOp) (o : Order) (w64 : Bool) (a b : Src) (s : State) : Host.Outcome State Fault Refusal :=
  runThread s (vecAtomic g (.op op) (wSel w64 / 8) o (some d) (fun _ => 0) a b)

/-- CAS (spec/13 R323). -/
def execCas (g : Guard) (d : BitVec 8) (o : Order) (sz : Size) (a b : Src) (s : State) : Host.Outcome State Fault Refusal :=
  runThread s fun v s => vecAtomic g .cas (Size.bytes' sz) o (some d) (fun l => v.g.vwide d.toNat l sz.regs) a b v s

/-- RED (spec/16 R437). -/
def execRed (g : Guard) (op : AtomOp) (o : Order) (w64 : Bool) (a b : Src) (s : State) : Host.Outcome State Fault Refusal :=
  runThread s (vecAtomic g (.op op) (wSel w64 / 8) o none (fun _ => 0) a b)

/-- The value an atomic writes (spec/13 R323, spec/12 R319). -/
def atomNew (op : AtomOp) (n : Nat) (old b : Nat) : Nat :=
  let w := 8 * n
  let ty (signed : Bool) : IntTy := if w = 32 then (if signed then .i32 else .n32) else if signed then .i64 else .n64
  match op with
  | .add => (old + b) % 2 ^ w
  | .min => imnmx (ty true) false old b
  | .max => imnmx (ty true) true old b
  | .umin => imnmx (ty false) false old b
  | .umax => imnmx (ty false) true old b
  | .and => old &&& b
  | .or => old ||| b
  | .xor => old ^^^ b
  | .exch => b
  | .fadd => (add32 (BitVec.ofNat 32 old) (BitVec.ofNat 32 b)).1.toNat

/-- One lane's request at the home: the value then held. -/
def atomStep (fn : AtomFn) (n old : Nat) (r : AtomReq) : Nat :=
  match fn with
  | .op op => atomNew op n old r.operand.toNat
  | .cas => if old = r.comparand.toNat % 2 ^ (8 * n) then r.operand.toNat else old

/-- The requests of one location in their order: each lane's old value, and the value at the end. -/
def atomRun (fn : AtomFn) (n : Nat) : Nat → List AtomReq → List (Nat × Nat) × Nat
  | old, [] => ([], old)
  | old, r :: rs =>
    let (xs, last) := atomRun fn n (atomStep fn n old r) rs
    ((r.lane, old) :: xs, last)

/-! ### Fences -/

/-- FENCE (spec/14 R368). -/
def execFence (never : Bool) (o : Order) (s : State) : Host.Outcome State Fault Refusal :=
  runThread s fun v s =>
    if never then .next s
    else s.afterRelease v o (.next (if orderAcq o then s.l1Acquire v.b.core else s))

end Sys2Proof.Machine
end

