-- ==== Sys2Proof/Machine/Tables.lean ====
section
/-! DEFINITION. Codebooks, buffer records and compressed streams: CBLOAD, BRECLD, LDB, STB, DECW (spec/05 R141, R142,
spec/06 R164-R172, spec/13 R335-R337, R343, R344, spec/14 R354-R356, spec/15 R396-R398, spec/17 R478-R480). -/

namespace Sys2Proof.Machine

/-- The lane that performs an access made once for the group: its lowest active lane (log 13). -/
def View.lead (v : View) : Nat := v.lanes.headD (4 * v.low)

/-- Who performs an access made once for the group. -/
def View.who (v : View) (s : State) : Who := s.whoLane v (some v.lead)

/-- A uniform base with a scaled offset. -/
def View.uniAddr (v : View) (base : Src) (off : BitVec 10) (unit : Nat) : W64 :=
  BitVec.ofNat 64 (v.uni 64 base) + off.signExtend 64 * BitVec.ofNat 64 unit

/-! ### Codebooks -/

/-- CBLOAD (spec/13 R344). -/
def execCbload (never : Bool) (cb : BitVec 3) (base : Src) (off : BitVec 10) (s : State) : Host.Outcome State Fault Refusal :=
  runThread s fun v s =>
    if never then .next s
    else match s.loadRange (v.who s) v.b.uid (v.uniAddr base off 16) 32 32 with
      | .error st => st.res
      | .ok (bs, t) => .next (t.updBlock v.b.uid fun b => { b with cb := putAt 8 0 b.cb cb.toNat (BitVec.ofNat 256 (leNat bs)) })

/-! ### Buffer records (spec/06 R168) -/

/-- The fields of a buffer record. -/
structure BufRec where
  base : Nat
  extent : Nat
  menc : BitVec 6
  rfmt : BitVec 6
  ilv : Nat
  smode : Nat
  sptr : Nat
  stride : Nat
  bpol : Nat
deriving DecidableEq, Repr

/-- Reading the 320 bits of a record. -/
def BufRec.split (w : BitVec 320) : BufRec :=
  { base := bits w 56 0, extent := bits w 103 64, menc := w.extractLsb' 104 6, rfmt := w.extractLsb' 110 6,
    ilv := bits w 123 116, smode := bits w 127 124, sptr := bits w 184 128, stride := bits w 223 192, bpol := bits w 227 224 }

/-- Whether an element format is an integer format. -/
def EF.isInt : EF → Bool
  | .int _ _ => true
  | _ => false

/-- A malformed record (spec/06 R171). -/
def recMalformed (w : BitVec 320) : Bool :=
  let r := BufRec.split w
  bits w 319 256 != 0 || bits w 255 232 != 0 || decide (3 < bits w 231 228) || decide (1 < r.bpol) || bits w 191 185 != 0 ||
    decide (2 < r.smode) || decide (39 < r.ilv) || bits w 63 57 != 0 ||
    !(r.rfmt == 0x01 || r.rfmt == 0x02 || r.rfmt == 0x03 || r.rfmt == 0x1C || r.rfmt == 0x1D) ||
    (match efOf r.menc with
     | none => true
     | some (.cb _) => r.rfmt == 0x1C || r.rfmt == 0x1D
     | some (.flt .e2m1) => r.rfmt == 0x1C || r.rfmt == 0x1D
     | some _ => false)

/-- The bytes of a range read at their homes at one instant. -/
def State.homeRange (s : State) (w : Who) (blk : Nat) (va : W64) (n align : Nat) : Except Stop (List Byte) := do
  let ps ← s.checkRange w .load va n align
  let xs ← ps.mapM fun p => (s.homeRead blk va.toNat p.1 p.2).map fun x => leBytes p.2 x
  pure xs.flatten

/-- The lookup of a record: 40 bytes as one home read (spec/13 R336). -/
def State.lookupRec (s : State) (v : View) (i : Nat) : Except Stop (BitVec 320) :=
  (s.homeRange (v.who s) v.b.uid (BitVec.ofNat 64 (v.b.kernel.brtab + 40 * i)) 40 8).map fun bs => BitVec.ofNat 320 (leNat bs)

/-- An element that a lane reaches: place, width in bytes, whether it is the upper nibble, and its scale's place. -/
structure ElemAt where
  lane : Nat
  loc : Loc
  va : W64
  n : Nat
  nib : Bool
  scale : Option (Loc × W64)
deriving DecidableEq, Repr

/-- The element index of a lane (spec/15 R396). -/
def View.elemIndex (v : View) (e b : Src) (scale : BitVec 2) (lane : Nat) : Nat :=
  (BitVec.ofNat 64 (v.src .int 64 lane e) +
    (BitVec.ofNat 32 (v.src .int 32 lane b)).signExtend 64 * BitVec.ofNat 64 (2 ^ scale.toNat)).toNat

/-- Address of an element (spec/06 R169). -/
def BufRec.addr (r : BufRec) (e : Nat) : W64 :=
  BitVec.ofNat 64 (r.base + e / 2 ^ r.ilv * r.stride + e % 2 ^ r.ilv * efWidth r.menc / 8)

/-- Address of an element's scale, if the buffer has scales. -/
def BufRec.scaleAddr (r : BufRec) (e : Nat) : Option W64 :=
  match r.smode with
  | 1 => some (BitVec.ofNat 64 (r.sptr + e / 2 ^ r.ilv * ceilDiv (2 ^ r.ilv) 32 + e % 2 ^ r.ilv / 32))
  | 2 => some (BitVec.ofNat 64 r.sptr)
  | _ => none

/-- The checks of one lane (spec/15 R398, spec/17 R480): none where BPOL 1 drops the lane. -/
def State.elemCheck (s : State) (v : View) (acc : Acc) (r : BufRec) (lane e : Nat) : Except Stop (Option ElemAt) :=
  if r.extent ≤ e then (if r.bpol = 1 then .ok none else .error (.trap (mkTrap cBounds 2)))
  else do
    let n := max 1 (efWidth r.menc / 8)
    let w := s.whoLane v (some lane)
    let l ← s.check w acc (r.addr e) n n
    let sc ← match r.scaleAddr e with
      | none => pure none
      | some a => (s.check w .load a 1 1).map fun k => some (k, a)
    pure (some { lane, loc := l, va := r.addr e, n, nib := e % 2 ^ r.ilv % 2 == 1, scale := sc })

/-- The scale codes of elements, each an ordinary load, in lane order. -/
def State.elemScales (s : State) (v : View) (es : List ElemAt) : Except Stop (List (ElemAt × Option Nat) × State) :=
  es.foldlM (fun (acc : List (ElemAt × Option Nat) × State) e =>
    match e.scale with
    | none => pure (acc.1 ++ [(e, none)], acc.2)
    | some (l, a) => do
      let (x, t) ← (acc.2.fillWho (s.whoLane v (some e.lane)) a.toNat 1).ordinary v.b.uid v.b.core v.b.ctx a.toNat l 1
      pure (acc.1 ++ [(e, some x)], t)) ([], s)

/-- The conversion of an element into a register format (spec/06 R170, spec/05 R128, R129). -/
def elemLoad (menc rfmt : BitVec 6) (fmt : W32) (book : W256) (scale : Option Nat) (code : Nat) : Nat × FlagSet :=
  match efOf menc, efOf rfmt with
  | some m, some r =>
    let x := m.decode (fmtXV fmt) (List.replicate 8 book) code
    let v := match scale with | some s => x.scale s | none => x
    (match r with
     | .int signed w =>
       if m.isInt && !v.isNan then v.toInt signed w else toIntF .rz signed w v
     | .flt f => f.encode { wideSat := scale.isSome } v
     | .cb _ => (0, 0))
  | _, _ => (0, 0)

/-- The conversion of a register value into an element (spec/17 R479, spec/05 R127). A float that an integer target clamps sets NV
(R126) and, as R479 says of every integer target, SA (log 15). -/
def elemStore (menc rfmt : BitVec 6) (fmt : W32) (book : W256) (scale : Option Nat) (x : Nat) : Nat × FlagSet :=
  match efOf menc, efOf rfmt with
  | some m, some r =>
    let y := r.decode (fmtXV fmt) [] (x % 2 ^ r.width)
    let v := match scale with | some 255 => .nan false | some s => y.unscale s | none => y
    (match m with
     | .int signed w =>
       if r.isInt && !v.isNan then v.toInt signed w
       else
         let (x, fl) := toIntF .rz signed w v
         (x, fl ||| flagIf (!v.isNan && fl &&& fNV != 0) fSA)
     | _ => m.chain true true { sat := fmtSAT fmt } (List.replicate 8 book) v)
  | _, _ => (0, 0)

/-- The codebook that an element code names, as of now (spec/05 R141). -/
def View.bookOf (v : View) (menc : BitVec 6) : W256 := match efOf menc with | some e => e.book v.b.cb | none => 0

/-- The part that LDB and STB share: the index, the record, and the lanes' elements. -/
def State.elems (s : State) (v : View) (g : Guard) (acc : Acc) (i : Nat) (e b : Src) (scale : BitVec 2) :
    Except Stop (BufRec × List (Nat × Option ElemAt)) :=
  if v.b.kernel.brcount ≤ i then .error (.trap (mkTrap cBounds 3))
  else do
    let w ← s.lookupRec v i
    if recMalformed w then .error (.trap (mkTrap cIllegalEncoding i))
    else
      let r := BufRec.split w
      let es ← (v.exec g).mapM fun l => (s.elemCheck v acc r l (v.elemIndex e b scale l)).map fun x => (l, x)
      pure (r, es)

/-- The same with the scale codes of the elements reached, and the state after their loads. -/
def State.elemsScaled (s : State) (v : View) (g : Guard) (acc : Acc) (i : Nat) (e b : Src) (scale : BitVec 2) :
    Except Stop (BufRec × List (Nat × Option ElemAt) × List (ElemAt × Option Nat) × State) := do
  let (r, xs) ← s.elems v g acc i e b scale
  let (es, t) ← s.elemScales v (xs.filterMap (·.2))
  pure (r, xs, es, t)

/-- The TLB fills of elements. -/
def State.fillElems (s : State) (v : View) (es : List (ElemAt × Option Nat)) : State :=
  es.foldl (fun u x => u.fillWho (s.whoLane v (some x.1.lane)) x.1.va.toNat x.1.n) s

/-- LDB (spec/15 R397). -/
def execLdb (g : Guard) (d : BitVec 8) (rec : BitVec 8) (e b : Src) (scale : BitVec 2) (s : State) : Host.Outcome State Fault Refusal :=
  runThread s fun v s => v.fresh [e, b]
    (match s.elemsScaled v g .load rec.toNat e b scale with
     | .error st => st.res
     | .ok (r, xs, es, t) =>
       let dst (x : ElemAt × Option Nat) : LoadDst :=
         .elem x.1.lane d r.menc r.rfmt x.1.nib (v.fmt x.1.lane) (v.bookOf r.menc) x.2
       let us := es.map fun x => t.loadUnit v false x.1.n (fun _ => dst x) (x.1.lane, x.1.loc)
       match t.poisonHit (es.map fun x => (x.1.lane, x.1.va)) us with
       | some a => .trap (mkTrap cMemUncorrectable 0 a.toNat)
       | none =>
         let t1 := t.putV v d.toNat 1 ((xs.filter fun x => x.2.isNone).map fun x => (x.1, 0))
         let t2 := t1.fillElems v es
         Res.long v (.next (t2.issueOp v .rlx (us ++ t2.fillUnits v.b.core us) true)))

/-- STB (spec/17 R479). -/
def execStb (g : Guard) (d : BitVec 8) (rec : BitVec 8) (e b : Src) (scale : BitVec 2) (s : State) : Host.Outcome State Fault Refusal :=
  runThread s fun v s => v.fresh [e, b]
    (match s.elemsScaled v g .store rec.toNat e b scale with
     | .error st => st.res
     | .ok (r, _, es, t) =>
       let put (x : ElemAt × Option Nat) : OpUnit × (Nat × FlagSet) :=
         let (c, fl) := elemStore r.menc r.rfmt (v.fmt x.1.lane) (v.bookOf r.menc) x.2 (v.g.vreg d.toNat x.1.lane).toNat
         let four := efWidth r.menc == 4
         let mask : W128 := if four then (if x.1.nib then 0xF0 else 0x0F) else byteMask x.1.n
         (storeUnit (v.party x.1.lane) x.1.loc x.1.n (if four && x.1.nib then 16 * c else c) mask, (x.1.lane, fl))
       let us := es.map fun x => (put x).1
       let t1 := t.orFlags v (es.map fun x => (put x).2)
       let t2 := t1.fillElems v es
       .next ((t2.l1Stores v.b.core v.b.ctx us).issueOp v .rlx us false))

/-- BRECLD (spec/13 R336, R337). -/
def execBrecld (never : Bool) (rec : BitVec 8) (base : Src) (off : BitVec 10) (s : State) : Host.Outcome State Fault Refusal :=
  runThread s fun v s =>
    if never then .next s
    else match s.loadRange (v.who s) v.b.uid (v.uniAddr base off 8) 40 8 with
      | .error st => st.res
      | .ok (bs, t) =>
        if v.b.kernel.brcount ≤ rec.toNat then .trap (mkTrap cBounds 3)
        else
          let a : W64 := BitVec.ofNat 64 (v.b.kernel.brtab + 40 * rec.toNat)
          match t.checkRange (v.who s) .store a 40 8 with
          | .error st => st.res
          | .ok ps =>
            match ps.find? fun p => t.earlierBusy v.b.uid p.1 p.2 with
            | some p => .hold (.earlier p.1 p.2)
            | none =>
              let put (acc : State × List Byte) (p : Loc × Nat) : State × List Byte :=
                let x := BitVec.ofNat 128 (leNat (acc.2.take p.2))
                ((acc.1.l1Store v.b.core v.b.ctx p.1 x (byteMask p.2)).writeLoc v.b.ctx p.1 p.2 x (byteMask p.2), acc.2.drop p.2)
              .next (ps.foldl put (t.fillWho (v.who s) a.toNat 40, bs)).1

/-! ### DECW -/

/-- The stream bits from number `k` on, `n` of them, of the stream that starts at a bit address, the first bit lowest; none past the end of
the block's shared memory. Stream bit b is bit b mod 8 of the byte at (start + b) / 8 (spec/06 R164; log 15). -/
def Block.streamBits (b : Block) (start k n : Nat) : Option Nat :=
  if 8 * b.kernel.shared < start + k + n then none
  else
    let lo := (start + k) / 8
    let bs := b.sharedBytes lo ((start + k + n + 7) / 8 - lo)
    some ((List.range n).foldl (fun x i => x + bitAt (bs.getD ((start + k + i) / 8 - lo) 0).toNat ((k + i) % 8) * 2 ^ i) 0)

/-- An entry of the prefix-code table. -/
structure PcEntry where
  len : Nat
  code : Nat
  value : Nat
deriving DecidableEq, Repr

/-- The table's 16 entries. An entry whose LEN is 0, or above 16, is unused (log 15). -/
def pcTable (bs : List Byte) : List PcEntry :=
  (List.range 16).filterMap fun i =>
    let w := BitVec.ofNat 64 (leNat ((bs.drop (8 * i)).take 8))
    let len := bits w 36 32
    if len = 0 ∨ 16 < len then none else some { len, code := bits w 31 16 % 2 ^ len, value := bits w 15 0 }

/-- Whether an entry matches at a stream bit; none where its bits run past the end. -/
def Block.pcMatch (b : Block) (start at_ : Nat) (e : PcEntry) : Option Bool :=
  (b.streamBits start at_ e.len).map fun x => brev e.len x == e.code

/-- `n` codewords from a stream bit: the values and the bits used, or the BOUNDS information. -/
def Block.pcDecode (b : Block) (tab : List PcEntry) (start : Nat) : Nat → Nat → Except Nat (List Nat × Nat)
  | 0, _ => .ok ([], 0)
  | n + 1, at_ =>
    match tab.find? fun e => b.pcMatch start at_ e == some true with
    | none => .error (if tab.any fun e => (b.pcMatch start at_ e).isNone then 0 else 1)
    | some e => (b.pcDecode tab start n (at_ + e.len)).map fun (xs, k) => (e.value :: xs, e.len + k)

/-- The values of set bits in a zero bitmap, in ascending order from stream bit `k` on, whose address is a multiple of 8 (spec/14 R355). They
are stream bits as the bitmap's are (spec/06 R164). -/
def Block.zbDecode (b : Block) (start w bitmap : Nat) : Nat → Nat → Nat → Option (List Nat × Nat)
  | 0, _, _ => some ([], 0)
  | n + 1, e, k =>
    if bitAt bitmap e = 0 then (b.zbDecode start w bitmap n (e + 1) k).map fun (xs, m) => (0 :: xs, m)
    else match b.streamBits start k w with
      | none => none
      | some x => (b.zbDecode start w bitmap n (e + 1) (k + w)).map fun (xs, m) => (x :: xs, w + m)

/-- The elements of a stream and the bits used (spec/06 R165), or the BOUNDS information. -/
def Block.decode (b : Block) (mode : DecMode) (tab : List PcEntry) (at_ n : Nat) : Except Nat (List Nat × Nat) :=
  match mode with
  | .cb k =>
    (match b.streamBits at_ 0 (4 * n) with
     | none => .error 0
     | some x => .ok ((List.range n).map fun e => bits (b.cb.getD k.toNat 0) (16 * (x / 16 ^ e % 16) + 15) (16 * (x / 16 ^ e % 16)), 4 * n))
  | .zb l =>
    (match b.streamBits at_ 0 n with
     | none => .error 0
     | some x =>
       let from_ := (at_ + n + 7) / 8 * 8
       match b.zbDecode at_ (8 * 2 ^ l.toNat) x n 0 (from_ - at_) with
       | none => .error 0
       | some (xs, k) => .ok (xs, from_ - at_ + k))
  | .pc _ => b.pcDecode tab at_ n 0

/-- Width of DECW's elements. -/
def decWidth : DecMode → Nat
  | .zb l => 8 * 2 ^ l.toNat
  | _ => 16

/-- The most bits that the decoding of `n` elements can read from a bit address on. -/
def decSpan (mode : DecMode) (at_ n : Nat) : Nat :=
  match mode with
  | .cb _ => 4 * n
  | .zb l => (at_ + n + 7) / 8 * 8 - at_ + 8 * 2 ^ l.toNat * n
  | .pc _ => 16 * n

/-- DECW, in its own word or as the second half of a pair (spec/14 R355). It decodes once the block's earlier accesses to the bytes
that it can read have reached their home: its reads are home reads (spec/06 R166, spec/08 R218, R223). -/
def vecDecw (g : Guard) (d : BitVec 8) (latch : BitVec 2) (a : BitVec 6) (e : Src) (mode : DecMode) (k : BitVec 3)
    (v : View) (s : State) : Res :=
  let w := decWidth mode
  let m := 32 / w
  let regs := k.toNat + 1
  let n := v.uni 32 e
  let at_ := (v.r.sreg a.toNat).toNat
  let taboff := match mode with | .pc t => (v.r.sreg t.toNat).toNat | _ => 0
  let isPc := match mode with | .pc _ => true | _ => false
  if n = 0 ∨ 32 * regs * m < n then .trap (mkTrap cBounds 2)
  else if taboff % 8 ≠ 0 then .trap (mkTrap cMisaligned 0)
  else if isPc && decide (v.b.kernel.shared < taboff + 128) then .trap (mkTrap cBounds 0)
  else if isPc && s.earlierBusy v.b.uid (.shared v.b.uid taboff) 128 then .hold (.earlier (.shared v.b.uid taboff) 128)
  else
    let tab := if isPc then pcTable (v.b.sharedBytes taboff 128) else []
    let l : Loc := .shared v.b.uid (at_ / 8)
    let nb := (at_ + decSpan mode at_ n + 7) / 8 - at_ / 8
    if s.earlierBusy v.b.uid l nb then .hold (.earlier l nb)
    else match v.b.decode mode tab at_ n with
    | .error i => .trap (mkTrap cBounds i)
    | .ok (xs, used) =>
      let word (j lane : Nat) : Nat :=
        (List.range m).foldl (fun acc i => acc + xs.getD ((j * 32 + lane) * m + i) 0 % 2 ^ w * 2 ^ (w * i)) 0
      let ls := v.exec g
      let t := (List.range regs).foldl (fun t j => t.putV v (d.toNat + j) 1 (ls.map fun l => (l, word j l))) s
      let t1 := t.capture v latch.toNat (ls.map fun l => (l, word 0 l))
      .next (t1.putS v a.toNat 64 (at_ + used))

/-- DECW (spec/14 R355). -/
def execDecw (g : Guard) (d : BitVec 8) (latch : BitVec 2) (a : BitVec 6) (e : Src) (mode : DecMode) (k : BitVec 3) (s : State) :
    Host.Outcome State Fault Refusal :=
  runThread s (vecDecw g d latch a e mode k)

end Sys2Proof.Machine
end

