-- ==== Sys2Proof/Machine/Pages.lean ====
section
/-! DEFINITION. Seals, reserved pages and the device allocator: SEAL, UNSEAL, MAPCOMMIT, MAPRELEASE, POOLGET, POOLPUT
(spec/07 R187, R194-R199, spec/15 R402-R404, spec/16 R427-R429, spec/17 R456-R458, spec/18 R499, R500). -/

namespace Sys2Proof.Machine

/-! ### Seals -/

/-- A status to a predicate: P in the executing lanes, Q once. -/
def State.putStatus (s : State) (v : View) (d : PDst) (ls : List Nat) (st : Bool) : State :=
  if d.q then s.putQ v d.n.toNat st else s.putP v d.n.toNat (ls.map fun l => (l, st))

/-- Whether a slot operation has performed all its accesses. -/
def AOp.quiet (o : AOp) : Bool :=
  o.started && o.srcs.isEmpty && o.writes.isEmpty && o.parts.isEmpty &&
    (match o.work with
     | .coll .. => !o.got.isEmpty || o.cutShort
     | .cpy _ _ _ todo _ _ => todo.isEmpty || o.discard
     | .cpyRemote _ _ _ _ _ _ todo _ _ => todo.isEmpty || o.discard
     | _ => true)

/-- Whether an asynchronous operation may still write to a region: a copy by its parts left, a slot operation by the runs that it
writes (spec/07 R197, step 4). -/
def State.aopWrites (s : State) (ctx base len : Nat) (o : AOp) : Bool :=
  let phys (l : Loc) : Bool := match l with | .phys a => s.inRegion ctx base len a | _ => false
  o.ctx == ctx &&
    (match o.work with
     | .cpy _ _ _ todo _ _ => !o.quiet && todo.any fun p => phys p.2.1
     | .cpyRemote _ _ _ _ _ toRemote todo _ _ => !toRemote && !o.quiet && todo.any fun p => phys p.2.1
     | _ => !o.quiet && o.wruns.any fun r => decide (base < r.1 + r.2) && decide (r.1 < base + len))

/-- Whether a store to a region is on its way. -/
def State.regionWriting (s : State) (ctx base len : Nat) : Bool :=
  (s.ops.any fun o => o.units.any fun u => u.writes && (match u.loc with | .phys a => s.inRegion ctx base len a | _ => false)) ||
    s.aops.any (s.aopWrites ctx base len)

/-- Lines of a region leave every first-level data cache. -/
def State.dropRegion (s : State) (ctx base len : Nat) (only : L1Line → Bool) : State :=
  { s with l1 := s.l1.filter fun x => !(only x && s.inRegion ctx base len (256 * x.line)) }

/-- SEAL's first two steps: the walk and the permission of every page (spec/17 R458). -/
def State.sealChecks (s : State) (v : View) (base len : Nat) : Except Stop Unit := do
  let ps := (List.range (len / 16384)).map fun k => base + 16384 * k
  let ms ← ps.mapM fun a => (s.checkWalk (v.who s) .load a a).map fun x => (a, x.2)
  for m in ms do
    if m.2.sys || inSpill (s.ctx v.b.ctx).desc m.1 then .error (.trap (mkTrap cProtection 4 m.1)) else .ok ()

/-- SEAL, in its own word or as the second half of a pair (spec/17 R457): the entry is taken first, then the release waits, the region is
marked, and the stores to it are waited for. No later load returns a value older than the sealed one, so lines of the region leave the
caches when the entry becomes valid. -/
def vecSeal (g : Guard) (d : PDst) (a b : Src) (v : View) (s : State) : Res :=
  let ls := v.exec g
  let base := v.uni 64 a
  let len := v.uni 64 b
  let c := s.ctx v.b.ctx
  let stage (t : State) (i k : Nat) : State :=
    t.updCtx v.b.ctx fun c => { c with seals := c.seals.map fun e => if e.idx = i then { e with stage := k } else e }
  let wait (t : State) (c : WaitCond) : Res := .moved (t.updSlices v v.m fun _ x => { x with wait := .retry c })
  let goOn (t : State) (e : SealEntry) : Res :=
    if e.stage = 0 ∧ !t.releaseDone v.b.uid v.b.core v.issuer then wait t .release
    else if t.regionWriting v.b.ctx e.base e.len then wait (stage t e.idx 1) (.seal e.idx)
    else .next ((stage ((t.dropRegion v.b.ctx e.base e.len fun _ => true).l1AcquireAll) e.idx 2).putStatus v d ls true)
  if ls.isEmpty then .next s
  else match c.seals.find? fun e => e.by_ == v.issuer && decide (e.stage < 2) with
  | some e => goOn s e
  | none =>
    if 2 ^ 57 ≤ base then .trap (mkTrap cProtection 1 base)
    else if base % 16384 ≠ 0 ∨ len % 16384 ≠ 0 then .trap (mkTrap cMisaligned 0 base)
    else if len < 16384 ∨ 2 ^ 40 < len ∨ Config.sharedBase < base + len then .next (s.putStatus v d ls false)
    else match s.sealChecks v base len with
      | .error st => st.res
      | .ok () =>
        match (List.range 64).find? fun i => !c.seals.any fun e => e.idx == i with
        | none => .next (s.putStatus v d ls false)
        | some i =>
          if c.seals.any fun e => decide (e.base < base + len) && decide (base < e.base + e.len) then
            .next (s.putStatus v d ls false)
          else
            let e : SealEntry := { idx := i, base, len, stage := 0, copies := 0, by_ := v.issuer }
            goOn (s.updCtx v.b.ctx fun c => { c with seals := c.seals ++ [e] }) e

/-- SEAL (spec/17 R457). -/
def execSealRegion (g : Guard) (d : PDst) (a b : Src) (s : State) : Host.Outcome State Fault Refusal := runThread s (vecSeal g d a b)

/-- Whether a seal entry still has readers counted on it (spec/07 R199). -/
def SealEntry.busy (e : SealEntry) : Bool := e.copies != 0

/-- UNSEAL, in its own word or as the second half of a pair (spec/18 R500, spec/07 R199). -/
def vecUnseal (g : Guard) (d : PDst) (a : Src) (v : View) (s : State) : Res :=
  let ls := v.exec g
  let base := v.uni 64 a
  let c := s.ctx v.b.ctx
  let finish (t : State) (e : SealEntry) : State :=
    let t1 := t.dropRegion v.b.ctx e.base e.len fun x => x.isSealed
    let t2 := t1.updCtx v.b.ctx fun c => { c with seals := c.seals.filter fun x => x.idx != e.idx }
    t2.l1AcquireAll.putStatus v d ls true
  if ls.isEmpty then .next s
  else match c.seals.find? fun e => e.by_ == v.issuer && e.stage == 3 with
  | some e => if e.busy then .hold (.unseal e.idx) else .next (finish s e)
  | none =>
    if 2 ^ 57 ≤ base then .trap (mkTrap cProtection 1 base)
    else if base % 16384 ≠ 0 then .trap (mkTrap cMisaligned 0 base)
    else match c.seals.find? fun e => e.base == base && e.stage == 2 with
      | none => .next (s.putStatus v d ls false)
      | some e =>
        s.afterRelease v (.ar .sys)
          (if !e.busy then .next (finish s e)
           else
             let t := s.updCtx v.b.ctx fun c => { c with seals := c.seals.map fun x =>
               if x.idx = e.idx then { x with stage := 3, by_ := v.issuer } else x }
             .moved (t.updSlices v v.m fun _ x => { x with wait := .retry (.unseal e.idx) }))

/-- UNSEAL (spec/18 R500). -/
def execUnseal (g : Guard) (d : PDst) (a : Src) (s : State) : Host.Outcome State Fault Refusal := runThread s (vecUnseal g d a)

/-! ### Reserved pages -/

/-- The level-0 entry of an address, with its place, when the walk reaches one that is well formed (spec/15 R403). -/
def level0 (m : List (Nat × Byte)) (poison : List Nat) (va : Nat) : List (Nat × Nat × Nat) → Nat → Option (Nat × W64)
  | [], _ => none
  | (level, lo, nb) :: rest, table =>
    let pte := table + 8 * (va / 2 ^ lo % 2 ^ nb)
    let e := BitVec.ofNat 64 (Memory.nat m pte 8)
    if poison.contains (pte / 16) || pteMalformed e level then none
    else if level = 0 then some (pte, e)
    else if bits e 1 0 = 1 then level0 m poison va rest (bits e 47 10 * 1024)
    else none

/-- Bytes of memory set to 0, what an unlisted address reads as. -/
def Memory.clear (m : List (Nat × Byte)) (a n : Nat) : List (Nat × Byte) := m.filter fun p => !(decide (a ≤ p.1) && decide (p.1 < a + n))

/-- A frame written with zeros at its homes, where monitors compare them (spec/08 R227); no cache keeps an older value (spec/08
R206). -/
def State.zeroFrame (s : State) (ctx f : Nat) : State :=
  let t := (List.range 64).foldl (fun t k => t.setOwner (f + 256 * k) ctx) s
  ({ t with
     mem := Memory.clear s.mem f 16384,
     poison := s.poison.filter fun p => !(f / 16384 == p / 1024),
     l1 := s.l1.filter fun x => !(f / 16384 == x.line / 64) } : State).noteWrite f 16384

/-- TOP and CAP of a context's frame pool. -/
def State.framePool (s : State) (ctx : Nat) : Option (Nat × Nat) :=
  let fp := (s.ctx ctx).desc.fpool
  match s.devNat ctx fp 4, s.devNat ctx (fp + 4) 4 with
  | some t, some c => some (t, c)
  | _, _ => none

/-- A frame-pool access that the device cannot make: CERR[6], and false (spec/10 R534). -/
def State.noPool (s : State) (ctx : Nat) : Bool × State := (false, s.setCerr ctx 6)

/-- MAPCOMMIT of one lane (spec/15 R403). -/
def State.commitLane (s : State) (ctx va : Nat) : Bool × State :=
  if Config.sharedBase ≤ va then (false, s)
  else match level0 s.mem s.poison va walkLevels (s.ctx ctx).desc.root with
  | none => (false, s)
  | some (pte, e) =>
    if bits e 1 0 = 2 then (true, s)
    else if bits e 1 0 ≠ 3 then (false, s)
    else
      let fp := (s.ctx ctx).desc.fpool
      match s.framePool ctx with
      | none => s.noPool ctx
      | some (top, cap) =>
        if top = 0 ∨ cap < top then (false, s)
        else match s.devNat ctx (fp + 8 * top) 8 with
          | none => s.noPool ctx
          | some f =>
            if f % 16384 ≠ 0 ∨ Config.nearEnd < f + 16384 then (false, s)
            else match s.devWrite ctx fp (leBytes 4 (top - 1)) with
              | none => s.noPool ctx
              | some t => (true, ((t.zeroFrame ctx f).l1AcquireAll.setOwner pte ctx).poke pte (leBytes 8 (f + bits e 6 3 * 8 + 2)))

/-- MAPRELEASE's end for a lane: the frame goes onto the pool. -/
def State.pushFrame (s : State) (ctx pa : Nat) : Bool × State :=
  let fp := (s.ctx ctx).desc.fpool
  match s.framePool ctx with
  | none => s.noPool ctx
  | some (top, _) =>
    match s.devWrite ctx (fp + 8 + 8 * top) (leBytes 8 pa) with
    | none => s.noPool ctx
    | some t => match t.devWrite ctx fp (leBytes 4 (top + 1)) with
      | none => s.noPool ctx
      | some u => (true, u)

/-- MAPRELEASE of one lane up to its shootdown: the shootdown's name and the frame, or false. A pool that cannot take the frame changes
nothing (spec/10 R534). -/
def State.releaseLane (s : State) (ctx va : Nat) : Option (Nat × Nat) × State :=
  if Config.sharedBase ≤ va then (none, s)
  else match level0 s.mem s.poison va walkLevels (s.ctx ctx).desc.root with
  | none => (none, s)
  | some (pte, e) =>
    if bits e 1 0 ≠ 2 ∨ (s.ctx ctx).sealedAt va then (none, s)
    else match s.framePool ctx with
      | none => (none, s.setCerr ctx 6)
      | some (top, cap) =>
        if cap ≤ top then (none, s)
        else if !(s.pushFrame ctx (bits e 47 14 * 16384)).1 then (none, s.setCerr ctx 6)
        else
          let d : Shootdown := { id := s.uid, record := none, ctx, va, pages := 1, sigtl := none, dropped := none, done := false }
          (some (s.uid, bits e 47 14 * 16384),
           { ((s.setOwner pte ctx).poke pte (leBytes 8 (e.toNat + 1))) with shootdowns := s.shootdowns ++ [d], uid := s.uid + 1 })

/-- A page released for a frame that the pool cannot take in the end is committed again: MAPRELEASE then changes nothing (spec/10 R534). -/
def State.unrelease (s : State) (ctx va : Nat) : State :=
  match level0 s.mem s.poison va walkLevels (s.ctx ctx).desc.root with
  | some (pte, e) => if bits e 1 0 = 3 then (s.setOwner pte ctx).poke pte (leBytes 8 (e.toNat - 1)) else s
  | none => s

/-- Addresses of the lanes of MAPCOMMIT and MAPRELEASE, or the trap of the lowest lane that meets one (spec/15 R404). -/
def View.pageLanes (v : View) (g : Guard) (a : Src) : Except Trap (List (Nat × Nat)) :=
  (v.exec g).mapM fun l =>
    let x := v.src .int 64 l a
    if 2 ^ 57 ≤ x then .error (mkTrap cProtection 1 x)
    else if x % 16384 ≠ 0 then .error (mkTrap cMisaligned 0 x)
    else .ok (l, x)

/-- What has been performed of an instruction that takes its lanes one by one. -/
def View.progress (v : View) : BitVec 32 × BitVec 32 × Option (Nat × Nat) :=
  match (v.slice v.low).again with
  | .lanes d st sh => (d, st, sh)
  | _ => (0, 0, none)

/-- The outcome after a lane: its status recorded, the instruction at its end or still in hand. -/
def State.laneDone (s : State) (v : View) (p : Nat) (xs : List (Nat × Nat)) (done status : BitVec 32) (lane : Nat) (st : Bool) : Res :=
  let done' := done ||| BitVec.ofNat 32 (2 ^ lane)
  let status' := if st then status ||| BitVec.ofNat 32 (2 ^ lane) else status
  if xs.all fun x => bit done' x.1 then .next (s.putP v p (xs.map fun x => (x.1, bit status' x.1)))
  else .moved (s.updSlices v v.m fun _ x => { x with again := .lanes done' status' none })

/-- MAPCOMMIT, in its own word or as the second half of a pair: one lane at a time, in ascending order. -/
def vecMapcommit (g : Guard) (p : BitVec 3) (a : Src) (v : View) (s : State) : Res :=
  v.fresh [a]
    (match v.pageLanes g a with
     | .error t => .trap t
     | .ok xs =>
       let (done, status, _) := v.progress
       match xs.find? fun x => !bit done x.1 with
       | none => .next s
       | some x => s.afterRelease v (.rel .dev)
           (let (st, t) := s.commitLane v.b.ctx x.2
            t.laneDone v p.toNat xs done status x.1 st))

/-- MAPCOMMIT (spec/15 R403). -/
def execMapcommit (g : Guard) (p : BitVec 3) (a : Src) (s : State) : Host.Outcome State Fault Refusal := runThread s (vecMapcommit g p a)

/-- MAPRELEASE, in its own word or as the second half of a pair. -/
def vecMaprelease (g : Guard) (p : BitVec 3) (a : Src) (v : View) (s : State) : Res :=
  v.fresh [a]
    (match v.pageLanes g a with
     | .error t => .trap t
     | .ok xs =>
       let (done, status, shoot) := v.progress
       match xs.find? fun x => !bit done x.1 with
       | none => .next s
       | some x =>
         match shoot with
         | some (id, pa) =>
           let (st, t) := ({ s with shootdowns := s.shootdowns.filter fun d => d.id != id } : State).pushFrame v.b.ctx pa
           (if st then t else t.unrelease v.b.ctx x.2).laneDone v p.toNat xs done status x.1 st
         | none => s.afterRelease v (.rel .dev)
           (match s.releaseLane v.b.ctx x.2 with
            | (none, t) => t.laneDone v p.toNat xs done status x.1 false
            | (some sh, t) => .moved (t.updSlices v v.m fun _ y =>
                { y with wait := .retry (.shootdown sh.1), again := .lanes done status (some sh) })))

/-- MAPRELEASE (spec/15 R403). -/
def execMaprelease (g : Guard) (p : BitVec 3) (a : Src) (s : State) : Host.Outcome State Fault Refusal := runThread s (vecMaprelease g p a)

/-! ### The device allocator -/

/-- A pool control block (spec/07 R194). -/
structure Pcb where
  base : Nat
  size : Nat
  count : Nat
  stack : Nat
  state : Nat
  top : Nat
deriving DecidableEq, Repr

/-- Reading the 64 bytes; none for a malformed block (spec/07 R195, spec/16 R428). -/
def Pcb.ofBytes (bs : List Byte) : Option Pcb :=
  let w := BitVec.ofNat 512 (leNat bs)
  let p : Pcb := { base := bits w 56 0, size := bits w 95 64, count := bits w 127 96, stack := bits w 184 128,
                   state := bits w 248 192, top := bits w 287 256 }
  if bits w 63 57 ≠ 0 ∨ bits w 191 185 ≠ 0 ∨ bits w 255 249 ≠ 0 ∨ bits w 511 288 ≠ 0 ∨ p.size < 16 ∨ p.size % 16 ≠ 0 ∨
     p.count = 0 ∨ 2 ^ 24 < p.count ∨ p.count < p.top then none
  else some p

/-- The places of `n` bytes that a home operation reads and writes: the checks of an atomic on every page, and no earlier access of
the block to them in flight. -/
def State.homeLoc (s : State) (w : Who) (blk : Nat) (va : W64) (n align : Nat) : Except Stop Pieces := do
  let ps ← s.checkRange w .atomic va n align
  match s.earlierPiece blk ps w.upto with
  | some p => .error (.hold (.earlier p.1 p.2))
  | none => if ps.any fun p => s.poisoned p.1 p.2 then .error (.trap (mkTrap cMemUncorrectable 0 va.toNat)) else .ok ps

/-- A number written at its home, in pieces: the core's resident lines are dropped (spec/08 R224). -/
def State.homeWrite (s : State) (core ctx : Nat) : Pieces → Nat → State
  | [], _ => s
  | (l, n) :: ps, x =>
    State.homeWrite ((s.l1Drop core l).writeLoc ctx l n (BitVec.ofNat 128 (x % 256 ^ n)) (byteMask n)) core ctx ps (x / 256 ^ n)

/-- A home access of the allocator outside the control block, under the checks of an atomic (log 21). -/
def State.poolLoc (s : State) (v : View) (va n : Nat) : Except Stop Pieces := s.homeLoc (v.who s) v.b.uid (BitVec.ofNat 64 va) n 1

/-- The control block's place. -/
def State.pcbLoc (s : State) (v : View) (pcb : W64) : Except Stop Pieces := s.homeLoc (v.who s) v.b.uid pcb 64 64

/-- A number written by the allocator. -/
def State.poolWrite (s : State) (v : View) (ps : Pieces) (x : Nat) : State := s.homeWrite v.b.core v.b.ctx ps x

/-- The misuse trap of a lane. -/
def poolMisuse (code lane : Nat) : Stop := .trap (mkTrap cPoolMisuse (code + 256 * lane))

/-- POOLGET of one lane (spec/07 R195): the block's address, if there is one. -/
def State.poolget1 (s : State) (v : View) (l : Pieces) (lane : Nat) : Except Stop (Option Nat × State) :=
  match Pcb.ofBytes (s.readPieces l) with
  | none => .error (poolMisuse 4 lane)
  | some p =>
    if p.top = 0 then .ok (none, s)
    else do
      let k ← s.poolLoc v (p.stack + 4 * (p.top - 1)) 4
      let idx := leNat (s.readPieces k)
      if p.count ≤ idx then .error (poolMisuse 2 lane)
      else
        let f ← s.poolLoc v (p.state + idx) 1
        if leNat (s.readPieces f) ≠ 0 then .error (poolMisuse 2 lane)
        else .ok (some (p.base + idx * p.size), (s.poolWrite v (cutPieces l 32 4) (p.top - 1)).poolWrite v f 1)

/-- POOLPUT of one lane. -/
def State.poolput1 (s : State) (v : View) (l : Pieces) (lane a : Nat) : Except Stop State :=
  match Pcb.ofBytes (s.readPieces l) with
  | none => .error (poolMisuse 4 lane)
  | some p =>
    if a < p.base ∨ p.base + p.count * p.size ≤ a ∨ (a - p.base) % p.size ≠ 0 then .error (poolMisuse 1 lane)
    else do
      let idx := (a - p.base) / p.size
      let f ← s.poolLoc v (p.state + idx) 1
      if leNat (s.readPieces f) ≠ 1 then .error (poolMisuse 0 lane)
      else if p.top = p.count then .error (poolMisuse 3 lane)
      else
        let k ← s.poolLoc v (p.stack + 4 * p.top) 4
        .ok (((s.poolWrite v f 0).poolWrite v k idx).poolWrite v (cutPieces l 32 4) (p.top + 1))

/-- POOLGET's lanes in order, each against the state that the earlier ones leave. -/
def State.poolgets (s : State) (v : View) (l : Pieces) (ls : List Nat) : Except Stop (List (Nat × Option Nat) × State) :=
  ls.foldlM (fun (acc : List (Nat × Option Nat) × State) lane =>
    (acc.2.poolget1 v l lane).map fun r => (acc.1 ++ [(lane, r.1)], r.2)) ([], s)

/-- POOLGET (spec/16 R428). -/
def execPoolget (g : Guard) (d : BitVec 8) (p : BitVec 3) (base : Src) (off : BitVec 10) (s : State) : Host.Outcome State Fault Refusal :=
  runThread s fun v s =>
    let a := v.uniAddr base off 8
    let ls := v.exec g
    if ls.isEmpty then Res.long v (.next s)
    else match s.pcbLoc v a with
      | .error st => st.res
      | .ok l =>
        match s.poolgets v l ls with
        | .error st => st.res
        | .ok (xs, t) =>
          let t1 := ((t.fillWho (v.who s) a.toNat 64).putV v d.toNat 2 (xs.map fun x => (x.1, x.2.getD 0))).putP v p.toNat
            (xs.map fun x => (x.1, x.2.isSome))
          Res.long v (.next (t1.l1Acquire v.b.core))

/-- POOLPUT (spec/16 R428). -/
def execPoolput (g : Guard) (d : BitVec 8) (base : Src) (off : BitVec 10) (s : State) : Host.Outcome State Fault Refusal :=
  runThread s fun v s =>
    let a := v.uniAddr base off 8
    let ls := v.exec g
    if ls.isEmpty then .next s
    else match s.pcbLoc v a with
      | .error st => st.res
      | .ok l =>
        s.afterRelease v (.rel .dev)
          (match ls.foldlM (fun t lane => t.poolput1 v l lane (v.g.vwide d.toNat lane 2)) s with
           | .error st => st.res
           | .ok t => .next (t.fillWho (v.who s) a.toNat 64))

end Sys2Proof.Machine
end

