-- ==== Sys2Proof/Machine/Copies.lean ====
section
/-! DEFINITION. Copies of the thread set and their waits: CPY, CPBATCH, CPWAIT, and the waits TLWAIT, PBARRIVE, PBWAIT,
MONWAIT (spec/13 R348-R353, spec/15 R414-R417, spec/16 R423-R426, spec/18 R494, R495). -/

namespace Sys2Proof.Machine

/-- The members wait at the instruction for a condition. -/
def State.waitOn (s : State) (v : View) (c : WaitCond) : State :=
  s.updSlices v v.m fun _ x => { x with wait := .retry c, again := .waited (match c with | .batch n => n | _ => 0) }

/-! ### Copies -/

/-- The name under which a gang owns its copies. -/
def gangIssuer (blk gang : Nat) : Issuer := .group blk gang 0

/-- Copies in a gang's queue. -/
def State.copies (s : State) (blk gang : Nat) : List AOp := s.aops.filter fun o => o.owner == gangIssuer blk gang

/-- One lane's copy: the address operands and the length operand. -/
structure CpyReq where
  lane : Nat
  dst : W64
  src : W64
  c : W64
deriving DecidableEq, Repr

/-- Runs with their offsets. -/
def offsets : Nat → List (Loc × Nat) → List (Nat × Loc × Nat)
  | _, [] => []
  | o, (l, n) :: rest => (o, l, n) :: offsets (o + n) rest

/-- The seal entries that a read of a range counts on (spec/07 R199). -/
def Ctx.sealsOf (c : Ctx) (va n : Nat) : List Nat :=
  (c.seals.filter fun e => e.stage == 2 && decide (e.base < va + n) && decide (va < e.base + e.len)).map (·.idx)

/-- The seal entries that a read of a range as addressed counts on: those of its backing addresses where it lies in the local window
(spec/07 R176, R199). -/
def State.sealsAt (s : State) (w : Who) (va n : Nat) : List Nat :=
  match s.checkRegion w va n with
  | .ok (.inr g) => (s.ctx w.ctx).sealsOf g n
  | _ => []

/-- The checks of one lane's local ranges: the destination's, then the source's (spec/13 R353). -/
def State.cpyLane (s : State) (v : View) (kind : CpyKind) (r : CpyReq) : Except Stop (AWork × List Nat) := do
  let n := bits r.c 31 0
  let w := s.whoLane v (some r.lane)
  match kind with
  | .toLocal => do
    let ds ← s.checkRange w .store r.dst n 1
    let ss ← s.checkRange w .load r.src n 1
    let lap := ds.any fun d => ss.any fun x => d.1.overlaps d.2 x.1 x.2
    pure (.cpy r.src.toNat ss (offsets 0 ss) (offsets 0 ds) lap [], s.sealsAt w r.src.toNat n)
  | .toRemote => do
    let ss ← s.checkRange w .load r.src n 1
    pure (.cpyRemote r.src.toNat (bits r.c 50 32) (bits r.c 62 51) r.dst.toNat n true (offsets 0 ss) [] ss, s.sealsAt w r.src.toNat n)
  | .fromRemote => do
    let ds ← s.checkRange w .store r.dst n 1
    pure (.cpyRemote r.dst.toNat (bits r.c 50 32) (bits r.c 62 51) r.src.toNat n false (offsets 0 ds) [] ds, [])

/-- A copy enters the gang's queue and its open batch; `lead` names the first copy of its instruction. -/
def State.pushCopy (s : State) (v : View) (lead : Nat) (w : AWork × List Nat) : State :=
  let o : AOp := { id := s.uid, lead, ctx := v.b.ctx, blk := v.b.uid, core := v.b.core, owner := gangIssuer v.b.uid v.g.name,
                   kind := .copy, number := v.g.batch + 1, batch := some (v.g.batch + 1), grid := v.b.grid, work := w.1,
                   started := false, srcs := [], got := [], ahead := [], writes := [], parts := [], err := none, seals := w.2,
                   wruns := [], since := 0 }
  { (s.recount v.b.ctx w.2) with
    aops := s.aops ++ [o], uid := s.uid + 1 }

/-- CPY, in its own word or as the second half of a pair (spec/13 R352). -/
def vecCpy (g : Guard) (kind : CpyKind) (a b c : Src) (v : View) (s : State) : Res :=
  let wc := if kind == .toLocal then 32 else 64
  let rs := (v.exec g).map fun l =>
    ({ lane := l, dst := BitVec.ofNat 64 (v.src .int 64 l a), src := BitVec.ofNat 64 (v.src .int 64 l b),
       c := BitVec.ofNat 64 (v.src .int wc l c) } : CpyReq)
  v.fresh [a, b, c]
    (match rs.mapM (s.cpyLane v kind) with
     | .error st => st.res
     | .ok ws =>
       if 32 < (s.copies v.b.uid v.g.name).length + ws.length then .hold (.copyRoom ws.length)
       else .next (ws.foldl (fun t w => t.pushCopy v s.uid w) s))

/-- CPY (spec/13 R352). -/
def execCpy (g : Guard) (kind : CpyKind) (a b c : Src) (s : State) : Host.Outcome State Fault Refusal := runThread s (vecCpy g kind a b c)

/-- CPBATCH, in its own word or as the second half of a pair (spec/13 R349). -/
def vecCpbatch (never : Bool) (d : SDst) (v : View) (s : State) : Res :=
  if never then .next (s.putSDst v d 64 [] 0)
  else
    let t := s.updIssuer v fun g => { g with batch := g.batch + 1 }
    .next (t.putSDst v d 64 v.lanes (v.g.batch + 1))

/-- CPBATCH (spec/13 R349). -/
def execCpbatch (never : Bool) (d : SDst) (s : State) : Host.Outcome State Fault Refusal := runThread s (vecCpbatch never d)

/-- Whether every copy of batches up to a number has completed. -/
def State.batchDone (s : State) (blk gang n : Nat) : Bool :=
  (s.copies blk gang).all fun o => match o.batch with | some b => decide (n < b) | none => true

/-- CPWAIT (spec/13 R349, R350). The batch number is taken when it issues first. -/
def execCpwait (never : Bool) (a : Src) (imm : BitVec 29) (s : State) : Host.Outcome State Fault Refusal :=
  runThread s fun v s =>
    let n := match (v.slice v.low).again with
      | .waited k => k
      | _ => min v.g.batch (BitVec.ofNat 64 (v.uni 64 a) + imm.signExtend 64).toNat
    let met (v : View) (s : State) (_ : Nat) : Bool := s.batchDone v.b.uid v.g.name n
    if never then Res.long v (.next s)
    else rotating met
      (fun v s =>
        if !met v s 0 then Res.long v (.moved (s.waitOn v (.batch n)))
        else match v.g.cpyErr.report fun b => decide (b ≤ n) with
          | none => Res.long v (.next s)
          | some (t, q) => .moved ((s.updIssuer v fun g => { g with cpyErr := q }).lateTrap v t)) v s

/-! ### Timelines and phase-bit barriers -/

/-- Whether a timeline's counter has reached a value (spec/18 R495). -/
def State.tlReached (s : State) (t : Nat) (b : W64) : Bool := decide (((s.timeline t).count - b).toNat < 2 ^ 63)

/-- TLWAIT of the thread set (spec/18 R495). A wait in progress no longer asks whether the timeline is given (spec/03 R63). -/
def execTlwait (never : Bool) (a b : Src) (s : State) : Host.Outcome State Fault Refusal :=
  runThread s fun v s =>
    let x := v.uni 64 a
    let y : W64 := BitVec.ofNat 64 (v.uni 64 b)
    let waiting := (v.slice v.low).again == .woken
    if never then Res.long v (.next s)
    else if !waiting && (decide (4096 ≤ x) || !s.holdsTimeline v.b.ctx x) then .trap (mkTrap cBounds 0x30)
    else rotating (fun _ s _ => s.tlReached x y)
      (fun v s =>
        if s.tlReached x y then Res.long v (.next (s.l1Acquire v.b.core))
        else Res.long v (.moved (s.updSlices v v.m fun _ x' => { x' with wait := .retry (.timeline x y), again := .woken }))) v s

/-- Place of a phase-bit barrier in the block's shared memory (spec/16 R426). -/
def State.pbarOff (v : View) (a : W64) : Except Stop Nat := do
  checkForm a 8
  let o := a.toNat % 2 ^ 32
  if regionOf a.toNat ≠ .shared ∨ a.toNat / 2 ^ 32 % 256 ≠ 0 ∨ v.b.kernel.shared < o + 8 then
    .error (.trap (mkTrap cBounds 0x20 a.toNat))
  else .ok o

/-- A phase-bit barrier's word after an arrival of `n`, and whether it completes a phase (spec/16 R424, R425). -/
def pbarStep (w : W64) (n : Nat) : W64 × Bool :=
  let e0 := bits w 15 0
  let due := if e0 = 0 then 1 else e0
  let p0 := bits w 31 16
  let pend := if p0 = 0 then due else p0
  let put (phase pend : Nat) : W64 := BitVec.ofNat 64 (phase * 2 ^ 32 + pend * 2 ^ 16 + e0)
  if n < pend then (put (bits w 32 32) (pend - n), false) else (put (1 - bits w 32 32) due, true)

/-- PBARRIVE (spec/16 R425). -/
def execPbarrive (never : Bool) (base c : Src) (off : BitVec 10) (s : State) : Host.Outcome State Fault Refusal :=
  runThread s fun v s =>
    if never then .next s
    else match State.pbarOff v (v.uniAddr base off 8) with
      | .error st => st.res
      | .ok o =>
        let l : Loc := .shared v.b.uid o
        let n := v.uni 32 c % 2 ^ 16
        if n = 0 then .next s
        else if s.earlierBusy v.b.uid l 8 then .hold (.earlier l 8)
        else
          let (w, flip) := pbarStep (BitVec.ofNat 64 (s.readNat l 8)) n
          let t := s.writeLoc v.b.ctx l 8 (w.setWidth 128) (byteMask 8)
          let wake (x : Slice) : Slice := if x.wait = .retry (.pbar o) then { x with wait := .none } else x
          .next (if flip then t.updBlock v.b.uid fun b => { b with gangs := b.gangs.map fun g => g.mapWait fun _ x => wake x } else t)

/-- PBWAIT (spec/16 R425). -/
def execPbwait (never : Bool) (base p : Src) (off : BitVec 10) (s : State) : Host.Outcome State Fault Refusal :=
  runThread s fun v s =>
    if never then Res.long v (.next s)
    else match State.pbarOff v (v.uniAddr base off 8) with
      | .error st => st.res
      | .ok o =>
        let l : Loc := .shared v.b.uid o
        let phase (s : State) : Nat := bits (BitVec.ofNat 64 (s.readNat l 8)) 32 32
        let p0 := v.uni 32 p % 2
        if s.earlierBusy v.b.uid l 8 then .hold (.earlier l 8)
        else rotating (fun _ s _ => phase s != p0)
          (fun v s => if phase s ≠ p0 then Res.long v (.next s) else Res.long v (.moved (s.waitOn v (.pbar o)))) v s

/-! ### Condition monitors -/

/-- Home slice of a location that monitors can watch. -/
def Loc.slice? : Loc → Option Nat
  | .phys a => homeSlice a
  | .shared _ _ => none

/-- Monitors in use at a home slice. -/
def State.monsAt (s : State) (h : Nat) : Nat := (s.monitors.filter fun m => m.slice == h).length

/-- One monitor armed for a waiter at the home of each location, with its comparisons, when every home has one free. -/
def State.arm (s : State) (i : Issuer) : List (Loc × List (MonCmp × Nat × Nat)) → Option State
  | [] => some s
  | (l, ts) :: ls =>
    match l.slice? with
    | none => none
    | some h =>
      if Config.monitorsPerSlice ≤ s.monsAt h then none
      else State.arm { s with monitors := s.monitors ++ [{ slice := h, loc := l, kind := .waiter i, tests := ts, hit := false }] } i ls

/-- A waiter's monitors are disarmed. -/
def State.disarm (s : State) (i : Issuer) : State :=
  { s with monitors := s.monitors.filter fun m => m.kind != .waiter i }

/-- A MONWAIT's home loads: lane, location, value, and whether the lane's comparison holds or can never change. -/
def State.monLoads (s : State) (v : View) (g : Guard) (cmp : MonCmp) (w : Nat) (a b : Src) : Except Stop (List (Nat × Loc × Nat × Bool)) := do
  let xs := (v.exec g).map fun l => (l, BitVec.ofNat 64 (v.src .int 64 l a))
  let ls ← s.checkLanes v .load (w / 8) xs
  ls.mapM fun x => do
    let va := match xs.find? fun y => y.1 == x.1 with | some y => y.2.toNat | none => 0
    let m ← s.homeRead v.b.uid va x.2 (w / 8)
    let isSealed := (match x.2 with | .phys pa => s.sealedPa v.b.ctx pa | .shared _ _ => false)
    pure (x.1, x.2, m, isSealed || monCmp cmp w m (v.src .int w x.1 b))

/-- MONWAIT for the lanes of one group (spec/15 R415). A re-issue after a wake completes; one after an interval goes on
polling unless every lane's comparison holds. -/
def monRun (g : Guard) (d : BitVec 8) (cmp : MonCmp) (o : Order) (w : Nat) (a b : Src) (v : View) (s : State) : Res :=
  match s.monLoads v g cmp w a b with
  | .error st => st.res
  | .ok xs =>
    let again := (v.slice v.low).again
    if again == .woken || xs.all (·.2.2.2) then
      let t := s.putV v d.toNat (w / 32) (xs.map fun x => (x.1, x.2.2.1))
      Res.long v (.next (if orderAcq o && !xs.isEmpty then t.l1Acquire v.b.core else t))
    else
      let poll (n : Nat) : Res := Res.long v (.moved (s.updSlices v v.m fun _ x => { x with wait := .monwait (some n) }))
      match again with
      | .polled n => poll (min (2 * n) 65536)
      | _ =>
        let open_ := xs.filter fun x => !x.2.2.2
        let locs := ((open_.map (·.2.1)).eraseDups).map fun l =>
          (l, (open_.filter fun x => x.2.1 == l).map fun x => (cmp, w, v.src .int w x.1 b))
        match s.arm v.issuer locs with
        | some t => Res.long v (.moved (t.updSlices v v.m fun _ x => { x with wait := .monwait none }))
        | none => poll 256

/-- Whether the condition of a MONWAIT holds for a slice, given the first loads (spec/02 R46). A slice with a path entry does not stay in
a MONWAIT that goes on to wait: its lanes must hold, and with them those of all the slices that then execute the instruction (R52). -/
def monMet (xs : List (Nat × Loc × Nat × Bool)) (v : View) (i : Nat) : Bool :=
  let holds (k : Nat) : Bool := xs.all fun x => x.1 / 4 != k || x.2.2.2
  holds i && v.m.all fun k => holds k || (v.slice k).hasPath

/-- MONWAIT (spec/15 R415). -/
def execMonwait (g : Guard) (d : BitVec 8) (cmp : MonCmp) (o : Order) (w64 : Bool) (a b : Src) (s : State) : Host.Outcome State Fault Refusal :=
  runThread s fun v s => v.fresh [a, b]
    (match s.monLoads v g cmp (wSel w64) a b with
     | .error st => st.res
     | .ok xs =>
       rotating (fun v _ i => (v.slice v.low).again == .woken || monMet xs v i)
         (monRun g d cmp o (wSel w64) a b) v s)

end Sys2Proof.Machine
end

