-- ==== Sys2Proof/Machine/Rings.lean ====
section
/-! DEFINITION. Rings (spec/16 R431-R436): the operations at the control block's home, which the thread and the tile forms
share, and the thread forms. -/

namespace Sys2Proof.Machine

/-- A ring control block (spec/16 R432). -/
structure Rcb where
  base : Nat
  ssize : Nat
  scount : Nat
  tail : Nat
  ctail : Nat
  head : Nat
  chead : Nat
deriving DecidableEq, Repr

/-- trunc(y - x, 32). -/
def ringDelta (x y : Nat) : Nat := (y + 2 ^ 32 - x) % 2 ^ 32

/-- Reading the 32 bytes; none for a malformed block. -/
def Rcb.ofBytes (bs : List Byte) : Option Rcb :=
  let w := BitVec.ofNat 256 (leNat bs)
  let r : Rcb := { base := bits w 56 0, ssize := bits w 95 64, scount := bits w 127 96, tail := bits w 159 128,
                   ctail := bits w 191 160, head := bits w 223 192, chead := bits w 255 224 }
  let order := decide (ringDelta r.chead r.head ≤ ringDelta r.chead r.ctail) &&
    decide (ringDelta r.chead r.ctail ≤ ringDelta r.chead r.tail) && decide (ringDelta r.chead r.tail ≤ r.scount)
  if bits w 63 57 = 0 ∧ r.base % 16 = 0 ∧ 16 ≤ r.ssize ∧ r.ssize ≤ 2 ^ 20 ∧ r.ssize % 16 = 0 ∧ 1 ≤ r.scount ∧ r.scount ≤ 2 ^ 24 ∧ order
  then some r else none

/-- Address of a slot. -/
def Rcb.slotAddr (r : Rcb) (i : Nat) : Nat := r.base + i % r.scount * r.ssize

/-- A party of a ring: who it is to translation, its block's name and its core. -/
structure RingParty where
  who : Who
  blk : Nat
  issuer : Issuer

/-- The control block's place: the conditions of R186, and no earlier access of the block to it in flight. -/
def State.rcbLoc (s : State) (p : RingParty) (a : W64) : Except Stop Pieces := s.homeLoc p.who p.blk a 32 32

/-- The misuse trap. -/
def ringMisuse (n : Nat) : Stop := .trap (mkTrap cRingMisuse n)

/-- The block as it stands at its home. -/
def State.rcb (s : State) (l : Pieces) : Except Stop Rcb :=
  match Rcb.ofBytes (s.readPieces l) with
  | some r => .ok r
  | none => .error (ringMisuse 0)

/-- A counter written at the home: the core's resident line is dropped. -/
def State.ringPut (s : State) (p : RingParty) (l : Pieces) (off x : Nat) : State := s.homeWrite p.who.core p.who.ctx (cutPieces l off 4) x

/-- RACQ's attempt: the slot address and the state after it; none while the ring is full. -/
def State.ringAcq (s : State) (p : RingParty) (l : Pieces) : Except Stop (Option (Nat × State)) := do
  let r ← s.rcb l
  if ringDelta r.chead r.tail < r.scount then .ok (some (r.slotAddr r.tail, s.ringPut p l 16 ((r.tail + 1) % 2 ^ 32))) else .ok none

/-- RPEEK's attempt; none while the ring is empty. -/
def State.ringPeek (s : State) (p : RingParty) (l : Pieces) : Except Stop (Option (Nat × State)) := do
  let r ← s.rcb l
  if 0 < ringDelta r.head r.ctail then .ok (some (r.slotAddr r.head, s.ringPut p l 24 ((r.head + 1) % 2 ^ 32))) else .ok none

/-- Whether a monitor holds a ring mark of the block for a slot: of a commit, or of a release. -/
def MonKind.marks (k : MonKind) (commit : Bool) (l : Loc) (i : Nat) : Bool :=
  match k with
  | .commit c j _ => commit && c == l && j == i
  | .release c j _ => !commit && c == l && j == i
  | _ => false

/-- Marked slots absorbed into a counter from `i` on, as long as the next is marked; `fuel` counts slots. -/
def State.absorb (commit : Bool) (l : Loc) : Nat → Nat → State → Nat × State
  | 0, i, s => (i, s)
  | fuel + 1, i, s =>
    if s.monitors.any fun m => m.kind.marks commit l i then
      State.absorb commit l fuel ((i + 1) % 2 ^ 32) { s with monitors := s.monitors.filter fun m => !m.kind.marks commit l i }
    else (i, s)

/-- The number that a slot address names in [lo, hi) (spec/16 R433). -/
def Rcb.slotNumber (r : Rcb) (s lo hi : Nat) : Option Nat :=
  let k := (s - r.base) / r.ssize
  ((List.range (ringDelta lo hi)).map fun j => (lo + j) % 2 ^ 32).find? fun i => i % r.scount == k

/-- RCOMMIT and RREL at the home: the state after; none while a mark finds no free monitor (spec/16 R434). -/
def State.ringMark (s : State) (p : RingParty) (commit : Bool) (ps : Pieces) (slot : Nat) : Except Stop (Option State) := do
  let r ← s.rcb ps
  let l := locAt ps 0
  let lo := if commit then r.ctail else r.chead
  let hi := if commit then r.tail else r.head
  if slot < r.base ∨ (slot - r.base) % r.ssize ≠ 0 ∨ r.scount ≤ (slot - r.base) / r.ssize then .error (ringMisuse 1)
  else match r.slotNumber slot lo hi with
    | none => .error (ringMisuse (if commit then 2 else 3))
    | some i =>
      if s.monitors.any fun m => m.kind.marks commit l i then .error (ringMisuse (if commit then 2 else 3))
      else if i = lo then
        let (j, t) := s.absorb commit l (ringDelta lo hi) ((i + 1) % 2 ^ 32)
        .ok (some (t.ringPut p ps (if commit then 20 else 28) j))
      else match l.slice? with
        | none => .ok none
        | some h =>
          if Config.monitorsPerSlice ≤ s.monsAt h then .ok none
          else
            let k : MonKind := if commit then .commit l i p.who.ctx else .release l i p.who.ctx
            .ok (some { s with monitors := s.monitors ++ [{ slice := h, loc := l, kind := k, tests := [], hit := false }] })

/-- A waiter's monitor on the block, when its home has one free; else it polls. -/
def State.ringArm (s : State) (i : Issuer) (l : Loc) : State := (s.arm i [(l, [])]).getD s

/-! ### Thread forms -/

/-- The issuing group as a party of a ring. -/
def View.ringParty (v : View) (s : State) : RingParty := { who := v.who s, blk := v.b.uid, issuer := v.issuer }

/-- The attempt of RPEEK or of RACQ. -/
def State.ringTry (s : State) (peek : Bool) (p : RingParty) (l : Pieces) : Except Stop (Option (Nat × State)) :=
  if peek then s.ringPeek p l else s.ringAcq p l

/-- A slot granted: its address delivered, with the acquire of the scope (spec/16 R433, R435). -/
def State.ringGive (s : State) (v : View) (d : BitVec 6) (sc : Scope) (x : Nat) : State :=
  (if scopeWide sc then s.l1Acquire v.b.core else s).putS v d.toNat 64 x

/-- RACQ and RPEEK. -/
def vecRingTake (never peek : Bool) (d : BitVec 6) (sc : Scope) (a : View → W64) (v : View) (s : State) : Res :=
  if never then Res.long v (.next s)
  else match s.rcbLoc (v.ringParty s) (a v) with
    | .error st => st.res
    | .ok l =>
      match s.ringTry peek (v.ringParty s) l with
      | .error st => st.res
      | .ok r =>
        rotating (fun _ _ _ => r.isSome)
          (fun v s => match r with
            | some (x, t) => Res.long v (.next (t.ringGive v d sc x))
            | none => Res.long v (.moved ((s.ringArm v.issuer (locAt l 0)).waitOn v (.ringTake peek d sc (a v))))) v s

/-- A waiting RACQ or RPEEK tests its ring again, and completes when it is granted a slot: its gang is ready from then on (spec/03 R70,
R71). A ring that is still full or empty leaves it waiting. What would trap, or wait for fault service, issues again to do so. -/
def State.ringServe (s : State) (v : View) (peek : Bool) (d : BitVec 6) (sc : Scope) (va : W64) : State :=
  let t := s.disarm v.issuer
  let awake (u : State) : State := u.updSlices v v.m fun _ x => { x with wait := .none }
  match t.rcbLoc (v.ringParty t) va with
  | .error (.hold _) => s
  | .error _ => awake t
  | .ok l =>
    match t.ringTry peek (v.ringParty t) l with
    | .error _ => awake t
    | .ok none => t.ringArm v.issuer (locAt l 0)
    | .ok (some (x, u)) => ((awake u).ringGive v d sc x).advance v 8

/-- RACQ (spec/16 R433). -/
def execRacq (never : Bool) (d : BitVec 6) (sc : Scope) (base : Src) (off : BitVec 10) (s : State) : Host.Outcome State Fault Refusal :=
  runThread s (vecRingTake never false d sc fun v => v.uniAddr base off 8)

/-- RPEEK (spec/16 R433). -/
def execRpeek (never : Bool) (d : BitVec 6) (sc : Scope) (base : Src) (off : BitVec 10) (s : State) : Host.Outcome State Fault Refusal :=
  runThread s (vecRingTake never true d sc fun v => v.uniAddr base off 8)

/-- RCOMMIT and RREL. -/
def vecRingMark (never commit : Bool) (sc : Scope) (base : Src) (slot : BitVec 6) (off : BitVec 10) (v : View) (s : State) : Res :=
  if never then .next s
  else match s.rcbLoc (v.ringParty s) (v.uniAddr base off 8) with
    | .error st => st.res
    | .ok l =>
      s.afterRelease v (.rel sc)
        (match s.ringMark (v.ringParty s) commit l (v.r.sreg slot.toNat).toNat with
         | .error st => st.res
         | .ok none => .moved (s.waitOn v (.ringMark commit l (v.r.sreg slot.toNat).toNat))
         | .ok (some t) => .next t)

/-- RCOMMIT (spec/16 R433). -/
def execRcommit (never : Bool) (sc : Scope) (base : Src) (slot : BitVec 6) (off : BitVec 10) (s : State) : Host.Outcome State Fault Refusal :=
  runThread s (vecRingMark never true sc base slot off)

/-- RREL (spec/16 R433). -/
def execRrel (never : Bool) (sc : Scope) (base : Src) (slot : BitVec 6) (off : BitVec 10) (s : State) : Host.Outcome State Fault Refusal :=
  runThread s (vecRingMark never false sc base slot off)

end Sys2Proof.Machine
end

