-- ==== Sys2Proof/Machine/Gate.lean ====
section
/-! DEFINITION. GATE: arrival, the checks of the gate descriptor, and the frame that a checked GATE creates (spec/04 R80-R89,
spec/06 R145, spec/14 R376, R377). -/

namespace Sys2Proof.Machine

/-! ### Gate descriptors and layout maps -/

/-- A binding (spec/04 R81). -/
structure Binding where
  vbase : Nat
  vcount : Nat
  lm : Nat
  treg : Nat
  efmt : BitVec 6
  dir : Nat
  shi : Nat
  rlog : Nat
  clog : Nat
  rsv : Nat
deriving DecidableEq, Repr

/-- Reading the 64 bits of a binding. -/
def Binding.split (w : W64) : Binding :=
  { vbase := bits w 63 56, vcount := bits w 55 47, lm := bits w 46 43, treg := bits w 42 38, efmt := w.extractLsb' 32 6,
    dir := bits w 31 30, shi := bits w 29 28, rlog := bits w 27 24, clog := bits w 23 20, rsv := bits w 19 0 }

/-- Target bit of index bit `j` in a layout entry (spec/04 R83). -/
def layoutTarget (e : W128) (j : Nat) : Nat := bits e (5 * j + 4) (5 * j)

/-- The location word of a linear index of `n` bits (spec/04 R82). -/
def layoutWord (e : W128) (n i : Nat) : Nat :=
  (List.range n).foldl (fun l j => if bitAt i j = 1 then l + 2 ^ layoutTarget e j else l) 0

/-- The gangs that a map reaches. -/
def layoutGangs (targets : List Nat) : List Nat :=
  targets.foldl (fun gs t => if 8 ≤ t ∧ t ≤ 12 then gs ++ gs.map (· + 2 ^ (t - 8)) else gs) [0]

/-- log2 of the sub-words of a register for an element width. -/
def subLog (w : Nat) : Nat := if w = 32 then 0 else if w = 16 then 1 else if w = 8 then 2 else 3

/-- Whether a binding is valid for its map (spec/04 R84). -/
def Block.bindingOk (b : Block) (x : Binding) (e : Option W128) : Bool :=
  match e with
  | none => false
  | some e =>
    let ts := (List.range (x.rlog + x.clog)).map (layoutTarget e)
    let s := subLog (efWidth x.efmt)
    ts.all (fun t => decide (t ≤ 20)) && ts.eraseDups == ts &&
      ((List.range 3).all fun t => ts.contains t == decide (t < s)) &&
      decide ((ts.filter fun t => decide (13 ≤ t)).foldl (fun n t => n + 2 ^ (t - 13)) 0 < x.vcount) &&
      ((layoutGangs ts).all fun n => b.gangs.any fun g => g.no == n && !g.spawned && !g.finished && decide (x.vbase + x.vcount ≤ g.holding)) &&
      bits e 127 105 == 0

/-- Whether two bindings write registers in common. -/
def Binding.clash (x y : Binding) : Bool :=
  x.dir != 0 && y.dir != 0 && decide (x.vbase < y.vbase + y.vcount) && decide (y.vbase < x.vbase + x.vcount)

/-- Whether some element of a list stands in a relation to a later one. -/
def anyPair {α : Type} (f : α → α → Bool) : List α → Bool
  | [] => false
  | x :: xs => xs.any (f x) || anyPair f xs

/-- A gate descriptor as read: the function, the bindings that count, and their layout entries. -/
structure GateDesc where
  tfunc : Nat
  binds : List Binding
  maps : List (Nat × W128)
deriving DecidableEq, Repr

/-- The check of R86's last row. A binding whose size lies outside R81's limits fails it as well, and one with a reserved
element code (spec/05 R114). -/
def Block.gateDesc (b : Block) (w : BitVec 1024) (maps : List (Nat × W128)) : Option GateDesc :=
  let nb := bits w 67 64
  let all := (List.range 8).map fun k => (w.extractLsb' (128 + 64 * k) 64 : W64)
  let bs := (all.take nb).map Binding.split
  let bad := bits w 63 57 != 0 || bits w 127 68 != 0 || decide (8 < nb) || (all.drop nb).any (· != 0) || bits w 1023 640 != 0
  let ok := bs.all fun x => x.rsv == 0 && x.dir != 3 && (efOf x.efmt).isSome && decide (x.rlog ≤ 12) && decide (x.clog ≤ 12) &&
    decide (1 ≤ x.vcount) && decide (x.vcount ≤ 256) && b.bindingOk x (assocGet x.lm maps)
  if bad || !ok || anyPair (fun x y => x.treg == y.treg || x.clash y) bs then none
  else some { tfunc := bits w 56 0, binds := bs, maps }

/-- The tile register that a binding writes (spec/04 R87, spec/11 R303, spec/05 R119). -/
def Binding.treg256 (x : Binding) (xv : BitVec 16) : W256 :=
  BitVec.ofNat 256 (x.dir * 2 ^ 211 + x.clog * 2 ^ 207 + x.rlog * 2 ^ 203 + (if x.efmt = 6 then xv.toNat else 0) * 2 ^ 72 +
    x.lm * 2 ^ 68 + x.efmt.toNat * 2 ^ 62 + x.shi * 2 ^ 60 + x.vbase * 8 + 1)

/-! ### Tile contexts and windows (spec/04 R89, spec/06 R145) -/

/-- The lowest place of `n` bytes free among granted intervals, below a limit. -/
def firstFit (used : List (Nat × Nat)) (cap n : Nat) : Option Nat :=
  ((0 :: used.map fun u => u.1 + u.2).filter fun o =>
    decide (o + n ≤ cap) && used.all fun u => decide (o + n ≤ u.1) || decide (u.1 + u.2 ≤ o) || u.2 == 0 || n == 0).min?

/-- Frames of a core that hold a tile context. -/
def State.tileFrames (s : State) (core : Nat) : List Frame := s.frames.filter fun f => f.core == core && f.tctx.isSome

/-- Frames queued on a core. -/
def State.queuedFrames (s : State) (core : Nat) : List Frame := s.frames.filter fun f => f.core == core && f.tctx.isNone

/-- Window sizes of a kernel: W, X, Z. -/
def Kernel.windows (k : Kernel) : Nat × Nat × Nat := (4096 * k.wwin, 4096 * k.xwin, 16384 * k.zwin)

/-- Window sizes of a frame. -/
def State.frameWindows (s : State) (f : Frame) : Nat × Nat × Nat :=
  match s.block? f.blk with
  | some b => b.kernel.windows
  | none => (0, 0, 0)

/-- A tile context and places for the windows, when the core has them free. -/
def State.tilePlace (s : State) (core : Nat) (k : Kernel) : Option (Nat × Nat × Nat × Nat) :=
  let fs := s.tileFrames core
  let used (f : Frame → Nat) (n : Nat × Nat × Nat → Nat) : List (Nat × Nat) := fs.map fun x => (f x, n (s.frameWindows x))
  let free := (List.range 4).find? fun t => !fs.any fun f => f.tctx == some t
  match free, firstFit (used (·.w) (·.1)) Config.wBytes k.windows.1, firstFit (used (·.x) (·.2.1)) Config.xBytes k.windows.2.1,
        firstFit (used (·.z) (·.2.2)) Config.zBytes k.windows.2.2 with
  | some t, some w, some x, some z => some (t, w, x, z)
  | _, _, _, _ => none

/-- The oldest queued frame of a core takes a tile context and its windows, if they are free. A restored one runs again unless it
is suspended, with a token or in a tile trap, and its saved latches are written back (spec/04 R111, spec/06 R154); one that was
suspended with no fault-table entry issues its slot again (spec/07 R188). -/
def State.takeContext (s : State) (core : Nat) : State :=
  match s.queuedFrames core with
  | [] => s
  | f :: fs =>
    let o := fs.foldl (fun a b => if b.qseq < a.qseq then b else a) f
    match s.block? o.blk with
    | none => s
    | some b =>
      match s.tilePlace core b.kernel with
      | none => s
      | some (t, w, x, z) =>
        let back := o.latches.map fun l => { l with core }
        let s1 : State := { s with latches := back ++ s.latches.filter fun l => !back.any fun k => k.core == l.core && k.idx == l.idx }
        s1.updFrame o.uid fun f =>
          { f with tctx := some t, w, x, z, latches := [],
                   status := if f.status = 3 ∧ f.token ≠ some none then 3 else 1,
                   token := if f.token = some none then none else f.token }

/-! ### The frame (spec/04 R87) -/

/-- Registers of a new frame. -/
def TileRegs.start (k : List W64) (t : List W256) (fmt : W32) : TileRegs :=
  { k := k ++ List.replicate 24 0, kw := List.replicate 8 0, f := 0, t, live := List.replicate 16 0, shadow := List.replicate 16 0,
    fmt, fflags := 0, rot := 0, time := 0 }

/-- The gangs of a block that take part in its GATE. -/
def Block.gateGangs (b : Block) : List Gang := b.gangs.filter fun g => !g.spawned && !g.finished

/-- The reference gang (spec/04 R86). -/
def Block.refGang (b : Block) : Option Gang :=
  match b.gateGangs with
  | [] => none
  | g :: gs => some (gs.foldl (fun a x => if x.no < a.no then x else a) g)

/-- The view of a gang's waiting slices, for the reads that it makes at its GATE. -/
def Block.gateView (b : Block) (g : Gang) : Option View :=
  match g.live with
  | [] => none
  | i :: _ =>
    match g.slices[i]? with
    | none => none
    | some x => (g.groups.find? fun r => r.id == x.group).map fun r => { b, g, r, m := g.members r.id }

/-- The index at which a slice has arrived. -/
def Slice.gateIdx (x : Slice) : Option Nat := match x.wait with | .gate i => some i | _ => none

/-- A checked GATE creates its frame; every gang that arrived becomes one group, blocked until GRET. -/
def State.makeFrame (s : State) (b : Block) (v : View) (desc : Nat) (d : GateDesc) : State :=
  let c := s.ctx b.ctx
  let x := v.slice v.low
  let t := d.binds.foldl (fun t y => t.set y.treg (y.treg256 (fmtXV x.fmt))) (List.replicate 32 0)
  let f : Frame :=
    { uid := s.uid, number := c.frameCtr, ctx := b.ctx, blk := b.uid, core := b.core, tctx := none, qseq := s.uid, desc,
      retpc := x.pc + 8, status := 0, refGang := v.g.name, bases := c.tlCount, issuedOps := [0, 0, 0], doneOps := [0, 0, 0],
      errs := List.replicate 3 { entries := [], ovf := false }, gangs := b.gateGangs.map (·.name), maps := d.maps,
      pc := BitVec.ofNat 57 d.tfunc, regs := TileRegs.start ((List.range 8).map v.r.sreg) t x.fmt, sresume := 0, image := none,
      bundles := 0, nextws := [], landings := [], fixed := [], w := 0, x := 0, z := 0, buf := [], written := [], token := none,
      draining := false, wait := .none, latches := [] }
  let s1 : State := { (s.updCtx b.ctx fun c => { c with frameCtr := c.frameCtr + 1 }) with frames := s.frames ++ [f], uid := s.uid + 1 }
  let block (x : Slice) : Slice := if x.exited then x else { x with wait := .frame f.uid, yValid := 0, again := .fresh }
  let enter (g : Gang) : Gang := if f.gangs.contains g.name then (g.merge g.live).mapWait fun _ x => block x else g
  let s2 : State := s1.updBlock b.uid fun b => { b with gangs := b.gangs.map enter }
  if (s2.queuedFrames b.core).length = 1 then s2.takeContext b.core else s2

/-- The reads of the reference gang: the descriptor, then the layout entry of every binding that counts (spec/14 R376). -/
def State.gateReads (s : State) (v : View) (desc : Nat) : Except Stop (BitVec 1024 × List (Nat × W128) × State) := do
  let (bs, t) ← s.loadRange (v.who s) v.b.uid (BitVec.ofNat 64 desc) 128 128
  let w : BitVec 1024 := BitVec.ofNat 1024 (leNat bs)
  let lms := (List.range (min (bits w 67 64) 8)).map fun k => (Binding.split (w.extractLsb' (128 + 64 * k) 64)).lm
  if v.b.kernel.ltab = 0 then pure (w, [], t)
  else do
    let (ms, u) ← lms.foldlM (fun (acc : List (Nat × W128) × State) lm => do
      let (bs, u) ← acc.2.loadRange (v.who s) v.b.uid (BitVec.ofNat 64 (v.b.kernel.ltab + 16 * lm)) 16 16
      pure (acc.1 ++ [(lm, BitVec.ofNat 128 (leNat bs))], u)) ([], t)
    pure (w, ms, u)

/-- GATE_MISMATCH in every slice of gangs. -/
def State.gateMismatch (s : State) (blk : Nat) (gs : List Gang) (n : Nat) : State :=
  gs.foldl (fun t g => t.takeTrap blk g.name (g.live.map fun i => (i, mkTrap cGateMismatch n))) s

/-- Whether every launched gang of a block waits at a GATE. -/
def Block.gateComplete (b : Block) : Bool :=
  !b.gateGangs.isEmpty && b.gateGangs.all fun g => g.live.all fun i => match g.slices[i]? with | some x => x.gateIdx.isSome | none => false

/-- Whether a checked GATE finds no place in its core's queue: four frames are queued, or a block that waited for a place before it
is still to be checked again (spec/04 R89). -/
def State.gateFull (s : State) (b : Block) : Bool :=
  decide (4 ≤ (s.queuedFrames b.core).length) || s.blocks.any fun x =>
    x.uid != b.uid && x.core == b.core && x.gateComplete && (s.ctx x.ctx).state == 1 &&
    (match x.gateSince, b.gateSince with
     | some n, some k => decide (n < k)
     | some _, none => true
     | none, _ => false)

/-- The check of a complete GATE, and its frame (spec/04 R86-R89). It is made again while the reads must wait. A block that finds no
place in the queue keeps its turn, and is checked again once a place frees. The reference gang's reads, and their traps, come before
every row; with a reference index at or above the entry count there is no descriptor to read (log 25). -/
def State.gateCheck (s : State) (blk : Nat) : State :=
  match s.block? blk with
  | none => s
  | some b =>
    if !b.gateComplete || (b.gateSince.isSome && s.gateFull b) then s
    else match b.refGang.bind b.gateView with
    | none => s
    | some v =>
      let last (t : State) : State := t.updBlock blk fun b => { b with gateSince := none }
      let idx := ((v.slice v.low).gateIdx).getD 0
      let differs (g : Gang) : Bool := g.live.any fun i => match g.slices[i]? with | some x => x.gateIdx != some idx | none => false
      let others := b.gateGangs.filter differs
      let desc := b.kernel.gtab + 128 * idx
      if b.kernel.gaten ≤ idx then
        last (if others.isEmpty then s.gateMismatch blk b.gateGangs 2 else s.gateMismatch blk others 0)
      else match s.gateReads v desc with
        | .error (.trap t) => last (s.takeTrap blk v.g.name (v.g.live.map fun i => (i, t)))
        | .error (.serve va kind) => last (s.suspend v va kind)
        | .error (.hold _) => s
        | .ok (w, ms, t) =>
          if !others.isEmpty then last (t.gateMismatch blk others 0)
          else match b.gateDesc w ms with
            | none => last (t.gateMismatch blk b.gateGangs 3)
            | some d =>
              if t.gateFull b then { (t.updBlock blk fun b => { b with gateSince := some t.uid }) with uid := t.uid + 1 }
              else (last t).makeFrame { b with gateSince := none } v desc d

/-- The block of a core that has waited longest for a place in the queue is checked again (spec/04 R89). -/
def State.gateRetry (s : State) (core : Nat) : State :=
  match leastBy (fun (b : Block) => b.gateSince.getD 0) (s.blocks.filter fun b => b.core == core && b.gateSince.isSome && b.gateComplete && (s.ctx b.ctx).state == 1) with
  | some b => s.gateCheck b.uid
  | none => s

/-- A place of a core's queue frees where its oldest frame takes a tile context; a block that waits for it is checked at once. -/
def State.freePlace (s : State) (core : Nat) : State := (s.takeContext core).gateRetry core

/-- GATE (spec/14 R376, R377). -/
def execGate (never : Bool) (idx : BitVec 6) (s : State) : Host.Outcome State Fault Refusal :=
  runThread s fun v s =>
    if never then .next s
    else if v.g.spawned then .trap (mkTrap cGateMismatch 1)
    else if v.m.any fun i => (v.slice i).trapMode.isSome then .trap (mkTrap cGateMismatch 5)
    else if v.m.any fun i => (v.slice i).stack.any fun e => e.kind == .rejoin then .trap (mkTrap cGateMismatch 4)
    else .moved (((s.arrive v (.gate idx.toNat)).settle v.b.uid).gateCheck v.b.uid)

end Sys2Proof.Machine
end

