-- ==== Sys2Proof/Machine/Flare.lean ====
section
/-! DEFINITION. The instructions FLARE and REPLAY (spec/09 R235, R247, R248, spec/14 R370-R372,
spec/16 R447, R448). -/

namespace Sys2Proof.Machine

/-! ### FLARE -/

/-- The request of one lane (spec/09 R235, spec/14 R370). -/
def State.flarePacket (s : State) (v : View) (a : BitVec 8) (b : Src) (rel : Bool) (lane : Nat) : Packet :=
  let d : W64 := BitVec.ofNat 64 (v.src .int 64 lane b)
  { s.packet 0 (bits d 18 0) (bits d 30 19) v.b.ctx (bits d 44 43) with
    flags := if rel then 1 else 0, hidx := d.extractLsb' 31 12, stag := d.extractLsb' 45 16, nflit := 1,
    data := leBytes 32 (v.g.vwide a.toNat lane 8) }

/-- One lane's request sent, or answered with code 5 where there is no route. -/
def State.flareSend (s : State) (v : View) (a : BitVec 8) (b : Src) (rel : Bool) (lane : Nat) : State :=
  let p := s.flarePacket v a b rel lane
  match s.send p with
  | some (q, t) =>
    { t with flares := t.flares ++ [{ id := t.uid, issuer := v.issuer, lane, pkt := q, answer := none, sent := s.time.toNat }], uid := t.uid + 1 }
  | none => { s with flares := s.flares ++ [{ id := s.uid, issuer := v.issuer, lane, pkt := p, answer := some 5, sent := s.time.toNat }], uid := s.uid + 1 }

/-- When every request of an issuer has its answer, its FLARE goes on to its end. -/
def State.flareWake (s : State) (i : Issuer) : State :=
  match i with
  | .group blk gn gi =>
    if s.flares.any fun r => r.issuer == i && r.answer.isNone then s
    else s.updGang blk gn fun g => g.mapWait fun _ x =>
      if x.group = gi ∧ x.wait = .flare then { x with wait := .none, again := .woken } else x
  | _ => s

/-- FLARE (spec/14 R371, spec/09 R247). It sends its requests when it issues, and writes the answers when it goes on. -/
def execFlare (g : Guard) (p : BitVec 3) (code : Option (BitVec 8)) (a : BitVec 8) (b : Src) (rel trap : Bool) (s : State) :
    Host.Outcome State Fault Refusal :=
  runThread s fun v s =>
    let ls := v.exec g
    if (v.slice v.low).again = .woken then
      let mine := s.flares.filter fun r => r.issuer == v.issuer
      let codes := ls.filterMap fun l => (mine.find? fun r => r.lane == l).map fun r => (l, r.answer.getD 5)
      let t := { s with flares := s.flares.filter fun r => r.issuer != v.issuer }
      let t1 := t.putP v p.toNat (codes.map fun c => (c.1, c.2 == 0 || c.2 == 4))
      let t2 := match code with | some c => t1.putV v c.toNat 1 codes | none => t1
      match (if trap then codes.find? fun c => c.2 == 1 || c.2 == 2 || c.2 == 3 || c.2 == 5 else none) with
      | some c => .moved (t2.lateTrap v (mkTrap cFlareReject (c.2 + 16 * c.1)))
      | none => .next t2
    else
      s.afterRelease v (if rel then .rel .sys else .rlx)
        (if ls.isEmpty then Res.long v (.next s)
         else
           let t := (ls.foldl (fun t l => t.flareSend v a b rel l) s).updSlices v v.m fun _ x => { x with wait := .flare }
           Res.long v (.moved (t.flareWake v.issuer)))

/-! ### REPLAY -/

/-- The waiter of a fault-table entry goes on: a gang's instruction issues afresh, a frame resumes at its slot. A gang has one waiter at
a time, and is named without its group, which a restore may name anew (spec/07 R190). Its core is invalidated (spec/16 R448). -/
def State.resumeWaiter (s : State) (i : Issuer) : State :=
  match i with
  | .group blk gn _ =>
    let go (x : Slice) : Slice := match x.wait with
      | .fault _ => { x with wait := .none, again := .fresh }
      | _ => x
    (s.updGang blk gn fun g => g.mapWait fun _ x => go x).l1Acquire (s.coreOf i)
  | .tile f => (s.updFrame f fun x => { x with status := if x.status = 3 then 1 else x.status, token := none }).l1Acquire (s.coreOf i)
  | .none => s

/-- The entry that a token names: index below FTCOUNT, generation equal (spec/07 R191). -/
def Ctx.faultOf (c : Ctx) (token : W32) : Option FaultEntry :=
  if c.desc.ftcount ≤ bits token 11 0 then none
  else c.faults.find? fun e => e.idx == bits token 11 0 && e.gen.toNat == bits token 31 12

/-- REPLAY of one token (spec/07 R190, R191). Of an entry whose waiter is stopped, or is gone with its block or frame, it reports true and
marks the entry: the generation stays, so a second lane with the token is told true as well, and the entry of a waiter that is gone
stays marked until a kill (DESIGN CHOICE; log 21). -/
def State.replay1 (s : State) (ctx : Nat) (token : W32) : Bool × State :=
  match (s.ctx ctx).faultOf token with
  | none => (false, s)
  | some e =>
    let here := match e.waiter with
      | .group b _ _ => (s.block? b).isSome
      | .tile f => (s.frame? f).isSome
      | .none => false
    if 2 ≤ (s.ctx ctx).state || !here then
      let word := BitVec.ofNat 32 (e.gen.toNat * 4096 + 2)
      let t := (s.devWrite ctx ((s.ctx ctx).desc.ftab + 16 * e.idx) (leBytes 4 word.toNat)).getD (s.setCerr ctx 6)
      (true, t.updCtx ctx fun c => { c with faults := c.faults.map fun x => if x.idx = e.idx then { x with state := 2 } else x })
    else (true, (s.resumeWaiter e.waiter).freeFault ctx e)

/-- REPLAY, in its own word or as the second half of a pair (spec/16 R447). It is sent when it issues first, after its release, and its
slice holds; its tokens reach the fault table when it issues again, which a stop request of its context may precede (spec/10 R276,
spec/20 R516). -/
def vecReplay (g : Guard) (p : BitVec 3) (a : Src) (v : View) (s : State) : Res :=
  let ls := v.exec g
  v.fresh [a]
    (if ls.isEmpty then .next s
     else if (v.slice v.low).again = .fresh then s.afterRelease v (.rel .dev) (.moved (s.waitOn v .replay))
     else
       (let (xs, t) := ls.foldl (fun (acc : List (Nat × Bool) × State) l =>
          let (st, t) := acc.2.replay1 v.b.ctx (BitVec.ofNat 32 (v.src .int 32 l a))
          (acc.1 ++ [(l, st)], t)) ([], s)
        .next (t.putP v p.toNat xs)))

/-- REPLAY (spec/16 R447). -/
def execReplay (g : Guard) (p : BitVec 3) (a : Src) (s : State) : Host.Outcome State Fault Refusal := runThread s (vecReplay g p a)

end Sys2Proof.Machine
end

