-- ==== Sys2Proof/Machine/Float.lean ====
section
/-! DEFINITION. Floating-point and conversion instructions of the thread set (spec/14 R362-R367, R373-R381,
spec/17 R460-R463). -/

namespace Sys2Proof.Machine

/-- FADD (spec/14 R363). -/
def execFadd (g : Guard) (d : VDst) (na nb : Bool) (a b : Src) (s : State) : Host.Outcome State Fault Refusal :=
  runThread s (vecAlu g d (.fadd na nb) a b noSrc)

/-- FMUL (spec/14 R363). -/
def execFmul (g : Guard) (d : VDst) (na nb : Bool) (a b : Src) (s : State) : Host.Outcome State Fault Refusal :=
  runThread s (vecAlu g d (.fmul na nb) a b noSrc)

/-- FFMA (spec/14 R363). -/
def execFfma (g : Guard) (d : VDst) (na nb nc : Bool) (a b c : Src) (s : State) : Host.Outcome State Fault Refusal :=
  runThread s (vecAlu g d (.ffma na nb nc) a b c)

/-- FMNMX (spec/14 R363). -/
def execFmnmx (g : Guard) (d : VDst) (max : Bool) (a b : Src) (s : State) : Host.Outcome State Fault Refusal :=
  runThread s (vecAlu g d (.fmnmx max) a b noSrc)

/-- FSET. -/
def vecFset (g : Guard) (d : PDst) (cmp : Cmp) (u : Bool) (a b : Src) : View → State → Res :=
  vecSet g d [a, b] fun v l =>
    fCompare cmp u (BitVec.ofNat 32 (v.src (.cvt .f32) 32 l a)) (BitVec.ofNat 32 (v.src (.cvt .f32) 32 l b))

/-- FSET (spec/14 R374). -/
def execFset (g : Guard) (d : PDst) (cmp : Cmp) (u : Bool) (a b : Src) (s : State) : Host.Outcome State Fault Refusal :=
  runThread s (vecFset g d cmp u a b)

/-- HADD2 (spec/14 R381). -/
def execHadd2 (g : Guard) (d : VDst) (bf na nb : Bool) (a b : Src) (s : State) : Host.Outcome State Fault Refusal :=
  runThread s (vecAlu g d (.hadd2 bf na nb) a b noSrc)

/-- HFMA2 (spec/14 R381). -/
def execHfma2 (g : Guard) (d : VDst) (bf na nb nc : Bool) (a b c : Src) (s : State) : Host.Outcome State Fault Refusal :=
  runThread s (vecAlu g d (.hfma2 bf na nb nc) a b c)

/-- SFN (spec/17 R463). -/
def execSfn (g : Guard) (d : VDst) (f : Fn) (a : Src) (s : State) : Host.Outcome State Fault Refusal :=
  runThread s (vecAlu g d (.sfn f) a noSrc noSrc)

/-- FCVT (spec/14 R366). -/
def execFcvt (g : Guard) (d : VDst) (sat : Bool) (dt : CvtDst) (st : CvtTy) (a : Src) (s : State) : Host.Outcome State Fault Refusal :=
  runThread s (vecAlu g d (.fcvt sat dt st) a noSrc noSrc)

/-- FMT with the fields of a mask taken from a value: bit 0 RM, 1 FTZ, 2 SAT, 3 XV (spec/17 R461). -/
def setFmt (fmt : W32) (mask : BitVec 4) (a : W32) : W32 :=
  let m : W32 := (if bit mask 0 then 0xC000#32 else 0) ||| (if bit mask 1 then 0x2000#32 else 0) |||
    (if bit mask 2 then 0x1000#32 else 0) ||| (if bit mask 3 then 0xFFFF0000#32 else 0)
  (fmt &&& ~~~m) ||| (a &&& m)

/-- Slices of the group with an executing lane. -/
def View.execSlices (v : View) (g : Guard) : List Nat := v.m.filter fun i => (v.exec g).any fun l => l / 4 == i

/-- SETFMT. -/
def vecSetfmt (g : Guard) (mask : BitVec 4) (a : Src) (v : View) (s : State) : Res :=
  v.fresh [a] (.next (s.updSlices v (v.execSlices g) fun _ x =>
    { x with fmt := setFmt x.fmt mask (BitVec.ofNat 32 (v.uni 32 a)) }))

/-- SETFMT (spec/17 R461). -/
def execSetfmt (g : Guard) (mask : BitVec 4) (a : Src) (s : State) : Host.Outcome State Fault Refusal :=
  runThread s (vecSetfmt g mask a)

end Sys2Proof.Machine
end

