-- ==== Sys2Proof/Machine/Pair.lean ====
section
/-! DEFINITION. The pair word (spec/11 R306). -/

namespace Sys2Proof.Machine

/-- The vector half of a pair under the pair's guard. An instruction that its entry performs once for the group acts when
the guard is true in some lane. -/
def vecHalf (g : Guard) (i : Instr) (v : View) (s : State) : Res :=
  let never := (v.exec g).isEmpty
  match i with
  | .nop => .next s
  | .iadd _ d ty sub sat a b => vecAlu g d (.iadd ty sub sat) a b noSrc v s
  | .imul _ d ty hi a b => vecAlu g d (.imul ty hi) a b noSrc v s
  | .imad _ d ty hi a b c => vecAlu g d (.imad ty hi) a b c v s
  | .imnmx _ d ty mx a b => vecAlu g d (.imnmx ty mx) a b noSrc v s
  | .iset _ d cmp ty a b => vecIset g d cmp ty a b v s
  | .lop3 _ d w t a b c => vecAlu g d (.lop3 w t) a b c v s
  | .shf _ d w r ar a b => vecAlu g d (.shf w r ar) a b noSrc v s
  | .popc _ d w a => vecAlu g d (.popc w) a noSrc noSrc v s
  | .clz _ d w a => vecAlu g d (.clz w) a noSrc noSrc v s
  | .brev _ d w a => vecAlu g d (.brev w) a noSrc noSrc v s
  | .bfx _ d w x a b c => vecAlu g d (.bfx w x) a b c v s
  | .bfi _ d w a b c => vecAlu g d (.bfi w) a b c v s
  | .sel _ d w p n a b => vecSel g d w p n a b v s
  | .mov _ d w a => vecAlu g d (.mov w) a noSrc noSrc v s
  | .movi _ d imm => vecMovi g d imm v s
  | .lea _ d gl k a b => vecLea g d gl k a b v s
  | .idot4 _ d sa sb a b c => vecAlu g d (.idot4 sa sb) a b c v s
  | .fadd _ d na nb a b => vecAlu g d (.fadd na nb) a b noSrc v s
  | .fmul _ d na nb a b => vecAlu g d (.fmul na nb) a b noSrc v s
  | .ffma _ d na nb nc a b c => vecAlu g d (.ffma na nb nc) a b c v s
  | .fmnmx _ d mx a b => vecAlu g d (.fmnmx mx) a b noSrc v s
  | .fset _ d cmp u a b => vecFset g d cmp u a b v s
  | .hadd2 _ d bf na nb a b => vecAlu g d (.hadd2 bf na nb) a b noSrc v s
  | .hfma2 _ d bf na nb nc a b c => vecAlu g d (.hfma2 bf na nb nc) a b c v s
  | .sfn _ d f a => vecAlu g d (.sfn f) a noSrc noSrc v s
  | .fcvt _ d sat dt st a => vecAlu g d (.fcvt sat dt st) a noSrc noSrc v s
  | .setfmt _ mask a => vecSetfmt g mask a v s
  | .decw _ d l a e mode k => vecDecw g d l a e mode k v s
  | .shfl _ d mode a b => vecShfl g d mode a b v s
  | .vote _ d a => vecVote g d a v s
  | .redux _ d op a => vecRedux g d op a v s
  | .sealRegion _ d a b => vecSeal g d a b v s
  | .unseal _ d a => vecUnseal g d a v s
  | .mapcommit _ p a => vecMapcommit g p a v s
  | .maprelease _ p a => vecMaprelease g p a v s
  | .cpy _ k a b c => vecCpy g k a b c v s
  | .cpbatch _ d => vecCpbatch never d v s
  | .bar _ n => vecBar never n true v s
  | .cbar _ => vecCbar never true v s
  | .reggive _ n => vecReggive never n v s
  | .replay _ p a => vecReplay g p a v s
  | _ => .trap (mkTrap cIllegalEncoding 3)

/-- PAIR_WORD (spec/11 R306): both halves read the registers of the view. The scalar half's write is made when the vector
half completes, and before the vector half's own writes. -/
def execPairWord (g : Guard) (d : SDst) (op : UniOp) (second : Instr) (s : State) : Host.Outcome State Fault Refusal :=
  match s.view? with
  | none => .fault .noIssuer
  | some v =>
    .next (s.finish v 16
      (v.fresh (UniOp.srcs op)
        (match v.uniOp s (v.exec g) op with
         | .error t => .trap t
         | .ok r =>
           match vecHalf g second v s with
           | .next _ => vecHalf g second v (s.putUni v d (v.exec g) r)
           | r => r)))

end Sys2Proof.Machine
end

