-- ==== Sys2Proof/Machine/Tile.lean ====
section
/-! DEFINITION. A tile context: its registers, tile registers and windows, and the outcome of a slot operation (spec/04
R95-R107, spec/06 R143-R151, spec/11 R302, R303). -/

namespace Sys2Proof.Machine

/-! ### The issuing tile context -/

/-- The frame that issues, its block, the register sources read at the bundle's issue (spec/04 R97), and the bound of the names of
accesses issued before it. -/
structure TView where
  f : Frame
  b : Block
  r : TileRegs
  since : Nat
deriving DecidableEq, Repr

/-- The sources of a bundle: those kept, else the registers as they stand. -/
def Frame.sources (f : Frame) (time : W64) : TileRegs := f.image.getD { f.regs with time }

/-- The view of the issuing tile context. -/
def State.tview? (s : State) : Option TView :=
  match s.cur with
  | .tile u =>
    match s.frame? u with
    | none => none
    | some f => (s.block? f.blk).map fun b => { f, b, r := f.sources s.time, since := s.uid }
  | _ => none

/-- Who a tile context's access belongs to; it has no private memory (spec/15 R391), and the slots of its bundle are not ordered
(spec/08 R210). -/
def State.whoTile (s : State) (v : TView) : Who :=
  { blk := some v.b, ctx := v.b.ctx, core := v.b.core, lane := none, upto := some v.since,
    service := match v.b.handler with | some h => h.hidx != (s.ctx v.b.ctx).desc.fhidx | none => true }

/-- Replace the registers of the issuing tile context. -/
def State.updRegs (s : State) (v : TView) (f : TileRegs → TileRegs) : State :=
  s.updFrame v.f.uid fun x => { x with regs := f x.regs }

/-! ### Scalar registers (spec/11 R302) -/

/-- A scalar number as a source. -/
def TView.k (v : TView) (s : State) (n : BitVec 6) : W64 :=
  let i := n.toNat
  if i < 32 then v.r.k.getD i 0
  else if i < 40 then v.r.kw.getD (i - 32) 0
  else if i < 48 then (if bit v.r.f (i - 40) then 1 else 0)
  else match i with
    | 48 => BitVec.ofNat 64 (2 ^ 16 + v.f.number.toNat)
    | 49 => v.r.time
    | 50 => v.r.fflags.setWidth 64
    | 51 => s.devid.setWidth 64
    | 52 => BitVec.ofNat 64 v.f.core
    | 53 => BitVec.ofNat 64 v.f.ctx
    | _ => 0

/-- Registers with a scalar written; a write of KZ is discarded. -/
def TileRegs.setK (r : TileRegs) (i : Nat) (x : W64) : TileRegs :=
  if i < 32 then { r with k := putAt 32 0 r.k i x }
  else if i < 40 then { r with kw := putAt 8 0 r.kw (i - 32) x }
  else if i < 48 then
    { r with f := if bit x 0 then r.f ||| BitVec.ofNat 8 (2 ^ (i - 40)) else r.f &&& ~~~BitVec.ofNat 8 (2 ^ (i - 40)) }
  else if i = 50 then { r with fflags := x.setWidth 6 }
  else r

/-- Write a scalar of the issuing tile context. The write of an earlier slot of the bundle to it that has not landed is lost: slots
commit in order (spec/04 R97); a write to KZ is discarded. -/
def State.putK (s : State) (v : TView) (n : BitVec 6) (x : W64) : State :=
  s.updFrame v.f.uid fun f => { f with regs := f.regs.setK n.toNat x, landings := f.landings.filter fun l => l.reg == 63 || l.reg != n.toNat }

/-- Whether a write to a scalar number has not landed (spec/04 R98). -/
def Frame.pending (f : Frame) (n : BitVec 6) : Bool := n != 63 && f.landings.any fun l => l.reg == n.toNat

/-- Flags ORed into a frame's %fflags (spec/05 R124). -/
def State.orTileFlags (s : State) (f : Nat) (fl : FlagSet) : State :=
  s.updFrame f fun x => { x with regs := { x.regs with fflags := x.regs.fflags ||| fl } }

/-! ### Outcomes of a slot operation -/

/-- What a slot operation comes to. `next`: it has committed; `jump`: it has committed and placed the program counter;
`after`: it has committed and the bundle's end raises a trap; `trap`, `trapIn`: no effect but the trap, in the given state;
`serve`: no effect, fault service; `hold`: the bundle does not issue, and may yield for the reason. -/
inductive SlotRes where
  | next (s : State)
  | jump (s : State)
  | after (s : State) (t : Trap)
  | trap (t : Trap)
  | trapIn (s : State) (t : Trap)
  | serve (va kind : Nat)
  | hold (w : TileWait)
deriving DecidableEq, Repr

/-- A condition that holds a bundle, as what its tile context waits for. -/
def WaitCond.tile : WaitCond → TileWait
  | .remap va => .remap va
  | _ => .none

/-- A failed check as the outcome of a slot. -/
def Stop.slot : Stop → SlotRes
  | .trap t => .trap t
  | .serve va k => .serve va k
  | .hold c => .hold c.tile

/-- A trap of a frame as it stands in a state. -/
def State.trapAt (s : State) (f : Nat) (slot : Nat) (t : Trap) : State :=
  match s.frame? f with
  | some x => s.tileTrap x slot t
  | none => s

/-- Fault service for a frame as it stands in a state. -/
def State.serveAt (s : State) (f : Nat) (slot va kind : Nat) : State :=
  match s.frame? f with
  | some x => s.suspendTile x slot va kind
  | none => s

/-- A slot's outcome as the next state, for an operation that stands alone. -/
def State.slotEnd (s : State) (v : TView) (slot : Nat) : SlotRes → State
  | .next t => t
  | .jump t => t
  | .after t x => t.trapAt v.f.uid 0 x
  | .trap x => s.trapAt v.f.uid slot x
  | .trapIn t x => t.trapAt v.f.uid slot x
  | .serve va k => s.serveAt v.f.uid slot va k
  | .hold _ => s

/-! ### Tile registers and windows -/

/-- A tile register (spec/11 R303). A reserved bit or a reserved element code makes a register act as SPACE 7,
whatever its SPACE field holds. -/
structure TReg where
  space : Nat
  base : Nat
  shi : Nat
  ef : BitVec 6
  lm : Nat
  xv : BitVec 16
  scl : Bool
  sbase : Nat
  mbase : Nat
  rlog : Nat
  clog : Nat
  dir : Nat
  nsp : Nat
deriving DecidableEq, Repr

/-- Reading the 256 bits. -/
def TReg.ofBits (w : W256) : TReg :=
  let sp := bits w 2 0
  let ef : BitVec 6 := w.extractLsb' 62 6
  { space := if bits w 255 215 ≠ 0 ∨ (efOf ef).isNone then 7 else sp,
    base := bits w 59 3, shi := bits w 61 60, ef, lm := bits w 71 68, xv := w.extractLsb' 72 16, scl := bit w 88,
    sbase := bits w 145 89, mbase := bits w 202 146, rlog := bits w 206 203, clog := bits w 210 207, dir := bits w 212 211,
    nsp := bits w 214 213 }

/-- Element width of a tile. -/
def TReg.w (t : TReg) : Nat := efWidth t.ef

/-- Whether a tile is read with block scales: none in a V-tile or in Z (spec/06 R149-R151). -/
def TReg.scaled (t : TReg) : Bool := t.scl && t.space != 1 && t.space != 4

/-- A shape register (spec/04 R99). -/
structure Win where
  rows : Nat
  cols : Nat
  pitch : Nat
  row0 : Nat
  col0 : Nat
  rsv : Nat
deriving DecidableEq, Repr

/-- Reading the 128 bits. -/
def Win.ofBits (w : W128) : Win :=
  { rows := bits w 127 112, cols := bits w 111 96, pitch := bits w 95 64, row0 := bits w 63 48, col0 := bits w 47 32, rsv := bits w 31 0 }

/-- A tile with the window that an operation uses. -/
structure Side where
  t : TReg
  x : Win
deriving DecidableEq, Repr

/-- Index of a slot's first shape register among the sixteen. -/
def engBase : Eng → Nat
  | .d => 0
  | .c => 4
  | .v => 8
  | .m => 12

/-- The registers that a slot's operation reads: its live shape register exchanged with the shadow (spec/04 R100). -/
def TileRegs.swapped (r : TileRegs) (e : Eng) (sw : Swap) : TileRegs :=
  match sw with
  | none => r
  | some i => { r with live := putAt 16 0 r.live (engBase e + i.toNat) (r.shadow.getD (engBase e + i.toNat) 0) }

/-- The exchange itself, when the slot commits, of the values read at issue. -/
def State.swap (s : State) (v : TView) (e : Eng) (sw : Swap) : State :=
  match sw with
  | none => s
  | some i =>
    let n := engBase e + i.toNat
    s.updRegs v fun r => { r with live := putAt 16 0 r.live n (v.r.shadow.getD n 0), shadow := putAt 16 0 r.shadow n (v.r.live.getD n 0) }

/-- A tile register of a slot's operation with its window. -/
def TileRegs.side (r : TileRegs) (e : Eng) (t : BitVec 5) : Side :=
  let x := TReg.ofBits (r.t.getD t.toNat 0)
  { t := x, x := Win.ofBits (r.live.getD (engBase e + x.shi) 0) }

/-- Bytes from one row to the next. -/
def Side.pitch (d : Side) : Nat := if d.t.space = 4 then 256 else d.x.pitch

/-- Bit address of an element in its space, for the spaces laid out row by row (spec/06 R149, R151). -/
def Side.bitAt (d : Side) (i j : Nat) : Nat := 8 * (d.t.base + (d.x.row0 + i) * d.pitch) + (d.x.col0 + j) * d.t.w

/-- First byte and one past the last byte of a row. -/
def Side.rowBytes (d : Side) (i : Nat) : Nat × Nat := (d.bitAt i 0 / 8, ceilDiv (d.bitAt i d.x.cols) 8)

/-- Scale byte of a row's block of 32 columns (spec/06 R150, A). -/
def Side.scaleA (d : Side) (i blk : Nat) : Nat := d.t.sbase + (d.x.row0 + i) * ceilDiv d.x.pitch (4 * d.t.w) + blk

/-- Scale byte of a column for a block of 32 rows (spec/06 R150, B). -/
def Side.scaleB (d : Side) (blk j : Nat) : Nat := d.t.sbase + blk * (d.x.pitch * 8 / d.t.w) + (d.x.col0 + j)

/-- Sparse count N of a tile; 0 for a dense one. -/
def TReg.sparse (t : TReg) : Nat := if t.nsp = 0 then 0 else 8 * 2 ^ t.nsp

/-- How an operation uses a tile's scales. -/
inductive ScaleUse where
  | none | a | b
deriving DecidableEq, Repr

/-- The dense rows along k that a B window covers: first and count. -/
def Side.denseRows (d : Side) : Nat × Nat :=
  if d.t.sparse = 0 then (d.x.row0, d.x.rows) else (d.x.row0 / d.t.sparse * 128, d.x.rows / d.t.sparse * 128)

/-- The runs of bytes that a window touches beside its rows: scales, and the metadata of a sparse B (spec/06 R150, R159). -/
def Side.extraRuns (d : Side) (use : ScaleUse) : List (Nat × Nat) :=
  let scales := match use with
    | .none => []
    | .a =>
      if !d.t.scaled then [] else (List.range d.x.rows).map fun i =>
        let j0 := d.x.col0 / 32
        (d.scaleA i j0, (d.x.col0 + d.x.cols - 1) / 32 - j0 + 1)
    | .b =>
      if !d.t.scaled then [] else
        let (r0, n) := d.denseRows
        (List.range ((r0 + n - 1) / 32 - r0 / 32 + 1)).map fun k => (d.scaleB (r0 / 32 + k) 0, d.x.cols)
  let metaRuns := if use = .b ∧ d.t.sparse ≠ 0 then [(d.t.mbase, 128 * d.t.sparse)] else []
  scales ++ metaRuns

/-- The runs of bytes of a window: address and length. -/
def Side.runs (d : Side) (use : ScaleUse) : List (Nat × Nat) :=
  ((List.range d.x.rows).map fun i => let (a, z) := d.rowBytes i; (a, z - a)) ++ d.extraRuns use

/-! ### Conditions of a window -/

/-- A Z tile's elements are binary32 whatever its EFMT says (spec/06 R151; log 15). -/
def Side.zAsF32 (d : Side) : Side := if d.t.space = 4 then { d with t := { d.t with ef := 1 } } else d

/-- ENGINE_ACCESS of a tile: its space is not among those admitted, or an in V-tile is written (spec/04 R92, spec/06 R143, R144). -/
def Side.inSpace (d : Side) (spaces : List Nat) (write : Bool) : Except Stop Unit :=
  if !spaces.contains d.t.space || (d.t.space == 1 && write && d.t.dir == 0) then .error (.trap (mkTrap cEngineAccess d.t.space)) else .ok ()

/-- ENGINE_ACCESS of a tile and its rows: its space, or a row of a global window begins in one of the address windows
(spec/07 R173). -/
def Side.access (d : Side) (spaces : List Nat) (write : Bool) : Except Stop Unit := do
  d.inSpace spaces write
  if d.t.space = 6 ∧ (d.runs .none).any fun r => decide (Config.sharedBase ≤ r.1) && decide (r.1 < 2 ^ 57) then
    .error (.trap (mkTrap cEngineAccess 6))

/-- SHAPE_INVALID. -/
def shapeTrap : Stop := .trap (mkTrap cShapeInvalid 0)

/-- SHAPE_INVALID when a condition holds. -/
def shapeIf (bad : Bool) : Except Stop Unit := if bad then .error shapeTrap else .ok ()

/-- The shape conditions of R99, R149, R151 and R303 for one window. -/
def Side.shape (d : Side) : Except Stop Unit :=
  shapeIf (d.x.rows == 0 || d.x.cols == 0 || d.x.rsv != 0 || (d.t.nsp != 0) != (d.t.mbase != 0) ||
    (match d.t.space with
     | 1 => decide (2 ^ d.t.rlog < d.x.row0 + d.x.rows) || decide (2 ^ d.t.clog < d.x.col0 + d.x.cols)
     | 4 => decide (64 < d.x.rows) || decide (64 < d.x.cols)
     | _ => d.x.pitch % 32 != 0))

/-- Size of a window of a frame by space. -/
def TView.windowSize (v : TView) (space : Nat) : Nat :=
  let (w, x, z) := v.b.kernel.windows
  match space with
  | 2 => w
  | 3 => x
  | _ => z

/-- BOUNDS of a window: the typed buffers by R146, shared memory by the block's SHARED (R174). `tinfo5` is what it
reports for shared memory. -/
def Side.bounds (d : Side) (v : TView) (use : ScaleUse) (tinfo5 : Nat) : Except Stop Unit :=
  let past (n : Nat) : Bool := (d.runs use).any fun r => decide (n < r.1 + r.2)
  match d.t.space with
  | 5 => if past v.b.kernel.shared then .error (.trap (mkTrap cBounds tinfo5)) else .ok ()
  | 1 => .ok ()
  | 6 => .ok ()
  | k => if past (v.windowSize k) then .error (.trap (mkTrap cBounds k)) else .ok ()

/-- MISALIGNED of a window (spec/06 R146, R149), with the address of its first element where it is global (spec/10 R265). -/
def Side.aligned (d : Side) : Except Stop Unit :=
  let bad := match d.t.space with
    | 1 => false
    | 4 => d.t.base % 16384 != 0
    | 5 => decide (8 ≤ d.t.w) && d.t.base % (d.t.w / 8) != 0
    | 6 => decide (8 ≤ d.t.w) && d.t.base % (d.t.w / 8) != 0
    | _ => d.bitAt 0 0 % 256 != 0
  if bad then .error (.trap (mkTrap cMisaligned 0 (if d.t.space = 6 then d.bitAt 0 0 / 8 else 0))) else .ok ()

/-- The two conditions, BOUNDS first. -/
def Side.fits (d : Side) (v : TView) (use : ScaleUse) (tinfo5 : Nat := 0x20) : Except Stop Unit := do
  d.bounds v use tinfo5
  d.aligned

/-- A page put among others in ascending order; of one page the lower byte stays. -/
def pageInsert (p : Nat × Nat) : List (Nat × Nat) → List (Nat × Nat)
  | [] => [p]
  | q :: qs =>
    if p.1 < q.1 then p :: q :: qs
    else if p.1 = q.1 then (q.1, min p.2 q.2) :: qs
    else q :: pageInsert p qs

/-- The pages of runs of bytes in ascending order, each with the lowest byte touched in it: the record of a fault names the lowest
failing byte (spec/07 R186, R189). -/
def runPages (rs : List (Nat × Nat)) : List (Nat × Nat) :=
  (rs.flatMap fun r => (pagesOf r.1 r.2).map fun a => (a / 16384, a)).foldl (fun ps p => pageInsert p ps) []

/-- Steps 1 and 3 of R186 for a run of a global tile, and the refusal of the address windows (spec/07 R173, spec/11 R309). -/
def runRegion (r : Nat × Nat) : Except Stop Unit :=
  if r.2 = 0 then .ok ()
  else if 2 ^ 57 ≤ r.1 then .error (.trap (mkTrap cProtection 1 r.1))
  else if Config.sharedBase ≤ r.1 then .error (.trap (mkTrap cEngineAccess 6))
  else if Config.sharedBase < r.1 + r.2 then .error (.trap (mkTrap cBounds 0x20 Config.sharedBase))
  else .ok ()

/-- The translation of global runs (spec/04 R106, spec/07 R186): regions, every page's walk, then every page's permissions; the
pages with their frames. -/
def State.pagesFor (s : State) (w : Who) (acc : Acc) (rs : List (Nat × Nat)) : Except Stop (List (Nat × Nat)) := do
  rs.forM runRegion
  let ps := runPages rs
  let ms ← ps.mapM fun p => (s.checkWalk w acc p.2 p.2).map fun x => (p.2, x)
  let _ ← ms.mapM fun m => s.checkPerm w acc m.1 m.1 m.2.2
  pure (ms.map fun m => (m.1 / 16384, m.2.1 / 16384))

/-- The pages of a window, when it is global. -/
def State.sidePages (s : State) (v : TView) (acc : Acc) (d : Side) (use : ScaleUse) : Except Stop (List (Nat × Nat)) :=
  if d.t.space ≠ 6 then .ok []
  else s.pagesFor (s.whoTile v) acc (d.runs use)

/-! ### What an operation captures, and its elements -/

/-- The codebooks as they stood when the bundle issued: of a bundle that goes on at a slot, those kept with its sources (spec/04 R107,
spec/05 R141). -/
def TView.books (v : TView) : List W256 := if v.f.sresume = 0 ∨ v.f.books = [] then v.b.cb else v.f.books

/-- The capture of an operation of the issuing tile context. -/
def TView.env (v : TView) (img : TileRegs) (pages : List (Nat × Nat)) (idx : List Nat) : OpEnv :=
  { frame := v.f.uid, blk := v.b.uid, core := v.b.core, ctx := v.b.ctx, img, books := v.books, maps := v.f.maps,
    gangs := (v.b.gangs.filter fun g => !g.spawned).map fun g => (g.no, g.name), pages, idx, since := v.since }

/-- The place of a part, an aligned run of 16 bytes, of a space other than the V-tiles. -/
def OpEnv.part (e : OpEnv) (space a : Nat) : Place :=
  match space with
  | 5 => .mem (.shared e.blk (a / 16 * 16))
  | 6 => .mem (.phys (((assocGet (a / 16384) e.pages).getD 0) * 16384 + a % 16384 / 16 * 16))
  | k => .buf e.frame k (a / 16 * 16)

/-- The virtual address of a physical one that an operation translated. -/
def OpEnv.vaOf (e : OpEnv) (pa : Nat) : Nat :=
  match e.pages.find? fun p => p.2 == pa / 16384 with
  | some p => p.1 * 16384 + pa % 16384
  | none => 0

/-- The virtual address of a part of global memory; 0 for another. -/
def OpEnv.vaOfPlace (e : OpEnv) (p : Place) : Nat := match p with | .mem (.phys a) => e.vaOf a | _ => 0

/-- The register of an element of a V-tile, and the element's first bit in it (spec/04 R82). -/
def OpEnv.vplace (e : OpEnv) (d : Side) (i j : Nat) : Place × Nat :=
  let l := layoutWord ((assocGet d.t.lm e.maps).getD 0) (d.t.rlog + d.t.clog) ((d.x.row0 + i) * 2 ^ d.t.clog + d.x.col0 + j)
  (.vreg e.blk ((assocGet (l / 256 % 32) e.gangs).getD 0) (l / 8 % 32) (d.t.base + l / 8192) (d.t.dir == 1), l % 8 * d.t.w)

/-- Place and first bit of an element. -/
def OpEnv.place (e : OpEnv) (d : Side) (i j : Nat) : Place × Nat :=
  if d.t.space = 1 then e.vplace d i j
  else let a := d.bitAt i j; (e.part d.t.space (a / 8), a % 128)

/-- The parts of a run of bytes. -/
def OpEnv.runParts (e : OpEnv) (space : Nat) (r : Nat × Nat) : List Place :=
  if r.2 = 0 then [] else
    (List.range ((r.1 + r.2 - 1) / 16 - r.1 / 16 + 1)).map fun k => e.part space ((r.1 / 16 + k) * 16)

/-- The parts of a window. -/
def OpEnv.parts (e : OpEnv) (d : Side) (use : ScaleUse) : List Place :=
  if d.t.space = 1 then
    ((List.range d.x.rows).flatMap fun i => (List.range d.x.cols).map fun j => (e.vplace d i j).1).eraseDups
  else (d.runs use).flatMap (e.runParts d.t.space)

/-- Bits of a part that was read. -/
def gotBits (g : List Got) (p : Place) (o w : Nat) : Nat :=
  match g.find? fun x => x.place == p with
  | some x => bits x.data (o + w - 1) o
  | none => 0

/-- A byte of a space among the parts read. -/
def OpEnv.byte (e : OpEnv) (g : List Got) (space a : Nat) : Nat := gotBits g (e.part space a) (8 * (a % 16)) 8

/-- The code of an element among the parts read. -/
def OpEnv.code (e : OpEnv) (g : List Got) (d : Side) (i j : Nat) : Nat :=
  let (p, o) := e.place d i j
  gotBits g p o d.t.w

/-- The scale of an element of a tile read with A's geometry; 127 without scales. -/
def OpEnv.scale (e : OpEnv) (g : List Got) (d : Side) (i j : Nat) : Nat :=
  if d.t.scaled then e.byte g d.t.space (d.scaleA i ((d.x.col0 + j) / 32)) else 127

/-- The value of an element with its scale (spec/05 R119, R129). -/
def OpEnv.val (e : OpEnv) (g : List Got) (d : Side) (i j : Nat) : FV :=
  let v := match efOf d.t.ef with | some f => f.decode d.t.xv e.books (e.code g d i j) | none => FV.zero
  if d.t.scaled then v.scale (e.scale g d i j) else v

/-! ### Writes of an operation -/

/-- Bits put into a list of part writes. -/
def putBits (ws : List Wr) (p : Place) (n o w x : Nat) : List Wr :=
  let d := BitVec.ofNat 128 (x % 2 ^ w) <<< o
  let m := BitVec.ofNat 128 (2 ^ w - 1) <<< o
  let put (y : Wr) : Wr := { y with data := (y.data &&& ~~~m) ||| d, mask := y.mask ||| m }
  match ws with
  | y :: ys =>
    if y.place = p then put y :: ys
    else if ys.any fun y => y.place == p then y :: ys.map fun y => if y.place = p then put y else y
    else { place := p, n, data := d, mask := m, add := [] } :: ws
  | [] => [{ place := p, n, data := d, mask := m, add := [] }]

/-- Bytes of a part. A V-tile has no addresses: the part of it that spec/04 R102 shows old or new is one register of one lane, 32 bits
(DESIGN CHOICE; log 23). -/
def Place.size : Place → Nat
  | .vreg _ _ _ _ _ => 4
  | _ => 16

/-- The code of an element put into writes. -/
def OpEnv.putCode (e : OpEnv) (d : Side) (ws : List Wr) (i j x : Nat) : List Wr :=
  let (p, o) := e.place d i j
  putBits ws p p.size o d.t.w x

/-- A byte of a space put into writes. -/
def OpEnv.putByte (e : OpEnv) (ws : List Wr) (space a x : Nat) : List Wr := putBits ws (e.part space a) 16 (8 * (a % 16)) 8 x

/-- Rows and columns of a window in order. -/
def Win.cells (x : Win) : List (Nat × Nat) := (List.range x.rows).flatMap fun i => (List.range x.cols).map fun j => (i, j)

/-- The bytes, in its space, of an element. -/
def Side.byteSpan (d : Side) (i j : Nat) : Nat × Nat := (d.bitAt i j / 8, ceilDiv (d.bitAt i j + d.t.w) 8)

/-- Whether two windows share a byte of one space. -/
def sidesOverlap (a b : Side) : Bool :=
  a.t.space == b.t.space && a.t.space != 1 &&
    (a.runs .none).any fun r => (b.runs .none).any fun q => decide (r.1 < q.1 + q.2) && decide (q.1 < r.1 + r.2)

/-! ### Reading and writing parts -/

/-- A byte of a frame's window; one not written since the window was granted is free (spec/06 R147; log 5). -/
def Frame.bufByte (f : Frame) (space off : Nat) : Byte :=
  (assocGet (space * 2 ^ 20 + off) f.buf).getD (Config.freeByte (2 * f.uid + 1) (space * 2 ^ 20 + off))

/-- A byte of a latch; one that no fill wrote is free (log 6). -/
def Latch.byte (l : Latch) (off : Nat) : Byte := (assocGet off l.bytes).getD (Config.freeByte (2 * (4 * l.core + l.idx)) (2 ^ 24 + off))

/-- The latch of a core by number. -/
def State.latch? (s : State) (core idx : Nat) : Option Latch := s.latches.find? fun l => l.core == core && l.idx == idx

/-- The key of a V register lane among those that a frame has written. -/
def vkey (gang lane reg : Nat) : Nat := (gang * 256 + reg) * 32 + lane

/-- A part as it stands. An element of an out tile that the frame has not written is free (spec/04 R92; log 6). -/
def State.readPlace (s : State) (frame : Nat) (p : Place) : W128 :=
  match p with
  | .mem l => BitVec.ofNat 128 (s.readNat l 16)
  | .buf f sp off =>
    (match s.frame? f with
     | some x => BitVec.ofNat 128 (leNat ((List.range 16).map fun k => x.bufByte sp (off + k)))
     | none => 0)
  | .vreg b g l r out =>
    let x := match s.gang? b g with | some y => y.vreg r l | none => 0
    if out then
      let m : W32 := BitVec.ofNat 32 (match s.frame? frame with | some f => (assocGet (vkey g l r) f.written).getD 0 | none => 0)
      ((x &&& m) ||| (Config.freeWord (2 * s.ctr + 1) (vkey g l r) &&& ~~~m)).setWidth 128
    else x.setWidth 128
  | .latch c i off =>
    (match s.latch? c i with
     | some x => BitVec.ofNat 128 (leNat ((List.range 16).map fun k => x.byte (off + k)))
     | none => 0)

/-- Bytes written into a list by key under a bit mask. -/
def maskBytes (old : Nat → Byte) (base : Nat) (data mask : W128) (l : List (Nat × Byte)) : List (Nat × Byte) :=
  (List.range 16).foldl (fun l k =>
    let m : Byte := mask.extractLsb' (8 * k) 8
    if m = 0 then l else assocSet (base + k) ((old k &&& ~~~m) ||| (data.extractLsb' (8 * k) 8 &&& m)) l) l

/-- Binary32 values added in place: the new words, and the flags NV and OF (spec/06 R161). -/
def addWords : List W32 → List W32 → List W32 × FlagSet
  | x :: xs, z :: zs =>
    let (r, f) := add32 x z
    let (rs, g) := addWords xs zs
    (r :: rs, (f &&& (fNV ||| fOF)) ||| g)
  | _, _ => ([], 0)

/-- 32-bit words of bytes. -/
def wordsOf : List Byte → List W32
  | a :: b :: c :: d :: rest => BitVec.ofNat 32 (leNat [a, b, c, d]) :: wordsOf rest
  | _ => []

/-- The bytes of 32-bit words. -/
def bytesOf (ws : List W32) : List Byte := ws.flatMap fun w => leBytes 4 w.toNat

/-- A part write of a frame performed: at a memory home, with the resident line of the core updated, or dropped for an
add-on-store (spec/04 R93); in a buffer, a register or a latch. An add-on-store to an element of an out tile that the frame has
not written adds to an undefined value (spec/04 R92; log 6). -/
def State.writePlace (s : State) (frame core ctx : Nat) (w : Wr) : State :=
  match w.place with
  | .mem l =>
    if w.add.isEmpty then
      (s.l1Store core ctx l w.data w.mask).writeLoc ctx l w.n w.data w.mask
    else
      let (new, fl) := addWords (wordsOf (s.readLoc l (4 * w.add.length))) w.add
      let t := match l with
        | .phys a => ((s.setOwner a ctx).l1Drop core l).poke a (bytesOf new)
        | .shared b off => s.updShared b off (bytesOf new)
      t.orTileFlags frame fl
  | .buf f sp off => s.updFrame f fun x => { x with buf := maskBytes (fun k => x.bufByte sp (off + k)) (sp * 2 ^ 20 + off) w.data w.mask x.buf }
  | .vreg b g l r _ =>
    let old := match s.gang? b g with | some y => y.vreg r l | none => 0
    let now : W32 := (s.readPlace frame w.place).setWidth 32
    let (x, fl) := match w.add with
      | z :: _ => ((addWords [now] [z]).1.headD 0, (addWords [now] [z]).2)
      | [] => ((mergeMask (old.setWidth 128) w.data w.mask).setWidth 32, 0)
    let m := if w.add.isEmpty then bits w.mask 31 0 else 2 ^ 32 - 1
    let t := s.updGang b g fun y => y.setV r l 1 x.toNat
    (t.updFrame frame fun f =>
      { f with written := assocSet (vkey g l r) (((assocGet (vkey g l r) f.written).getD 0) ||| m) f.written }).orTileFlags frame fl
  | .latch c i off =>
    { s with latches := s.latches.map fun x =>
        if x.core = c ∧ x.idx = i then { x with bytes := maskBytes (fun k => x.byte (off + k)) off w.data w.mask x.bytes } else x }

end Sys2Proof.Machine
end

