-- ==== Sys2Proof/Machine/Slots.lean ====
section
/-! DEFINITION. Slot operations that wait or run at once: the K slot, the ring forms of the D slot, and the B slot (spec/03
R76-R79, spec/04 R90, R97-R100, spec/13 R344, spec/14 R378, spec/15 R387-R392, spec/16 R420, R421, R431-R436, spec/17 R461,
R468, spec/18 R481-R484, R496, R498). -/

namespace Sys2Proof.Machine

/-! ### Waits at issue -/

/-- The scalar numbers that a slot operation reads or writes; GRET reads K0-K7 (spec/04 R91, R98). -/
def slotRegs (i : Instr) : List (BitVec 6) :=
  let src (b : KSrc) : List (BitVec 6) := match b with | .reg n => [n] | .imm _ => []
  match i with
  | .kadd d _ a b => d :: a :: src b
  | .kmul d _ a b => d :: a :: src b
  | .klop d _ a b => d :: a :: src b
  | .kmovi d _ => [d]
  | .kcmp f _ _ a b => BitVec.ofNat 6 (40 + f.toNat) :: a :: src b
  | .kld sz r a _ => if sz = .desc then [a] else [r, a]
  | .kst sz r a _ => if sz = .desc then [a] else [r, a]
  | .shpw _ _ _ (.reg n) => [n]
  | .setfmtK a _ => [a]
  | .cbloadK _ a => [a]
  | .tfill _ _ a => [a]
  | .racqTile _ _ d a => [d.setWidth 6, a]
  | .rpeekTile _ _ d a => [d.setWidth 6, a]
  | .rcommitTile _ _ k a => [k.setWidth 6, a]
  | .rrelTile _ _ k a => [k.setWidth 6, a]
  | .tcopy _ _ _ _ (some a) => [a]
  | .tgath _ _ _ a _ => [a]
  | .tscat _ _ _ a => [a]
  | .coll _ _ _ a _ _ _ => [a]
  | .tew _ _ _ (.scalar _ b) => [b]
  | .mloop _ _ _ _ c k _ => [c, k]
  | .tbr t => [t.reg]
  | .tcall t => [t.reg, 31]
  | .tret a => [a]
  | .gret => (List.range 8).map (BitVec.ofNat 6)
  | .nextw a => [a]
  | .tlwaitTile _ a => [a]
  | _ => []

/-- The tile context as a party of a ring. -/
def TView.ringParty (v : TView) (s : State) : RingParty := { who := s.whoTile v, blk := v.b.uid, issuer := .tile v.f.uid }

/-- A ring that RACQ finds full or RPEEK empty: the wait, with the control block's place. -/
def State.ringWait (s : State) (v : TView) (a : W64) (try_ : State → RingParty → Pieces → Except Stop (Option (Nat × State))) :
    Option TileWait :=
  match s.rcbLoc (v.ringParty s) a with
  | .error (.hold c) => some c.tile
  | .error _ => none
  | .ok l => match try_ s (v.ringParty s) l with | .ok none => some (.ring (locAt l 0)) | _ => none

/-- Position of a timeline among a frame's three. -/
def kindIdx : TlKind → Nat
  | .copy => 0
  | .matrix => 1
  | .coll => 2

/-- Whether operations 1 to `n` of a frame's timeline have completed (spec/18 R496). -/
def State.opsDone (s : State) (f : Nat) (k : TlKind) (n : Nat) : Bool :=
  !s.aops.any fun o => o.owner == .tile f && o.kind == k && decide (o.number ≤ n)

/-- The operations of a frame's timeline that it has issued. -/
def Frame.issued (f : Frame) (k : TlKind) : Nat := f.issuedOps.getD (kindIdx k) 0

/-- Whether the copy engine's queue for a frame is full (spec/04 R103). -/
def State.queueFull (s : State) (f : Nat) : Bool := decide (16 ≤ (s.aops.filter fun o => o.owner == .tile f && o.kind != .matrix).length)

/-- Whether an instruction is an M-slot step of fixed latency that occupies the engine for 16 cycles. -/
def isMma : Instr → Bool
  | .mma .. => true
  | _ => false

/-- Whether an asynchronous matrix operation occupies the engine: until it has made its reads, an MLOOP those of its last step (spec/04
R103). -/
def AOp.occupies (o : AOp) : Bool :=
  o.kind == .matrix && !o.discard && (!o.started || !o.srcs.isEmpty ||
    (match o.work with
     | .slot (.mloop ..) e m _ => decide (m < e.idx.getD 0 0 % 2 ^ 13)
     | _ => false))

/-- Whether a core's matrix engine is occupied (spec/04 R103). -/
def State.engineBusy (s : State) (core : Nat) : Bool :=
  s.aops.any (fun o => o.core == core && o.kind == .matrix && o.occupies) ||
    s.frames.any fun f => f.core == core && f.fixed.any fun x => isMma x.instr && (!x.computed || decide (s.time.toNat < x.rDue))

/-- Whether the release half of a scope has not waited yet (spec/08 R225). -/
def State.releaseWait (s : State) (v : TView) (sc : Scope) : Bool :=
  scopeWide sc && !s.releaseDone v.b.uid v.b.core (.tile v.f.uid)

/-- Why a bundle that holds a slot operation cannot issue, if it cannot. -/
def slotWait (i : Instr) (v : TView) (s : State) : Option TileWait :=
  if (slotRegs i).any v.f.pending then some .none
  else match i with
  | .racqTile _ _ _ a => s.ringWait v (v.k s a) State.ringAcq
  | .rpeekTile _ _ _ a => s.ringWait v (v.k s a) State.ringPeek
  | .rcommitTile _ sc _ _ => if s.releaseWait v sc then some .none else none
  | .rrelTile _ sc _ _ => if s.releaseWait v sc then some .none else none
  | .tlwaitTile k a =>
    let n := min (v.k s a).toNat (v.f.issued k)
    if s.opsDone v.f.uid k n then none else some (.timeline k n)
  | .tcopy .. | .tgath .. | .tscat .. | .coll .. => if s.queueFull v.f.uid then some .none else none
  | .mma .. | .mloop .. | .mlatch .. | .mdrain .. | .mzero .. => if s.engineBusy v.f.core then some .none else none
  | _ => none

/-- Run a slot operation for the issuing tile context. -/
def runSlot (s : State) (x : Slot) (i : Instr) (f : TView → State → SlotRes) : Host.Outcome State Fault Refusal :=
  match s.tview? with
  | none => .fault .noIssuer
  | some v => .next (s.slotEnd v x.index (match slotWait i v s with | some w => .hold w | none => f v s))

/-! ### The K slot -/

/-- A second source. -/
def TView.ksrc (v : TView) (s : State) : KSrc → W64
  | .reg n => v.k s n
  | .imm i => i.signExtend 64

/-- KADD (spec/15 R388). -/
def slotKadd (d : BitVec 6) (sub : Bool) (a : BitVec 6) (b : KSrc) (v : TView) (s : State) : SlotRes :=
  .next (s.putK v d (if sub then v.k s a - v.ksrc s b else v.k s a + v.ksrc s b))

/-- KADD (spec/15 R388). -/
def execKadd (d : BitVec 6) (sub : Bool) (a : BitVec 6) (b : KSrc) (s : State) : Host.Outcome State Fault Refusal :=
  runSlot s .k (.kadd d sub a b) (slotKadd d sub a b)

/-- KMUL's product (spec/15 R388). -/
def kmulOf (hi : Bool) (a b : W64) : W64 :=
  let p := a.toInt * b.toInt
  BitVec.ofInt 64 (if hi then p / 2 ^ 64 else p)

/-- KMUL: the product lands at the fourth bundle after its own (spec/15 R388). -/
def slotKmul (d : BitVec 6) (hi : Bool) (a : BitVec 6) (b : KSrc) (v : TView) (s : State) : SlotRes :=
  let x := kmulOf hi (v.k s a) (v.ksrc s b)
  let l : Landing := { id := s.uid, reg := d.toNat, due := some (v.f.bundles + 3), value := some x }
  .next { (s.updFrame v.f.uid fun f => { f with landings := f.landings ++ [l] }) with uid := s.uid + 1 }

/-- KMUL (spec/15 R388). -/
def execKmul (d : BitVec 6) (hi : Bool) (a : BitVec 6) (b : KSrc) (s : State) : Host.Outcome State Fault Refusal :=
  runSlot s .k (.kmul d hi a b) (slotKmul d hi a b)

/-- KLOP's result (spec/15 R388). -/
def klopOp (op : KLop) (a b : W64) : W64 :=
  match op with
  | .and => a &&& b
  | .or => a ||| b
  | .xor => a ^^^ b
  | .andn => a &&& ~~~b
  | .shl => a <<< (bits b 5 0)
  | .shr => a >>> (bits b 5 0)
  | .sar => a.sshiftRight (bits b 5 0)

/-- KLOP (spec/15 R388). -/
def slotKlop (d : BitVec 6) (op : KLop) (a : BitVec 6) (b : KSrc) (v : TView) (s : State) : SlotRes :=
  .next (s.putK v d (klopOp op (v.k s a) (v.ksrc s b)))

/-- KLOP (spec/15 R388). -/
def execKlop (d : BitVec 6) (op : KLop) (a : BitVec 6) (b : KSrc) (s : State) : Host.Outcome State Fault Refusal :=
  runSlot s .k (.klop d op a b) (slotKlop d op a b)

/-- KMOVI (spec/15 R388). -/
def slotKmovi (d : BitVec 6) (imm : BitVec 28) (v : TView) (s : State) : SlotRes := .next (s.putK v d (imm.signExtend 64))

/-- KMOVI (spec/15 R388). -/
def execKmovi (d : BitVec 6) (imm : BitVec 28) (s : State) : Host.Outcome State Fault Refusal :=
  runSlot s .k (.kmovi d imm) (slotKmovi d imm)

/-- KCMP (spec/15 R388). -/
def slotKcmp (f : BitVec 3) (cmp : Cmp) (u : Bool) (a : BitVec 6) (b : KSrc) (v : TView) (s : State) : SlotRes :=
  let x := v.k s a
  let y := v.ksrc s b
  let r := if u then icmp cmp x.toNat y.toNat else icmp cmp x.toInt y.toInt
  .next (s.putK v (BitVec.ofNat 6 (40 + f.toNat)) (if r then 1 else 0))

/-- KCMP (spec/15 R388). -/
def execKcmp (f : BitVec 3) (cmp : Cmp) (u : Bool) (a : BitVec 6) (b : KSrc) (s : State) : Host.Outcome State Fault Refusal :=
  runSlot s .k (.kcmp f cmp u a b) (slotKcmp f cmp u a b)

/-- Bytes of a KLD or KST. -/
def ksizeBytes : KSize → Nat
  | .b8 => 1
  | .b16 => 2
  | .b32 => 4
  | .b64 => 8
  | .desc => 32

/-- The 8-byte parts of pieces. -/
def eights (ps : List (Loc × Nat)) : List (Loc × Nat) :=
  ps.flatMap fun p => if p.2 ≤ 8 then [p] else (List.range (p.2 / 8)).map fun k => (p.1.plus (8 * k), 8)

/-- An operation of the issuing tile context. -/
def TView.op (v : TView) (s : State) (us : List OpUnit) : Op :=
  { id := 0, core := v.b.core, ctx := v.b.ctx, blk := v.b.uid, gang := v.f.uid, slices := [], issuer := .tile v.f.uid,
    order := .rlx, units := nameUnits us, work := s.workOf (.tile v.f.uid) }

/-- KLD of a scalar: an ordinary load, written when its data returns (spec/15 R391). -/
def slotKldScalar (n : Nat) (reg : BitVec 6) (va : W64) (v : TView) (s : State) : SlotRes :=
  let w := s.whoTile v
  match s.check w .load va n n with
  | .error st => st.slot
  | .ok l =>
    let got := s.l1Hit v.b.core l n
    if got.isNone && s.poisoned l n then .trap (mkTrap cMemUncorrectable 0 va.toNat)
    else
      let u : OpUnit := { name := 0, loc := l, n, party := .tile v.f.uid, kind := .load false .none got }
      let s1 := s.fillWho w va.toNat n
      let (id, t) := s1.pushOp (v.op s (u :: s.fillUnits v.b.core [u]))
      .next (t.updFrame v.f.uid fun f => { f with landings := f.landings ++ [{ id, reg := reg.toNat, due := none, value := none }] })

/-- KLD.desc: the bundle holds until its 32 bytes have returned (spec/11 R304). -/
def slotKldDesc (t : Nat) (va : W64) (v : TView) (s : State) : SlotRes :=
  match s.loadRange (s.whoTile v) v.b.uid va 32 8 with
  | .error st => st.slot
  | .ok (bs, u) =>
    let w : W256 := BitVec.ofNat 256 (leNat bs)
    if bits w 2 0 = 1 then .trap (mkTrap cEngineAccess 1) else .next (u.updRegs v fun r => { r with t := putAt 32 0 r.t t w })

/-- KLD (spec/15 R391). -/
def slotKld (sz : KSize) (reg a : BitVec 6) (off : BitVec 16) (v : TView) (s : State) : SlotRes :=
  let va := v.k s a + off.signExtend 64
  if sz = .desc then slotKldDesc reg.toNat va v s else slotKldScalar (ksizeBytes sz) reg va v s

/-- KLD (spec/15 R391). -/
def execKld (sz : KSize) (reg a : BitVec 6) (off : BitVec 16) (s : State) : Host.Outcome State Fault Refusal :=
  runSlot s .k (.kld sz reg a off) (slotKld sz reg a off)

/-- KST: stores of 1 to 8 bytes, four for a tile register (spec/15 R391). -/
def slotKst (sz : KSize) (reg a : BitVec 6) (off : BitVec 16) (v : TView) (s : State) : SlotRes :=
  let va := v.k s a + off.signExtend 64
  let n := ksizeBytes sz
  let x := if sz = .desc then (v.r.t.getD reg.toNat 0).toNat else (v.k s reg).toNat
  let w := s.whoTile v
  match s.checkRange w .store va n (min n 8) with
  | .error st => st.slot
  | .ok ps =>
    let us := (offsets 0 (eights ps)).map fun p => storeUnit (.tile v.f.uid) p.2.1 p.2.2 (x / 2 ^ (8 * p.1)) (byteMask p.2.2)
    .next (((s.fillWho w va.toNat n).l1Stores v.b.core v.b.ctx us).pushOp (v.op s us)).2

/-- KST (spec/15 R391). -/
def execKst (sz : KSize) (reg a : BitVec 6) (off : BitVec 16) (s : State) : Host.Outcome State Fault Refusal :=
  runSlot s .k (.kst sz reg a off) (slotKst sz reg a off)

/-- A shape register with a field replaced (spec/04 R99). -/
def shapePut (w : W128) (f : ShField) (x : Nat) : W128 :=
  let put (lo n : Nat) : W128 := (w &&& ~~~(BitVec.ofNat 128 (2 ^ n - 1) <<< lo)) ||| (BitVec.ofNat 128 (x % 2 ^ n) <<< lo)
  match f with
  | .rows => put 112 16
  | .cols => put 96 16
  | .pitch => put 64 32
  | .row0 => put 48 16
  | .col0 => put 32 16

/-- SHPW (spec/17 R468). -/
def slotShpw (e : Eng) (idx : BitVec 2) (f : ShField) (src : ShSrc) (v : TView) (s : State) : SlotRes :=
  let x := match src with | .reg n => (v.k s n).toNat | .imm i => i.toNat
  let n := engBase e + idx.toNat
  .next (s.updRegs v fun r => { r with shadow := putAt 16 0 r.shadow n (shapePut (r.shadow.getD n 0) f x) })

/-- SHPW (spec/17 R468). -/
def execShpw (e : Eng) (idx : BitVec 2) (f : ShField) (src : ShSrc) (s : State) : Host.Outcome State Fault Refusal :=
  runSlot s .k (.shpw e idx f src) (slotShpw e idx f src)

/-- The bits of FMT that a field mask names (spec/17 R461). -/
def fmtMask (m : BitVec 4) : W32 :=
  (if bit m 0 then 0xC000#32 else 0) ||| (if bit m 1 then 0x2000#32 else 0) ||| (if bit m 2 then 0x1000#32 else 0) |||
    (if bit m 3 then 0xFFFF0000#32 else 0)

/-- SETFMT of the K slot (spec/17 R461). -/
def slotSetfmtK (a : BitVec 6) (m : BitVec 4) (v : TView) (s : State) : SlotRes :=
  let x : W32 := (v.k s a).setWidth 32
  .next (s.updRegs v fun r => { r with fmt := (r.fmt &&& ~~~fmtMask m) ||| (x &&& fmtMask m) })

/-- SETFMT of the K slot (spec/17 R461). -/
def execSetfmtK (a : BitVec 6) (m : BitVec 4) (s : State) : Host.Outcome State Fault Refusal :=
  runSlot s .k (.setfmtK a m) (slotSetfmtK a m)

/-- CBLOAD of the K slot (spec/13 R344). -/
def slotCbloadK (cb : BitVec 3) (a : BitVec 6) (v : TView) (s : State) : SlotRes :=
  match s.loadRange (s.whoTile v) v.b.uid (v.k s a) 32 32 with
  | .error st => st.slot
  | .ok (bs, t) => .next (t.updBlock v.b.uid fun b => { b with cb := putAt 8 0 b.cb cb.toNat (BitVec.ofNat 256 (leNat bs)) })

/-- CBLOAD of the K slot (spec/13 R344). -/
def execCbloadK (cb : BitVec 3) (a : BitVec 6) (s : State) : Host.Outcome State Fault Refusal :=
  runSlot s .k (.cbloadK cb a) (slotCbloadK cb a)

/-! ### Rings in the D slot (spec/16 R433-R435) -/

/-- RACQ and RPEEK of the D slot. -/
def slotRingTake (sw : Swap) (sc : Scope) (kd : BitVec 4) (ka : BitVec 6)
    (try_ : State → RingParty → Pieces → Except Stop (Option (Nat × State))) (v : TView) (s : State) : SlotRes :=
  match s.rcbLoc (v.ringParty s) (v.k s ka) with
  | .error st => st.slot
  | .ok l =>
    match try_ s (v.ringParty s) l with
    | .error st => st.slot
    | .ok none => .hold (.ring (locAt l 0))
    | .ok (some (x, t)) =>
      .next (((if scopeWide sc then t.l1Acquire v.b.core else t).swap v .d sw).putK v (kd.setWidth 6) (BitVec.ofNat 64 x))

/-- RCOMMIT and RREL of the D slot. -/
def slotRingMark (sw : Swap) (commit : Bool) (ks : BitVec 4) (ka : BitVec 6) (v : TView) (s : State) : SlotRes :=
  match s.rcbLoc (v.ringParty s) (v.k s ka) with
  | .error st => st.slot
  | .ok l =>
    match s.ringMark (v.ringParty s) commit l (v.k s (ks.setWidth 6)).toNat with
    | .error st => st.slot
    | .ok none => .hold .none
    | .ok (some t) => .next (t.swap v .d sw)

/-- RACQ of the D slot (spec/16 R433). -/
def slotRacqTile (sw : Swap) (sc : Scope) (kd : BitVec 4) (ka : BitVec 6) (v : TView) (s : State) : SlotRes :=
  slotRingTake sw sc kd ka State.ringAcq v s

/-- RACQ of the D slot (spec/16 R433). -/
def execRacqTile (sw : Swap) (sc : Scope) (kd : BitVec 4) (ka : BitVec 6) (s : State) : Host.Outcome State Fault Refusal :=
  runSlot s .d (.racqTile sw sc kd ka) (slotRacqTile sw sc kd ka)

/-- RPEEK of the D slot (spec/16 R433). -/
def slotRpeekTile (sw : Swap) (sc : Scope) (kd : BitVec 4) (ka : BitVec 6) (v : TView) (s : State) : SlotRes :=
  slotRingTake sw sc kd ka State.ringPeek v s

/-- RPEEK of the D slot (spec/16 R433). -/
def execRpeekTile (sw : Swap) (sc : Scope) (kd : BitVec 4) (ka : BitVec 6) (s : State) : Host.Outcome State Fault Refusal :=
  runSlot s .d (.rpeekTile sw sc kd ka) (slotRpeekTile sw sc kd ka)

/-- RCOMMIT of the D slot (spec/16 R433). -/
def slotRcommitTile (sw : Swap) (_sc : Scope) (ks : BitVec 4) (ka : BitVec 6) (v : TView) (s : State) : SlotRes :=
  slotRingMark sw true ks ka v s

/-- RCOMMIT of the D slot (spec/16 R433). -/
def execRcommitTile (sw : Swap) (sc : Scope) (ks : BitVec 4) (ka : BitVec 6) (s : State) : Host.Outcome State Fault Refusal :=
  runSlot s .d (.rcommitTile sw sc ks ka) (slotRcommitTile sw sc ks ka)

/-- RREL of the D slot (spec/16 R433). -/
def slotRrelTile (sw : Swap) (_sc : Scope) (ks : BitVec 4) (ka : BitVec 6) (v : TView) (s : State) : SlotRes :=
  slotRingMark sw false ks ka v s

/-- RREL of the D slot (spec/16 R433). -/
def execRrelTile (sw : Swap) (sc : Scope) (ks : BitVec 4) (ka : BitVec 6) (s : State) : Host.Outcome State Fault Refusal :=
  runSlot s .d (.rrelTile sw sc ks ka) (slotRrelTile sw sc ks ka)

/-! ### The B slot -/

/-- The program counter of the issuing tile context placed. -/
def State.tilePc (s : State) (v : TView) (pc : VAddr) : State := s.updFrame v.f.uid fun f => { f with pc }

/-- The next bundle in sequence. -/
def TView.nextPc (v : TView) : VAddr := v.f.pc + 32

/-- The test of a BT layout (spec/18 R482). -/
def TView.test (v : TView) (s : State) (t : TileTest) : Bool :=
  let n := t.reg.toNat
  (if 40 ≤ n ∧ n < 48 then bit v.r.f (n - 40) else bit (v.k s t.reg) t.bit.toNat) != t.neg

/-- The target of a BT layout; none outside the 57-bit space (spec/11 R308, R309). -/
def TView.target (v : TView) (t : TileTest) : Option VAddr :=
  let x : Int := v.f.pc.toNat + 32 + 32 * t.offset.toInt
  if x < 0 ∨ 2 ^ 57 ≤ x then none else some (BitVec.ofInt 57 x)

/-- TBR and TCALL. -/
def slotBranch (t : TileTest) (call : Bool) (v : TView) (s : State) : SlotRes :=
  if !v.test s t then .jump (s.tilePc v v.nextPc)
  else match v.target t with
    | none => .trap (mkTrap cProtection 1)
    | some a => .jump ((if call then s.putK v 31 (v.nextPc.setWidth 64) else s).tilePc v a)

/-- TBR (spec/18 R482). -/
def slotTbr (t : TileTest) (v : TView) (s : State) : SlotRes := slotBranch t false v s

/-- TBR (spec/18 R482). -/
def execTbr (t : TileTest) (s : State) : Host.Outcome State Fault Refusal := runSlot s .b (.tbr t) (slotTbr t)

/-- TCALL (spec/18 R482). -/
def slotTcall (t : TileTest) (v : TView) (s : State) : SlotRes := slotBranch t true v s

/-- TCALL (spec/18 R482). -/
def execTcall (t : TileTest) (s : State) : Host.Outcome State Fault Refusal := runSlot s .b (.tcall t) (slotTcall t)

/-- TRET (spec/18 R482, R483). -/
def slotTret (ka : BitVec 6) (v : TView) (s : State) : SlotRes :=
  let x := v.k s ka
  if bits x 63 57 ≠ 0 then .trap (mkTrap cProtection 1)
  else if bits x 4 0 ≠ 0 then .trap (mkTrap cMisaligned 0)
  else .jump (s.tilePc v (x.setWidth 57))

/-- TRET (spec/18 R482). -/
def execTret (ka : BitVec 6) (s : State) : Host.Outcome State Fault Refusal := runSlot s .b (.tret ka) (slotTret ka)

/-- GRET: the frame drains, and GRET_COMPLETION ends it (spec/04 R91, spec/14 R378). -/
def slotGret (v : TView) (s : State) : SlotRes :=
  .jump { (s.updFrame v.f.uid fun f => { f with status := 5, draining := true, sresume := 5, image := some v.r }) with
    running := s.running.filter fun r => r.2 != v.f.uid }

/-- GRET (spec/04 R91). -/
def execGret (s : State) : Host.Outcome State Fault Refusal := runSlot s .b .gret slotGret

/-- NEXTW: the pointer advances and the claim goes to the descriptor's home (spec/03 R77, R78, spec/16 R421). -/
def slotNextw (ka : BitVec 6) (v : TView) (s : State) : SlotRes :=
  let va := v.k s ka
  let w := s.whoTile v
  match s.check w .atomic va 32 32 with
  | .error st => st.slot
  | .ok l =>
    if s.poisoned l 32 then .trap (mkTrap cMemUncorrectable 0 va.toNat)
    else
      let u : OpUnit := { name := 0, loc := l, n := 32, party := .tile v.f.uid, kind := .nextw }
      let (id, t) := ((s.fillWho w va.toNat 32).l1Drop v.b.core l).pushOp (v.op s [u])
      .next (t.updFrame v.f.uid fun f =>
        { f with regs := { f.regs with rot := f.regs.rot + 1 },
                 nextws := f.nextws ++ [{ id, value := none, due := v.f.bundles + 11, target := v.r.rot.toNat }] })

/-- NEXTW (spec/16 R421). -/
def execNextw (ka : BitVec 6) (s : State) : Host.Outcome State Fault Refusal := runSlot s .b (.nextw ka) (slotNextw ka)

/-- TLWAIT of the B slot, once its operations have completed: the acquire, then the report of an error (spec/18 R496). -/
def slotTlwaitTile (k : TlKind) (ka : BitVec 6) (v : TView) (s : State) : SlotRes :=
  let n := (v.k s ka).toNat
  let t := if k = .coll then s.l1Acquire v.b.core else s
  match (v.f.errs.getD (kindIdx k) { entries := [], ovf := false }).report fun m => decide (m ≤ n) with
  | none => .next t
  | some (x, q) => .trapIn (t.updFrame v.f.uid fun f => { f with errs := putAt 3 { entries := [], ovf := false } f.errs (kindIdx k) q }) x

/-- TLWAIT of the B slot (spec/18 R496). -/
def execTlwaitTile (k : TlKind) (ka : BitVec 6) (s : State) : Host.Outcome State Fault Refusal :=
  runSlot s .b (.tlwaitTile k ka) (slotTlwaitTile k ka)

/-- TRAP of the B slot: raised at the next bundle in sequence (spec/18 R498). -/
def slotTrapTile (imm : BitVec 16) (v : TView) (s : State) : SlotRes :=
  .after (s.tilePc v v.nextPc) (mkTrap cUser imm.toNat)

/-- TRAP of the B slot (spec/18 R498). -/
def execTrapTile (imm : BitVec 16) (s : State) : Host.Outcome State Fault Refusal :=
  runSlot s .b (.trapTile imm) (slotTrapTile imm)

end Sys2Proof.Machine
end

