-- ==== Sys2Proof/Machine/Compute.lean ====
section
/-! DEFINITION. What tile operations compute from the parts they have read: moves, conversions, elementwise and row
operations, matrix steps, latch contents and drains (spec/05 R119-R140, spec/06 R148-R163, spec/14 R358, spec/15 R406, R409,
R411, spec/16 R454, spec/18 R487, R490, R492, R493). -/

namespace Sys2Proof.Machine

/-! ### Moves -/

/-- A V register as a place, whatever its binding's direction. -/
def Place.bare : Place → Place
  | .vreg b g l r _ => .vreg b g l r false
  | p => p

/-- The rows of a window, or those an index array names, as windows of one row. -/
def Side.row (d : Side) (r : Nat) : Side := { d with x := { d.x with row0 := d.x.row0 + r, rows := 1 } }

/-- The bits of an element in its place: place, first bit and width. -/
def OpEnv.bitsOf (e : OpEnv) (d : Side) (i j : Nat) : Place × Nat × Nat :=
  let (p, o) := e.place d i j
  (p.bare, o, d.t.w)

/-- Whether bit `k` of a destination's element lies in a byte that a source window has too (spec/14 R358, spec/18 R487). -/
def OpEnv.shares (e : OpEnv) (s : List Side) (d : Side) (i j k : Nat) : Bool :=
  s.any fun x => x.t.space == d.t.space &&
    (if d.t.space = 1 then
       let (p, o, _) := e.bitsOf d i j
       x.x.cells.any fun c =>
         let (q, u, z) := e.bitsOf x c.1 c.2
         q == p && decide (u / 8 ≤ (o + k) / 8) && decide ((o + k) / 8 ≤ (u + z - 1) / 8)
     else
       let a := (d.bitAt i j + k) / 8
       (x.runs .none).any fun r => decide (r.1 ≤ a) && decide (a < r.1 + r.2))

/-- A free code, where the spec leaves an element's bits undefined (spec/00 R7; log 6). -/
def freeCode (seed i j : Nat) : Nat := (Config.freeWord seed (2 ^ 32 + i * 2 ^ 16 + j)).toNat

/-- The bits of a destination that lie in bytes of a source are free (spec/14 R358, spec/18 R487); the other bits stay as written. -/
def OpEnv.freeShared (e : OpEnv) (seed : Nat) (s : List Side) (d : Side) (ws : List Wr) : List Wr :=
  if s.isEmpty then ws
  else d.x.cells.foldl (fun ws c =>
    let (p, o) := e.place d c.1 c.2
    ((List.range d.t.w).filter (e.shares s d c.1 c.2)).foldl (fun ws k =>
      putBits ws p p.size (o + k) 1 (freeCode seed c.1 c.2 / 2 ^ k)) ws) ws

/-- Codes moved bit for bit into a window; `src` gives each code. Bytes that the window shares with the source are free. -/
def OpEnv.moves (e : OpEnv) (seed : Nat) (s : List Side) (d : Side) (src : Nat → Nat → Nat) (ws : List Wr) : List Wr :=
  e.freeShared seed s d (d.x.cells.foldl (fun ws c => e.putCode d ws c.1 c.2 (src c.1 c.2)) ws)

/-! ### Conversions -/

/-- Conversion into a format under the chains of spec/05 R127. From an integer to an integer it saturates (spec/06 R170; an
integer under a scale is cut toward zero first, log 15). -/
def convElem (fromInt viaF32 viaBf16 : Bool) (o : EncOpt) (books : List W256) (d : EF) (v : FV) : Nat × FlagSet :=
  match d with
  | .int signed w => if fromInt && !v.isNan then v.toInt signed w else toIntF .rz signed w v
  | d => d.chain viaF32 viaBf16 o books v

/-- Values converted into a window, with a scale for each block of 32 columns of a row where it has scales (spec/05 R130,
spec/06 R150). -/
def OpEnv.encodeTile (e : OpEnv) (seed : Nat) (d : Side) (conv : EF → FV → Nat × FlagSet) (val : Nat → Nat → FV) : List Wr × FlagSet :=
  match efOf d.t.ef with
  | none => ([], 0)
  | some ef =>
    let put (i : Nat) (sc : Option Nat) (acc : List Wr × FlagSet) (p : Nat × FV) : List Wr × FlagSet :=
      let (c, fl) := match sc with
        | some 255 =>
          let (c, fl) := conv ef (if p.2.isNan then p.2 else .nan false)
          (c, if p.2.isNan then fl else 0)
        | some s => conv ef (p.2.unscale s)
        | none => conv ef p.2
      (e.putCode d acc.1 i p.1 c, acc.2 ||| fl)
    (List.range d.x.rows).foldl (fun acc i =>
      let row := (List.range d.x.cols).map fun j => (j, val i j)
      if d.t.scaled then
        let blk (j : Nat) : Nat := (d.x.col0 + j) / 32
        ((row.map fun p => blk p.1).eraseDups).foldl (fun acc k =>
          let vs := row.filter fun p => blk p.1 == k
          let sc := genScale (Config.freeByte seed (i * 2 ^ 16 + k)).toNat ef (vs.map (·.2))
          vs.foldl (put i (some sc)) (e.putByte acc.1 d.t.space (d.scaleA i k) sc, acc.2)) acc
      else row.foldl (put i none) acc) ([], 0)

/-- Conversions that ignore FMT.RM and FMT.FTZ (spec/05 R123). -/
def plainOpt (fmt : W32) (wideSat : Bool) : EncOpt := { sat := fmtSAT fmt, wideSat }

/-! ### Elementwise operations (spec/18 R492) -/

/-- The value of an element, flushed under FTZ before its scale applies (spec/05 R123). -/
def OpEnv.flushed (e : OpEnv) (g : List Got) (ftz : Bool) (d : Side) (i j : Nat) : FV :=
  let c := e.code g d i j
  let v := match efOf d.t.ef with | some f => f.flush ftz c (f.decode d.t.xv e.books c) | none => FV.zero
  if d.t.scaled then v.scale (e.scale g d i j) else v

/-- A two-operand TEW operation on exact values. -/
def tewBin (op : TewBin) (mode : RMode) (x y : FV) : FV × FlagSet :=
  let pick (b : Bool) : FV × FlagSet :=
    (if x.isNan && y.isNan then .nan false else if x.isNan then y else if y.isNan then x else if b then y else x,
     x.sigFlag ||| y.sigFlag)
  match op with
  | .add => x.add mode y
  | .sub => x.add mode y.neg
  | .mul => x.mul y
  | .max => pick (x.ltz y)
  | .min => pick (y.ltz x)

/-- Whether a format is one of the 16- and 32-bit floats. -/
def EF.isWide : EF → Bool
  | .flt f => f.wide
  | _ => false

/-- TEW's rounding into its destination format; `wideSat` for the conversion of a scaled element (spec/05 R129). -/
def tewOpt (fmt : W32) (d : EF) (wideSat : Bool) : EncOpt :=
  if d.isWide then { mode := fmtRM fmt, ftz := fmtFTZ fmt, sat := fmtSAT fmt, wideSat } else { sat := fmtSAT fmt, wideSat }

/-- Whether a form of TEW only converts its element. -/
def tewUnary : TewForm → Bool
  | .abs | .neg | .copy => true
  | _ => false

/-- Codes put into a window, each with its flags. -/
def OpEnv.putAll (e : OpEnv) (d : Side) (f : Nat → Nat → Nat × FlagSet) : List Wr × FlagSet :=
  d.x.cells.foldl (fun acc c =>
    let (x, fl) := f c.1 c.2
    (e.putCode d acc.1 c.1 c.2 x, acc.2 ||| fl)) ([], 0)

/-- TEW. `k` is the broadcast binary32 of the scalar form. -/
def OpEnv.tew (e : OpEnv) (g : List Got) (d a : Side) (b : Option Side) (form : TewForm) (k : W32) : List Wr × FlagSet :=
  match efOf d.t.ef with
  | none => ([], 0)
  | some ef =>
    let ftz := ef.isWide && fmtFTZ e.img.fmt
    let o := tewOpt e.img.fmt ef (tewUnary form && a.t.scaled)
    let kv := (f32v k).flush ftz .f32
    e.putAll d fun i j =>
      let x := e.flushed g ftz a i j
      let y := match b with | some s => e.flushed g ftz s i j | none => kv
      let (r, f1) := match form with
        | .tile op _ => tewBin op o.mode x y
        | .scalar op _ => tewBin op o.mode x y
        | .abs => (x.abs, 0)
        | .neg => (x.neg, 0)
        | .copy => (x, 0)
      let (c, f2) := ef.encode o e.books r
      (c, f1 ||| f2)

/-- An element as a binary32 (spec/05 R129, R135), with the flags of a scaled one that does not fit. -/
def OpEnv.val32 (e : OpEnv) (g : List Got) (d : Side) (i j : Nat) : W32 × FlagSet :=
  let (c, fl) := FF.f32.encode { wideSat := d.t.scaled } (e.val g d i j)
  (BitVec.ofNat 32 c, fl)

/-- An element's binary32 for a function or a row operation that reports a signalling NaN itself: its pattern when it is
one. -/
def OpEnv.raw32 (e : OpEnv) (g : List Got) (d : Side) (i j : Nat) : W32 :=
  match e.val g d i j with
  | .nan true => 0x7F800001#32
  | _ => (e.val32 g d i j).1

/-- TEU (spec/18 R492, spec/05 R135). -/
def OpEnv.teu (e : OpEnv) (g : List Got) (d a : Side) (fn : Fn) : List Wr × FlagSet :=
  match efOf d.t.ef with
  | none => ([], 0)
  | some ef =>
    e.putAll d fun i j =>
      let (r, f1) := sfnEval fn (e.raw32 g a i j)
      let (c, f2) := ef.encode (plainOpt e.img.fmt false) e.books (f32v r)
      (c, f1 ||| f2)

/-! ### Row operations (spec/16 R454) -/

/-- A binary32 put into an element. -/
def OpEnv.put32 (e : OpEnv) (d : Side) (ws : List Wr) (i j : Nat) (x : W32) : List Wr := e.putCode d ws i j x.toNat

/-- The flags of converting an element to binary32; a NaN's own are those of the operation that reads it. -/
def OpEnv.flags32 (e : OpEnv) (g : List Got) (a : Side) (i j : Nat) : FlagSet := if (e.val g a i j).isNan then 0 else (e.val32 g a i j).2

/-- The elements of a row as binary32 values. -/
def OpEnv.row32 (e : OpEnv) (g : List Got) (a : Side) (i : Nat) : List W32 × FlagSet :=
  ((List.range a.x.cols).map (e.raw32 g a i),
   (List.range a.x.cols).foldl (fun fl j => fl ||| e.flags32 g a i j) 0)

/-- ROWRED. -/
def OpEnv.rowred (e : OpEnv) (g : List Got) (d a : Side) (op : RowOp) : List Wr × FlagSet :=
  (List.range a.x.rows).foldl (fun acc i =>
    let (xs, f0) := e.row32 g a i
    let (r, f1) := rowReduce op xs
    (e.put32 d acc.1 i 0 r, acc.2 ||| f0 ||| f1)) ([], 0)

/-- ROWSTAT. -/
def OpEnv.rowstat (e : OpEnv) (g : List Got) (d a : Side) : List Wr × FlagSet :=
  (List.range a.x.rows).foldl (fun acc i =>
    let (xs, f0) := e.row32 g a i
    let (m, v, f1) := rowStat xs
    (e.put32 d (e.put32 d acc.1 i 0 m) i 1 v, acc.2 ||| f0 ||| f1)) ([], 0)

/-- ROWSCALE. -/
def OpEnv.rowscale (e : OpEnv) (g : List Got) (z m l : Side) : List Wr × FlagSet :=
  (List.range z.x.rows).foldl (fun acc i =>
    let (f, f0) := rowFactor (e.raw32 g m i 0) (e.raw32 g m i 1)
    let step (s : Side) (acc : List Wr × FlagSet) (j : Nat) : List Wr × FlagSet :=
      let (r, fl) := mul32 (e.raw32 g s i j) f
      (e.put32 s acc.1 i j r, acc.2 ||| fl ||| e.flags32 g s i j)
    step l ((List.range z.x.cols).foldl (step z) (acc.1, acc.2 ||| f0 ||| e.flags32 g m i 0 ||| e.flags32 g m i 1)) 0) ([], 0)

/-! ### Matrix steps (spec/05 R131-R133, spec/06 R148-R160) -/

/-- k of a dense step by element width. -/
def stepK (w : Nat) : Nat := if w = 16 then 32 else if w = 8 then 64 else 128

/-- Places of a latch: its codes, scales and, when sparse, metadata. -/
def latchParts (core idx n : Nat) : List Place :=
  (List.range (288 + 8 * n)).map fun k => .latch core idx (16 * k)

/-- A byte of a latch among the parts read. -/
def latchGot (g : List Got) (core idx off : Nat) : Nat := gotBits g (.latch core idx (off / 16 * 16)) (8 * (off % 16)) 8

/-- A code of a latch among the parts read: element number and width. -/
def latchCode (g : List Got) (core idx k w : Nat) : Nat :=
  gotBits g (.latch core idx (k * w / 128 * 16)) (k * w % 128) w

/-- The B operand of a step, by column: for each kept element its position along k and its value. -/
def latchColumn (g : List Got) (l : Latch) (books : List W256) (c : Nat) : List (Nat × FV) :=
  match efOf l.efmt with
  | none => []
  | some f =>
    let w := f.width
    let val (row t : Nat) : FV :=
      let s := latchGot g l.core l.idx (4096 + ((l.row0 + t) / 32 - l.row0 / 32) * 64 + c)
      (f.decode l.xv books (latchCode g l.core l.idx (row * 64 + c) w)).scale s
    if l.n = 0 then (List.range (stepK w)).map fun t => (t, val t t)
    else (List.range (2 * l.n)).map fun q =>
      let t := 128 * (q / l.n) + latchGot g l.core l.idx (4608 + (q / l.n * 64 + c) * l.n + q % l.n) % 128
      (t, val q t)

/-- The groups of 16 terms of one element; a position that nothing names contributes +0 (spec/05 R133). -/
def stepGroups (row : List FV) (col : List (Nat × FV)) : List (List (FV × FlagSet)) :=
  (List.range (row.length / 16)).map fun g =>
    let named := col.filter fun p => p.1 / 16 == g
    let terms := named.map fun p => mmaTerm (row.getD p.1 FV.zero) p.2
    if (List.range 16).all fun t => named.any fun p => p.1 == 16 * g + t then terms else (FV.zero, 0) :: terms

/-- One matrix step: the Z tile, row by row, and its flags. -/
def OpEnv.matrixStep (e : OpEnv) (g : List Got) (a : Side) (l : Latch) (z : List W32) : List W32 × FlagSet :=
  let cols := (List.range 64).map (latchColumn g l e.books)
  let rows := (List.range 64).map fun i => (List.range a.x.cols).map (e.val g a i)
  let cells := rows.mapIdx fun i r => cols.mapIdx fun c col => mmaAccum (z.getD (64 * i + c) 0) (stepGroups r col)
  (cells.flatten.map (·.1), cells.flatten.foldl (fun f x => f ||| x.2) 0)

/-- The Z tile among the parts read. -/
def OpEnv.zTile (e : OpEnv) (g : List Got) (z : Side) : List W32 := z.x.cells.map fun c => BitVec.ofNat 32 (e.code g z c.1 c.2)

/-- The Z tile as writes. -/
def OpEnv.putZ (e : OpEnv) (z : Side) (xs : List W32) : List Wr :=
  z.x.cells.foldl (fun ws c => e.put32 z ws c.1 c.2 (xs.getD (64 * c.1 + c.2) 0)) []

/-- The latch that a B window fills, without its bytes: dense row 0 of the window. -/
def latchOf (core idx owner : Nat) (b : Side) : Latch :=
  { core, idx, owner, valid := true, efmt := b.t.ef, xv := b.t.xv, n := b.t.sparse, row0 := b.denseRows.1, bytes := [] }

/-- The bytes that a B window gives a latch: codes, scales of the tensor blocks it touches, metadata (spec/15 R409). -/
def OpEnv.latchBytes (e : OpEnv) (g : List Got) (b : Side) : List (Nat × Byte) :=
  let w := b.t.w
  let byte (k : Nat) : Nat :=
    if w = 4 then e.code g b (2 * k / 64) (2 * k % 64) + 16 * e.code g b ((2 * k + 1) / 64) ((2 * k + 1) % 64)
    else if w = 8 then e.code g b (k / 64) (k % 64)
    else bits (BitVec.ofNat 16 (e.code g b (k / 2 / 64) (k / 2 % 64))) (8 * (k % 2) + 7) (8 * (k % 2))
  let (r0, n) := b.denseRows
  let codes := (List.range (b.x.rows * 8 * w)).map fun k => (k, byte k)
  let scales := (List.range (((r0 + n - 1) / 32 - r0 / 32 + 1) * 64)).map fun k =>
    (4096 + k, if b.t.scaled then e.byte g b.t.space (b.scaleB (r0 / 32 + k / 64) (k % 64)) else 127)
  let metas := (List.range (128 * b.t.sparse)).map fun k => (4608 + k, e.byte g b.t.space (b.t.mbase + k))
  (codes ++ scales ++ metas).map fun p => (p.1, BitVec.ofNat 8 p.2)

/-- The bytes as part writes. -/
def latchWrites (core idx : Nat) : List (Nat × Byte) → List Wr
  | bs => bs.foldl (fun ws p => putBits ws (.latch core idx (p.1 / 16 * 16)) 16 (8 * (p.1 % 16)) 8 p.2.toNat) []

/-! ### Drains (spec/06 R161, R162) -/

/-- The exact location of a byte of shared or global memory. -/
def OpEnv.locOf (e : OpEnv) (space a : Nat) : Loc :=
  match e.part space a with
  | .mem l => l.plus (a % 16)
  | _ => .shared e.blk a

/-- Binary32 values cut at the granules of a global destination. -/
def cutRuns (a : Nat) : List W32 → List (Nat × List W32)
  | [] => []
  | x :: xs =>
    match cutRuns (a + 4) xs with
    | (b, ys) :: rest => if a / 256 = b / 256 then (a, x :: ys) :: rest else (a, [x]) :: (b, ys) :: rest
    | [] => [(a, [x])]

/-- The add-on-stores of a drain: one per register of a V-tile, one per row of shared memory, one per run of a granule. -/
def OpEnv.addWrites (e : OpEnv) (d : Side) (z : Nat → Nat → W32) : List Wr :=
  if d.t.space = 1 then
    d.x.cells.map fun c => { place := (e.vplace d c.1 c.2).1, n := 4, data := 0, mask := 0, add := [z c.1 c.2] }
  else (List.range d.x.rows).flatMap fun i =>
    let a := d.bitAt i 0 / 8
    let row := (List.range d.x.cols).map (z i)
    let runs := if d.t.space = 5 then [(a, row)] else cutRuns a row
    runs.map fun r => { place := .mem (e.locOf d.t.space r.1), n := 4 * r.2.length, data := 0, mask := 0, add := r.2 }

/-- A drain's writes and its flags; an add-on-store's flags arise when it is performed. -/
def OpEnv.drain (e : OpEnv) (seed : Nat) (g : List Got) (d z : Side) (mode : DrainMode) : List Wr × FlagSet :=
  let val (i j : Nat) : W32 := BitVec.ofNat 32 (e.code g z i j)
  match mode with
  | .plain => (e.moves seed [] d (fun i j => (val i j).toNat) [], 0)
  | .cvt => e.encodeTile seed d (fun ef v => convElem false false true (plainOpt e.img.fmt false) e.books ef v) fun i j => f32v (val i j)
  | .add => (e.addWrites d val, 0)

end Sys2Proof.Machine
end

