-- ==== Sys2Proof/Machine/Engines.lean ====
section
/-! DEFINITION. The D, C, V and M slots: checks, capture and issue of each engine operation (spec/04 R99-R106, spec/06
R143-R163, spec/13 R345-R347, spec/14 R357-R359, spec/15 R405-R413, R419, spec/16 R452-R455, spec/18 R485-R493). -/

namespace Sys2Proof.Machine

/-! ### Checks -/

/-- A tile of an operation: its window, the spaces its form admits, whether it is written, and the use of its scales. -/
structure Opnd where
  d : Side
  spaces : List Nat
  write : Bool
  use : ScaleUse

/-- SHAPE_INVALID of a Z tile whose EFMT is not binary32, where the form's entry says so. -/
def Side.zFormat (d : Side) : Except Stop Unit := shapeIf (d.t.space == 4 && d.t.ef != 1)

/-- The checks that a slot makes of its tiles, in the order of its entry: spaces, shapes with the form's own condition, then
BOUNDS and MISALIGNED operand by operand, in the order of `xs` (DESIGN CHOICE; log 20). `z32` says that a Z tile has EFMT 0x01, which ROWRED, ROWSTAT and ROWSCALE do not ask
(spec/16 R453). -/
def TView.tilesOk (v : TView) (xs : List Opnd) (bad : Bool) (tinfo5 : Nat := 0x20) (z32 : Bool := true) : Except Stop Unit := do
  xs.forM fun x => x.d.access x.spaces x.write
  xs.forM fun x => x.d.shape
  if z32 then xs.forM fun x => x.d.zFormat
  shapeIf bad
  xs.forM fun x => x.d.fits v x.use tinfo5

/-- Whether two windows have equal rows and columns. -/
def sameWin (a b : Side) : Bool := a.x.rows == b.x.rows && a.x.cols == b.x.cols

/-- Whether an element code is a floating format or a codebook. -/
def floatEf (c : BitVec 6) : Bool := match efOf c with | some (.int _ _) => false | some _ => true | none => false

/-! ### Fixed-latency operations -/

/-- Bytes per cycle of a space's port (spec/04 R101). -/
def portOf (space : Nat) : Nat := if space = 4 then 1024 else if space = 1 then 512 else if space = 5 then 128 else 256

/-- Bytes of a window. -/
def Side.bytesMoved (d : Side) : Nat := ceilDiv (d.x.rows * d.x.cols * d.t.w) 8

/-- Cycle R of a D-slot read, and cycle W of a D-slot write. -/
def dTiming (a d : Side) : Nat × Nat :=
  (2 + ceilDiv a.bytesMoved (portOf a.t.space),
   (if d.t.space = 5 ∨ d.t.space = 1 then 6 else 4) + ceilDiv d.bytesMoved (portOf d.t.space))

/-- The latch that a matrix step reads, as it stands. -/
def State.latchD (s : State) (core idx : Nat) : Latch :=
  (s.latch? core idx).getD { core, idx, owner := 0, valid := false, efmt := 0, xv := 0, n := 0, row0 := 0, bytes := [] }

/-- The writes and flags of an operation whose sources have been read. `idx` of its capture holds the scalar that TFILL and
TEW read at issue. -/
def State.fixedWrites (s : State) (i : Instr) (e : OpEnv) (g : List Got) : List Wr × FlagSet :=
  let seed := 2 * s.ctr + 1
  let k := e.idx.headD 0
  match i with
  | .dmov _ td ta =>
    let a := e.img.side .d ta
    (e.moves seed [a] (e.img.side .d td) (e.code g a) [], 0)
  | .tfill _ td _ => (e.moves seed [] (e.img.side .d td) (fun _ _ => k) [], 0)
  | .tew _ td ta form =>
    let b := match form with | .tile _ tb => some (e.img.side .v tb) | _ => none
    e.tew g (e.img.side .v td) (e.img.side .v ta) b form (BitVec.ofNat 32 k)
  | .teu _ td ta fn => e.teu g (e.img.side .v td) (e.img.side .v ta) fn
  | .tcvt _ td ta =>
    let a := e.img.side .v ta
    e.encodeTile seed (e.img.side .v td)
      (fun ef v => convElem false false (a.t.ef == 1) (plainOpt e.img.fmt a.t.scaled) e.books ef v) (e.val g a)
  | .trans _ td ta => (e.moves seed [] (e.img.side .v td) (fun i j => e.code g (e.img.side .v ta) j i) [], 0)
  | .rowred _ td ta op => e.rowred g (e.img.side .v td) (e.img.side .v ta).zAsF32 op
  | .rowstat _ td ta => e.rowstat g (e.img.side .v td) (e.img.side .v ta).zAsF32
  | .rowscale _ tz tm tl => e.rowscale g (e.img.side .v tz).zAsF32 (e.img.side .v tm) (e.img.side .v tl)
  | .mma _ tz ta l =>
    let z := e.img.side .m tz
    let (zs, fl) := e.matrixStep g (e.img.side .m ta) (s.latchD e.core l.toNat) (e.zTile g z)
    (e.putZ z zs, fl)
  | .mzero _ tz => (e.moves seed [] (e.img.side .m tz) (fun _ _ => 0) [], 0)
  | .mlatch _ l tb => (latchWrites e.core l.toNat (e.latchBytes g (e.img.side .m tb)), 0)
  | _ => ([], 0)

/-- The reads of a fixed-latency operation are over: its writes stand, and its flags are set. -/
def State.fixedReady (s : State) (x : Fixed) : State :=
  let (ws, fl) := s.fixedWrites x.instr x.env x.got
  (s.updFrame x.env.frame fun f =>
    { f with fixed := f.fixed.map fun y => if y.id = x.id then { x with computed := true, writes := ws } else y }).orTileFlags x.env.frame fl

/-- The parts of shared memory that a fixed-latency operation writes: those of the D slot may. -/
def sharedDests (i : Instr) (e : OpEnv) : List Place :=
  let of (td : BitVec 5) : List Place := if (e.img.side .d td).t.space = 5 then e.parts (e.img.side .d td) .none else []
  match i with
  | .dmov _ td _ => of td
  | .tfill _ td _ => of td
  | _ => []

/-- A fixed-latency operation issues: it reads by cycle `r` and is visible from cycle `w`; seal entries count its reads. -/
def State.pushFixed (s : State) (i : Instr) (e : OpEnv) (r w : Nat) (srcs : List Place) (seals : List Nat := []) : State :=
  let t := s.time.toNat
  let x : Fixed := { id := s.uid, instr := i, env := e, rDue := t + r, wDue := t + w, srcs := srcs.eraseDups, got := [],
                     computed := false, writes := [], seen := [], dsts := sharedDests i e, seals }
  let u := { ((s.updFrame e.frame fun f => { f with fixed := f.fixed ++ [x] }).recount e.ctx seals) with uid := s.uid + 1 }
  if srcs.isEmpty then u.fixedReady x else u

/-- A slot whose checks pass issues a fixed-latency operation after its swap. -/
def State.issueFixed (s : State) (v : TView) (eng : Eng) (sw : Swap) (i : Instr) (e : OpEnv) (t : Nat × Nat)
    (srcs : List Place) (ok : Except Stop Unit) : SlotRes :=
  match ok with
  | .error st => st.slot
  | .ok _ => .next ((s.swap v eng sw).pushFixed i e t.1 t.2 srcs)

/-! ### The D slot -/

/-- DMOV (spec/14 R357-R359). -/
def slotDmov (sw : Swap) (td ta : BitVec 5) (v : TView) (s : State) : SlotRes :=
  let img := v.r.swapped .d sw
  let a := img.side .d ta
  let d := img.side .d td
  let e := v.env img [] []
  s.issueFixed v .d sw (.dmov sw td ta) e (dTiming a d) (e.parts a .none)
    (v.tilesOk [⟨a, [1, 2, 3, 4, 5], false, .none⟩, ⟨d, [1, 2, 3, 4, 5], true, .none⟩] (!sameWin a d || a.t.ef != d.t.ef) 5)

/-- DMOV (spec/14 R358). -/
def execDmov (sw : Swap) (td ta : BitVec 5) (s : State) : Host.Outcome State Fault Refusal :=
  runSlot s .d (.dmov sw td ta) (slotDmov sw td ta)

/-- TFILL (spec/18 R493). -/
def slotTfill (sw : Swap) (td : BitVec 5) (ka : BitVec 6) (v : TView) (s : State) : SlotRes :=
  let img := v.r.swapped .d sw
  let d := img.side .d td
  s.issueFixed v .d sw (.tfill sw td ka) (v.env img [] [(v.k s ka).toNat]) (dTiming d d) []
    (v.tilesOk [⟨d, [1, 2, 3, 4, 5], true, .none⟩] false)

/-- TFILL (spec/18 R493). -/
def execTfill (sw : Swap) (td : BitVec 5) (ka : BitVec 6) (s : State) : Host.Outcome State Fault Refusal :=
  runSlot s .d (.tfill sw td ka) (slotTfill sw td ka)

/-! ### The V slot -/

/-- Cycles R and W of a V-slot operation of `n` elements at `p` a cycle (spec/04 R101). -/
def vTiming (n p w : Nat) : Nat × Nat := (2 + ceilDiv n p, w + ceilDiv n p)

/-- Elements of a window. -/
def Side.count (d : Side) : Nat := d.x.rows * d.x.cols

/-- Spaces of the V slot's tiles. -/
def vSpaces : List Nat := [1, 3, 4]

/-- TEW (spec/18 R491, R492). -/
def slotTew (sw : Swap) (td ta : BitVec 5) (form : TewForm) (v : TView) (s : State) : SlotRes :=
  let img := v.r.swapped .v sw
  let a := img.side .v ta
  let d := img.side .v td
  let b := match form with | .tile _ tb => [img.side .v tb] | _ => []
  let k := match form with | .scalar _ kb => [(v.k s kb).toNat % 2 ^ 32] | _ => []
  let e := v.env img [] k
  let all := d :: a :: b
  s.issueFixed v .v sw (.tew sw td ta form) e (vTiming a.count 64 8) ((a :: b).flatMap fun x => e.parts x .a)
    (v.tilesOk ((a :: b).map (fun x => ⟨x, vSpaces, false, .a⟩) ++ [⟨d, vSpaces, true, .none⟩])
      (all.any fun x => !sameWin x a || !floatEf x.t.ef))

/-- TEW (spec/18 R492). -/
def execTew (sw : Swap) (td ta : BitVec 5) (form : TewForm) (s : State) : Host.Outcome State Fault Refusal :=
  runSlot s .v (.tew sw td ta form) (slotTew sw td ta form)

/-- TEU (spec/18 R491, R492). -/
def slotTeu (sw : Swap) (td ta : BitVec 5) (f : Fn) (v : TView) (s : State) : SlotRes :=
  let img := v.r.swapped .v sw
  let a := img.side .v ta
  let d := img.side .v td
  let e := v.env img [] []
  s.issueFixed v .v sw (.teu sw td ta f) e (vTiming a.count 16 12) (e.parts a .a)
    (v.tilesOk [⟨a, vSpaces, false, .a⟩, ⟨d, vSpaces, true, .none⟩] (!sameWin a d || !floatEf a.t.ef || !floatEf d.t.ef))

/-- TEU (spec/18 R492). -/
def execTeu (sw : Swap) (td ta : BitVec 5) (f : Fn) (s : State) : Host.Outcome State Fault Refusal :=
  runSlot s .v (.teu sw td ta f) (slotTeu sw td ta f)

/-- TCVT (spec/18 R489, R490). -/
def slotTcvt (sw : Swap) (td ta : BitVec 5) (v : TView) (s : State) : SlotRes :=
  let img := v.r.swapped .v sw
  let a := img.side .v ta
  let d := img.side .v td
  let e := v.env img [] []
  s.issueFixed v .v sw (.tcvt sw td ta) e (vTiming a.count 64 8) (e.parts a .a)
    (v.tilesOk [⟨a, vSpaces, false, .a⟩, ⟨d, vSpaces, true, .a⟩] (!sameWin a d || !floatEf a.t.ef || !floatEf d.t.ef))

/-- TCVT (spec/18 R490). -/
def execTcvt (sw : Swap) (td ta : BitVec 5) (s : State) : Host.Outcome State Fault Refusal :=
  runSlot s .v (.tcvt sw td ta) (slotTcvt sw td ta)

/-- TRANS (spec/18 R489, R490). -/
def slotTrans (sw : Swap) (td ta : BitVec 5) (v : TView) (s : State) : SlotRes :=
  let img := v.r.swapped .v sw
  let a := img.side .v ta
  let d := img.side .v td
  let e := v.env img [] []
  s.issueFixed v .v sw (.trans sw td ta) e (vTiming a.count 64 8) (e.parts a .none)
    (v.tilesOk [⟨a, vSpaces, false, .none⟩, ⟨d, vSpaces, true, .none⟩]
      (a.x.rows != d.x.cols || a.x.cols != d.x.rows || a.t.ef != d.t.ef))

/-- TRANS (spec/18 R490). -/
def execTrans (sw : Swap) (td ta : BitVec 5) (s : State) : Host.Outcome State Fault Refusal :=
  runSlot s .v (.trans sw td ta) (slotTrans sw td ta)

/-- ROWRED and ROWSTAT: `n` columns of results. -/
def slotRows (i : Instr) (sw : Swap) (td ta : BitVec 5) (n : Nat) (v : TView) (s : State) : SlotRes :=
  let img := v.r.swapped .v sw
  let a := (img.side .v ta).zAsF32
  let d := img.side .v td
  let e := v.env img [] []
  s.issueFixed v .v sw i e (vTiming a.count 64 8) (e.parts a .a)
    (v.tilesOk [⟨a, vSpaces, false, .a⟩, ⟨d, vSpaces, true, .none⟩]
      (!floatEf (img.side .v ta).t.ef || d.t.ef != 1 || d.x.rows != a.x.rows || d.x.cols != n) 0x20 false)

/-- ROWRED (spec/16 R452-R455). -/
def slotRowred (sw : Swap) (td ta : BitVec 5) (op : RowOp) (v : TView) (s : State) : SlotRes := slotRows (.rowred sw td ta op) sw td ta 1 v s

/-- ROWRED (spec/16 R454). -/
def execRowred (sw : Swap) (td ta : BitVec 5) (op : RowOp) (s : State) : Host.Outcome State Fault Refusal :=
  runSlot s .v (.rowred sw td ta op) (slotRowred sw td ta op)

/-- ROWSTAT (spec/16 R452-R455). -/
def slotRowstat (sw : Swap) (td ta : BitVec 5) (v : TView) (s : State) : SlotRes := slotRows (.rowstat sw td ta) sw td ta 2 v s

/-- ROWSTAT (spec/16 R454). -/
def execRowstat (sw : Swap) (td ta : BitVec 5) (s : State) : Host.Outcome State Fault Refusal :=
  runSlot s .v (.rowstat sw td ta) (slotRowstat sw td ta)

/-- ROWSCALE (spec/16 R452-R455). -/
def slotRowscale (sw : Swap) (tz tm tl : BitVec 5) (v : TView) (s : State) : SlotRes :=
  let img := v.r.swapped .v sw
  let z := (img.side .v tz).zAsF32
  let m := img.side .v tm
  let l := img.side .v tl
  let e := v.env img [] []
  s.issueFixed v .v sw (.rowscale sw tz tm tl) e (vTiming z.count 64 8) ([z, m, l].flatMap fun x => e.parts x .a)
    (v.tilesOk [⟨m, vSpaces, false, .a⟩, ⟨z, [4], true, .none⟩, ⟨l, vSpaces, true, .a⟩]
      (m.t.ef != 1 || l.t.ef != 1 || m.x.rows != z.x.rows || m.x.cols != 2 || l.x.rows != z.x.rows || l.x.cols != 1) 0x20 false)

/-- ROWSCALE (spec/16 R454). -/
def execRowscale (sw : Swap) (tz tm tl : BitVec 5) (s : State) : Host.Outcome State Fault Refusal :=
  runSlot s .v (.rowscale sw tz tm tl) (slotRowscale sw tz tm tl)

/-! ### Asynchronous operations -/

/-- The seal entries that reads of global runs count on (spec/07 R199). -/
def State.sealsFor (s : State) (ctx : Nat) (rs : List (Nat × Nat)) : List Nat :=
  (rs.flatMap fun r => (s.ctx ctx).sealsOf r.1 r.2).eraseDups

/-- The TLB fills of global runs. -/
def State.fillRuns (s : State) (w : Who) (rs : List (Nat × Nat)) : State := rs.foldl (fun t r => t.fillWho w r.1 r.2) s

/-- Runs of windows that lie in global memory. -/
def globalRuns (xs : List (Side × ScaleUse)) : List (Nat × Nat) := xs.flatMap fun x => if x.1.t.space = 6 then x.1.runs x.2 else []

/-- An operation takes the next number on its timeline and enters its engine's queue (spec/04 R104); `cut` marks a collective whose group
is not there (spec/09 R260). -/
def State.pushAsync (s : State) (v : TView) (k : TlKind) (w : AWork) (srcs : List Place) (seals : List Nat)
    (cut : Bool := false) (wruns : List (Nat × Nat) := []) : State :=
  let n := v.f.issued k + 1
  let o : AOp := { id := s.uid, lead := v.since, ctx := v.b.ctx, blk := v.b.uid, core := v.b.core, owner := .tile v.f.uid, kind := k, number := n,
                   batch := none, grid := v.b.grid, work := w, started := false, srcs := srcs.eraseDups, got := [], ahead := [], writes := [],
                   parts := [], err := none, seals, wruns, since := s.time.toNat, cut }
  let t := s.updFrame v.f.uid fun f => { f with issuedOps := putAt 3 0 f.issuedOps (kindIdx k) n }
  { (t.recount v.b.ctx seals) with aops := t.aops ++ [o], uid := t.uid + 1 }

/-- The windows of a copy by rows: sources and destinations (spec/18 R487). -/
def copyRows (i : Instr) (e : OpEnv) : List Side × List Side :=
  match i with
  | .tcopy _ td ta _ _ =>
    let a := e.img.side .c ta
    let d := e.img.side .c td
    ((List.range a.x.rows).map a.row, (List.range d.x.rows).map d.row)
  | .tgath _ td ta _ _ =>
    let d := e.img.side .c td
    (e.idx.map (e.img.side .c ta).row, (List.range d.x.rows).map d.row)
  | .tscat _ td ta _ =>
    let a := e.img.side .c ta
    ((List.range a.x.rows).map a.row, e.idx.map (e.img.side .c td).row)
  | _ => ([], [])

/-- Whether a copy converts. -/
def copyCvt : Instr → Bool
  | .tcopy _ _ _ c _ => c
  | .tgath _ _ _ _ c => c
  | _ => false

/-- What a copy captures after its checks: the pages of its local rows, its index array, and the runs it reads. -/
structure CopyPlan where
  env : OpEnv
  reads : List (Nat × Nat)
  writes : List (Nat × Nat)

/-- The global runs of a copy's local sides. -/
def CopyPlan.near (p : CopyPlan) : List (Nat × Nat) := p.reads ++ p.writes

/-- The checks of a copy's two windows that need no index: spaces and shapes (spec/18 R486, R488 items 2 and 3). `xa` and `xd` say
that an index array names a side's rows: `copyPages` checks those. -/
def copyShapes (a d : Side) (cvt : Bool) (ra rd : Bool) (bad : Bool) (xa xd : Bool := false) : Except Stop Unit := do
  (if xa then Side.inSpace else Side.access) a (if ra then [6] else [5, 6]) false
  (if xd then Side.inSpace else Side.access) d (if rd then [6] else [2, 3, 5, 6]) true
  a.shape
  d.shape
  shapeIf (bad || !sameWin a d || (if cvt then false else a.t.ef != d.t.ef))

/-- The checks of a copy's rows and their capture (spec/18 R488 items 2, 4 and 5): ENGINE_ACCESS of the rows accessed, BOUNDS and
MISALIGNED, then the pages of the local sides, source first. -/
def State.copyPages (s : State) (v : TView) (i : Instr) (e : OpEnv) (ra rd : Bool) : Except Stop CopyPlan := do
  let (ss, ds) := copyRows i e
  let use : ScaleUse := if copyCvt i then .a else .none
  ss.forM (·.access [5, 6] false)
  ds.forM (·.access [2, 3, 5, 6] true)
  if ra then ss.forM (·.aligned) else ss.forM fun x => x.fits v use
  if rd then ds.forM (·.aligned) else ds.forM fun x => x.fits v use
  let rr := if ra then [] else globalRuns (ss.map fun x => (x, use))
  let wr := if rd then [] else globalRuns (ds.map fun x => (x, use))
  let ps ← s.pagesFor (s.whoTile v) .load rr
  let qs ← s.pagesFor (s.whoTile v) .store wr
  pure { env := { e with pages := ps ++ qs }, reads := rr, writes := wr }

/-- The parts that a copy reads on its own device. -/
def copySrcs (i : Instr) (e : OpEnv) : List Place :=
  let use : ScaleUse := if copyCvt i then .a else .none
  (copyRows i e).1.flatMap fun x => e.parts x use

/-- The operand of a remote copy: device, context, and whether the source is remote; none when a reserved bit is set. -/
def remoteOf (k : W64) : Nat × Nat × Bool := (bits k 18 0, bits k 30 19, bit k 63)

/-- TCOPY (spec/18 R485-R488). -/
def slotTcopy (sw : Swap) (td ta : BitVec 5) (cvt : Bool) (remote : Option (BitVec 6)) (v : TView) (s : State) : SlotRes :=
  let i : Instr := .tcopy sw td ta cvt remote
  let img := v.r.swapped .c sw
  let k := match remote with | some n => v.k s n | none => 0
  let (dev, ctx, fromRemote) := remoteOf k
  let ra := remote.isSome && fromRemote
  let rd := remote.isSome && !fromRemote
  let e := v.env img [] []
  match (do
    copyShapes (img.side .c ta) (img.side .c td) cvt ra rd (remote.isSome && bits k 62 31 != 0)
    s.copyPages v i e ra rd : Except Stop CopyPlan) with
  | .error st => st.slot
  | .ok p =>
    let w : AWork := if remote.isSome then .remote i p.env dev ctx rd [] else .slot i p.env 0 []
    .next (((s.fillRuns (s.whoTile v) p.near).swap v .c sw).pushAsync v .copy w (if ra then [] else copySrcs i p.env)
      (s.sealsFor v.b.ctx p.reads) false p.writes)

/-- TCOPY (spec/18 R487). -/
def execTcopy (sw : Swap) (td ta : BitVec 5) (cvt : Bool) (remote : Option (BitVec 6)) (s : State) : Host.Outcome State Fault Refusal :=
  runSlot s .c (.tcopy sw td ta cvt remote) (slotTcopy sw td ta cvt remote)

/-- TGATH and TSCAT: the index array is read at issue, then every row is checked (spec/18 R487, R488). `gather` says which
side the indices name; its alignment does not depend on the row. -/
def slotIndexed (i : Instr) (sw : Swap) (td ta : BitVec 5) (ka : BitVec 6) (gather : Bool) (v : TView) (s : State) : SlotRes :=
  let img := v.r.swapped .c sw
  let a := img.side .c ta
  let d := img.side .c td
  let use : ScaleUse := if copyCvt i then .a else .none
  let arr := v.k s ka
  let n := (if gather then d else a).x.rows
  match (do
    copyShapes a d (copyCvt i) false false (256 < n) gather !gather
    if arr.toNat % 4 ≠ 0 then .error (.trap (mkTrap cMisaligned 0 arr.toNat))
    (if gather then d else a).fits v use
    (if gather then a else d).aligned : Except Stop Unit) with
  | .error st => st.slot
  | .ok _ =>
    match s.loadRange (s.whoTile v) v.b.uid arr (4 * n) 4 with
    | .error st => st.slot
    | .ok (bs, t) =>
      let e := v.env img [] ((wordsOf bs).map BitVec.toNat)
      match t.copyPages v i e false false with
      | .error st => st.slot
      | .ok p =>
        .next (((t.fillRuns (s.whoTile v) p.near).swap v .c sw).pushAsync v .copy (.slot i p.env 0 []) (copySrcs i p.env)
          (s.sealsFor v.b.ctx p.reads) false p.writes)

/-- TGATH (spec/18 R487). -/
def slotTgath (sw : Swap) (td ta : BitVec 5) (ka : BitVec 6) (cvt : Bool) (v : TView) (s : State) : SlotRes :=
  slotIndexed (.tgath sw td ta ka cvt) sw td ta ka true v s

/-- TGATH (spec/18 R487). -/
def execTgath (sw : Swap) (td ta : BitVec 5) (ka : BitVec 6) (cvt : Bool) (s : State) : Host.Outcome State Fault Refusal :=
  runSlot s .c (.tgath sw td ta ka cvt) (slotTgath sw td ta ka cvt)

/-- TSCAT (spec/18 R487). -/
def slotTscat (sw : Swap) (td ta : BitVec 5) (ka : BitVec 6) (v : TView) (s : State) : SlotRes :=
  slotIndexed (.tscat sw td ta ka) sw td ta ka false v s

/-- TSCAT (spec/18 R487). -/
def execTscat (sw : Swap) (td ta : BitVec 5) (ka : BitVec 6) (s : State) : Host.Outcome State Fault Refusal :=
  runSlot s .c (.tscat sw td ta ka) (slotTscat sw td ta ka)

/-! ### COLL (spec/13 R345-R347) -/

/-- The element format of a COLL type; .i32 and .n32 are the 32-bit integers. -/
def collEf : CollTy → BitVec 6
  | .f32 => 0x01
  | .bf16 => 0x03
  | .f16 => 0x02
  | .i32 => 0x1C
  | .n32 => 0x1D

/-- Length of chunk `c` of `n` elements over `m` members (spec/13 R345). -/
def chunkLen (n m c : Nat) : Nat := min n ((c + 1) * ceilDiv n m) - c * ceilDiv n m

/-- Elements of the source and of the destination at rank `q`. -/
def collCounts (op : CollOp) (n m q : Nat) : Nat × Nat :=
  match op with
  | .allreduce => (n, n)
  | .reduceScatter => (n, chunkLen n m q)
  | .allgather => (chunkLen n m q, n)
  | .allToAll => (n, n)

/-- A group that a COLL may run on: size and rank. A broken one, or one whose own member word does not name this device and
context, completes at once with the error flag (spec/13 R346). -/
def State.groupReady (s : State) (ctx g : Nat) : Option (Nat × Nat) :=
  match s.groupEntry ctx g with
  | none => none
  | some (m, q, mem) =>
    if s.groupMember ctx mem q = some (s.devid.toNat, ctx) ∧ (s.devNat ctx (mem + 4 * q) 4).getD 0 < 2 ^ 31 ∧
        !(s.ctx ctx).broken.contains g then some (m, q) else none

/-- A COLL's look into the group table: an entry or member word that the device cannot reach sets CERR[6] (spec/10 R534). -/
def State.seekGroup (s : State) (ctx g : Nat) : State :=
  let d := (s.ctx ctx).desc
  let lost := (s.devRead ctx (d.gtab + 32 * g) 32).isNone ||
    (match s.groupEntry ctx g with | some (_, q, mem) => (s.devNat ctx (mem + 4 * q) 4).isNone | none => false)
  if g < d.gcount ∧ lost then s.setCerr ctx 6 else s

/-- Elements that a collective reads and writes. Where the group's entry breaks R256, its size is not known, and only the counts that
do not depend on it are checked (spec/13 R347; log 20). -/
def State.collLens (s : State) (ctx g : Nat) (op : CollOp) (n : Nat) : Nat × Nat :=
  match s.groupEntry ctx g with
  | some (m, q, _) => collCounts op n m q
  | none =>
    match op with
    | .allreduce | .allToAll => (n, n)
    | .reduceScatter => (n, 0)
    | .allgather => (0, n)

/-- COLL (spec/13 R345-R347). -/
def slotColl (sw : Swap) (td ta : BitVec 5) (ka : BitVec 6) (op : CollOp) (red : CollRed) (ty : CollTy) (v : TView) (s : State) : SlotRes :=
  let i : Instr := .coll sw td ta ka op red ty
  let img := v.r.swapped .c sw
  let a := TReg.ofBits (img.t.getD ta.toNat 0)
  let d := TReg.ofBits (img.t.getD td.toNat 0)
  let k := v.k s ka
  let g := bits k 7 0
  let n := bits k 55 16
  let w := efWidth (collEf ty) / 8
  let ready := s.groupReady v.b.ctx g
  let (m, q) := ready.getD (2, 0)
  let (na, nd) := s.collLens v.b.ctx g op n
  let space (t : TReg) : Except Stop Unit := if t.space ≠ 6 then .error (.trap (mkTrap cEngineAccess t.space)) else .ok ()
  match (do
    space a
    space d
    if (Config.sharedBase ≤ a.base ∨ Config.sharedBase ≤ d.base) then .error (.trap (mkTrap cEngineAccess 6))
    shapeIf ((a.nsp != 0) != (a.mbase != 0) || (d.nsp != 0) != (d.mbase != 0) || a.ef != collEf ty || d.ef != collEf ty || n == 0 || bits k 15 8 != 0 || bits k 63 56 != 0)
    if a.base % w ≠ 0 ∨ d.base % w ≠ 0 then .error (.trap (mkTrap cMisaligned 0 (if a.base % w ≠ 0 then a.base else d.base)))
    let ps ← s.pagesFor (s.whoTile v) .load (if na = 0 then [] else [(a.base, na * w)])
    let qs ← s.pagesFor (s.whoTile v) .store (if nd = 0 then [] else [(d.base, nd * w)])
    pure (ps ++ qs) : Except Stop (List (Nat × Nat))) with
  | .error st => st.slot
  | .ok ps =>
    let e := v.env img ps []
    let c := s.ctx v.b.ctx
    let seq := (assocGet g c.collSeq).getD 0
    let t := (s.swap v .c sw).seekGroup v.b.ctx g
    match ready with
    | none => .next (t.pushAsync v .coll (.coll i e g 0 0 0 n []) [] [] true)
    | some _ =>
      .next ((t.updCtx v.b.ctx fun c => { c with collSeq := assocSet g (seq + 1) c.collSeq }).pushAsync v .coll
        (.coll i e g q m seq n []) (e.runParts 6 (a.base, na * w)) [] false [(d.base, nd * w)])

/-- COLL (spec/13 R346). -/
def execColl (sw : Swap) (td ta : BitVec 5) (ka : BitVec 6) (op : CollOp) (red : CollRed) (ty : CollTy) (s : State) :
    Host.Outcome State Fault Refusal := runSlot s .c (.coll sw td ta ka op red ty) (slotColl sw td ta ka op red ty)

/-! ### The M slot -/

/-- Whether an element code is an operand format of a matrix step (spec/06 R148). -/
def mmaEf (c : BitVec 6) : Bool := (3 ≤ c.toNat && c.toNat ≤ 6) || (0x10 ≤ c.toNat && c.toNat ≤ 0x17)

/-- SHAPE_INVALID of a B window (spec/15 R408, spec/06 R159). -/
def Side.badB (b : Side) : Bool :=
  !mmaEf b.t.ef || b.x.cols != 64 ||
    (if b.t.sparse = 0 then b.x.rows != stepK b.t.w
     else b.t.w != 4 || b.x.rows != 2 * b.t.sparse || b.x.row0 % b.t.sparse != 0)

/-- The fields of a latch take those of a new source. The bytes stay until the fill writes them, whoever filled it before (spec/06 R152,
spec/15 R409). -/
def State.claimLatch (s : State) (core idx owner : Nat) (b : Side) : State :=
  let l := latchOf core idx owner b
  if (s.latch? core idx).isSome then
    { s with latches := s.latches.map fun x => if x.core = core ∧ x.idx = idx then { l with bytes := x.bytes } else x }
  else { s with latches := s.latches ++ [l] }

/-- MLATCH (spec/15 R408, R409). -/
def slotMlatch (sw : Swap) (l : BitVec 2) (tb : BitVec 5) (v : TView) (s : State) : SlotRes :=
  let i : Instr := .mlatch sw l tb
  let img := v.r.swapped .m sw
  let b := img.side .m tb
  match (do
    v.tilesOk [⟨b, [2, 6], false, .b⟩] b.badB
    s.sidePages v .load b .b : Except Stop (List (Nat × Nat))) with
  | .error st => st.slot
  | .ok ps =>
    let e := v.env img ps []
    if b.t.space = 2 then
      .next (((s.swap v .m sw).claimLatch v.b.core l.toNat v.f.uid b).pushFixed i e 20 20 (e.parts b .b))
    else
      let rs := globalRuns [(b, .b)]
      .next (((s.fillRuns (s.whoTile v) rs).swap v .m sw).pushAsync v .matrix (.slot i e 0 []) (e.parts b .b) (s.sealsFor v.b.ctx rs))

/-- MLATCH (spec/15 R409). -/
def execMlatch (sw : Swap) (l : BitVec 2) (tb : BitVec 5) (s : State) : Host.Outcome State Fault Refusal :=
  runSlot s .m (.mlatch sw l tb) (slotMlatch sw l tb)

/-- The operands of a matrix step or loop. -/
structure Loop where
  z : Side
  a : Side
  b : Option Side
  l : Nat
  steps : Nat
  ainc : Nat
  binc : Nat

/-- The A window of step `m` for `k` columns. -/
def Loop.aAt (x : Loop) (m k : Nat) : Side := { x.a with x := { x.a.x with col0 := x.a.x.col0 + m * x.ainc, cols := k } }

/-- The B window of step `m`. -/
def Loop.bAt (b : Side) (binc m : Nat) : Side := { b with x := { b.x with row0 := b.x.row0 + m * binc } }

/-- The latch of step `m` (spec/06 R155). -/
def Loop.latch (x : Loop) (m : Nat) : Nat := if x.b.isSome then (if m % 2 = 0 then x.l else x.l ^^^ 1) else (x.l + m) % 4

/-- Columns of A in a step against B with sparse count `n` and width `w` (spec/06 R148). -/
def aCols (n w : Nat) : Nat := if n = 0 then stepK w else 256

/-- Columns of A in step `m`. -/
def State.stepCols (s : State) (core : Nat) (x : Loop) (m : Nat) : Nat :=
  match x.b with
  | some b => aCols b.t.sparse x.a.t.w
  | none => aCols (s.latchD core (x.latch m)).n x.a.t.w

/-- The latches that an operation reads, in ascending order. -/
def Loop.reads (x : Loop) : List Nat :=
  if x.b.isSome then [] else (List.range 4).filter fun j => (List.range (min 4 x.steps)).any fun m => x.latch m == j

/-- Whether a window begins at or beyond the end of its space. -/
def Side.startsOut (d : Side) (v : TView) : Bool :=
  let a := d.bitAt 0 0 / 8
  match d.t.space with
  | 1 => decide (2 ^ d.t.rlog ≤ d.x.row0) || decide (2 ^ d.t.clog ≤ d.x.col0)
  | 5 => decide (v.b.kernel.shared ≤ a)
  | 6 => decide (Config.sharedBase ≤ a)
  | k => decide (v.windowSize k ≤ a)

/-- Whether the ROW0 or COL0 of some step leaves its space (spec/06 R155). -/
def Loop.leaves (x : Loop) (v : TView) : Bool :=
  (List.range x.steps).any fun m => (x.aAt m 1).startsOut v || (match x.b with | some b => (Loop.bAt b x.binc m).startsOut v | none => false)

/-- The checks of MMA and MLOOP (spec/15 R412), and the pages of every step. `form` gives the B source's space; `bad` is a
reserved bit or a step count outside its limits. In a loop over dense and sparse latches in turn each step takes its own
number of columns (spec/15 R413; log 23). -/
def State.loopOk (s : State) (v : TView) (x : Loop) (bSpace : Nat) (bad : Bool) : Except Stop (List (Nat × Nat)) := do
  x.z.access [4] true
  x.a.access [1, 3, 5, 6] false
  match x.b with | some b => b.access [bSpace] false | none => .ok ()
  x.reads.forM fun j =>
    match s.latch? v.b.core j with
    | some l => if l.valid ∧ l.owner = v.f.uid then .ok () else .error (.trap (mkTrap cEngineAccess (0x10 + j)))
    | none => .error (.trap (mkTrap cEngineAccess (0x10 + j)))
  shapeIf bad
  x.z.shape
  x.z.zFormat
  x.a.shape
  match x.b with | some b => b.shape | none => .ok ()
  let ms := List.range x.steps
  let widths := match x.b with
    | some b => [b.t.w]
    | none => x.reads.map fun j => efWidth (s.latchD v.b.core j).efmt
  shapeIf (x.z.x.rows != 64 || x.z.x.cols != 64 || x.z.x.row0 != 0 || x.z.x.col0 != 0 || !mmaEf x.a.t.ef ||
    widths.any (· != x.a.t.w) || x.a.x.rows != 64 || !(ms.any fun m => s.stepCols v.b.core x m == x.a.x.cols) ||
    decide (65535 < x.a.x.col0 + (x.steps - 1) * x.ainc) ||
    (match x.b with
     | some b => decide (65535 < b.x.row0 + (x.steps - 1) * x.binc) || ms.any fun m => (Loop.bAt b x.binc m).badB
     | none => false))
  let as := ms.map fun m => x.aAt m (s.stepCols v.b.core x m)
  let bs := match x.b with | some b => ms.map (Loop.bAt b x.binc) | none => []
  as.forM fun a => a.shape
  bs.forM fun b => b.shape
  x.z.fits v .none
  as.forM fun a => a.fits v .a
  bs.forM fun b => b.fits v .b
  s.pagesFor (s.whoTile v) .load (globalRuns (as.map (·, .a) ++ bs.map (·, .b)))

/-- The global runs that a loop reads. -/
def State.loopRuns (s : State) (core : Nat) (x : Loop) : List (Nat × Nat) :=
  globalRuns ((List.range x.steps).map fun m => (x.aAt m (s.stepCols core x m), ScaleUse.a)) ++
    (match x.b with | some b => globalRuns ((List.range x.steps).map fun m => (Loop.bAt b x.binc m, ScaleUse.b)) | none => [])

/-- MMA (spec/15 R410-R412). A poisoned byte of a global A is reported at the slot (spec/07 R204). -/
def slotMma (sw : Swap) (tz ta : BitVec 5) (l : BitVec 2) (v : TView) (s : State) : SlotRes :=
  let img := v.r.swapped .m sw
  let x : Loop := { z := img.side .m tz, a := img.side .m ta, b := none, l := l.toNat, steps := 1, ainc := 0, binc := 0 }
  match s.loopOk v x 0 false with
  | .error st => st.slot
  | .ok ps =>
    let e := v.env img ps []
    let n := (s.latchD v.b.core l.toNat).n
    let as := e.parts x.a .a
    let rs := s.loopRuns v.b.core x
    match as.find? fun p => match p with | .mem q => s.poisoned q 16 | _ => false with
    | some p => .trap (mkTrap cMemUncorrectable 0 (e.vaOfPlace p))
    | none =>
      .next (((s.fillRuns (s.whoTile v) rs).swap v .m sw).pushFixed (.mma sw tz ta l) e 16 20
        (as ++ e.parts x.z .none ++ latchParts v.b.core l.toNat n) (s.sealsFor v.b.ctx rs))

/-- MMA (spec/15 R411). -/
def execMma (sw : Swap) (tz ta : BitVec 5) (l : BitVec 2) (s : State) : Host.Outcome State Fault Refusal :=
  runSlot s .m (.mma sw tz ta l) (slotMma sw tz ta l)

/-- The loop of an MLOOP from its capture; `kc` and `ki` are its two scalars. -/
def loopOf (i : Instr) (img : TileRegs) (kc ki : Nat) : Option Loop :=
  match i with
  | .mloop _ tz ta l _ _ mode =>
    some { z := img.side .m tz, a := img.side .m ta,
           b := (match mode with | .cycle => none | .streamW tb => some (img.side .m tb) | .streamG tb => some (img.side .m tb)),
           l := l.toNat, steps := kc % 2 ^ 13, ainc := ki % 2 ^ 16, binc := ki / 2 ^ 16 % 2 ^ 16 }
  | _ => none

/-- MLOOP (spec/15 R410-R412). -/
def slotMloop (sw : Swap) (tz ta : BitVec 5) (l : BitVec 2) (kc ki : BitVec 6) (mode : LoopMode) (v : TView) (s : State) : SlotRes :=
  let i : Instr := .mloop sw tz ta l kc ki mode
  let img := v.r.swapped .m sw
  let c := (v.k s kc).toNat
  let inc := (v.k s ki).toNat
  match loopOf i img c inc with
  | none => .next s
  | some x =>
    let space := match mode with | .streamG _ => 6 | _ => 2
    match s.loopOk v x space (decide (2 ^ 13 ≤ c) || decide (2 ^ 32 ≤ inc) || x.steps == 0 || decide (4096 < x.steps) ||
        x.leaves v) with
    | .error st => st.slot
    | .ok ps =>
      let e := v.env img ps [c, inc]
      let rs := s.loopRuns v.b.core x
      .next (((s.fillRuns (s.whoTile v) rs).swap v .m sw).pushAsync v .matrix (.slot i e 0 []) (e.parts x.z .none)
        (s.sealsFor v.b.ctx rs))

/-- MLOOP (spec/15 R411). -/
def execMloop (sw : Swap) (tz ta : BitVec 5) (l : BitVec 2) (kc ki : BitVec 6) (mode : LoopMode) (s : State) :
    Host.Outcome State Fault Refusal := runSlot s .m (.mloop sw tz ta l kc ki mode) (slotMloop sw tz ta l kc ki mode)

/-- Whether an MDRAIN mode takes a destination format (spec/15 R405). -/
def drainEf (mode : DrainMode) (c : BitVec 6) : Bool :=
  match mode with
  | .cvt => (2 ≤ c.toNat && c.toNat ≤ 6) || (0x10 ≤ c.toNat && c.toNat ≤ 0x17)
  | _ => c == 1

/-- The kind of access of an MDRAIN mode (spec/07 R189). -/
def drainAcc (mode : DrainMode) : Acc := if mode = .add then .addStore else .store

/-- MDRAIN (spec/15 R405-R407): MISALIGNED stands before BOUNDS. -/
def slotMdrain (sw : Swap) (td tz : BitVec 5) (mode : DrainMode) (v : TView) (s : State) : SlotRes :=
  let i : Instr := .mdrain sw td tz mode
  let img := v.r.swapped .m sw
  let z := img.side .m tz
  let d := img.side .m td
  let use : ScaleUse := if mode = .cvt then .a else .none
  match (do
    z.access [4] false
    d.access [1, 5, 6] true
    z.shape
    z.zFormat
    d.shape
    shapeIf (!sameWin z d || !drainEf mode d.t.ef)
    z.aligned
    d.aligned
    z.bounds v .none 0x20
    d.bounds v use 0x20
    s.sidePages v (drainAcc mode) d use : Except Stop (List (Nat × Nat))) with
  | .error st => st.slot
  | .ok ps =>
    let e := v.env img ps []
    .next (((s.fillRuns (s.whoTile v) (globalRuns [(d, use)])).swap v .m sw).pushAsync v .matrix (.slot i e 0 [])
      (e.parts z .none) [] false (globalRuns [(d, use)]))

/-- MDRAIN (spec/15 R406). -/
def execMdrain (sw : Swap) (td tz : BitVec 5) (mode : DrainMode) (s : State) : Host.Outcome State Fault Refusal :=
  runSlot s .m (.mdrain sw td tz mode) (slotMdrain sw td tz mode)

/-- MZERO (spec/15 R419). -/
def slotMzero (sw : Swap) (tz : BitVec 5) (v : TView) (s : State) : SlotRes :=
  let img := v.r.swapped .m sw
  let z := img.side .m tz
  s.issueFixed v .m sw (.mzero sw tz) (v.env img [] []) (4, 4) [] (v.tilesOk [⟨z, [4], true, .none⟩] false)

/-- MZERO (spec/15 R419). -/
def execMzero (sw : Swap) (tz : BitVec 5) (s : State) : Host.Outcome State Fault Refusal :=
  runSlot s .m (.mzero sw tz) (slotMzero sw tz)

end Sys2Proof.Machine
end

