-- ==== Sys2Proof/Machine/Async.lean ====
section
/-! DEFINITION. The engines at work: the parts that fixed-latency and asynchronous operations read and write, and the
completion of asynchronous operations (spec/04 R92, R93, R101-R104, spec/06 R155-R162, spec/08 R228-R231, spec/09 R254-R259,
spec/13 R349, R352). -/

namespace Sys2Proof.Machine

/-! ### Fixed-latency operations (spec/04 R102) -/

/-- Whether one operation's write remains over another's: by visible cycle, then by issue. -/
def Fixed.before (a b : Fixed) : Bool := decide (a.wDue < b.wDue) || (a.wDue == b.wDue && decide (a.id < b.id))

/-- Whether an operation of the M slot writes Z. -/
def isZ : Instr → Bool
  | .mma .. => true
  | .mzero .. => true
  | _ => false

/-- Whether an operation of the M slot fills a latch. -/
def isMlatch : Instr → Bool
  | .mlatch .. => true
  | _ => false

/-- Whether a part lies in memory and an access of the block that was issued before an operation's bundle still has to act on it: such
accesses come first in home order (spec/08 R222, R223, R228). Among fixed-latency operations the bundle timing decides
(spec/04 R102). -/
def State.placeBusy (s : State) (blk since : Nat) (p : Place) : Bool :=
  match p with
  | .mem l => s.opsBusy blk (some since) l 16
  | _ => false

/-- Whether an MLOOP that a core's engine ran before an operation still has a part of its Z tile to write there: what the engine runs after
it sees it complete (spec/06 R157). -/
def State.loopWrites (s : State) (core id : Nat) (p : Place) : Bool :=
  s.aops.any fun q => q.core == core && decide (q.id < id) && (match q.work with | .slot (.mloop ..) _ _ _ => true | _ => false) &&
    q.writes.any fun w => w.place == p

/-- Whether a part may be read now: earlier accesses to it have been performed, and a matrix step waits for the earlier steps and
zeroings of its frame, and for the loops before it (spec/04 R103, spec/06 R157). -/
def State.fixedReadable (s : State) (f : Frame) (x : Fixed) (p : Place) : Bool :=
  !s.placeBusy f.blk x.env.since p &&
    !(isMma x.instr && (s.loopWrites f.core x.id p ||
      f.fixed.any fun y => isZ y.instr && decide (y.id < x.id) && (!y.computed || y.writes.any fun w => w.place == p)))

/-- The part at a position of an operation's sources is read; after the last, its writes stand. -/
def State.fixedRead (s : State) (f : Frame) (x : Fixed) (k : Nat) : State :=
  match x.srcs[k]? with
  | none => s
  | some p =>
    let y := { x with srcs := x.srcs.eraseIdx k, got := { place := p, data := s.readPlace f.uid p } :: x.got }
    let t := s.updFrame f.uid fun f => { f with fixed := f.fixed.map fun z => if z.id = x.id then y else z }
    if y.srcs.isEmpty then (t.uncount f.ctx x.seals).fixedReady { y with seals := [] } else t

/-- Whether a part of a computed operation may become visible now: earlier accesses of the block to it have been performed, a step or
zeroing waits for the frame's earlier ones, and a fill of a latch for the core's earlier ones. -/
def State.fixedWritable (s : State) (f : Frame) (x : Fixed) (w : Wr) : Bool :=
  let left (y : Fixed) : Bool := decide (y.id < x.id) && (!y.computed || y.writes.any fun u => u.place == w.place)
  !s.placeBusy f.blk x.env.since w.place &&
    !(isZ x.instr && (s.loopWrites f.core x.id w.place || f.fixed.any fun y => isZ y.instr && left y)) &&
    !(isMlatch x.instr && s.frames.any fun g => g.core == f.core && g.fixed.any fun y => isMlatch y.instr && left y)

/-- A part becomes visible, except where a write that remains over it is already visible. -/
def State.fixedShow (s : State) (f : Frame) (x : Fixed) (k : Nat) : State :=
  match x.writes[k]? with
  | none => s
  | some w =>
    let above := (f.fixed.filter fun y => x.before y).foldl (fun m y =>
      y.seen.foldl (fun m u => if u.place.bare = w.place.bare then m ||| u.mask else m) m) 0
    let t := if w.mask &&& ~~~above = 0 then s else s.writePlace f.uid f.core f.ctx { w with mask := w.mask &&& ~~~above }
    t.updFrame f.uid fun f => { f with fixed := f.fixed.map fun z =>
      if z.id = x.id then { z with writes := z.writes.eraseIdx k, seen := w :: z.seen } else z }

/-- Whether an operation has reached its last cycle with nothing left to do. -/
def Fixed.ended (x : Fixed) (time : Nat) : Bool := x.computed && x.writes.isEmpty && decide (x.wDue ≤ time)

/-- Operations that are over leave, once no other's write could still fall under theirs. -/
def Frame.prune (f : Frame) (time : Nat) : Frame :=
  { f with fixed := f.fixed.filter fun x => !(x.ended time && f.fixed.all fun y => !y.before x || y.ended time) }

/-- Whether a read or write of the frame is overdue: no later bundle issues before it (spec/04 R101, R102). -/
def Frame.overdue (f : Frame) (time : Nat) : Bool :=
  f.fixed.any fun x => (!x.srcs.isEmpty && decide (x.rDue ≤ time)) || (decide (x.wDue ≤ time) && !x.ended time)

/-! ### Asynchronous operations: order (spec/08 R228, R229, spec/04 R103) -/

/-- The operation of a name. -/
def State.aop? (s : State) (id : Nat) : Option AOp := s.aops.find? fun o => o.id == id

/-- Replace an operation. -/
def State.putAop (s : State) (o : AOp) : State := { s with aops := s.aops.map fun x => if x.id = o.id then o else x }

/-- Whether a store of the issuer, issued before an operation's bundle, is not acknowledged (spec/08 R228). The K slot's store of the
same bundle is not ordered with the operation (R210). -/
def State.storesBefore (s : State) (o : AOp) : Bool :=
  s.ops.any fun q => decide (q.id < o.lead) && q.units.any OpUnit.writes &&
    (match o.owner with
     | .group b g _ => q.blk == b && q.gang == g && (match q.issuer with | .tile _ => false | _ => true)
     | i => q.issuer == i)

/-- Whether an access of the block that was issued before an operation, or a fixed-latency one, still has to act on some bytes. -/
def State.aopBusy (s : State) (o : AOp) (l : Loc) (n : Nat) : Bool := s.earlierBusy o.blk l n (some o.lead)

/-- The same for a part. -/
def State.aopPlaceBusy (s : State) (o : AOp) (p : Place) : Bool := match p with | .mem l => s.aopBusy o l 16 | _ => false

/-- Whether an operation may start: the issuer's earlier stores are acknowledged, and the matrix engine has done its earlier
operations, the fills of latches from W on its core among them (spec/06 R157). -/
def State.startable (s : State) (o : AOp) : Bool :=
  !o.started && !s.storesBefore o &&
    (o.kind != .matrix ||
      (!(s.aops.any fun q => q.core == o.core && q.kind == .matrix && decide (q.id < o.id) && q.occupies) &&
        !s.frames.any fun f => f.core == o.core && f.fixed.any fun y =>
          (isMlatch y.instr || (isZ y.instr && o.owner == .tile f.uid)) && decide (y.id < o.id) && (!y.computed || !y.writes.isEmpty)))

/-- The places that a copy may still write: its parts once computed, else its whole destination. -/
def AOp.dests (o : AOp) : List Place :=
  let back := match o.work with | .remote _ _ _ _ false _ => !o.parts.isEmpty | _ => false
  if o.started && o.srcs.isEmpty && !back then o.writes.map (·.place)
  else match o.work with
    | .slot i e _ _ => (copyRows i e).2.flatMap fun x => e.parts x (if copyCvt i then .a else .none)
    | .remote i e _ _ toRemote _ => if toRemote then [] else (copyRows i e).2.flatMap fun x => e.parts x (if copyCvt i then .a else .none)
    | _ => []

/-- The runs of bytes of a remote source, cut into parts. -/
def cutGranules (rs : List (Nat × Nat)) : List (Nat × Nat) :=
  rs.flatMap fun r => (List.range ((r.1 + r.2 + 255) / 256 - r.1 / 256)).filterMap fun k =>
    let a := max r.1 ((r.1 / 256 + k) * 256)
    let z := min (r.1 + r.2) ((r.1 / 256 + k + 1) * 256)
    if a < z then some (a, z - a) else none

/-- The remote side of an operation: device, context, and whether it is the destination. -/
def AOp.remote? (o : AOp) : Option (Nat × Nat × Bool) :=
  match o.work with
  | .cpyRemote _ dev ctx _ _ toRemote _ _ _ => some (dev, ctx, toRemote)
  | .remote _ _ dev ctx toRemote _ => some (dev, ctx, toRemote)
  | _ => none

/-- The addresses of its remote side that an operation has not finished with, in runs within a granule. -/
def AOp.farRuns (o : AOp) : List (Nat × Nat) :=
  if o.started && o.srcs.isEmpty then o.parts.map fun p => (p.addr, p.len)
  else match o.work with
    | .cpyRemote _ _ _ addr len _ _ _ _ => cutGranules [(addr, len)]
    | .remote i e _ _ toRemote _ =>
      cutGranules ((if toRemote then (copyRows i e).2 else (copyRows i e).1).flatMap fun x => x.runs (if copyCvt i then .a else .none))
    | _ => []

/-- Where runs of an operation's remote side lie when it names this device (spec/13 R352); other devices' bytes lie nowhere here. -/
def State.selfLocs (s : State) (o : AOp) (rs : List (Nat × Nat)) : List (Loc × Nat) :=
  match o.remote? with
  | some (dev, ctx, _) =>
    if dev = s.devid.toNat then rs.filterMap fun r =>
      match s.walk ctx r.1 with
      | .page pa size _ => some (.phys (pa + r.1 % size), r.2)
      | _ => none
    else []
  | none => []

/-- Bytes of a range of locations that a thread copy reads or writes. -/
def rangesMeet (xs ys : List (Loc × Nat)) : Bool := xs.any fun x => ys.any fun y => x.1.overlaps x.2 y.1 y.2

/-- The ranges of memory among parts. -/
def placeRuns (ps : List Place) : List (Loc × Nat) := ps.filterMap fun p => match p with | .mem l => some (l, 16) | _ => none

/-- The ranges that a copy still reads, and still writes, at its local sides. -/
def AOp.nearRanges (o : AOp) : List (Loc × Nat) × List (Loc × Nat) :=
  match o.work with
  | .cpy _ _ reads todo _ _ => (reads.map (·.2), todo.map (·.2))
  | .cpyRemote _ _ _ _ _ true todo _ _ => (todo.map (·.2), [])
  | .cpyRemote _ _ _ _ _ false todo _ _ => ([], todo.map (·.2))
  | _ => (placeRuns o.srcs, placeRuns o.dests)

/-- The ranges that a copy still reads, and still writes, at a remote side that names this device. -/
def State.farRanges (s : State) (o : AOp) : List (Loc × Nat) × List (Loc × Nat) :=
  match o.remote? with
  | some (_, _, true) => ([], s.selfLocs o o.farRuns)
  | some (_, _, false) => (s.selfLocs o o.farRuns, [])
  | none => ([], [])

/-- The earlier operations of a copy's queue (spec/08 R229). -/
def State.ahead (s : State) (o : AOp) : List AOp :=
  s.aops.filter fun q => q.owner == o.owner && q.kind == .copy && decide (q.id < o.id)

/-- Whether an earlier copy of the same queue still has an access to bytes that a read, or a write, of a later one must follow. -/
def State.cpyClash (s : State) (o : AOp) (reads writes : List (Loc × Nat)) : Bool :=
  o.kind == .copy && (s.ahead o).any fun q =>
    let (r, w) := q.nearRanges
    let (fr, fw) := s.farRanges q
    rangesMeet (w ++ fw) reads || rangesMeet (w ++ fw) writes || rangesMeet (r ++ fr) writes

/-- The same for a part of a slot operation. -/
def State.queueClash (s : State) (o : AOp) (p : Place) (write : Bool) : Bool :=
  match p with
  | .mem l => s.cpyClash o (if write then [] else [(l, 16)]) (if write then [(l, 16)] else [])
  | _ => o.kind == .copy && (s.ahead o).any fun q => q.dests.contains p || (write && q.srcs.contains p)

/-! ### Errors of asynchronous operations (spec/10 R271) -/

/-- The first error of an operation. -/
def AOp.fail (o : AOp) (cause : BitVec 8) (tinfo va : Nat) : AOp :=
  match o.err with
  | some _ => o
  | none => { o with err := some { number := o.number, cause, tinfo := BitVec.ofNat 32 tinfo, addr := BitVec.ofNat 57 va } }

/-- Free contents of a part that was read with an uncorrectable error (spec/07 R204; log 6). -/
def freePart (seed k : Nat) : W128 :=
  (List.range 4).foldl (fun x i => (x <<< 32) ||| (Config.freeWord seed (2 ^ 40 + 4 * k + i)).setWidth 128) 0

/-! ### Collectives (spec/09 R257, R258) -/

/-- Whether a COLL type is an integer, and whether it is signed. -/
def collInt : CollTy → Option Bool
  | .i32 => some true
  | .n32 => some false
  | _ => none

/-- One reduction of two widened elements. -/
def collOp2 (red : CollRed) (ty : CollTy) (acc x : W32) : W32 × FlagSet :=
  match collInt ty with
  | some sg =>
    let less (a b : W32) : Bool := if sg then decide (a.toInt < b.toInt) else decide (a.toNat < b.toNat)
    (match red with
     | .sum => acc + x
     | .max => if less acc x then x else acc
     | .min => if less x acc then x else acc, 0)
  | none =>
    match red with
    | .sum => add32 acc x
    | .max => rowReduce .max [acc, x]
    | .min => rowReduce .min [acc, x]

/-- An element widened to binary32, and narrowed back. -/
def collWiden (ty : CollTy) (c : Nat) : W32 :=
  match ty with
  | .bf16 => BitVec.ofNat 32 (c % 2 ^ 16 * 2 ^ 16)
  | .f16 => (match FF.f16.decodeIeee c with | .nan true => 0x7F800001#32 | v => (rne32 v).1)
  | _ => BitVec.ofNat 32 c

/-- The element written for a widened result. -/
def collNarrow (ty : CollTy) (x : W32) : Nat × FlagSet :=
  match ty with
  | .bf16 => FF.bf16.encode {} (f32v x)
  | .f16 => FF.f16.encode {} (f32v x)
  | _ => (x.toNat, 0)

/-- Element `k` of a rank's input. -/
def collElem (w : Nat) (inputs : List (Nat × List Byte)) (r k : Nat) : Nat :=
  match inputs.find? fun p => p.1 == r with
  | some p => leNat ((p.2.drop (k * w)).take w)
  | none => 0

/-- Element `e` of chunk `c` reduced in the fixed order of spec/09 R258; `k` is its place in the buffer. -/
def collReduce (red : CollRed) (ty : CollTy) (m w : Nat) (inputs : List (Nat × List Byte)) (c k : Nat) : Nat × FlagSet :=
  let x (r : Nat) : W32 := collWiden ty (collElem w inputs r k)
  let (acc, fl) := (List.range (m - 1)).foldl (fun (acc, fl) j =>
    let (y, f) := collOp2 red ty acc (x ((c + j + 2) % m))
    (y, fl ||| f)) (x ((c + 1) % m), 0)
  let (r, f) := collNarrow ty acc
  (r, fl ||| f)

/-- The destination elements of a collective at rank `q`: place in the destination and code, with the flags. Chunk elements
that no rank supplies are not written (log 23). -/
def collResult (op : CollOp) (red : CollRed) (ty : CollTy) (m q n w : Nat) (inputs : List (Nat × List Byte)) :
    List (Nat × Nat) × FlagSet :=
  let c := ceilDiv n m
  match op with
  | .allreduce =>
    let xs := (List.range n).map fun k => (k, collReduce red ty m w inputs (k / c) k)
    (xs.map fun p => (p.1, p.2.1), xs.foldl (fun f p => f ||| p.2.2) 0)
  | .reduceScatter =>
    let xs := (List.range (chunkLen n m q)).map fun k => (k, collReduce red ty m w inputs q (q * c + k))
    (xs.map fun p => (p.1, p.2.1), xs.foldl (fun f p => f ||| p.2.2) 0)
  | .allgather =>
    ((List.range m).flatMap fun r => (List.range (chunkLen n m r)).map fun k => (r * c + k, collElem w inputs r k), 0)
  | .allToAll =>
    ((List.range m).flatMap fun r =>
      (List.range (min (chunkLen n m q) (chunkLen n m r))).map fun k => (r * c + k, collElem w inputs r (q * c + k)), 0)

/-- The writes of a collective. In an overlap other than an allreduce in place the shared bytes are free. -/
def OpEnv.collWrites (e : OpEnv) (seed : Nat) (i : Instr) (m q n : Nat) (inputs : List (Nat × List Byte)) : List Wr × FlagSet :=
  match i with
  | .coll _ td ta _ op red ty =>
    let a := TReg.ofBits (e.img.t.getD ta.toNat 0)
    let d := TReg.ofBits (e.img.t.getD td.toNat 0)
    let w := efWidth (collEf ty) / 8
    let (na, _) := collCounts op n m q
    let (xs, fl) := collResult op red ty m q n w inputs
    let inPlace := decide (op = .allreduce) && a.base == d.base
    (xs.foldl (fun ws p =>
      let at_ := d.base + p.1 * w
      (List.range w).foldl (fun ws b =>
        let above := !inPlace && decide (a.base ≤ at_ + b) && decide (at_ + b < a.base + na * w)
        e.putByte ws 6 (at_ + b) (if above then freeCode seed p.1 b else p.2 / 2 ^ (8 * b) % 256)) ws) [], fl)
  | _ => ([], 0)

/-! ### What a slot operation writes once it has read -/

/-- A byte of a remote source among those that have come back. -/
def backByte (back : List (Nat × Byte)) (a : Nat) : Nat := ((assocGet a back).map BitVec.toNat).getD 0

/-- An element's code among bytes by address. -/
def byteCode (byte : Nat → Nat) (d : Side) (i j : Nat) : Nat :=
  let b := d.bitAt i j
  (leNat ((List.range 4).map fun k => BitVec.ofNat 8 (byte (b / 8 + k)))) / 2 ^ (b % 8) % 2 ^ d.t.w

/-- A copy's writes, from its sources' codes and scales by row (spec/18 R487). Rows of a TSCAT stay apart. -/
def OpEnv.copyWrites (e : OpEnv) (seed : Nat) (i : Instr) (lap : Bool) (code scale : Side → Nat → Nat) : List Wr × FlagSet :=
  let (ss, ds) := copyRows i e
  let src (r : Nat) : Side := ss.getD r (e.img.side .c 0)
  let shared := if lap then ss else []
  if copyCvt i then
    match ds with
    | [] => ([], 0)
    | d0 :: _ =>
      let d : Side := { d0 with x := { d0.x with rows := ds.length } }
      let a := src 0
      let isInt := match efOf a.t.ef with | some (.int _ _) => true | _ => false
      let val (r j : Nat) : FV :=
        let v := match efOf a.t.ef with | some f => f.decode a.t.xv e.books (code (src r) j) | none => FV.zero
        if a.t.scaled then v.scale (scale (src r) j) else v
      let (ws, fl) := e.encodeTile seed d
        (fun ef v => convElem isInt true true (plainOpt e.img.fmt a.t.scaled) e.books ef v) val
      (e.freeShared seed shared d ws, fl)
  else
    match i with
    | .tscat .. => ((List.range ds.length).flatMap fun r => e.moves (seed + 2 * r) shared (ds.getD r (src 0)) (fun _ j => code (src r) j) [], 0)
    | _ => ((List.range ds.length).foldl (fun ws r => e.moves (seed + 2 * r) shared (ds.getD r (src 0)) (fun _ j => code (src r) j) ws) [], 0)

/-- The writes of a copy between local sides. -/
def OpEnv.localCopy (e : OpEnv) (seed : Nat) (g : List Got) (i : Instr) : List Wr × FlagSet :=
  e.copyWrites seed i true (fun x j => e.code g x 0 j) (fun x j => e.scale g x 0 j)

/-- A copy's destination on another device: the bytes by address. A nibble that it does not write is free in its byte, since a
part moves whole bytes (spec/09 R254; log 6). -/
def OpEnv.remoteBytes (e : OpEnv) (seed : Nat) (g : List Got) (i : Instr) : List (Nat × Byte) × FlagSet :=
  let (_, ds) := copyRows i e
  let ids := (runPages (ds.flatMap fun x => x.runs .a)).map fun p => (p.1, p.1)
  let (ws, fl) := { e with pages := ids }.copyWrites seed i false (fun x j => e.code g x 0 j) (fun x j => e.scale g x 0 j)
  (ws.foldl (fun bs w =>
    match w.place with
    | .mem (.phys a) =>
      (List.range 16).foldl (fun bs k =>
        let m : Byte := w.mask.extractLsb' (8 * k) 8
        let f : Byte := (Config.freeWord seed (2 ^ 48 + a + k)).setWidth 8
        if m = 0 then bs else assocSet (a + k) ((w.data.extractLsb' (8 * k) 8 &&& m) ||| (f &&& ~~~m)) bs) bs
    | _ => bs) [], fl)

/-- The ranges of memory of a window in global memory, as an operation translated it. -/
def OpEnv.ranges (e : OpEnv) (d : Side) (use : ScaleUse) : List (Loc × Nat) :=
  if d.t.space = 6 then
    (cutGranules (d.runs use)).map fun r => (.phys (((assocGet (r.1 / 16384) e.pages).getD 0) * 16384 + r.1 % 16384), r.2)
  else []

/-- What a copy to another device sends: the bytes by address. Where that is this device itself, those that overwrite bytes of the source
windows are free (spec/18 R487). -/
def State.remoteData (s : State) (o : AOp) (e : OpEnv) (i : Instr) : List (Nat × Byte) × FlagSet :=
  let (bs, fl) := e.remoteBytes (2 * s.ctr + 1) o.got i
  let near := (copyRows i e).1.flatMap fun d => e.ranges d (if copyCvt i then .a else .none)
  (bs.mapIdx fun j p => if rangesMeet near (s.selfLocs o [(p.1, 1)]) then (p.1, (Config.freeWord (2 * s.ctr + 1) (2 ^ 40 + j)).setWidth 8) else p, fl)

/-- A part's write whose bytes in some ranges of memory are free. -/
def Wr.freeIn (seed k : Nat) (rs : List (Loc × Nat)) (w : Wr) : Wr :=
  match w.place with
  | .mem l =>
    let m : W128 := (List.range 16).foldl (fun m j => if rangesMeet rs [(l.plus j, 1)] then m ||| (255#128 <<< (8 * j)) else m) 0
    { w with data := (w.data &&& ~~~m) ||| (freePart seed k &&& m) }
  | _ => w

/-- Bytes by address cut into parts: runs of consecutive bytes within a granule (spec/09 R254). -/
def remoteRuns : List Nat → List (Nat × Nat)
  | [] => []
  | a :: as =>
    match remoteRuns as with
    | (b, n) :: rest => if a + 1 = b ∧ a / 256 = b / 256 then (a, n + 1) :: rest else (a, 1) :: (b, n) :: rest
    | [] => [(a, 1)]

/-- Parts with tags of their own. -/
def State.tagParts (s : State) (rs : List (Nat × Nat × Nat)) : List RPart × State :=
  (rs.mapIdx fun k r => { id := s.uid + k, addr := r.1, len := r.2.1, off := r.2.2, sent := none },
   { s with uid := s.uid + rs.length })

/-! ### The moves of an asynchronous operation -/

/-- Sources of step `m` of an MLOOP. -/
def State.stepSrcs (s : State) (e : OpEnv) (x : Loop) (m : Nat) : List Place :=
  (e.parts (x.aAt m (s.stepCols e.core x m)) .a ++
    (match x.b with
     | some b => e.parts (Loop.bAt b x.binc m) .b
     | none => latchParts e.core (x.latch m) (s.latchD e.core (x.latch m)).n)).eraseDups

/-- A latch filled: bytes that the fill does not write keep their contents (spec/06 R152). -/
def State.fillLatch (s : State) (l : Latch) : State :=
  let kept := ((s.latchD l.core l.idx).bytes).filter fun p => (assocGet p.1 l.bytes).isNone
  { s with latches := { l with bytes := l.bytes ++ kept } :: s.latches.filter fun x => !(x.core == l.core && x.idx == l.idx) }

/-- The bytes of a filled latch as parts read. -/
def latchAsGot (l : Latch) : List Got := (latchParts l.core l.idx l.n).map fun p =>
  match p with
  | .latch _ _ off => { place := p, data := BitVec.ofNat 128 (leNat ((List.range 16).map fun k => l.byte (off + k))) }
  | p => { place := p, data := 0 }

/-- The loop of an operation. -/
def loopOfEnv (i : Instr) (e : OpEnv) : Option Loop := loopOf i e.img (e.idx.getD 0 0) (e.idx.getD 1 0)

/-- One step of an MLOOP whose operands have been read: the latch of a streamed B, the Z tile, the flags. -/
def State.loopStep (s : State) (o : AOp) (i : Instr) (e : OpEnv) (m : Nat) (acc : List W32) : State :=
  match loopOfEnv i e with
  | none => s
  | some x =>
    let a := x.aAt m (s.stepCols e.core x m)
    let z0 := if m = 0 then e.zTile o.got x.z else acc
    let (l, g, t) := match x.b with
      | some b =>
        let w := Loop.bAt b x.binc m
        let l := { latchOf e.core (x.latch m) e.frame w with bytes := e.latchBytes o.got w }
        (l, o.got ++ latchAsGot l, s.fillLatch l)
      | none => (s.latchD e.core (x.latch m), o.got, s)
    let (z, fl) := e.matrixStep g a l z0
    (t.putAop { o with got := [], writes := e.putZ x.z z, work := .slot i e (m + 1) z }).orTileFlags e.frame fl

/-- The group of a collective. -/
def AOp.group? (o : AOp) : Option Nat := match o.work with | .coll _ _ g _ _ _ _ _ => some g | _ => none

/-- Input of a collective sent to a member: KIND 6 packets of up to 256 bytes. -/
def State.sendTo (s : State) (ctx g : Nat) (tag : CollTag) (bs : List Byte) (x : Nat × Nat) : State :=
  (List.range (ceilDiv bs.length 256)).foldl (fun t k =>
    let d := (bs.drop (256 * k)).take 256
    let n := ceilDiv d.length 32
    t.sendMember 6 ctx g x fun p =>
      { p with len := d.length, nflit := n, data := d ++ List.replicate (32 * n - d.length) 0, coll := some { tag with off := 256 * k } }) s

/-- A rank's input goes to every other member (spec/09 R257, R259; log 23). A member word that cannot be read sets CERR[6] (spec/10 R534). -/
def State.sendInput (s : State) (ctx g m : Nat) (tag : CollTag) (bs : List Byte) : State :=
  match s.groupEntry ctx g with
  | some (_, _, mem) =>
    let xs := s.otherMembers ctx mem m tag.rank
    xs.foldl (fun t x => t.sendTo ctx g tag bs x) (if xs.length + 1 < m then s.setCerr ctx 6 else s)
  | none => s

/-- A collective that has every rank's input computes its result. -/
def State.collReady (s : State) (o : AOp) : State :=
  match o.work with
  | .coll i e _ rank m _ n inputs =>
    if (List.range m).all fun r => inputs.any fun p => p.1 == r then
      let (ws, fl) := e.collWrites (2 * s.ctr + 1) i m rank n inputs
      (s.putAop { o with writes := if o.discard then [] else ws, got := [{ place := .mem (.phys 0), data := 0 }] }).orTileFlags e.frame fl
    else s
  | _ => s

/-- The bytes of its destination that a collective has written: those of its result that are not still to be written. -/
def State.collDone (s : State) (o : AOp) : List Wr :=
  match o.work with
  | .coll i e _ rank m _ n inputs =>
    if !o.discard && o.srcs.isEmpty && (List.range m).all fun r => inputs.any fun p => p.1 == r then
      (e.collWrites (2 * s.ctr + 1) i m rank n inputs).1.filter fun w => !o.writes.any fun u => u.place == w.place
    else []
  | _ => []

/-- A group is broken: its operations complete at once with the error flag, and what they have written holds free values (spec/08 R231,
spec/09 R260, spec/10 R271; log 6). Data that waits for it is dropped. -/
def State.breakGroup (s : State) (c g : Nat) : State :=
  let mine (o : AOp) : Bool := o.ctx == c && o.group? == some g && !o.cutShort
  let t := (s.aops.filter mine).foldl (fun t o =>
    (s.collDone o).zipIdx.foldl (fun t x => t.writePlace 0 o.core o.ctx { x.1 with data := freePart (2 * s.ctr + 1) x.2 }) t) s
  ({ t with
      aops := t.aops.map fun o => if mine o then
        { o with cut := true, srcs := [], writes := [], got := [{ place := .mem (.phys 0), data := 0 }] } else o,
      collIn := t.collIn.filter fun p => !(p.dctx.toNat == c && p.hidx.toNat == g) } : State).updCtx c fun x =>
    { x with broken := if x.broken.contains g then x.broken else g :: x.broken }

/-- Whether a flit's values differ from those of the operation of its sequence (spec/13 R346). -/
def tagDiffers (t own : CollTag) : Bool := t.op != own.op || t.red != own.red || t.ty != own.ty || t.count != own.count

/-- Whether collective data belongs to an operation of a group and sequence. -/
def collFor (p : Packet) (ctx g seq : Nat) : Bool :=
  p.dctx.toNat == ctx && p.hidx.toNat == g && (match p.coll with | some t => t.seq == seq | none => false)

/-- The input of a rank, of `n` bytes, once all of it has come. -/
def rankInput (ps : List Packet) (r n : Nat) : Option (List Byte) :=
  let mine := ps.filterMap fun p => match p.coll with | some t => if t.rank = r then some (t.off, p.data.take p.len) else none | none => none
  if (mine.map (·.2.length)).sum < n then none
  else some ((List.range n).map fun k =>
    match mine.find? fun x => decide (x.1 ≤ k) && decide (k < x.1 + x.2.length) with
    | some x => x.2.getD (k - x.1) 0
    | none => 0)

/-- A collective takes the data that has come for it: of another operation, reduction, type or element count, it cuts the group short
(spec/13 R346); with its own input read and every other rank's come, it computes its result. -/
def State.collSettle (s : State) (o : AOp) : State :=
  match o.work with
  | .coll i e g rank m seq n inputs =>
    (match i with
     | .coll _ _ _ _ op red ty =>
       let ps := s.collIn.filter fun p => collFor p o.ctx g seq
       let own : CollTag := { rank, seq, op, red, ty, count := n, off := 0 }
       let other (p : Packet) : Bool := match p.coll with | some t => tagDiffers t own | none => true
       if ps.any other then s.breakGroup o.ctx g
       else match inputs.find? fun x => x.1 == rank with
         | none => s
         | some own =>
           if !o.got.isEmpty then s
           else
             let w := efWidth (collEf ty) / 8
             let xs := ((List.range m).filter (· != rank)).filterMap fun r =>
               (rankInput ps r ((collCounts op n m r).1 * w)).map fun bs => (r, bs)
             let o1 := { o with work := .coll i e g rank m seq n (own :: xs) }
             (s.putAop o1).collReady o1
     | _ => s)
  | _ => s

/-- All sources of an operation have been read: seal counts fall, and its writes stand. A remote destination's parts are named. -/
def State.aopReady (s : State) (o : AOp) : State :=
  let seed := 2 * s.ctr + 1
  let lower (t : State) : State := t.uncount o.ctx o.seals
  let keep : AOp := { o with seals := [] }
  match o.work with
  | .slot i e m acc =>
    (match i with
     | .mloop .. =>
       let last := match loopOfEnv i e with | some x => decide (x.steps ≤ m + 1) | none => true
       if last then (lower s).loopStep keep i e m acc else s.loopStep o i e m acc
     | .mlatch _ l tb =>
       let b := e.img.side .m tb
       ((lower s).fillLatch { latchOf e.core l.toNat e.frame b with bytes := e.latchBytes o.got b }).putAop { keep with got := [] }
     | .mdrain _ td tz mode =>
       let (ws, fl) := e.drain seed o.got (e.img.side .m td) (e.img.side .m tz) mode
       ((lower s).putAop { keep with got := [], writes := ws }).orTileFlags e.frame fl
     | _ =>
       let (ws, fl) := e.localCopy seed o.got i
       ((lower s).putAop { keep with got := [], writes := ws }).orTileFlags e.frame fl)
  | .remote i e dev ctx true _ =>
    let (bs, fl) := s.remoteData o e i
    let (ps, t) := (lower s).tagParts ((remoteRuns (bs.map (·.1))).map fun r => (r.1, r.2, 0))
    (t.putAop { keep with got := [], parts := ps, work := .remote i e dev ctx true bs }).orTileFlags e.frame fl
  | .coll i e g rank m seq n inputs =>
    (match i with
     | .coll _ _ ta _ op red ty =>
       let a := TReg.ofBits (e.img.t.getD ta.toNat 0)
       let (na, _) := collCounts op n m rank
       let mine := (List.range (na * (efWidth (collEf ty) / 8))).map fun k => BitVec.ofNat 8 (e.byte o.got 6 (a.base + k))
       let o1 := { o with got := [], work := .coll i e g rank m seq n ((rank, mine) :: inputs) }
       ((s.putAop o1).sendInput o.ctx g m { rank, seq, op, red, ty, count := n, off := 0 } mine).collSettle o1
     | _ => s)
  | _ => lower (s.putAop keep)

/-- An operation starts. -/
def State.asyncStart (s : State) (o : AOp) : State :=
  let o1 := { o with started := true }
  if o.discard && o.group?.isNone then s.putAop o1
  else match o.work with
  | .slot i e m _ =>
    (match i with
     | .mloop .. =>
       (match loopOfEnv i e with
        | some x => s.putAop { o1 with srcs := (o.srcs ++ s.stepSrcs e x m).eraseDups }
        | none => s.putAop o1)
     | _ => s.putAop o1)
  | .remote i e dev ctx false _ =>
    let use : ScaleUse := if copyCvt i then .a else .none
    let (ps, t) := s.tagParts ((cutGranules ((copyRows i e).1.flatMap fun x => x.runs use)).map fun r => (r.1, r.2, 0))
    t.putAop { o1 with parts := ps, work := .remote i e dev ctx false [] }
  | .cpyRemote _ _ _ addr len _ _ _ _ =>
    let (ps, t) := s.tagParts (((cutGranules [(addr, len)]).map fun r => (r.1, r.2, r.1 - addr)))
    t.putAop { o1 with parts := ps }
  | .coll _ _ _ _ _ _ _ _ =>
    let t := s.putAop o1
    if o.cutShort then t else if o.srcs.isEmpty then t.aopReady o1 else t.collSettle o1
  | _ => s.putAop o1

/-- A part as an operation reads it: its bits, free where the part is poisoned (spec/07 R204), and the error of the read. -/
def State.asyncGet (s : State) (o : AOp) (p : Place) (k : Nat) : Got × AOp :=
  let f := match o.owner with | .tile f => f | _ => 0
  let bad := match p with | .mem l => s.poisoned l 16 | _ => false
  let va := match o.work with
    | .slot _ e _ _ => e.vaOfPlace p
    | .remote _ e _ _ _ _ => e.vaOfPlace p
    | .coll _ e _ _ _ _ _ _ => e.vaOfPlace p
    | _ => 0
  ({ place := p, data := if bad then freePart (2 * s.ctr + 1) k else s.readPlace f p }, if bad then o.fail cMemUncorrectable 0 va else o)

/-- The part at a position of an operation's sources is read. -/
def State.asyncRead (s : State) (o : AOp) (k : Nat) : State :=
  match o.srcs[k]? with
  | none => s
  | some p =>
    let (g, o1) := s.asyncGet o p k
    let o2 := { o1 with srcs := o.srcs.eraseIdx k, got := g :: o.got }
    let t := s.putAop o2
    if o2.srcs.isEmpty then t.aopReady o2 else t

/-- Whether a part read may be performed. -/
def State.asyncReadable (s : State) (o : AOp) (p : Place) : Bool :=
  o.started && !s.queueClash o p false && !s.aopPlaceBusy o p && !(o.kind == .matrix && s.loopWrites o.core o.id p)

/-- The lines that the fetch unit holds for later steps. -/
def AOp.pinned (o : AOp) : List (Nat × Nat) :=
  (o.ahead.filterMap fun x => match x.2.place with | .mem (.phys a) => some (x.1, a / 256) | _ => none).eraseDups

/-- A part of a later step of an MLOOP that the fetch unit reads ahead of the engine, within its budget of 256 lines (spec/06 R158). -/
def State.asyncFetch (s : State) (o : AOp) (step k : Nat) : State :=
  match o.work with
  | .slot i e m _ =>
    (match loopOfEnv i e with
     | some x =>
       (match i, (s.stepSrcs e x step)[k]? with
        | .mloop .., some (.mem (.phys a)) =>
          let p : Place := .mem (.phys a)
          let known := o.ahead.any fun y => y.1 == step && y.2.place == p
          let room := o.pinned.contains (step, a / 256) || decide (o.pinned.length < 256)
          if m < step ∧ step < x.steps ∧ !known ∧ room ∧ s.asyncReadable o p then
            let (g, o1) := s.asyncGet o p k
            s.putAop { o1 with ahead := (step, g) :: o.ahead }
          else s
        | _, _ => s)
     | none => s)
  | _ => s

/-- Whether two of a copy's pieces share an offset in it. -/
def sharesOffset (r p : Nat × Loc × Nat) : Bool := decide (r.1 < p.1 + p.2.2) && decide (p.1 < r.1 + r.2.2)

/-- The source part that must be read before a destination part is written: one that gives bytes of it, or that the write would change. -/
def readFirst (reads : List (Nat × Loc × Nat)) (p : Nat × Loc × Nat) : Option (Nat × Loc × Nat) :=
  reads.find? fun r => sharesOffset r p || r.2.1.overlaps r.2.2 p.2.1 p.2.2

/-- Bytes of a thread copy from an offset among those read or come. -/
def gotRun (got : List (Nat × Byte)) (off n : Nat) : List Byte := (List.range n).map fun j => (assocGet (off + j) got).getD 0

/-- A free byte of a copy. -/
def State.freeByteAt (s : State) (j : Nat) : Byte := (Config.freeWord (2 * s.ctr + 1) (2 ^ 40 + j)).setWidth 8

/-- A source part of a thread copy read at one instant (spec/08 R209): its bytes by offset, free with an uncorrectable error, which the
copy reports (spec/13 R353). -/
def State.cpyRead (s : State) (o : AOp) (va : Nat) (r : Nat × Loc × Nat) : List (Nat × Byte) × AOp :=
  let (off, l, n) := r
  let bad := (List.range n).find? fun k => s.poisoned (l.plus k) 1
  ((s.readLoc l n).mapIdx fun j b => (off + j, if bad.isSome then s.freeByteAt j else b),
   match bad with | some k => o.fail cMemUncorrectable 0 (va + off + k) | none => o)

/-- A thread copy's next state; with its last source part read its seal counts fall (spec/07 R199). -/
def State.putCopy (s : State) (o : AOp) (w : AWork) (left : Bool) : State :=
  let t := s.putAop { o with work := w, seals := if left then o.seals else [] }
  if left then t else t.uncount o.ctx o.seals

/-- The bytes of a destination part that a thread copy has, written under their mask at one instant. -/
def State.cpyWrite (s : State) (o : AOp) (l : Loc) (off n : Nat) (got : List (Nat × Byte)) (bs : List Byte) : State :=
  let m : W128 := (List.range n).foldl (fun m j => if (assocGet (off + j) got).isSome then m ||| (255#128 <<< (8 * j)) else m) 0
  let x : W128 := BitVec.ofNat 128 (leNat bs)
  if m = 0 then s else (s.l1Store o.core o.ctx l x m).writeLoc o.ctx l n x m

/-- One move of a thread copy: the destination part is written, once the source parts that it needs have been read; else one of those
is read. The destination bytes of an overlap are free, those of a remote copy with this device itself too. A remote copy's local part is read, or
written. -/
def State.cpyPart (s : State) (o : AOp) (k : Nat) : State :=
  match o.work with
  | .cpy va src reads todo lap got =>
    (match todo[k]? with
     | none => s
     | some p =>
       match readFirst reads p with
       | some r =>
         let (bs, o1) := s.cpyRead o va r
         s.putCopy o1 (.cpy va src (reads.erase r) todo lap (bs ++ got)) (!(reads.erase r).isEmpty)
       | none =>
         let (off, l, n) := p
         let bs := (gotRun got off n).mapIdx fun j b =>
           if lap && src.any fun x => x.1.overlaps x.2 (l.plus j) 1 then s.freeByteAt j else b
         (s.cpyWrite o l off n got bs).putAop { o with work := .cpy va src reads (todo.eraseIdx k) lap got })
  | .cpyRemote va dev ctx addr len true todo got near =>
    (match todo[k]? with
     | none => s
     | some r =>
       let (bs, o1) := s.cpyRead o va r
       s.putCopy o1 (.cpyRemote va dev ctx addr len true (todo.eraseIdx k) (bs ++ got) near) (!(todo.eraseIdx k).isEmpty))
  | .cpyRemote va dev ctx addr len false todo got near =>
    (match todo[k]? with
     | none => s
     | some (off, l, n) =>
       let far := s.selfLocs o (cutGranules [(addr, len)])
       let bs := (gotRun got off n).mapIdx fun j b => if rangesMeet far [(l.plus j, 1)] then s.freeByteAt j else b
       (s.cpyWrite o l off n got bs).putAop { o with work := .cpyRemote va dev ctx addr len false (todo.eraseIdx k) got near })
  | _ => s

/-- Whether a local piece may be read, or written, now. -/
def State.pieceFree (s : State) (o : AOp) (p : Nat × Loc × Nat) (write : Bool) : Bool :=
  !s.cpyClash o (if write then [] else [p.2]) (if write then [p.2] else []) && !s.aopBusy o p.2.1 p.2.2

/-- Whether a computed write may be performed. -/
def State.asyncWritable (s : State) (o : AOp) (k : Nat) : Bool :=
  o.started &&
    (match o.work with
     | .cpy _ _ reads todo _ _ =>
       (match todo[k]? with
        | some p => !o.discard && (match readFirst reads p with | some r => s.pieceFree o r false | none => s.pieceFree o p true)
        | none => false)
     | .cpyRemote _ _ _ _ _ toRemote todo got _ =>
       (match todo[k]? with
        | some p =>
          !o.discard && s.pieceFree o p (!toRemote) &&
            (toRemote || o.parts.isEmpty || (List.range p.2.2).all fun j => (assocGet (p.1 + j) got).isSome)
        | none => false)
     | _ =>
       (match o.writes[k]? with
        | some w => o.srcs.isEmpty && !s.queueClash o w.place true && !s.aopPlaceBusy o w.place
        | none => false))

/-- Whether an add-on-store is performed with the whole drain (spec/06 R162). -/
def Wr.whole (w : Wr) : Bool :=
  !w.add.isEmpty && (match w.place with | .mem (.phys _) => false | _ => true)

/-- The next step of an MLOOP whose writes have all been made. -/
def State.nextStep (s : State) (o : AOp) : State :=
  match o.work with
  | .slot i e m _ =>
    (match i, loopOfEnv i e with
     | .mloop .., some x =>
       if o.writes.isEmpty && decide (m < x.steps) then
         let here := (o.ahead.filter fun y => y.1 == m).map (·.2)
         let o1 := { o with srcs := (s.stepSrcs e x m).filter fun p => !here.any fun g => g.place == p, got := here,
                            ahead := o.ahead.filter fun y => y.1 != m }
         let t := s.putAop o1
         if o1.srcs.isEmpty then t.aopReady o1 else t
       else s
     | _, _ => s)
  | _ => s

/-- The write at a position of an operation is performed. -/
def State.asyncPart (s : State) (o : AOp) (k : Nat) : State :=
  match o.work with
  | .cpy .. => s.cpyPart o k
  | .cpyRemote .. => s.cpyPart o k
  | _ =>
    match o.writes[k]? with
    | none => s
    | some w =>
      let f := match o.owner with | .tile f => f | _ => 0
      if w.whole then
        (o.writes.foldl (fun t w => t.writePlace f o.core o.ctx w) s).putAop { o with writes := [] }
      else
        let o1 := { o with writes := o.writes.eraseIdx k }
        ((s.writePlace f o.core o.ctx w).putAop o1).nextStep o1

/-! ### Completion -/

/-- Whether every access of an operation has been performed. -/
def AOp.finished (o : AOp) : Bool :=
  o.cutShort ||
    (o.started && o.srcs.isEmpty && o.writes.isEmpty && o.parts.isEmpty &&
      (match o.work with
       | .cpy _ _ _ todo _ _ => todo.isEmpty || o.discard
       | .cpyRemote _ _ _ _ _ _ todo _ _ => todo.isEmpty || o.discard
       | .slot i e m _ => (match i, loopOfEnv i e with | .mloop .., some x => decide (x.steps ≤ m) || o.discard | _, _ => true)
       | .coll _ _ _ _ _ _ _ _ => !o.got.isEmpty
       | _ => true))

/-- Whether an operation may complete: it has finished, after the earlier ones of its matrix engine, its timeline or its queue (spec/04
R104, spec/13 R349). -/
def State.completable (s : State) (o : AOp) : Bool :=
  o.finished && !s.aops.any fun q => q.kind == o.kind && decide (q.id < o.id) &&
    (if o.kind = .matrix then q.core == o.core else q.owner == o.owner)

/-- What a finished collective leaves for the data that still comes for its sequence (spec/13 R346); one cut short leaves nothing, since data
for it is dropped (spec/09 R260). -/
def AOp.past (o : AOp) : List (Nat × CollTag) :=
  match o.work with
  | .coll (.coll _ _ _ _ op red ty) _ g rank _ seq count _ => if o.cutShort then [] else [(g, { rank, seq, op, red, ty, count, off := 0 })]
  | _ => []

/-- The errors that an operation reports: the loss of its group, and its first other error (spec/09 R260, spec/10 R271). -/
def AOp.reports (o : AOp) : List AsyncErr :=
  (match o.group? with
   | some g => if o.cut then [{ number := o.number, cause := cCollPeerLost, tinfo := BitVec.ofNat 32 g, addr := 0 }] else []
   | none => []) ++ o.err.toList

/-- An operation completes: its errors are queued, its number is counted. -/
def State.complete (s : State) (o : AOp) : State :=
  let t := { s.uncount o.ctx o.seals with
    aops := s.aops.filter fun x => x.id != o.id,
    collIn := match o.work with | .coll _ _ g _ _ seq _ _ => s.collIn.filter fun p => !collFor p o.ctx g seq | _ => s.collIn }
  let t := t.updCtx o.ctx fun c => { c with collPast := o.past ++ c.collPast }
  let add (q : ErrQueue) : ErrQueue := o.reports.foldl ErrQueue.add q
  match o.owner with
  | .tile u =>
    let k := kindIdx o.kind
    let t1 := t.updFrame u fun f =>
      { f with doneOps := putAt 3 0 f.doneOps k (f.doneOps.getD k 0 + 1),
               errs := putAt 3 { entries := [], ovf := false } f.errs k (add (f.errs.getD k { entries := [], ovf := false })) }
    t1.updCtx o.ctx fun c => { c with tlCount := putAt 3 0 c.tlCount k (c.tlCount.getD k 0 + 1) }
  | .group b g _ => (t.updGang b g fun x => { x with cpyErr := add x.cpyErr }).settle b
  | .none => t

end Sys2Proof.Machine
end

