-- ==== Sys2Proof/Machine/Bundle.lean ====
section
/-! DEFINITION. A tile bundle: its waits, its slots in commit order, traps and yields (spec/04 R90, R95-R98, R105-R107, spec/12
R320, spec/03 R78). -/

namespace Sys2Proof.Machine

/-- The first feature bit of an instruction that is clear in a context's effective mask (spec/10 R291, spec/12 R315). -/
def State.missingFeature (s : State) (ctx : Nat) (i : Instr) : Option Nat :=
  (Instr.features i).find? fun f => !bit (deviceMask &&& (s.ctx ctx).desc.cmask) f

/-- The slots in commit order. -/
def slotOrder : List Slot := [.k, .d, .c, .v, .m, .b]

/-- The meaning of a slot operation for the issuing tile context. -/
def slotRun (i : Instr) (v : TView) (s : State) : SlotRes :=
  match i with
  | .kadd d sub a b => slotKadd d sub a b v s
  | .kmul d hi a b => slotKmul d hi a b v s
  | .klop d op a b => slotKlop d op a b v s
  | .kmovi d imm => slotKmovi d imm v s
  | .kcmp f cmp u a b => slotKcmp f cmp u a b v s
  | .kld sz r a off => slotKld sz r a off v s
  | .kst sz r a off => slotKst sz r a off v s
  | .shpw e idx f src => slotShpw e idx f src v s
  | .setfmtK a m => slotSetfmtK a m v s
  | .cbloadK cb a => slotCbloadK cb a v s
  | .dmov sw td ta => slotDmov sw td ta v s
  | .tfill sw td ka => slotTfill sw td ka v s
  | .racqTile sw sc kd ka => slotRacqTile sw sc kd ka v s
  | .rpeekTile sw sc kd ka => slotRpeekTile sw sc kd ka v s
  | .rcommitTile sw sc ks ka => slotRcommitTile sw sc ks ka v s
  | .rrelTile sw sc ks ka => slotRrelTile sw sc ks ka v s
  | .tcopy sw td ta cvt remote => slotTcopy sw td ta cvt remote v s
  | .tgath sw td ta ka cvt => slotTgath sw td ta ka cvt v s
  | .tscat sw td ta ka => slotTscat sw td ta ka v s
  | .coll sw td ta ka op red ty => slotColl sw td ta ka op red ty v s
  | .tew sw td ta form => slotTew sw td ta form v s
  | .teu sw td ta f => slotTeu sw td ta f v s
  | .tcvt sw td ta => slotTcvt sw td ta v s
  | .trans sw td ta => slotTrans sw td ta v s
  | .rowred sw td ta op => slotRowred sw td ta op v s
  | .rowstat sw td ta => slotRowstat sw td ta v s
  | .rowscale sw tz tm tl => slotRowscale sw tz tm tl v s
  | .mma sw tz ta l => slotMma sw tz ta l v s
  | .mloop sw tz ta l kc ki mode => slotMloop sw tz ta l kc ki mode v s
  | .mlatch sw l tb => slotMlatch sw l tb v s
  | .mdrain sw td tz mode => slotMdrain sw td tz mode v s
  | .mzero sw tz => slotMzero sw tz v s
  | .tbr t => slotTbr t v s
  | .tcall t => slotTcall t v s
  | .tret ka => slotTret ka v s
  | .gret => slotGret v s
  | .nextw ka => slotNextw ka v s
  | .tlwaitTile k ka => slotTlwaitTile k ka v s
  | .trapTile imm => slotTrapTile imm v s
  | _ => .next s

/-- The trap of a slot's encoding (spec/04 R96). -/
def DecErrTrap : DecErr → Trap
  | .opcode => mkTrap cIllegalOpcode 0
  | .enc n => mkTrap cIllegalEncoding n

/-- The engine whose shape registers a slot exchanges. -/
def slotEng : Slot → Eng
  | .c => .c
  | .v => .v
  | .m => .m
  | _ => .d

/-- One slot of a bundle. -/
def slotOf (w : W256) (x : Slot) (v : TView) (s : State) : SlotRes :=
  match bundleSlot w x with
  | .error e => .trap (DecErrTrap e)
  | .ok .noop => .next s
  | .ok (.swap i) => .next (s.swap v (slotEng x) (some i))
  | .ok (.op i) =>
    match s.missingFeature v.f.ctx i with
    | some f => .trap (mkTrap cFeature f)
    | none => slotRun i v s

/-- The slots of a bundle one after another, from the state that they have reached. What ends the bundle stands with the index
of its slot. -/
def slotsRun (w : W256) (v : TView) : List Slot → State → Bool → State × Option (Nat × SlotRes) × Bool
  | [], s, jumped => (s, none, jumped)
  | x :: xs, s, jumped =>
    match slotOf w x v s with
    | .next t => slotsRun w v xs t jumped
    | .jump t => slotsRun w v xs t true
    | r => (s, some (x.index, r), jumped)

/-- The waits that a bundle has before it issues (spec/04 R87, R98, R102, R105, spec/03 R78): for the lanes' stores before the
GATE, for reads and writes that are due, for registers that have not landed, for STOP, and for what its slots wait for. -/
def State.bundleWait (s : State) (w : W256) (v : TView) : Option TileWait :=
  let f := v.f.prune s.time.toNat
  let stores := s.ops.any fun o => o.blk == f.blk && decide (o.id < f.uid) && f.gangs.contains o.gang &&
    (match o.issuer with | .tile _ => false | _ => true) && o.units.any OpUnit.writes
  let due (d : Nat) : Bool := decide (d ≤ f.bundles)
  let late := f.nextws.any (fun x => due x.due) || f.landings.any fun l => match l.due with | some d => due d | none => false
  if stores || f.overdue s.time.toNat || late || (bit w 248 && !f.fixed.isEmpty) then some .none
  else
    (slotOrder.filter fun x => decide (f.sresume.toNat ≤ x.index)).findSome? fun x =>
      match bundleSlot w x with
      | .ok (.op i) => slotWait i v s
      | _ => none

/-- A bundle waits for a KMUL that would land only after bundles that cannot issue before it: the result lands now (spec/04 R98,
spec/15 R388; log 23). -/
def State.landNow (s : State) (v : TView) (w : W256) : State :=
  let needs (r : Nat) : Bool := (slotOrder.filter fun x => decide (v.f.sresume.toNat ≤ x.index)).any fun x =>
    match bundleSlot w x with
    | .ok (.op i) => (slotRegs i).any fun n => n != 63 && n.toNat == r
    | _ => false
  s.updFrame v.f.uid fun f =>
    { f with landings := f.landings.map fun l => if needs l.reg then { l with due := l.due.map fun d => min d f.bundles } else l }

/-- A bundle that cannot issue: with SAFE and a reason that yields, the sequencer is free (spec/04 R90). -/
def State.bundleHold (s : State) (v : TView) (safe : Bool) (w : TileWait) : State :=
  match w with
  | .none => s
  | .remap _ => s.updFrame v.f.uid fun f => { f with wait := w }
  | _ =>
    if !safe then s
    else
      let t := match w with | .ring l => s.ringArm (.tile v.f.uid) l | _ => s
      { (t.updFrame v.f.uid fun f => { f with status := 2, wait := w }) with running := t.running.filter fun r => r.2 != v.f.uid }

/-- The end of a bundle whose slots have all committed. -/
def State.bundleEnd (s : State) (f : Nat) (jumped : Bool) : State :=
  s.updFrame f fun x =>
    if x.draining then x else { x with pc := if jumped then x.pc else x.pc + 32, image := none, sresume := 0 }

/-- A bundle issued by the running tile context (spec/04 R97). -/
def State.issueBundle (s : State) (w : W256) (v0 : TView) : State :=
  if bits w 247 240 ≠ 0 then s.trapAt v0.f.uid 0 (mkTrap cIllegalEncoding 0)
  else
    match s.bundleWait w v0 with
    | some r => (s.landNow v0 w).bundleHold v0 (bit w 249) r
    | none =>
      let s1 : State := s.updFrame v0.f.uid fun f =>
        let g := f.prune s.time.toNat
        { g with image := some v0.r, books := v0.books, wait := .none, bundles := if f.sresume = 0 then f.bundles + 1 else f.bundles }
      let v : TView := match s1.frame? v0.f.uid with | some f => { v0 with f } | none => v0
      let slots := slotOrder.filter fun x => decide (v0.f.sresume.toNat ≤ x.index)
      match slotsRun w v slots s1 false with
      | (t, none, j) => t.bundleEnd v.f.uid j
      | (_, some (_, .after u x), _) => (u.bundleEnd v.f.uid true).trapAt v.f.uid 0 x
      | (t, some (k, r), _) =>
        match r with
        | .hold q => s.bundleHold v0 (bit w 249) q
        | r => (if k = 0 then s else t).slotEnd v0 k r

/-- TILE_BUNDLE (spec/04 R95-R98). -/
def execTileBundle (w : W256) (s : State) : Host.Outcome State Fault Refusal :=
  match s.tview? with
  | none => .fault .noIssuer
  | some v => .next (s.issueBundle w v)

end Sys2Proof.Machine
end

