-- ==== Sys2Proof/Machine/Returns.lean ====
section
/-! DEFINITION. Events of accesses and engines: data that returns, acknowledgements, completions, landings, wake-ups, the end
of a frame, and the moves of tile contexts, paths and gangs (spec/02 R49-R51, spec/03 R71, R77, R78, spec/04 R89-R91, R101,
R113, spec/08 R225, R227, R230, spec/15 R388, R391, spec/16 R434). An event whose condition does not hold changes nothing. -/

namespace Sys2Proof.Machine

/-- The outcome of an event: it stands when its condition holds. -/
def event (c : Bool) (s t : State) : Host.Outcome State Fault Refusal := .next (if c then t else s)

/-! ### Data and acknowledgements -/

/-- A loaded value written: to registers of a lane, through the conversion of an element load, or to a tile context's pending
register. -/
def State.landLoad (s : State) (o : Op) (dst : LoadDst) (n x : Nat) : State :=
  match dst with
  | .v lane d => s.updGang o.blk o.gang fun g => g.setV d.toNat lane (ceilDiv n 4) x
  | .elem lane d menc rfmt nib fmt book scale =>
    let code := if efWidth menc = 4 then (if nib then x / 16 else x % 16) else x
    let (y, fl) := elemLoad menc rfmt fmt book scale code
    (s.updGang o.blk o.gang fun g =>
      { (g.setV d.toNat lane 1 y) with
        slices := g.slices.mapIdx fun i z => if i = lane / 4 then { z with fflags := z.fflags ||| fl } else z })
  | .none =>
    (match o.issuer with
     | .tile f => s.updFrame f fun z =>
         { z with landings := z.landings.map fun l => if l.id = o.id then { l with value := some (BitVec.ofNat 64 x) } else l }
     | _ => s)

/-- The fill of the part that a missed load reads (spec/07 R179, spec/08 R224), at the home's value of that instant; a poisoned part is
not held (spec/07 R204, spec/15 R395). -/
def State.fillPart (s : State) (o : Op) (l : Loc) : State :=
  match l with
  | .phys a =>
    if s.lineBusy o.core a || s.poisoned l 1 then s
    else s.l1Fill o.core o.ctx a (s.sealedPa o.ctx a) (BitVec.ofNat 128 (s.readNat (.phys (a / 16 * 16)) 16))
  | .shared _ _ => s

/-- A part of a line read at home for a fill that reaches the core's cache at a later time. A fill waits for the core's stores to the line
(spec/08 R224), and no poisoned part is held. -/
def State.lateFetch (s : State) (core ctx pa : Nat) : State :=
  if s.lineBusy core pa || s.poisoned (.phys pa) 1 then s
  else s.l1Fill core ctx pa (s.sealedPa ctx pa) (BitVec.ofNat 128 (s.readNat (.phys (pa / 16 * 16)) 16)) true

/-- Such a part reaches the cache. A load that hits it returns a write that others may have overwritten since, where no order forbids it
(spec/08 R217): an acquire at .clus scope or wider has dropped it, and the core's own stores have changed it. -/
def State.lateInstall (s : State) (core pa : Nat) : State :=
  match s.l1.find? fun x => x.holds core pa true, s.l1Part core pa true with
  | some x, some v =>
    ({ s with l1 := s.l1.map fun y => if y.holds core pa true then { y with parts := y.parts.set (pa / 16 % 16) none } else y } : State).l1Fill
      core x.ctx pa x.isSealed v
  | _, _ => s

/-- NEXTW's atomic on its descriptor: the value delivered, and whether the work-status error is set (spec/03 R77). -/
def workValue (w : W256) : W64 × Bool :=
  let i := bits w 63 0
  let count := bits w 127 64
  let width := bits w 151 128
  if width = 0 ∨ bits w 191 152 ≠ 0 ∨ bits w 255 192 ≠ 0 then (0x8000000000000000#64, true)
  else if count ≤ i then (0x8000000000000000#64, false)
  else if 2 ^ 39 ≤ i / width then (0x8000000000000000#64, true)
  else (BitVec.ofNat 64 (i / width * 2 ^ 24 + i % width), false)

/-- The writes of an atomic's lanes on one location, each in its turn: a monitor compares every one of them (spec/08 R227, spec/13 R323). A
CAS that does not change the value writes nothing. -/
def State.atomWrites (s : State) (ctx : Nat) (l : Loc) (n : Nat) (fn : AtomFn) : Nat → List AtomReq → State
  | _, [] => s
  | old, r :: rs =>
    let new := atomStep fn n old r
    let t := if fn = .cas ∧ new = old then s else s.writeLoc ctx l n (BitVec.ofNat 128 new) (byteMask n)
    t.atomWrites ctx l n fn new rs

/-- One part of an operation in flight performed at its home. An ordinary load returns its core's resident part, or the home's value of
that instant: a candidate of spec/08 R217 (DESIGN CHOICE; log 11). -/
def State.performUnit (s : State) (o : Op) (u : OpUnit) : State :=
  match u.kind with
  | .store d m => s.writeLoc o.ctx u.loc u.n d m
  | .load home dst got =>
    let x := match got with | some x => x.toNat | none => s.readNat u.loc u.n
    let t := s.landLoad o dst u.n x
    if home || got.isSome then t else t.fillPart o u.loc
  | .atom fn reqs d =>
    let old := s.readNat u.loc u.n
    let (xs, _) := atomRun fn u.n old reqs
    let t := s.atomWrites o.ctx u.loc u.n fn old reqs
    (match d with
     | some r => xs.foldl (fun t p => t.landLoad o (.v p.1 r) u.n p.2) t
     | none => t)
  | .addRun z =>
    let (new, _) := addWords (wordsOf (s.readLoc u.loc (4 * z.length))) z
    (match u.loc with
     | .phys a => (s.setOwner a o.ctx).poke a (bytesOf new)
     | .shared b off => s.updShared b off (bytesOf new))
  | .nextw =>
    let w : W256 := BitVec.ofNat 256 (s.readNat u.loc 32)
    let (x, bad) := workValue w
    let t := s.writeLoc o.ctx u.loc 8 (BitVec.ofNat 128 ((bits w 63 0 + 1) % 2 ^ 64)) (byteMask 8)
    let t1 := if bad then t.setCerr o.ctx 3 else t
    (match o.issuer with
     | .tile f => t1.updFrame f fun z => { z with nextws := z.nextws.map fun l => if l.id = o.id then { l with value := some x } else l }
     | _ => t1)
  | .fill => s.fillPart o u.loc

/-- Whether a part returns data to its issuer, or fills a line. -/
def OpUnit.returns (u : OpUnit) : Bool :=
  match u.kind with
  | .load _ _ _ => true
  | .atom _ _ d => d.isSome
  | .nextw => true
  | .fill => true
  | _ => false

/-- The end of an operation of the thread set whose last data has been written: its slices go on, after the acquire of its
order. -/
def State.opDone (s : State) (o : Op) : State :=
  let t := s.updGang o.blk o.gang fun g => g.mapWait fun _ x => if x.wait = .data o.id then { x with wait := .none } else x
  let u := if orderAcq o.order then t.l1Acquire o.core else t
  match u.gang? o.blk o.gang with
  | some g => if g.finished then u.settle o.blk else u
  | none => u

/-- A part performed and removed. -/
def State.unitDone (s : State) (o : Op) (u : OpUnit) : State :=
  let t := (s.performUnit o u).dropUnit o.id u.name
  let left := o.units.any fun x => x.name != u.name && !x.isFill
  match o.issuer with
  | .group _ _ _ => if left || u.isFill then t else t.opDone o
  | _ => t

/-- The part of an operation that an event names. -/
def State.unit? (s : State) (op unit : Nat) : Option (Op × OpUnit) :=
  (s.op? op).bind fun o => (o.units.find? fun u => u.name == unit).map fun u => (o, u)

/-- LOAD_DATA_RETURN (spec/03 R71, spec/08 R223). A first-level hit returns without waiting. -/
def execLoadDataReturn (op unit : Nat) (s : State) : Host.Outcome State Fault Refusal :=
  match s.unit? op unit with
  | none => .next s
  | some (o, u) =>
    let hit := match u.kind with | .load _ _ g => g.isSome | _ => false
    event (u.returns && (hit || s.unitReady o u)) s (s.unitDone o u)

/-- STORE_ACKNOWLEDGEMENT (spec/08 R225): the store, or the atomic that returns nothing, is performed at its home and
acknowledged. -/
def execStoreAcknowledgement (op unit : Nat) (s : State) : Host.Outcome State Fault Refusal :=
  match s.unit? op unit with
  | none => .next s
  | some (o, u) => event (!u.returns && s.unitReady o u) s (s.unitDone o u)

/-! ### Completions -/

/-- The completion of an asynchronous operation of one kind. -/
def State.completion (s : State) (kind : TlKind) (op : Nat) : Host.Outcome State Fault Refusal :=
  match s.aop? op with
  | none => .next s
  | some o => event (o.kind == kind && s.completable o) s (s.complete o)

/-- COPY_COMPLETION (spec/08 R230). -/
def execCopyCompletion (op : Nat) (s : State) : Host.Outcome State Fault Refusal := s.completion .copy op

/-- MATRIX_OPERATION_COMPLETION (spec/06 R156). -/
def execMatrixOperationCompletion (op : Nat) (s : State) : Host.Outcome State Fault Refusal := s.completion .matrix op

/-- COLLECTIVE_COMPLETION (spec/09 R259). -/
def execCollectiveCompletion (op : Nat) (s : State) : Host.Outcome State Fault Refusal := s.completion .coll op

/-- FIXED_LATENCY_WRITE_VISIBLE (spec/04 R101, R102). -/
def execFixedLatencyWriteVisible (frame op part : Nat) (s : State) : Host.Outcome State Fault Refusal :=
  match s.frame? frame with
  | none => .next s
  | some f =>
    match f.fixed.find? fun x => x.id == op with
    | none => .next s
    | some x =>
      match x.writes[part]? with
      | none => .next s
      | some w => event (x.computed && s.fixedWritable f x w) s (s.fixedShow f x part)

/-! ### Landings -/

/-- A pending register write of a frame lands. -/
def State.land (s : State) (f : Nat) (l : Landing) (x : W64) : State :=
  s.updFrame f fun z => { z with regs := z.regs.setK l.reg x, landings := z.landings.filter fun y => y.id != l.id }

/-- The landing that an event names. -/
def State.landing (s : State) (frame op : Nat) (ok : Frame → Landing → Bool) : Host.Outcome State Fault Refusal :=
  match s.frame? frame with
  | none => .next s
  | some f =>
    match f.landings.find? fun l => l.id == op && ok f l with
    | none => .next s
    | some l => (match l.value with | some x => .next (s.land frame l x) | none => .next s)

/-- KLD_LANDING (spec/15 R391). -/
def execKldLanding (frame op : Nat) (s : State) : Host.Outcome State Fault Refusal := s.landing frame op fun _ l => l.due.isNone

/-- KMUL_LANDING (spec/15 R388): after four issued bundles, or earlier for a bundle that waits for it (log 23) or in a
GRET's drain, after which no bundle issues (spec/14 R378). -/
def execKmulLanding (frame op : Nat) (s : State) : Host.Outcome State Fault Refusal :=
  s.landing frame op fun f l => match l.due with | some d => f.draining || decide (d ≤ f.bundles) | none => false

/-- NEXTW_LANDING (spec/03 R78): the oldest NEXTW whose bundle count has come and whose value is back. -/
def execNextwLanding (frame : Nat) (s : State) : Host.Outcome State Fault Refusal :=
  match s.frame? frame with
  | none => .next s
  | some f =>
    match f.nextws with
    | [] => .next s
    | x :: xs =>
      (match x.value with
       | some y => event (decide (x.due ≤ f.bundles)) s (s.updFrame frame fun z => { z with regs := z.regs.setK (32 + x.target) y, nextws := xs })
       | none => .next s)

/-! ### Wake-ups -/

/-- Slices of an issuing group, replaced. -/
def State.mapIssuer (s : State) (i : Issuer) (f : Slice → Slice) : State :=
  match i with
  | .group blk gn gi => s.updGang blk gn fun g => g.mapWait fun _ x => if x.group = gi then f x else x
  | _ => s

/-- Whether a slice of an issuing group waits for something. -/
def State.issuerWaits (s : State) (i : Issuer) (w : Wait) : Bool :=
  match i with
  | .group blk gn gi => (match s.gang? blk gn with | some g => g.slices.any fun x => x.group == gi && x.wait == w | none => false)
  | _ => false

/-- MONWAIT_WAKE (spec/08 R227): a write that satisfied the comparison wakes the waiter. -/
def execMonwaitWake (i : Issuer) (s : State) : Host.Outcome State Fault Refusal :=
  event (s.monitors.any fun m => m.kind == .waiter i && m.hit) s
    ((s.disarm i).mapIssuer i fun x => match x.wait with | .monwait none => { x with wait := .none, again := .woken } | _ => x)

/-- MONWAIT_POLL (spec/08 R227): a polling interval ends, and the waiter reloads its word. -/
def execMonwaitPoll (i : Issuer) (s : State) : Host.Outcome State Fault Refusal :=
  .next (s.mapIssuer i fun x => match x.wait with | .monwait (some n) => { x with wait := .none, again := .polled n } | _ => x)

/-- RING_WAIT_WAKE (spec/16 R434): a monitor or a poll lets the waiter test its ring again. A tile context does so when its bundle issues
again, and a slice group at once, so that it is ready only with a slot granted (spec/03 R70). A stop grants none (spec/10 R275). -/
def execRingWaitWake (i : Issuer) (s : State) : Host.Outcome State Fault Refusal :=
  match i with
  | .tile f =>
    event (match s.frame? f with | some x => (match x.wait with | .ring _ => true | _ => false) | none => false) s
      ((s.disarm i).updFrame f fun x => { x with wait := .none })
  | i =>
    match ({ s with cur := i } : State).view? with
    | none => .next s
    | some v =>
      (match (v.slice v.low).wait with
       | .retry (.ringTake peek d sc va) => event ((s.ctx v.b.ctx).state == 1) s (s.ringServe v peek d sc va)
       | _ => .next s)

/-! ### The end of a frame, and tile contexts -/

/-- Whether a GRET's drain has ended (spec/04 R91). -/
def State.drained (s : State) (f : Frame) : Bool :=
  f.draining && (s.ctx f.ctx).state != 2 && (f.prune s.time.toNat).fixed.isEmpty && f.landings.isEmpty && !s.aops.any fun o => o.owner == .tile f.uid

/-- The lowest queued error of a frame: its timeline and its report (spec/10 R271). -/
def Frame.lowestErr (f : Frame) : Option (Nat × Trap × ErrQueue) :=
  let all := f.errs.mapIdx fun k q => (k, q)
  let nums := all.flatMap fun p => p.2.entries.map fun e => (e.number, p.1)
  match nums with
  | [] => none
  | x :: xs =>
    let m := xs.foldl (fun a b => if b.1 < a.1 then b else a) x
    ((f.errs.getD m.2 { entries := [], ovf := false }).report fun _ => true).map fun r => (m.2, r.1, r.2)

/-- A frame ends: the scalars return, the gangs go on behind the GATE, and the tile context, windows and latches free. A gang whose trap
was taken at the GATE returns behind it. -/
def State.endFrame (s : State) (f : Frame) : State :=
  let back (g : Gang) : Gang :=
    if !f.gangs.contains g.name then g
    else
      { g with
        active := false, issuedActive := 0, readyFor := 0, leaves := false,
        groups := g.groups.map fun r => { r with s := r.s.mapIdx fun i x => if i < 8 then f.regs.k.getD i 0 else x },
        slices := g.slices.map fun x =>
          let y := { x with fflags := x.fflags ||| f.regs.fflags }
          if x.wait = .frame f.uid then { y with pc := f.retpc, wait := .none, again := .fresh }
          else if x.trapMode.isSome ∧ x.tpc = f.gatePc then { y with tpc := f.retpc.setWidth 64 }
          else y }
  let t := s.updBlock f.blk fun b => { b with gangs := b.gangs.map fun g => if g.finished then g else back g }
  ({ t with frames := t.frames.filter fun x => x.uid != f.uid,
            running := t.running.filter fun r => r.2 != f.uid,
            latches := t.latches.map (Latch.without (· == f.uid)) } : State).settle f.blk

/-- GRET_COMPLETION (spec/04 R91, R113, spec/14 R378): an error still queued is raised first. -/
def execGretCompletion (frame : Nat) (s : State) : Host.Outcome State Fault Refusal :=
  match s.frame? frame with
  | none => .next s
  | some f =>
    event (s.drained f) s
      (match f.lowestErr with
       | some (k, t, q) => (s.updFrame frame fun x => { x with draining := false, errs := putAt 3 { entries := [], ovf := false } x.errs k q }).trapAt frame 5 t
       | none => s.endFrame f)

/-- FRAME_TAKES_TILE_CONTEXT (spec/04 R89). -/
def execFrameTakesTileContext (core : Nat) (s : State) : Host.Outcome State Fault Refusal := .next (s.freePlace core)

/-- Whether a frame's tile context can issue (spec/04 R90). -/
def State.tileReady (s : State) (f : Frame) : Bool :=
  f.tctx.isSome && f.token.isNone &&
    (match f.status.toNat with
     | 1 => true
     | 2 =>
       (match f.wait with
        | .none => true
        | .timeline k n => s.opsDone f.uid k n
        | .ring _ => false
        | .remap _ => true)
     | 5 => !f.draining
     | _ => false)

/-- The next ready tile context of a core after the last one (spec/04 R90). Before any has run, context 0 is tried first (log 25). -/
def State.nextTile (s : State) (core : Nat) : Option Frame :=
  let last := (assocGet core s.seqLast).getD 3
  let at_ (k : Nat) : Option Frame :=
    s.frames.find? fun f => f.core == core && f.tctx == some ((last + k) % 4) && s.tileReady f
  [1, 2, 3, 4].findSome? at_

/-- TILE_CONTEXT_SWITCH (spec/04 R90): a free sequencer takes the next ready tile context. -/
def execTileContextSwitch (core : Nat) (s : State) : Host.Outcome State Fault Refusal :=
  match s.nextTile core with
  | none => .next s
  | some f =>
    event (!s.running.any fun r => r.1 == core) s
      { (s.updFrame f.uid fun x => { x with wait := .none, status := if x.status = 2 then 1 else x.status }) with
        running := s.running ++ [(core, f.uid)],
        seqLast := assocSet core (f.tctx.getD 0) s.seqLast }

/-! ### Rotation and promotion -/

/-- Whether a slice begins a new instruction, and does not go on with one. -/
def Slice.begins (x : Slice) : Bool := x.wait == .none && x.again == .fresh

/-- Rotation at an instruction boundary of a group (spec/02 R49): its slices whose paths must give way rotate, and the group parts
by the addresses at which its slices then stand (R39). -/
def State.rotateGroup (s : State) (blk gang grp : Nat) : State :=
  let t : State := { s with cur := .group blk gang grp }
  match t.view? with
  | none => s
  | some v =>
    let rot := v.m.filter fun i => (v.slice i).begins && (v.slice i).mustRotate
    if rot.isEmpty then s
    else { (t.finish v 8 (.moved (t.updSlices v rot fun _ y => y.rotate y.pc))) with cur := s.cur }

/-- SLICE_ROTATION (spec/02 R49). -/
def execSliceRotation (blk gang slice : Nat) (s : State) : Host.Outcome State Fault Refusal :=
  match (s.gang? blk gang).bind fun g => g.slices[slice]? with
  | none => .next s
  | some x => event (x.begins && x.mustRotate) s (s.rotateGroup blk gang x.group)

/-- Whether a gang can be moved out of the active set: no slice of it is within an instruction that goes on by issuing again. One
that has arrived at a barrier, or that is suspended for fault service before its instruction, is at a boundary (spec/02 R51; log
25). -/
def Gang.atEdge (g : Gang) : Bool := g.slices.all fun x => x.exited || (match x.wait with
  | .none => x.again == .fresh
  | .retry _ => false
  | _ => true)

/-- A gang moved to the pending set; the latches of its slices become invalid (spec/02 R51). -/
def Gang.toPending (g : Gang) : Gang :=
  { g with active := false, issuedActive := 0, readyFor := 0, leaves := false, slices := g.slices.map fun x => { x with yValid := 0 } }

/-- The gangs of a quadrant that have not finished, with their blocks. -/
def State.quadRoster (s : State) (core quad : Nat) : List (Nat × Gang) :=
  (s.blocks.filter fun b => b.core == core).flatMap fun b => (b.gangs.filter fun g => g.quad == quad && !g.finished).map fun g => (b.uid, g)

/-- A gang that a quadrant has chosen moves to the pending set at its next instruction boundary, whatever has become free since (spec/02
R51). -/
def State.leaveActive (s : State) (core quad : Nat) : State :=
  match (s.quadRoster core quad).find? fun p => p.2.active && p.2.leaves with
  | some o => if o.2.atEdge then s.updGang o.1 o.2.name Gang.toPending else s
  | none => s

/-- PENDING_GANG_PROMOTION (spec/03 R71, spec/02 R51): the longest-waiting ready pending gang takes a free place of the active
set; after 256 issue cycles the active gang that has issued most is chosen, and it moves to the pending set at its next instruction
boundary: until then it stays the one chosen, and begins no instruction. `ready` says which gangs can issue. -/
def State.promote (s : State) (core quad : Nat) (ready : Nat → Gang → Bool) : State :=
  let s := s.leaveActive core quad
  let all := s.quadRoster core quad
  let pend := all.filter fun p => !p.2.active && ready p.1 p.2
  let act := all.filter fun p => p.2.active
  let better (f : Gang → Nat) (a b : Nat × Gang) : Nat × Gang :=
    if f a.2 < f b.2 ∨ (f a.2 = f b.2 ∧ b.2.slot < a.2.slot) then b else a
  match pend with
  | [] => s
  | p :: ps =>
    let w := ps.foldl (better (·.readyFor)) p
    let enter (t : State) : State := t.updGang w.1 w.2.name fun g => { g with active := true, issuedActive := 0, readyFor := 0 }
    if act.length < Config.quadActive then enter s
    else if w.2.readyFor < 256 || act.any (·.2.leaves) then s
    else match act with
      | [] => enter s
      | a :: as =>
        let o := as.foldl (better (·.issuedActive)) a
        if !o.2.atEdge then s.updGang o.1 o.2.name fun g => { g with leaves := true }
        else enter (s.updGang o.1 o.2.name Gang.toPending)

/-- Whether a waiting condition holds (spec/08 R225, spec/18 R495, spec/13 R349, spec/07 R197, R199, R202). -/
def State.condMet (s : State) (i : Issuer) (blk ctx core gang : Nat) (c : WaitCond) : Bool :=
  match c with
  | .release => s.releaseDone blk core i
  | .clusterRelease =>
    (match s.block? blk with
     | some b => (s.blocks.filter fun x => x.cluster == b.cluster).all fun x => s.storesDone x.uid x.core
     | none => true)
  | .timeline t b => s.tlReached t b
  | .batch n => s.batchDone blk gang n
  | .pbar _ => false
  | .ringTake _ _ _ _ => false
  | .ringMark commit l slot =>
    (match s.ringMark { who := { blk := s.block? blk, ctx, core, lane := none, service := false }, blk, issuer := i } commit l slot with
     | .ok none => false
     | _ => true)
  | .replay => true
  | .copyRoom n => decide ((s.copies blk gang).length + n ≤ 32)
  | .seal k => (match (s.ctx ctx).seals.find? fun e => e.idx == k with | some e => !s.regionWriting ctx e.base e.len | none => true)
  | .unseal k => (match (s.ctx ctx).seals.find? fun e => e.idx == k with | some e => !e.busy | none => true)
  | .shootdown r => (match s.shootdowns.find? fun x => x.id == r with | some x => x.done | none => true)
  | .remap va => (s.shootdownAt ctx va).isNone
  | .earlier l n => !s.earlierBusy blk l n
  | .line k pa => !s.lineBusy k pa

/-- Whether a slice can issue: it runs, or the condition of its wait holds. -/
def State.sliceReady (s : State) (b : Block) (g : Gang) (x : Slice) : Bool :=
  !x.exited && (match x.wait with
    | .none => true
    | .retry c => s.condMet (.group b.uid g.name x.group) b.uid b.ctx b.core g.name c
    | _ => false)

/-- Whether a gang is ready: no slice of it is suspended for fault service, and one can issue (spec/03 R71, spec/07 R188). -/
def State.gangReady (s : State) (b : Block) (g : Gang) : Bool :=
  !(g.slices.any fun x => match x.wait with | .fault _ => true | _ => false) && g.slices.any (s.sliceReady b g)

/-- The same by a block's name. -/
def State.gangReadyAt (s : State) (blk : Nat) (g : Gang) : Bool :=
  match s.block? blk with
  | some b => s.gangReady b g
  | none => false

/-- PENDING_GANG_PROMOTION (spec/02 R51). -/
def execPendingGangPromotion (core quad : Nat) (s : State) : Host.Outcome State Fault Refusal :=
  .next (s.promote core quad s.gangReadyAt)

end Sys2Proof.Machine
end

