-- ==== Sys2Proof/Machine/Intake.lean ====
section
/-! DEFINITION. Flare intake: headers, handler entries, intake queues, admission, coalescing groups, fault service and the
answers that come back (spec/07 R188-R193, spec/09 R232, R236-R242, R245-R248). -/

namespace Sys2Proof.Machine

/-! ### CRC-32C and header flits (spec/09 R232) -/

/-- One bit of the CRC-32C register, reflected polynomial. -/
def crcBit (c : W32) : W32 := if bit c 0 then (c >>> 1) ^^^ 0x82F63B78#32 else c >>> 1

/-- One byte of the CRC-32C register. -/
def crcByte (c : W32) (b : Byte) : W32 := (List.range 8).foldl (fun x _ => crcBit x) (c ^^^ b.setWidth 32)

/-- CRC-32C of bytes, with the usual initial value and final inversion (log 16). -/
def crc32c (bs : List Byte) : W32 := ~~~(bs.foldl crcByte 0xFFFFFFFF#32)

/-- Header bits [223:0]. -/
def headBits (p : Packet) : Nat :=
  p.ddev.toNat + p.dctx.toNat * 2 ^ 19 + p.hidx.toNat * 2 ^ 31 + p.prio.toNat * 2 ^ 43 + p.sdev.toNat * 2 ^ 45 +
    p.sctx.toNat * 2 ^ 64 + p.stag.toNat * 2 ^ 76 + p.seq.toNat * 2 ^ 92 + p.flags.toNat * 2 ^ 108 + p.kind.toNat * 2 ^ 112 +
    p.addr.toNat * 2 ^ 128 + p.nflit % 16 * 2 ^ 185 + p.len % 512 * 2 ^ 189

/-- The header flit and the following flits as bytes. -/
def packetFlits (p : Packet) : List Byte :=
  let h := leBytes 28 (headBits p)
  h ++ leBytes 4 (crc32c (h ++ p.data)).toNat ++ p.data

/-- Whether a packet's header is well formed (spec/09 R232). One that does not use ADDR, HIDX or a FLAGS bit and has it nonzero is dropped as
well (DESIGN CHOICE: the table says 0 there, the list of drops does not name it; log 17). -/
def packetOk (p : Packet) : Bool :=
  let n := p.nflit
  let carries := p.kind == 2 || p.kind == 4 || p.kind == 6
  p.checkOk && p.reserved == 0 && decide (p.kind.toNat < 8) && p.data.length == 32 * n && decide (n ≤ 8) &&
    (if carries then decide (1 ≤ p.len) && decide (p.len ≤ 256) && n == ceilDiv p.len 32
     else if p.kind == 3 then decide (1 ≤ p.len) && decide (p.len ≤ 256) && n == 0
     else p.len == 0 && n == (if p.kind == 0 then 1 else 0)) &&
    (if p.kind == 2 || p.kind == 3 then decide (p.addr.toNat % 256 + p.len ≤ 256) else p.addr == 0) &&
    (match p.kind.toNat with
     | 0 => decide (p.flags.toNat < 4)
     | 1 => decide (p.flags.toNat < 6)
     | 2 => decide (p.flags.toNat < 2)
     | 4 => decide (p.flags.toNat < 2)
     | 5 => decide (p.flags.toNat < 2)
     | _ => p.flags == 0) &&
    (match p.kind.toNat with
     | 0 => true
     | 1 => true
     | 6 => true
     | 7 => true
     | _ => p.hidx == 0) && (p.kind != 6 || p.coll.isSome)

/-! ### Handler entries (spec/09 R236, R237) -/

/-- A handler entry of 32 bytes; none when it is bad. -/
def HEntry.ofBytes (d : CtxDesc) (bs : List Byte) : Option HEntry :=
  let w : W256 := BitVec.ofNat 256 (leNat bs)
  let h : HEntry := { code := bits w 56 0, window := bits w 127 112, maxg := bits w 111 104, regs := bits w 103 95,
                      idem := bit w 92, spill := bit w 91, shared := bits w 159 128, priv := bits w 191 160 }
  if bits w 63 57 ≠ 0 ∨ bits w 94 93 ≠ 0 ∨ bits w 89 64 ≠ 0 ∨ bits w 255 192 ≠ 0 ∨ !bit w 90 ∨ h.code % 8 ≠ 0 ∨ h.maxg = 0 ∨
     64 < h.maxg ∨ h.regs < 4 ∨ 256 < h.regs ∨ h.regs % 4 ≠ 0 ∨ 262144 < h.shared ∨ h.shared % 256 ≠ 0 ∨ h.priv % 16 ≠ 0 ∨
     d.privmax < h.priv then none
  else some h

/-- The handler entry of an index, or none with what the context's error status records (spec/09 R237, spec/10 R534). -/
def State.handlerEntry (s : State) (c idx : Nat) : Option HEntry × State :=
  let d := (s.ctx c).desc
  if d.hcount ≤ idx then (none, s.setCerr c 1)
  else match s.devRead c (d.htab + 32 * idx) 32 with
    | none => (none, (s.setCerr c 6).setCerr c 1)
    | some bs =>
      match HEntry.ofBytes d bs with
      | some h => (some h, s)
      | none => (none, s.setCerr c 1)

/-- A request that names a bad index is logged with its HIDX, SDEV and SCTX (spec/09 R237). -/
def State.logIndex (s : State) (c : Nat) (p : Packet) : State :=
  s.updCtx c fun x => { x with badIndex := x.badIndex ++ [(p.hidx, p.sdev, p.sctx)] }

/-! ### Intake descriptors (spec/09 R238) -/

/-- An intake class from its descriptor; none for a descriptor that acts as CAP 0 and SCAP 0. -/
def IntakeClass.ofBytes (bs : List Byte) : Option IntakeClass :=
  let w : W256 := BitVec.ofNat 256 (leNat bs)
  let k : IntakeClass := { cap := bits w 95 64, scap := bits w 127 96, base := bits w 56 0, spillBase := bits w 184 128,
                           queue := [], spill := [] }
  if bits w 63 57 ≠ 0 ∨ bits w 191 185 ≠ 0 ∨ bits w 255 192 ≠ 0 ∨ 65536 < k.cap ∨ 2 ^ 24 < k.scap ∨ k.base % 64 ≠ 0 ∨
     k.spillBase % 64 ≠ 0 then none
  else some k

/-- The class of an unusable descriptor. -/
def IntakeClass.empty : IntakeClass := { cap := 0, scap := 0, base := 0, spillBase := 0, queue := [], spill := [] }

/-- The intake descriptors of a context read; an unusable one is logged once. -/
def State.readIntake (s : State) (c : Nat) : State :=
  (List.range 4).foldl (fun t k =>
    let add (u : State) (x : IntakeClass) : State := u.updCtx c fun y => { y with intake := y.intake ++ [x] }
    match t.devRead c ((t.ctx c).desc.intake + 32 * k) 32 with
    | none => add (t.setCerr c 6) .empty
    | some bs =>
      match IntakeClass.ofBytes bs with
      | some x => add t x
      | none =>
        let u := if bit (t.ctx c).intakeLogged k then t else t.setCerr c 2
        add (u.updCtx c fun y => { y with intakeLogged := y.intakeLogged ||| BitVec.ofNat 4 (2 ^ k) }) .empty)
    (s.updCtx c fun y => { y with intake := [] })

/-! ### Coalescing groups (spec/09 R242, R245) -/

/-- Whether a group still takes packets. -/
def CGroup.opens (g : CGroup) (now : Nat) : Bool :=
  decide (g.pkts.length < 32) &&
    (if g.h.window = 0 then g.opened == now else g.closed.isNone && decide (now < g.opened + g.h.window))

/-- A packet joins its handler's open group, or opens one. With WINDOW 0 a group closes in the cycle of its first packet. A group runs under
one handler entry: a packet whose entry was read anew and differs closes it (spec/09 R237; log 17). -/
def State.joinGroup (s : State) (c cls hidx : Nat) (q : QPkt) : State :=
  let now := s.time.toNat
  let fits (g : CGroup) : Bool := g.cls == cls && g.hidx == hidx && g.opens now
  match (s.ctx c).groups.find? fun g => fits g && g.h == q.h with
  | some g =>
    s.updCtx c fun x => { x with groups := x.groups.map fun y =>
      if y.uid ≠ g.uid then y
      else { y with pkts := y.pkts ++ [q], closed := if y.pkts.length = 31 then some now else y.closed } }
  | none =>
    let g : CGroup := { uid := s.uid, cls, hidx, h := q.h, pkts := [q], opened := now,
                        closed := if q.h.window = 0 then some now else none, bumped := 0 }
    { (s.updCtx c fun x => { x with groups := x.groups.map (fun y => if fits y && y.closed.isNone then { y with closed := some now } else y) ++ [g] }) with
      uid := s.uid + 1 }

/-- Whether a context gathers packets: not from a stop request until its restore (spec/09 R246). -/
def State.gathers (s : State) (c : Nat) : Bool := (s.ctx c).state == 1

/-- At a restore, every packet that waits joins again, in queue order. -/
def State.regather (s : State) (c : Nat) : State :=
  let x := s.ctx c
  let qs := (x.intake.mapIdx fun k y => y.queue.map fun q => (k, q)).flatten ++ x.faults.filterMap fun e => e.held.map fun q => (3, q)
  let sorted := qs.foldl (fun (l : List (Nat × QPkt)) p => (l.takeWhile fun r => r.2.pos < p.2.pos) ++ p :: (l.dropWhile fun r => r.2.pos < p.2.pos)) []
  sorted.foldl (fun t p => t.joinGroup c p.1 p.2.pkt.hidx.toNat p.2) (s.updCtx c fun y => { y with groups := [] })

/-! ### Admission (spec/09 R239) -/

/-- Whether a context is present (spec/09 R240). -/
def Ctx.present (c : Ctx) : Bool := c.state == 1 || c.state == 2 || c.state == 3

/-- Whether a context admits packets of a device (spec/09 R252). -/
def State.admits (s : State) (c dev : Nat) : Bool :=
  (s.ctx c).present && decide (c < Config.contexts) && (dev == s.devid.toNat || ((assocGet c s.partitions).getD []).contains dev)

/-- The lowest free entry of a class's queue, and of its spill ring. -/
def freeEntry (used : List QPkt) (cap : Nat) : Option Nat :=
  let ks := used.filterMap (·.place)
  (List.range (used.length + 1)).find? fun i => decide (i < cap) && !ks.contains i

/-- A class replaced. -/
def State.updClass (s : State) (c k : Nat) (f : IntakeClass → IntakeClass) : State :=
  s.updCtx c fun x => { x with intake := x.intake.mapIdx fun i y => if i = k then f y else y }

/-- A packet put into a class's queue, if its entry can be written; it joins its group. -/
def State.enqueue (s : State) (c k : Nat) (p : Packet) (h : HEntry) : Option State :=
  let x := (s.ctx c).intake.getD k .empty
  match freeEntry x.queue x.cap with
  | none => none
  | some i =>
    (s.devWrite c (x.base + 64 * i) (packetFlits p)).map fun t =>
      let q : QPkt := { pos := t.uid, place := some i, pkt := p, h }
      let u := { (t.updClass c k fun y => { y with queue := y.queue ++ [q] }) with uid := t.uid + 1 }
      if u.gathers c then u.joinGroup c k p.hidx.toNat q else u

/-- A packet put into a class's spill ring, if its entry can be written. -/
def State.spillIn (s : State) (c k : Nat) (p : Packet) (h : HEntry) : Option State :=
  let x := (s.ctx c).intake.getD k .empty
  match freeEntry x.spill x.scap with
  | none => none
  | some i =>
    (s.devWrite c (x.spillBase + 64 * i) (packetFlits p)).map fun t =>
      { (t.updClass c k fun y => { y with spill := y.spill ++ [{ pos := t.uid, place := some i, pkt := p, h }] }) with uid := t.uid + 1 }

/-- The decision on a request: its answer code. An entry that cannot be written gives code 1 (spec/10 R534). -/
def State.takePacket (s : State) (p : Packet) : Nat × State :=
  let c := p.dctx.toNat
  let k := p.prio.toNat
  if !s.admits c p.sdev.toNat then (3, s)
  else match s.handlerEntry c p.hidx.toNat with
    | (none, t) => (2, t.logIndex c p)
    | (some h, t) =>
      let x := (t.ctx c).intake.getD k .empty
      if x.spill.isEmpty && decide (x.queue.length < x.cap) then
        (match t.enqueue c k p h with
         | some u => (0, u)
         | none => (1, t.setCerr c 6))
      else if h.spill && decide (x.spill.length < x.scap) then
        (match t.spillIn c k p h with
         | some u => (4, u)
         | none => (1, t.setCerr c 6))
      else (1, t)

/-- Spilled packets move into the queue, oldest first, one per free place. A packet is held as it was admitted: its entry in memory is
written and not read again (DESIGN CHOICE for spec/09 R239; log 17). -/
def State.refill (c k : Nat) : Nat → State → State
  | 0, s => s
  | fuel + 1, s =>
    let x := (s.ctx c).intake.getD k .empty
    match x.spill with
    | [] => s
    | q :: qs =>
      if x.cap ≤ x.queue.length then s
      else
        match s.enqueue c k q.pkt q.h with
        | some t => State.refill c k fuel (t.updClass c k fun y => { y with spill := qs })
        | none => s.setCerr c 6

/-- COALESCING_WINDOW_EXPIRY (spec/09 R242). -/
def execCoalescingWindowExpiry (ctx group : Nat) (s : State) : Host.Outcome State Fault Refusal :=
  .next (s.updCtx ctx fun x => { x with groups := x.groups.map fun g =>
    if g.uid = group ∧ g.closed = none ∧ g.opened + g.h.window ≤ s.time.toNat then { g with closed := some (g.opened + g.h.window) }
    else g })

/-- A group counts as one class higher for every 16,384 cycles that it has waited since it closed, up to class 3. -/
def CGroup.promote (g : CGroup) (now : Nat) : CGroup :=
  match g.closed with
  | some t => { g with bumped := min (3 - g.cls) ((now - t) / 16384) }
  | none => g

/-- GROUP_AGE_PROMOTION (spec/09 R245). -/
def execGroupAgePromotion (ctx group : Nat) (s : State) : Host.Outcome State Fault Refusal :=
  .next (s.updCtx ctx fun x => { x with groups := x.groups.map fun g => if g.uid = group then g.promote s.time.toNat else g })

/-! ### Answers (spec/09 R247, R248) -/

/-- An answer reaches the lane that waits for it. A later one finds no request. -/
def State.answer (s : State) (id code : Nat) : State :=
  match s.flares.find? fun r => r.id == id && r.answer.isNone with
  | none => s
  | some r =>
    ({ s with flares := s.flares.map fun x => if x.id = id then { x with answer := some code } else x } : State).flareWake r.issuer

/-- Whether an answer packet belongs to a request: its device, context, path, SEQ, STAG and HIDX. -/
def FlareReq.answeredBy (r : FlareReq) (p : Packet) : Bool :=
  r.answer.isNone && p.sdev == r.pkt.ddev && p.dctx == r.pkt.sctx && p.prio == r.pkt.prio && p.seq == r.pkt.seq &&
    p.stag == r.pkt.stag && p.hidx == r.pkt.hidx

/-- Whether a packet is a Flare answer, which carries its request's number (spec/09 R247). The others are numbered on their path (R233). -/
def isAnswer (p : Packet) : Bool := p.kind == 1

/-- A packet taken from this device's ports: well formed, for this device, and, where it is its own, one that it has sent. Of
another device, a packet is taken in the order of its path's numbers; the port waits for a missing one (spec/09 R233). -/
def State.receive (s : State) (p : Packet) : Option State :=
  if !packetOk p || p.ddev != s.devid then none
  else if p.sdev != s.devid then
    (if isAnswer p then some s
     else
       let due := match s.rx.find? fun x => x.1 == p.sdev.toNat && x.2.1 == p.prio.toNat with | some x => x.2.2 | none => 0
       if p.seq.toNat = due then
         some { s with rx := (p.sdev.toNat, p.prio.toNat, (due + 1) % 2 ^ 16) :: s.rx.filter fun x => !(x.1 == p.sdev.toNat && x.2.1 == p.prio.toNat) }
       else none)
  else if (s.selfPkts.find? fun q => q.prio == p.prio && isAnswer q == isAnswer p) == some p then some { s with selfPkts := s.selfPkts.erase p }
  else none

/-- An answer, acknowledgement or response leaves on the reverse path, with the request's STAG and HIDX; an answer has its SEQ too. -/
def State.reply (s : State) (p : Packet) (kind flags len : Nat) (data : List Byte) : State :=
  let q : Packet :=
    { s.packet kind p.sdev.toNat p.sctx.toNat p.dctx.toNat p.prio.toNat with
      flags := BitVec.ofNat 4 flags, seq := p.seq, stag := p.stag, hidx := p.hidx, len, nflit := ceilDiv len 32,
      data := data ++ List.replicate (32 * ceilDiv len 32 - data.length) 0 }
  if !isAnswer q then (match s.send q with | some (_, t) => t | none => s)
  else if p.sdev = s.devid then { s with selfPkts := s.selfPkts ++ [q] }
  else if s.routed p.sdev.toNat then s.depart q
  else s

/-- FLARE_ANSWER (spec/09 R247): a KIND 1 packet for this device. -/
def execFlareAnswer (p : Packet) (s : State) : Host.Outcome State Fault Refusal :=
  match s.receive p with
  | none => .next s
  | some t =>
    if p.kind ≠ 1 then .next s
    else match t.flares.find? fun r => r.answeredBy p with
      | none => .next t
      | some r => .next (t.answer r.id p.flags.toNat)

/-- FLARE_REQUEST (spec/09 R239): a KIND 0 packet is admitted or rejected, and answered once its entry is written. -/
def execFlareRequest (p : Packet) (s : State) : Host.Outcome State Fault Refusal :=
  match s.receive p with
  | none => .next s
  | some t =>
    if p.kind ≠ 0 ∨ bit p.flags 1 then .next s
    else
      let (code, u) := t.takePacket p
      .next (u.reply p 1 code 0 [])

/-! ### Fault service (spec/07 R188-R193) -/

/-- PAGE_FAULT at the instruction or slot of a party that fault service cannot help (spec/07 R192, spec/09 R241, spec/10 R534). -/
def State.failWaiter (s : State) (i : Issuer) (va : VAddr) : State :=
  let t := mkTrap cPageFault 0x10 va.toNat
  match i with
  | .group b gn gi =>
    (match s.gang? b gn with
     | some g => s.takeTrap b gn ((g.members gi).map fun k => (k, t))
     | none => s)
  | .tile f =>
    (match s.frame? f with
     | some x => (s.updFrame f fun y => { y with token := none }).trapAt f x.sresume.toNat t
     | none => s)
  | .none => s

/-- A fault-table entry as the device keeps it, else as it stands in memory. -/
def State.faultWord (s : State) (c i : Nat) : Option W128 :=
  match assocGet i (s.ctx c).faultWords with
  | some w => some w
  | none => (s.devRead c ((s.ctx c).desc.ftab + 16 * i) 16).map fun bs => BitVec.ofNat 128 (leNat bs)

/-- The lowest free entry of the fault table below `n`: its index and generation. `none` inside: the table cannot be read. -/
def State.freeFaultEntry (s : State) (c : Nat) : Nat → Nat → Option (Option (Nat × BitVec 20))
  | _, 0 => some none
  | i, n + 1 =>
    if (s.ctx c).faults.any fun e => e.idx == i then s.freeFaultEntry c (i + 1) n
    else match s.faultWord c i with
      | none => none
      | some w =>
        let resv := bits w 11 2 ≠ 0 ∨ bits w 63 32 ≠ 0 ∨ bits w 95 86 ≠ 0 ∨ bits w 127 112 ≠ 0
        if bits w 1 0 = 0 ∧ ¬resv then some (some (i, w.extractLsb' 12 20)) else s.freeFaultEntry c (i + 1) n

/-- Arena slot, gang number, core, unit and frame number of a waiter. -/
def State.waiterWords (s : State) (i : Issuer) : Nat × Nat × Nat × Nat × Nat :=
  match i with
  | .group b gn _ =>
    (match s.block? b, s.gang? b gn with
     | some x, some g => (x.slot, g.no, x.core, g.quad * 16 + g.slot, 0)
     | _, _ => (0, 0, 0, 0, 0))
  | .tile f =>
    (match s.frame? f with
     | some x => ((match s.block? x.blk with | some b => b.slot | none => 0), 0, x.core, x.tctx.getD 0, x.number.toNat)
     | none => (0, 0, 0, 0, 0))
  | .none => (0, 0, 0, 0, 0)

/-- The token of an entry. -/
def faultToken (idx : Nat) (gen : BitVec 20) : W32 := BitVec.ofNat 32 (gen.toNat * 4096 + idx)

/-- The 16 bytes of a taken entry (spec/07 R190). -/
def State.faultBytes (s : State) (gen : BitVec 20) (i : Issuer) : List Byte :=
  let (slot, gang, _, _, frame) := s.waiterWords i
  let tile := match i with | .tile _ => 1 | _ => 0
  leBytes 4 (gen.toNat * 4096 + 1) ++ leBytes 4 0 ++ leBytes 4 (slot % 2 ^ 16 + gang * 2 ^ 16 + tile * 2 ^ 21) ++ leBytes 4 frame

/-- The fault Flare of a waiter (spec/07 R188, R189). -/
def State.faultFlare (s : State) (c : Nat) (w : FaultWait) (token : W32) : Packet :=
  let (_, _, core, unit, frame) := s.waiterWords w.waiter
  let tile := match w.waiter with | .tile _ => 1 | _ => 0
  { s.packet 0 s.devid.toNat c c 3 with
    flags := 2, hidx := BitVec.ofNat 12 (s.ctx c).desc.fhidx, stag := token.setWidth 16, nflit := 1,
    data := leBytes 4 (w.va.toNat % 2 ^ 32) ++ leBytes 4 (w.va.toNat / 2 ^ 32) ++ leBytes 4 token.toNat ++
      leBytes 4 (w.kind + 4 * tile) ++ leBytes 4 (core + unit * 2 ^ 8 + frame * 2 ^ 16) ++ leBytes 12 0 }

/-- The token is told to the waiter. -/
def State.giveToken (s : State) (i : Issuer) (token : W32) : State :=
  match i with
  | .tile f => s.updFrame f fun x => { x with token := some (some token) }
  | i => s.mapIssuer i fun x => match x.wait with | .fault _ => { x with wait := .fault (some token) } | _ => x

/-- FAULT_ENTRY_ASSIGN (spec/07 R188, R190, spec/09 R241): the oldest waiter takes the lowest free entry, and its Flare is
held. Where the table cannot be reached or FHIDX is bad, the waiter raises PAGE_FAULT. -/
def State.assignFault (s : State) (c : Nat) : State :=
  match (s.ctx c).faultWaits with
  | [] => s
  | w :: ws =>
    let left := s.updCtx c fun x => { x with faultWaits := ws }
    match s.freeFaultEntry c 0 (s.ctx c).desc.ftcount with
    | none => (left.setCerr c 6).failWaiter w.waiter w.va
    | some none => s
    | some (some (idx, gen)) =>
      match left.devWrite c ((s.ctx c).desc.ftab + 16 * idx) (left.faultBytes gen w.waiter) with
      | none => (left.setCerr c 6).failWaiter w.waiter w.va
      | some t =>
        let e : FaultEntry := { idx, gen, state := 1, waiter := w.waiter, held := none }
        match t.handlerEntry c (s.ctx c).desc.fhidx with
        | (none, u) => (u.freeFault c e).failWaiter w.waiter w.va
        | (some h, u) =>
          let token := faultToken idx gen
          let q : QPkt := { pos := u.uid, place := none, pkt := u.faultFlare c w token, h }
          let v : State := { ((u.giveToken w.waiter token).updCtx c fun x => { x with faults := x.faults ++ [{ e with held := some q }] }) with uid := u.uid + 1 }
          if v.gathers c then v.joinGroup c 3 (s.ctx c).desc.fhidx q else v

/-- FAULT_ENTRY_ASSIGN. -/
def execFaultEntryAssign (ctx : Nat) (s : State) : Host.Outcome State Fault Refusal := .next (s.assignFault ctx)

end Sys2Proof.Machine
end

