-- ==== Sys2Proof/Machine/Front.lean ====
section
/-! DEFINITION. The front end: queue tables, tickets, launch records, timelines' waits and signals, and graph launches (spec/03
R55-R66, spec/10 R534, spec/11 R310). -/

namespace Sys2Proof.Machine

/-! ### Queues (spec/03 R55-R58) -/

/-- A queue descriptor; none for an enabled entry that is not served, some none for a disabled one. -/
def queueOf (idx : Nat) (bs : List Byte) : Option (Option Queue) :=
  let w : BitVec 512 := BitVec.ofNat 512 (leNat bs)
  let q : Queue := { idx, base := bits w 56 0, tail := bits w 120 64, head := bits w 184 128, cring := bits w 248 192,
                     crlog := bits w 263 260, slog := bits w 259 256, prio := bits w 290 289, inHand := none, poll := 0, word := 0 }
  if !bit w 288 then some none
  else if bits w 63 57 ≠ 0 ∨ bits w 127 121 ≠ 0 ∨ bits w 191 185 ≠ 0 ∨ bits w 255 249 ≠ 0 ∨ bits w 287 264 ≠ 0 ∨
     bits w 511 291 ≠ 0 ∨ q.slog = 0 ∨ q.base % 4096 ≠ 0 ∨ q.tail % 8 ≠ 0 ∨ q.head % 8 ≠ 0 ∨ q.cring % 16 ≠ 0 then none
  else some (some q)

/-- The queue of a context. -/
def Ctx.queue? (c : Ctx) (qi : Nat) : Option Queue := c.queues.find? fun q => q.idx == qi

/-- A queue replaced. -/
def State.updQueue (s : State) (c qi : Nat) (f : Queue → Queue) : State :=
  s.updCtx c fun x => { x with queues := x.queues.map fun q => if q.idx = qi then f q else q }

/-- The front end's monitor of a queue disarmed. -/
def State.feDisarm (s : State) (c qi : Nat) : State :=
  { s with monitors := s.monitors.filter fun m => m.kind != .frontEnd c qi }

/-- A queue that the device cannot reach is no longer served (spec/10 R534). -/
def State.dropQueue (s : State) (c qi : Nat) : State :=
  ((s.setCerr c 6).feDisarm c qi).updCtx c fun x => { x with queues := x.queues.filter fun q => q.idx != qi }

/-- What a queue awaits: its record number, the physical address of the word awaited, and whether tail and ticket have come. -/
def State.awaits (s : State) (c : Nat) (q : Queue) : Option (Nat × Nat × Bool) :=
  match s.devNat c q.head 8, s.devNat c q.tail 8, s.devPhys c q.tail false with
  | some i, some t, some pt =>
    if t ≤ i then some (i, pt, false)
    else
      let slot := q.base + i % 2 ^ q.slog * 64
      (match s.devNat c slot 4, s.devPhys c slot false with
       | some k, some ps => some (i, ps, k == i % 2 ^ 32)
       | _, _ => none)
  | _, _, _ => none

/-- The front end arms a monitor on the word that a queue awaits, or polls it. -/
def State.feWatch (s : State) (c qi : Nat) : State :=
  let t := (s.feDisarm c qi).updQueue c qi fun q => { q with poll := 0 }
  match (t.ctx c).queue? qi with
  | none => t
  | some q =>
    if q.inHand.isSome then t
    else match t.awaits c q with
      | none => t.dropQueue c qi
      | some (_, pa, _) =>
        match homeSlice pa with
        | some h =>
          if t.monsAt h < Config.monitorsPerSlice then
            { t with monitors := t.monitors ++ [{ slice := h, loc := .phys pa, kind := .frontEnd c qi, tests := [], hit := false }] }
          else t.updQueue c qi fun q => { q with poll := 256, word := pa }
        | none => t.updQueue c qi fun q => { q with poll := 256, word := pa }

/-- The queue table of a context read: an entry that cannot be reached or is malformed is logged and not served. A queue that
stays keeps the record that it has in hand. -/
def State.readQueues (s : State) (c : Nat) : State :=
  let old := (s.ctx c).queues
  let s0 := (old.foldl (fun t q => t.feDisarm c q.idx) s).updCtx c fun x => { x with queues := [] }
  (List.range 64).foldl (fun t i =>
    match t.devRead c ((t.ctx c).desc.qtab + 64 * i) 64 with
    | none => t.setCerr c 6
    | some bs =>
      match queueOf i bs with
      | none => t.setCerr c 0
      | some none => t
      | some (some q) =>
        let kept := (old.find? fun x => x.idx == i).bind (·.inHand)
        (t.updCtx c fun x => { x with queues := x.queues ++ [{ q with inHand := kept }] }).feWatch c i) s0

/-! ### Kernel descriptors (spec/03 R66, spec/11 R310, spec/06 R145, spec/07 R175, R176) -/

/-- Whether a core is fenced (spec/10 R285). -/
def State.fenced (s : State) (core : Nat) : Bool := bit s.fenceC core

/-- Whether a core group has no fenced core (spec/01 R24). -/
def State.groupClear (s : State) (g : Nat) : Bool := (List.range 4).all fun i => !s.fenced (4 * g + i)

/-- Gangs of a kernel's block. -/
def Kernel.gangs (k : Kernel) : Nat := ceilDiv k.lanes 32

/-- A kernel descriptor's 64 bytes; none when a field fails the fit checks. -/
def kernelOf (d : CtxDesc) (addr : Nat) (bs : List Byte) : Option Kernel :=
  let w : BitVec 512 := BitVec.ofNat 512 (leNat bs)
  let k : Kernel :=
    { addr, entry := bits w 56 0, gtab := bits w 120 64, ltab := bits w 184 128, brtab := bits w 248 192,
      shared := bits w 287 256, priv := bits w 319 288, argn := bits w 347 344, idem := bit w 343, csize := bits w 342 340,
      regs := bits w 339 331, lanes := bits w 330 320, resv := bits w 364 352, brcount := bits w 408 400,
      gaten := bits w 390 384, zwin := bits w 435 431, xwin := bits w 430 424, wwin := bits w 423 416 }
  let resvd := bits w 63 57 ≠ 0 ∨ bits w 127 121 ≠ 0 ∨ bits w 191 185 ≠ 0 ∨ bits w 255 249 ≠ 0 ∨ bits w 351 348 ≠ 0 ∨
    bits w 383 365 ≠ 0 ∨ bits w 415 409 ≠ 0 ∨ bits w 399 391 ≠ 0 ∨ bits w 447 436 ≠ 0 ∨ bits w 511 448 ≠ 0
  let place := k.entry % 8 ≠ 0 ∨ k.gtab % 128 ≠ 0 ∨ k.ltab % 16 ≠ 0 ∨ k.brtab % 8 ≠ 0
  let limit := 262144 < k.shared ∨ k.shared % 256 ≠ 0 ∨ k.priv % 16 ≠ 0 ∨ d.privmax < k.priv ∨ 8 < k.argn ∨ k.csize = 0 ∨
    4 < k.csize ∨ k.regs < 4 ∨ 256 < k.regs ∨ k.regs % 4 ≠ 0 ∨ k.lanes = 0 ∨ 1024 < k.lanes ∨ 4096 < k.resv ∨ k.resv % 4 ≠ 0 ∨
    256 < k.brcount ∨ (k.brcount = 0 ↔ k.brtab ≠ 0) ∨ 64 < k.gaten ∨ (k.gaten = 0 ↔ k.gtab ≠ 0) ∨ 16 < k.zwin ∨ 64 < k.xwin ∨
    128 < k.wwin ∨ 4096 < k.gangs * k.regs + k.resv
  if resvd ∨ place ∨ limit then none else some k

/-- The kernel that a record names, when it and its argument block can be read and it fits. -/
def State.kernelAt (s : State) (c code : Nat) (args : W64) : Option Kernel × State :=
  match s.devRead c code 64 with
  | none => (none, s.setCerr c 6)
  | some bs =>
    match kernelOf (s.ctx c).desc code bs with
    | none => (none, s)
    | some k =>
      if 1 < k.csize ∧ !(List.range 40).any s.groupClear then (none, s)
      else match s.devRead c args.toNat (8 * k.argn) with
        | none => (none, s.setCerr c 6)
        | some _ => (some k, s)

/-! ### Launch records (spec/03 R59, R60) -/

/-- The fields of a record. -/
def recordOf (i : Nat) (w : BitVec 512) : Record :=
  let nwait := bits w 61 59
  { recNo := i, cring := 0, crlog := 0, ticket := w.extractLsb' 0 32, kind := bits w 63 62, nwait, sigmode := bits w 58 57, sigtl := bits w 55 44,
    code := bits w 120 64, args := w.extractLsb' 128 64, gx := bits w 255 224, gy := bits w 223 208, gz := bits w 207 192,
    waits := (List.range (min nwait 4)).map fun k => (bits w (256 + 64 * k + 63) (256 + 64 * k + 52), bits w (256 + 64 * k + 47) (256 + 64 * k)) }

/-- Whether a record's fields are well formed, apart from its kernel and its graph. -/
def State.recordOk (s : State) (c : Nat) (w : BitVec 512) : Bool :=
  let r := recordOf 0 w
  let words := (List.range 4).all fun k =>
    if k < r.nwait then bits w (256 + 64 * k + 51) (256 + 64 * k + 48) == 0 else bits w (256 + 64 * k + 63) (256 + 64 * k) == 0
  let zero := r.args == 0 && r.gx == 0 && r.gy == 0 && r.gz == 0
  r.kind != 3 && decide (r.nwait ≤ 4) && !bit w 56 && bits w 43 32 == 0 && bits w 127 121 == 0 && bits w 191 185 == 0 && words &&
    r.code % 64 == 0 && r.args.toNat % 16 == 0 && r.waits.all (fun p => s.holdsTimeline c p.1) &&
    (!bit w 57 || s.holdsTimeline c r.sigtl) &&
    (match r.kind with
     | 0 => r.code != 0 && r.gx != 0 && r.gy != 0 && r.gz != 0
     | 1 => r.code != 0 && zero
     | _ => r.code == 0 && zero)

/-- Wait conditions hold (spec/03 R61). -/
def State.waitsHold (s : State) (r : Record) : Bool :=
  r.waits.all fun p => decide (((s.timeline p.1).count - BitVec.ofNat 64 p.2).toNat % 2 ^ 48 < 2 ^ 47)

/-- A record finishes with a status and signals (spec/03 R62): the completion record, then the timeline, with the error flag for
a malformed record or a cyclic graph (R60, R65). -/
def State.finishRecord (s : State) (c : Nat) (r : Record) (status : Nat) : State :=
  let t :=
    if 2 ≤ r.sigmode ∧ r.cring ≠ 0 then
      (match s.devWrite c (r.cring + r.recNo % 2 ^ r.crlog * 16) (leBytes 4 r.ticket.toNat ++ leBytes 4 status ++ leBytes 8 s.time.toNat) with
       | some t => t
       | none => s.setCerr c 6)
    else s
  let err := status == 2 || status == 3
  if r.sigmode % 2 = 1 ∧ (status ≠ 2 ∨ t.holdsTimeline c r.sigtl) then
    (let u := t.signal r.sigtl err
     if err then u.setCerr c 5 else u)
  else t

/-! ### Graph instances (spec/03 R64, R65) -/

/-- Whether a range lies in sealed regions of a context. -/
def State.sealedRange (s : State) (c base len : Nat) : Bool :=
  (pagesOf base len).all fun p => (s.ctx c).seals.any fun e => decide (2 ≤ e.stage) && decide (e.base ≤ p) && decide (p < e.base + e.len)

/-- Words of 16 bits read by the device. -/
def State.devHalves (s : State) (c va n : Nat) : Option (List Nat) :=
  (s.devRead c va (2 * n)).map fun bs => (List.range n).map fun i => leNat ((bs.drop (2 * i)).take 2)

/-- The successor lists of `n` nodes from an address, and the table's end. -/
def State.successors (s : State) (c : Nat) : Nat → Nat → Option (List (List Nat) × Nat)
  | _, 0 => some ([], 0)
  | va, n + 1 =>
    match s.devNat c va 2 with
    | none => none
    | some k =>
      match s.devHalves c (va + 2) k, s.successors c (va + 2 + 2 * k) n with
      | some xs, some (rest, e) => some (xs :: rest, if n = 0 then va + 2 + 2 * k else e)
      | _, _ => none

/-- A graph instance's node count and successor table, when it is well formed, reachable and sealed; else whether it could not be
reached. The front end reads the header when it takes the record, and again when the record starts: an instance unsealed in between makes
the record malformed (DESIGN CHOICE for spec/03 R64; log 24). -/
def State.graphAt (s : State) (c code : Nat) : Except Bool (Nat × Nat) :=
  match s.devRead c code 64 with
  | none => .error true
  | some bs =>
    let w : BitVec 512 := BitVec.ofNat 512 (leNat bs)
    let n := bits w 15 0
    let tab := bits w 120 64
    if bits w 63 16 ≠ 0 ∨ bits w 127 121 ≠ 0 ∨ bits w 511 128 ≠ 0 ∨ n = 0 ∨ 4096 < n ∨ tab % 8 ≠ 0 ∨
       !s.sealedRange c code (64 + 64 * n) then .error false
    else match s.devRead c (code + 64) (64 * n), s.successors c tab n with
      | some _, some (xs, e) =>
        if xs.all (fun ys => ys.all fun y => decide (y < n)) && s.sealedRange c tab (e - tab) then .ok (n, tab) else .error false
      | _, _ => .error true

/-- The record of a node. -/
def State.nodeWord (s : State) (c : Nat) (l : Launch) (n : Nat) : Option (BitVec 512) :=
  (s.devRead c (l.record.code + 64 + 64 * n) 64).map fun bs => BitVec.ofNat 512 (leNat bs)

/-- A launch replaced. -/
def State.updLaunch (s : State) (c uid : Nat) (f : Launch → Launch) : State :=
  s.updCtx c fun x => { x with launches := x.launches.map fun l => if l.uid = uid then f l else l }

/-- A graph launch ends when its last node has finished, or when none runs and some count is not 0. One whose instance was lost ends
malformed, once the nodes that run have finished. -/
def State.graphSettle (s : State) (c uid : Nat) : State :=
  match (s.ctx c).launches.find? fun l => l.uid == uid with
  | none => s
  | some l =>
    let gone := s.updCtx c fun x => { x with launches := x.launches.filter fun y => y.uid != uid }
    if l.bad then (if l.states.all (· != 2) then gone.finishRecord c l.record 2 else s)
    else if l.states.all (· == 3) then gone.finishRecord c l.record (if l.trapExit then 1 else 0)
    else if l.states.all fun x => x == 0 || x == 3 then gone.finishRecord c l.record 3
    else s

/-- The instance of a launch that is in flight can no longer be reached: the graph's record is malformed, and no further node starts
(spec/10 R534; log 24). -/
def State.graphLost (s : State) (c uid : Nat) : State :=
  ((s.setCerr c 6).updLaunch c uid fun y => { y with bad := true }).graphSettle c uid

/-- A node finishes: its successors' counts fall, and those that reach 0 can start. Without its successor table the launch is lost. -/
def State.nodeDone (s : State) (c uid n : Nat) (trapExit : Bool) : State :=
  match (s.ctx c).launches.find? fun l => l.uid == uid with
  | none => s
  | some l =>
    let s := s.updLaunch c uid fun y => { y with states := y.states.set n 3, trapExit := y.trapExit || trapExit }
    if l.bad then s.graphSettle c uid else
    match s.successors c l.succ (n + 1) with
    | none => s.graphLost c uid
    | some (xs, _) =>
    let succ := xs.getD n []
    let less (k : Nat) (x : Nat) : Nat := x - (succ.filter (· == k)).length
    let counts := l.counts.mapIdx less
    let states := (l.states.set n 3).mapIdx fun (k x : Nat) => if x == 0 && succ.contains k && counts.getD k 0 == 0 then 1 else x
    (s.updLaunch c uid fun y => { y with counts, states }).graphSettle c uid

/-! ### Starting and finishing -/

/-- A grid starts: its blocks may be placed. No grid has the name 0, which the blocks of handlers carry. -/
def State.startGrid (s : State) (c qi : Nat) (r : Record) (node : Option (Nat × Nat)) (k : Kernel) : State :=
  let g : Grid := { uid := s.uid + 1, queue := qi, record := r, node, kernel := k, next := 0, live := 0, total := r.gx * r.gy * r.gz,
                    order := s.uid, unfitSince := none, reserved := false, trapExit := false }
  { (s.updCtx c fun x => { x with grids := x.grids ++ [g] }) with uid := s.uid + 2 }

/-- A graph launch starts: every node without predecessors can start. -/
def State.startGraph (s : State) (c qi : Nat) (r : Record) (n tab : Nat) : State :=
  let counts := (List.range n).map fun k => (s.devNat c (r.code + 64 + 64 * k) 4).getD 0
  let l : Launch := { uid := s.uid, queue := qi, record := r, nodes := n, succ := tab, counts,
                      states := counts.map fun x => if x = 0 then 1 else 0, trapExit := false }
  ({ (s.updCtx c fun x => { x with launches := x.launches ++ [l] }) with uid := s.uid + 1 } : State).graphSettle c s.uid

/-- The record in hand is done with: HEAD advances, and the queue awaits the next. -/
def State.advanceHead (s : State) (c qi i : Nat) : State :=
  match (s.ctx c).queue? qi with
  | none => s
  | some q =>
    match s.devWrite c q.head (leBytes 8 (i + 1)) with
    | none => s.dropQueue c qi
    | some t => (t.updQueue c qi fun q => { q with inHand := none }).feWatch c qi

/-- A record of a queue. -/
def Queue.record (q : Queue) (i : Nat) (w : BitVec 512) : Record := { recordOf i w with cring := q.cring, crlog := q.crlog }

/-- A published record is read: a malformed one finishes at once with status 2. -/
def State.takeRecord (s : State) (c : Nat) (q : Queue) (i : Nat) : State :=
  match s.devRead c (q.base + i % 2 ^ q.slog * 64) 64 with
  | none => s.dropQueue c q.idx
  | some bs =>
    let w : BitVec 512 := BitVec.ofNat 512 (leNat bs)
    let r := q.record i w
    let bad (t : State) : State := (t.finishRecord c r 2).advanceHead c q.idx i
    let keep (t : State) (k : Option Kernel) : State :=
      (t.feDisarm c q.idx).updQueue c q.idx fun x => { x with inHand := some (r, k), poll := 0 }
    if !s.recordOk c w then bad s
    else match r.kind with
      | 0 =>
        (match s.kernelAt c r.code r.args with
         | (some k, t) => if r.gx * r.gy * r.gz % k.csize = 0 then keep t (some k) else bad t
         | (none, t) => bad t)
      | 1 =>
        (match s.graphAt c r.code with
         | .ok _ => keep s none
         | .error unreachable => bad (if unreachable then s.setCerr c 6 else s))
      | _ => keep s none

/-- LAUNCH_TICKET_SEEN (spec/03 R57, R58). With the tail advanced and the ticket not yet stored, the front end watches the
ticket. -/
def execLaunchTicketSeen (ctx queue : Nat) (s : State) : Host.Outcome State Fault Refusal :=
  match (s.ctx ctx).queue? queue with
  | none => .next s
  | some q =>
    if (s.ctx ctx).state ≠ 1 ∨ q.inHand.isSome then .next s
    else match s.awaits ctx q with
      | none => .next (s.dropQueue ctx queue)
      | some (i, _, true) => .next (s.takeRecord ctx q i)
      | some (_, pa, false) =>
        event (q.poll == 0 && !s.monitors.any fun m => m.kind == .frontEnd ctx queue && m.loc == .phys pa) s (s.feWatch ctx queue)

/-- FRONT_END_POLL (spec/03 R58): an interval ends. A word that has not come doubles it, up to 65,536 cycles. Once the tail has come,
the front end watches the ticket: it takes a monitor of the ticket's home, or polls it from 256 cycles. -/
def execFrontEndPoll (ctx queue : Nat) (s : State) : Host.Outcome State Fault Refusal :=
  match (s.ctx ctx).queue? queue with
  | none => .next s
  | some q =>
    if q.poll = 0 ∨ (s.ctx ctx).state ≠ 1 then .next s
    else match s.awaits ctx q with
      | none => .next (s.dropQueue ctx queue)
      | some (i, _, true) => .next (s.takeRecord ctx q i)
      | some (_, pa, false) =>
        .next (if pa = q.word then s.updQueue ctx queue fun q => { q with poll := min (2 * q.poll) 65536 } else s.feWatch ctx queue)

/-- The start of a queue's record in hand. -/
def State.startInHand (s : State) (c : Nat) (q : Queue) (r : Record) (k : Option Kernel) : State :=
  match r.kind, k with
  | 0, some k => (s.startGrid c q.idx r none k).advanceHead c q.idx r.recNo
  | 1, _ =>
    (match s.graphAt c r.code with
     | .ok (n, tab) => (s.startGraph c q.idx r n tab).advanceHead c q.idx r.recNo
     | .error unreachable => ((if unreachable then s.setCerr c 6 else s).finishRecord c r 2).advanceHead c q.idx r.recNo)
  | _, _ => (s.finishRecord c r 0).advanceHead c q.idx r.recNo

/-- The record of a node. Its completion record lies in the queue's completion ring, in the place of the graph's own record. -/
def Launch.nodeRecord (l : Launch) (w : BitVec 512) : Record :=
  { recordOf l.record.recNo w with cring := l.record.cring, crlog := l.record.crlog }

/-- The node of a launch whose record the front end has taken. -/
def Launch.takenAt (l : Launch) (n : Nat) : Option (Record × Option Kernel) := assocGet n l.taken

/-- A node's record is read and checked once, as any record is (spec/03 R60, R64): a malformed one finishes at once with status 2, and
the others wait for their conditions, which a timeline taken back does not change (R63). -/
def State.takeNode (s : State) (c : Nat) (l : Launch) (n : Nat) (w : BitVec 512) : State :=
  let r := l.nodeRecord w
  let bad (t : State) : State := (t.finishRecord c r 2).nodeDone c l.uid n false
  let keep (t : State) (k : Option Kernel) : State := t.updLaunch c l.uid fun y => { y with taken := assocSet n (r, k) y.taken }
  if !s.recordOk c w || r.kind == 1 then bad s
  else if r.kind = 2 then keep s none
  else match s.kernelAt c r.code r.args with
    | (some k, t) => if r.gx * r.gy * r.gz % k.csize = 0 then keep t (some k) else bad t
    | (none, t) => bad t

/-- The start of a node whose record has been taken and whose conditions hold. -/
def State.startNode (s : State) (c : Nat) (l : Launch) (n : Nat) (x : Record × Option Kernel) : State :=
  let t := s.updLaunch c l.uid fun y => { y with taken := assocErase n y.taken }
  match x.2 with
  | some k => (t.updLaunch c l.uid fun y => { y with states := y.states.set n 2 }).startGrid c l.queue x.1 (some (l.uid, n)) k
  | none => (t.finishRecord c x.1 0).nodeDone c l.uid n false

/-- A node that can start: its record is taken, if it has not been, and it starts if its conditions hold. -/
def State.tryNode (s : State) (c : Nat) (l : Launch) (n : Nat) : State :=
  let go (t : State) (x : Record × Option Kernel) : State := if t.waitsHold x.1 then t.startNode c l n x else t
  match l.takenAt n, s.nodeWord c l n with
  | some x, _ => go s x
  | none, none => s.graphLost c l.uid
  | none, some w =>
    let t := s.takeNode c l n w
    match ((t.ctx c).launches.find? fun y => y.uid == l.uid).bind (·.takenAt n) with
    | some x => go t x
    | none => t

/-- RECORD_START (spec/03 R57, R61, R65): the record in hand of a queue, or a node of a graph launch, whose conditions hold. At most 64
graph launches are in flight. -/
def execRecordStart (ctx : Nat) (src : RecSrc) (s : State) : Host.Outcome State Fault Refusal :=
  if (s.ctx ctx).state ≠ 1 then .next s
  else match src with
    | .queue qi =>
      (match (s.ctx ctx).queue? qi with
       | some q =>
         (match q.inHand with
          | some (r, k) =>
            event (s.waitsHold r && (r.kind != 1 || decide ((s.ctx ctx).launches.length < 64))) s (s.startInHand ctx q r k)
          | none => .next s)
       | none => .next s)
    | .node uid n =>
      (match (s.ctx ctx).launches.find? fun l => l.uid == uid with
       | some l => event (l.states.getD n 0 == 1 && !l.bad) s (s.tryNode ctx l n)
       | none => .next s)

/-- Whether a grid's work has retired and its stores are acknowledged. -/
def State.gridDone (s : State) (g : Grid) : Bool :=
  decide (g.total ≤ g.next) && g.live == 0 && !(s.ops.any fun o => o.work == g.uid && o.units.any OpUnit.writes) &&
    !s.aops.any fun o => o.grid == g.uid

/-- RECORD_FINISH (spec/03 R62, R65): a grid's record, or a node's, finishes with its signal. -/
def execRecordFinish (ctx rec : Nat) (s : State) : Host.Outcome State Fault Refusal :=
  match (s.ctx ctx).grids.find? fun g => g.uid == rec with
  | none => .next s
  | some g =>
    let t := (s.updCtx ctx fun x => { x with grids := x.grids.filter fun y => y.uid != rec }).finishRecord ctx g.record
      (if g.bad then 2 else if g.trapExit then 1 else 0)
    event (s.gridDone g) s (match g.node with | some (l, n) => t.nodeDone ctx l n g.trapExit | none => t)

end Sys2Proof.Machine
end

