-- ==== Sys2Proof/Machine/Place.lean ====
section
/-! DEFINITION. Placement of blocks, clusters and handler gangs, reservations, stop requests and time slices (spec/03 R66-R69,
R72-R76, spec/09 R243-R246, spec/07 R176, spec/10 R274, R283). -/

namespace Sys2Proof.Machine

/-- A list in the order of a strict comparison; equal elements keep their places. -/
def insertBy {α : Type} (lt : α → α → Bool) (x : α) : List α → List α
  | [] => [x]
  | y :: ys => if lt x y then x :: y :: ys else y :: insertBy lt x ys

/-- The list sorted. -/
def sortBy {α : Type} (lt : α → α → Bool) (l : List α) : List α := l.foldl (fun acc x => insertBy lt x acc) []

/-! ### Fit (spec/03 R67) -/

/-- What a block takes of a core: pool share, shared memory, gang contexts. -/
structure Need where
  share : Nat
  shared : Nat
  gangs : Nat
deriving DecidableEq, Repr

/-- A kernel's pool share per block (spec/03 R66). -/
def Kernel.share (k : Kernel) : Nat := k.gangs * k.regs + k.resv

/-- Need of a kernel's block. -/
def Kernel.need (k : Kernel) : Need := { share := k.share, shared := k.shared, gangs := k.gangs }

/-- Blocks resident on a core. -/
def State.coreBlocks (s : State) (core : Nat) : List Block := s.blocks.filter fun b => b.core == core

/-- Gangs resident on a core. -/
def State.residentGangs (s : State) (core : Nat) : Nat := (s.coreBlocks core).foldl (fun n b => n + b.gangs.length) 0

/-- Whether a core fits a block. -/
def State.fitsCore (s : State) (n : Need) (core : Nat) : Bool :=
  let bs := s.coreBlocks core
  !s.fenced core && decide (bs.foldl (fun m b => m + b.share) 0 + n.share ≤ Config.pool) &&
    decide (bs.foldl (fun m b => m + b.kernel.shared) 0 + n.shared ≤ Config.sharedBytes) &&
    decide ((List.range 4).foldl (fun m q => m + (s.quadGangs core q).length) 0 + n.gangs ≤ 4 * Config.quadContexts)

/-- The core of a single block. -/
def State.coreFor (s : State) (n : Need) : Option Nat :=
  leastBy s.residentGangs ((List.range Config.cores).filter (s.fitsCore n))

/-- The cores of a cluster, by rank. -/
def State.groupFor (s : State) (ns : List Need) (ok : Nat → Bool) : Option (List Nat) :=
  let n : Need := ns.foldl (fun a b => { share := max a.share b.share, shared := max a.shared b.shared, gangs := max a.gangs b.gangs })
    { share := 0, shared := 0, gangs := 0 }
  let fit (g : Nat) : List Nat := ((List.range 4).map fun i => 4 * g + i).filter fun c => ok c && s.fitsCore n c
  let gs := (List.range 40).filter fun g => s.groupClear g && decide (ns.length ≤ (fit g).length)
  (leastBy (fun g => (List.range 4).foldl (fun m i => m + s.residentGangs (4 * g + i)) 0) gs).map fun g => (fit g).take ns.length

/-- The lowest free arena slots of a context, as many as asked for. -/
def State.freeSlots (s : State) (c n : Nat) : Option (List Nat) :=
  let x := s.ctx c
  let used := ((s.blocks.filter fun b => b.ctx == c).map (·.slot)) ++
    x.pending.flatMap (fun p => if p.again then [] else p.blocks.map (·.slot)) ++ x.saved.map (·.1.slot)
  let ks := ((List.range (used.length + n)).filter fun i => !used.contains i).take n
  if ks.length = n ∧ ks.all (fun k => decide (k < x.desc.aslots)) then some ks else none

/-! ### A block's start (spec/03 R68, spec/02 R28, spec/11 R294, spec/09 R244) -/

/-- Quadrant and context for each of `n` gangs: the quadrant with the most free contexts, its lowest free context. -/
def quadPlaces : Nat → List (List Nat) → List (Nat × Nat)
  | 0, _ => []
  | n + 1, used =>
    match leastBy (fun q => (used.getD q []).length) (List.range 4) with
    | none => []
    | some q =>
      let u := used.getD q []
      let k := ((List.range Config.quadContexts).find? fun i => !u.contains i).getD 0
      (q, k) :: quadPlaces n (used.set q (k :: u))

/-- The contexts in use in each quadrant of a core. -/
def State.quadsUsed (s : State) (core : Nat) : List (List Nat) := (List.range 4).map fun q => (s.quadGangs core q).map (·.slot)

/-- The slices of a gang of some lanes. -/
def startSlices (pc : VAddr) (lanes : Nat) : List Slice :=
  (List.range (ceilDiv lanes 4)).map fun i => Slice.start pc Config.fmtReset (BitVec.ofNat 4 (2 ^ min (lanes - 4 * i) 4 - 1))

/-- Whether the device can no longer reach the argument block of a block that starts (spec/10 R534). -/
def State.argsLost (s : State) (b : Block) : Bool :=
  b.handler.isNone && (List.range b.kernel.argn).any fun j => (s.devNat b.ctx (b.args.toNat + 8 * j) 8).isNone

/-- S registers at a gang's first instruction: the argument block's, or those of a handler gang. -/
def State.startRegs (s : State) (b : Block) : List W64 :=
  match b.handler with
  | some h => [BitVec.ofNat 64 h.pkts.length, BitVec.ofNat 64 h.hidx, BitVec.ofNat 64 h.cls] ++ List.replicate 61 0
  | none =>
    (List.range 64).map fun j => if j < b.kernel.argn then BitVec.ofNat 64 ((s.devNat b.ctx (b.args.toNat + 8 * j) 8).getD 0) else 0

/-- V registers of a handler gang: argument words, sender and tag. -/
def handlerRegs (pkts : List Packet) : List (Nat × W32) :=
  (pkts.mapIdx fun i p =>
    ((List.range 8).map fun j => (j * 32 + i, BitVec.ofNat 32 (leNat ((p.data.drop (4 * j)).take 4)))) ++
      [(8 * 32 + i, p.sdev.setWidth 32), (9 * 32 + i, BitVec.ofNat 32 (p.sctx.toNat * 2 ^ 16 + p.stag.toNat))]).flatten

/-- A block takes shared memory of a core: what retired blocks left there is lost, unless a copy of theirs is in flight. -/
def State.claimShared (s : State) (core : Nat) : State :=
  { s with retired := s.retired.filter fun b => b.core != core || s.aops.any fun o => o.blk == b.uid }

/-- A block starts on a core with an arena slot: its gangs as at their first instruction, pending and ready. Its start is an
acquire at .sys scope (spec/08 R216, R226). -/
def State.initBlock (s : State) (b : Block) (core slot : Nat) : State :=
  let k := b.kernel
  let places := quadPlaces k.gangs (s.quadsUsed core)
  let regs := s.startRegs b
  let v := match b.handler with | some h => handlerRegs h.pkts | none => []
  let gangs := places.mapIdx fun g p =>
    { Gang.start g (s.uid + 1 + g) p.1 p.2 k.regs false (startSlices (BitVec.ofNat 57 k.entry) (min 32 (k.lanes - 32 * g))) regs with v }
  let x : Block :=
    { b with uid := s.uid, core, slot, share := k.share, freePart := k.resv, claims := [], shared := [], cb := List.replicate 8 0,
             gangs, trapExit := false }
  ({ s.claimShared core with blocks := s.blocks ++ [x], uid := s.uid + 1 + k.gangs, ctr := s.ctr + 1 } : State).l1Acquire core

/-- A block of a grid before its start. -/
def gridBlock (c : Nat) (g : Grid) (cluster n : Nat) : Block :=
  let r := g.record
  { uid := 0, ctx := c, core := 0, grid := g.uid, queue := g.queue, ticket := r.ticket, cluster, crank := n % g.kernel.csize,
    number := n, bx := n % r.gx, bY := n / r.gx % r.gy, bz := n / (r.gx * r.gy), args := r.args, kernel := g.kernel,
    handler := none, slot := 0, share := 0, freePart := 0, claims := [], shared := [], cb := [], gangs := [], relaunch := 0,
    trapExit := false }

/-- A handler block before its start (spec/09 R243). -/
def handlerBlock (c : Nat) (g : CGroup) : Block :=
  { uid := 0, ctx := c, core := 0, grid := 0, queue := 0, ticket := 0, cluster := g.uid, crank := 0, number := 0, bx := 0, bY := 0,
    bz := 0, args := 0,
    kernel := { addr := 0, entry := g.h.code, gtab := 0, ltab := 0, brtab := 0, shared := g.h.shared, priv := g.h.priv, argn := 0,
                idem := g.h.idem, csize := 1, regs := max g.h.regs 12, lanes := g.pkts.length, resv := 0, brcount := 0, gaten := 0,
                zwin := 0, xwin := 0, wwin := 0 },
    handler := some { hidx := g.hidx, cls := g.cls, maxg := g.h.maxg, pkts := g.pkts.map (·.pkt) },
    slot := 0, share := 0, freePart := 0, claims := [], shared := [], cb := [], gangs := [], relaunch := 0, trapExit := false }

/-! ### Handler gangs (spec/09 R243, R245) -/

/-- A group whose window has passed is closed, whether or not its expiry event has come (spec/09 R242). -/
def CGroup.expire (g : CGroup) (now : Nat) : CGroup :=
  if g.closed = none ∧ g.opened + g.h.window ≤ now then { g with closed := some (g.opened + g.h.window) } else g

/-- The closed groups of a context in placement order. -/
def Ctx.groupOrder (c : Ctx) (now : Nat) : List CGroup :=
  let first (g : CGroup) : Nat := match g.pkts with | q :: _ => q.pos | [] => 0
  let gs := ((c.groups.map fun g => g.expire now).filter fun g => g.closed.isSome).map fun g => g.promote now
  sortBy (fun a b => decide (b.cls + b.bumped < a.cls + a.bumped) || (a.cls + a.bumped == b.cls + b.bumped && decide (first a < first b))) gs

/-- Resident gangs of a handler. -/
def State.handlerGangs (s : State) (c hidx : Nat) : Nat :=
  (s.blocks.filter fun b => b.ctx == c && (match b.handler with | some h => h.hidx == hidx | none => false)).length

/-- A core and an arena slot for a group's gang. -/
def State.groupPlace (s : State) (c : Nat) (g : CGroup) : Option (Nat × Nat) :=
  if g.h.maxg ≤ s.handlerGangs c g.hidx then none
  else match s.coreFor (handlerBlock c g).kernel.need, s.freeSlots c 1 with
    | some core, some (slot :: _) => some (core, slot)
    | _, _ => none

/-- The first group that can be placed; a handler's later groups wait for its earlier ones. -/
def State.pickGroup (s : State) (c : Nat) : List CGroup → List Nat → Option (CGroup × Nat × Nat)
  | [], _ => none
  | g :: gs, failed =>
    if failed.contains g.hidx then s.pickGroup c gs failed
    else match s.groupPlace c g with
      | some (core, slot) => some (g, core, slot)
      | none => s.pickGroup c gs (g.hidx :: failed)

/-- Handlers of which a gang waits to be placed again: it goes before their later groups. -/
def Ctx.heldHandlers (c : Ctx) : List Nat := c.pending.flatMap fun p => p.blocks.filterMap fun b => b.handler.map (·.hidx)

/-- The handler gang that is next in a context. -/
def State.nextHandler (s : State) (c : Nat) : Option (CGroup × Nat × Nat) :=
  if (s.ctx c).state ≠ 1 then none else s.pickGroup c ((s.ctx c).groupOrder s.time.toNat) (s.ctx c).heldHandlers

/-- HANDLER_GANG_PLACEMENT (spec/09 R243): the gang is placed, its packets leave the queue, and spilled ones move in. -/
def execHandlerGangPlacement (ctx : Nat) (s : State) : Host.Outcome State Fault Refusal :=
  match s.nextHandler ctx with
  | none => .next s
  | some (g, core, slot) =>
    let gone (q : QPkt) : Bool := g.pkts.any fun p => p.pos == q.pos
    let t := s.initBlock (handlerBlock ctx g) core slot
    let u := t.updCtx ctx fun x =>
      { x with groups := x.groups.filter fun y => y.uid != g.uid,
               intake := x.intake.map fun k => { k with queue := k.queue.filter fun q => !gone q },
               faults := x.faults.map fun e => match e.held with
                 | some q => if gone q then { e with held := none } else e
                 | none => e }
    .next (State.refill ctx g.cls ((u.ctx ctx).intake.getD g.cls .empty).spill.length u)

/-! ### Blocks and clusters (spec/03 R67, R69) -/

/-- Something that the front end may place: blocks pending in a context, or the next block or cluster of a grid. -/
inductive Want where
  | pending (ctx k : Nat)
  | next (ctx grid : Nat)
deriving DecidableEq, Repr

/-- The priority of a grid's queue: that of the queue as it is now, and 0 when it is no longer served (DESIGN CHOICE for spec/03 R69;
log 24). -/
def State.gridPrio (s : State) (c : Nat) (g : Grid) : Nat := match (s.ctx c).queue? g.queue with | some q => q.prio | none => 0

/-- What a context has to place for one grid, or for its handlers (`none`): blocks to be placed again come ahead of the rest of their grid,
which waits for them (spec/07 R205, spec/10 R283). -/
def Ctx.wantsOf (c : Ctx) (g : Option Grid) : List Want :=
  let mine (p : Pending) : Bool := p.blocks.any fun b => match g with | some g => b.grid == g.uid | none => b.handler.isSome
  let held := (List.range c.pending.length).filter fun k => match c.pending[k]? with | some p => mine p | none => false
  held.map (Want.pending c.id) ++
    (match g with | some g => if g.next < g.total ∧ held = [] then [Want.next c.id g.uid] else [] | none => [])

/-- Started grids in the order in which they are tried, with their contexts. -/
def State.gridOrder (s : State) : List (Ctx × Grid) :=
  sortBy (fun (a b : Ctx × Grid) => decide (s.gridPrio b.1.id b.2 < s.gridPrio a.1.id a.2) ||
      (s.gridPrio a.1.id a.2 == s.gridPrio b.1.id b.2 && decide (a.2.order < b.2.order)))
    ((s.ctxs.filter fun c => c.state == 1).flatMap fun c => c.grids.map fun g => (c, g))

/-- Whether something may be placed yet: a block that is launched again waits until the operations of its earlier run have drained
(spec/07 R205). -/
def State.wantReady (s : State) (w : Want) : Bool :=
  match w with
  | .pending c k => (match (s.ctx c).pending[k]? with
    | some p => !p.again || p.blocks.all fun b => !s.aops.any fun o => o.blk == b.uid
    | none => true)
  | .next _ _ => true

/-- Everything that may be placed, in order. Handler gangs come before their context's grids, and a reservation holds back its
context's later grids. -/
def State.wants (s : State) : List Want :=
  let order := s.gridOrder
  let behind (c : Ctx) (g : Grid) : Bool :=
    (order.takeWhile fun p => p.2.uid != g.uid).any fun p => p.1.id == c.id && p.2.reserved
  (((s.ctxs.filter fun c => c.state == 1).flatMap fun c => c.wantsOf none) ++
    (order.filter fun p => !behind p.1 p.2 && (s.nextHandler p.1.id).isNone).flatMap fun p => p.1.wantsOf (some p.2)).filter s.wantReady

/-- Need of a block that is restored or launched again. -/
def Block.need (b : Block) (again : Bool) : Need :=
  if again then b.kernel.need else { share := b.share, shared := b.kernel.shared, gangs := b.gangs.length }

/-- Whether a block's handler, if it has one, has fewer than MAXG resident gangs (spec/09 R243). -/
def State.handlerRoom (s : State) (b : Block) : Bool :=
  match b.handler with
  | some h => decide (s.handlerGangs b.ctx h.hidx < h.maxg)
  | none => true

/-- Cores and arena slots for something to place. Without a free slot it fits no core (spec/07 R176). -/
def State.fitWant (s : State) (w : Want) : Option (List Nat × List Nat) :=
  match w with
  | .pending c k =>
    (match (s.ctx c).pending[k]? with
     | none => none
     | some p =>
       let ns := p.blocks.map fun b => b.need p.again
       let slots := if p.again then s.freeSlots c ns.length else some (p.blocks.map (·.slot))
       let cores := match p.near, ns with
         | some g, _ =>
           let held := p.blocks.flatMap fun b => (s.blocks.filter fun x => x.cluster == b.cluster).map (·.core)
           s.groupFor ns fun c => decide (c / 4 = g) && !held.contains c
         | none, [n] => (s.coreFor n).map fun c => [c]
         | none, _ => s.groupFor ns fun _ => true
       match cores, slots with
       | some cs, some ks => if p.blocks.all s.handlerRoom then some (cs, ks) else none
       | _, _ => none)
  | .next c uid =>
    (match (s.ctx c).grids.find? fun g => g.uid == uid with
     | none => none
     | some g =>
       let n := g.kernel.need
       let cores := if g.kernel.csize = 1 then (s.coreFor n).map fun c => [c]
         else s.groupFor (List.replicate g.kernel.csize n) fun _ => true
       match cores, s.freeSlots c g.kernel.csize with
       | some cs, some ks => some (cs, ks)
       | _, _ => none)

/-- What is left in flight of a block that is discarded: its stores and what its atomics write. -/
def keepStores (blk : Nat) (o : Op) : Op :=
  if o.blk = blk then { o with units := o.units.filterMap fun u =>
    match u.kind with
    | .load _ _ _ => none
    | .fill => none
    | .atom f r _ => some { u with kind := .atom f r none }
    | _ => some u } else o

/-- A block ends for an uncorrectable error (spec/07 R205, spec/09 R246): an idempotent one is discarded and launched again, at
most three times; of any other, each gang traps, and its RFT acts as EXIT. -/
def State.blockError (s : State) (blk : Nat) : State :=
  match s.block? blk with
  | none => s
  | some b =>
    if b.kernel.idem && decide (b.relaunch < 3) then
      let mine (i : Issuer) : Bool := match i with
        | .group x _ _ => x == blk
        | .tile f => (match s.frame? f with | some y => y.blk == blk | none => false)
        | .none => false
      let uids := (s.frames.filter fun f => f.blk == blk).map (·.uid)
      let t := ((s.frames.filter fun f => f.blk == blk).foldl (fun t f => f.fixed.foldl (fun t x => t.uncount f.ctx x.seals) t) s).discardAops
        fun o => o.blk == blk
      let u : State := { t with
        ops := (t.ops.map (keepStores blk)).filter fun o => o.units != [],
        blocks := t.blocks.filter fun x => x.uid != blk,
        frames := t.frames.filter fun f => f.blk != blk,
        running := t.running.filter fun r => !uids.contains r.2,
        latches := t.latches.map (Latch.without uids.contains),
        monitors := t.monitors.filter fun m => match m.kind with | .waiter i => !mine i | _ => true,
        flares := t.flares.filter fun r => !mine r.issuer }
      u.updCtx b.ctx fun c =>
        { c with faultWaits := c.faultWaits.filter fun w => !mine w.waiter,
                 pending := c.pending ++ [{ blocks := [{ b with gangs := [], shared := [], relaunch := b.relaunch + 1, gateSince := none }],
                                            frames := [], again := true, near := if b.kernel.csize = 1 then none else some (b.core / 4), bad := [] }] }
    else
      b.gangs.foldl (fun t g =>
        let t1 := t.updGang blk g.name fun g => g.mapWait fun _ x => { x with memErr := true }
        t1.takeTrap blk g.name (g.live.map fun i => (i, mkTrap cMemUncorrectable 0))) s

/-- A restored block on its new core, its gangs pending and ready, with its frame, which waits for a tile context (spec/10 R283,
spec/04 R111, spec/03 R72), as a fifth in the core's queue where four wait already (DESIGN CHOICE; log 25). A waiter whose REPLAY came
while it was stopped re-executes (spec/07 R190, R193). -/
def State.restoreBlock (s : State) (p : Pending) (b : Block) (core : Nat) (fs : List Frame) : State :=
  let places := quadPlaces b.gangs.length (s.quadsUsed core)
  let gangs := b.gangs.mapIdx fun i g =>
    let q := places.getD i (0, 0)
    { g with quad := q.1, slot := q.2, active := false, issuedActive := 0, readyFor := 0, leaves := false, code := [] }
  let mine := (fs.filter fun f => f.blk == b.uid).map fun f => { f with core, tctx := none }
  let t : State := { s.claimShared core with blocks := s.blocks ++ [{ b with core, gangs, poison := false }], frames := s.frames ++ mine }
  let u := t.l1Acquire core
  let v := (p.bad.filter fun x => x.1 == b.uid).foldl (fun u x =>
    u.takeTrap b.uid x.2.1 (x.2.2.map fun i => (i, mkTrap cIllegalEncoding 0))) u
  let w := ((s.ctx b.ctx).faults.filter fun e => e.state == 2 && (match e.waiter with
      | .group x _ _ => x == b.uid
      | .tile f => mine.any fun y => y.uid == f
      | .none => false)).foldl (fun w e => (w.resumeWaiter e.waiter).freeFault b.ctx e) v
  if b.poison then w.blockError b.uid else w

/-- A started grid whose argument block the device can no longer reach: its record is malformed, no further block of it is placed, and it
finishes with status 2 once those that run have retired (spec/10 R534; log 24). -/
def State.gridLost (s : State) (c grid gone : Nat) : State :=
  (s.setCerr c 6).updCtx c fun x => { x with grids := x.grids.map fun g =>
    if g.uid = grid then { g with bad := true, next := g.total, live := g.live - gone } else g }

/-- Something placed. -/
def State.placeWant (s : State) (w : Want) (cores slots : List Nat) : State :=
  match w with
  | .pending c k =>
    (match (s.ctx c).pending[k]? with
     | none => s
     | some p =>
       let t := s.updCtx c fun x => { x with pending := x.pending.eraseIdx k }
       (p.blocks.zip (cores.zip slots)).foldl (fun t x =>
         if p.again then (if t.argsLost x.1 then t.gridLost c x.1.grid 1 else t.initBlock x.1 x.2.1 x.2.2)
         else t.restoreBlock p x.1 x.2.1 p.frames) t)
  | .next c uid =>
    (match (s.ctx c).grids.find? fun g => g.uid == uid with
     | none => s
     | some g =>
       let k := g.kernel.csize
       if s.argsLost (gridBlock c g 0 g.next) then s.gridLost c uid 0 else
       let t := (cores.zip slots).foldl (fun (acc : State × Nat) x =>
         (acc.1.initBlock (gridBlock c g s.uid acc.2) x.1 x.2, acc.2 + 1)) (s, g.next)
       t.1.updCtx c fun x => { x with grids := x.grids.map fun y =>
         if y.uid = uid then { y with next := y.next + k, live := y.live + k, unfitSince := none, reserved := false } else y })

/-! ### Stop requests (spec/03 R74, R75, spec/10 R274) -/

/-- A stop request: the context's sources stop, its coalescing groups dissolve and its queues freeze. -/
def State.requestStop (s : State) (c : Nat) (front : Bool) : State :=
  let t := (s.ctx c).queues.foldl (fun t q => t.feDisarm c q.idx) s
  t.updCtx c fun x => { x with state := 2, groups := [], byFront := front, queues := x.queues.map fun q => { q with poll := 0 } }

/-- Whether a context holds a core. -/
def State.holdsCore (s : State) (c : Nat) : Bool := s.blocks.any fun b => b.ctx == c

/-- The victim among running contexts that hold a core: lowest priority, longest since its restore, lowest number. -/
def State.victim (s : State) (ok : Ctx → Bool) : Option Nat :=
  (sortBy (fun (a b : Ctx) => decide (a.desc.prio < b.desc.prio) ||
      (a.desc.prio == b.desc.prio && (decide (a.restored < b.restored) || (a.restored == b.restored && decide (a.id < b.id)))))
    (s.ctxs.filter fun c => c.state == 1 && s.holdsCore c.id && ok c)).head?.map (·.id)

/-- The context of something to place. -/
def Want.ctx : Want → Nat
  | .pending c _ => c
  | .next c _ => c

/-- Whether a closed group of a context, which is a block to place (spec/09 R243), fits no core: its handler has room for a gang, and no
core or no arena slot does. -/
def State.groupShort (s : State) (c : Nat) : Bool :=
  (s.ctx c).state == 1 && ((s.ctx c).groupOrder s.time.toNat).any fun g =>
    !(s.ctx c).heldHandlers.contains g.hidx && decide (s.handlerGangs c g.hidx < g.h.maxg) && (s.groupPlace c g).isNone

/-- What a context has to place, and does not fit. -/
def State.unfit (s : State) (c : Nat) : Bool := (s.wants.any fun w => w.ctx == c && (s.fitWant w).isNone) || s.groupShort c

/-- A stop request of the front end on behalf of a context of some priority whose block fits no core. -/
def State.preempt (s : State) (prio : Nat) : State :=
  match s.victim fun c => decide (c.desc.prio < prio) with
  | some v => s.requestStop v true
  | none => s

/-- Since when a grid's next block has not fitted (spec/03 R69). -/
def State.markFit (s : State) (w : Want) (fits : Bool) : State :=
  match w with
  | .pending _ _ => s
  | .next c uid => s.updCtx c fun x => { x with grids := x.grids.map fun g =>
      if g.uid = uid then { g with unfitSince := if fits then none else some (g.unfitSince.getD s.time.toNat) } else g }

/-- BLOCK_PLACEMENT (spec/03 R67, R69, R74): the first grid whose next block or cluster fits somewhere is placed; each context that
has a block or cluster that fits no core causes a stop request to one of lower priority. -/
def State.blockPlacement (s : State) (die : Nat) : State :=
  let ws := s.wants
  let short := (((ws.filter fun w => (s.fitWant w).isNone).map Want.ctx) ++ (s.ctxs.map (·.id)).filter s.groupShort).eraseDups
  let t := ws.foldl (fun t w => t.markFit w (s.fitWant w).isSome) s
  let u := match ws.find? fun w => (s.fitWant w).isSome with
    | none => t
    | some w =>
      match s.fitWant w with
      | some (cores, slots) => if dieOf (cores.headD 0) = die then t.placeWant w cores slots else t
      | none => t
  short.foldl (fun u c => u.preempt (s.ctx c).desc.prio) u

/-! ### Resuming (spec/03 R74) -/

/-- Neighbours with one key, together. -/
def clustersBy {α : Type} (key : α → Nat) : List α → List (List α)
  | [] => []
  | r :: rs =>
    match clustersBy key rs with
    | (x :: xs) :: rest => if key x = key r then (r :: x :: xs) :: rest else [r] :: (x :: xs) :: rest
    | rest => [r] :: rest

/-- Whether cores fit the next block or cluster that a stopped context would place. -/
def State.resumeFits (s : State) (c : Nat) : Bool :=
  let back (l : List (Block × List Frame)) : Pending :=
    { blocks := l.map (·.1), frames := [], again := false, near := none, bad := [] }
  let t := s.updCtx c fun x =>
    { x with state := 1, saved := [], pending := x.pending ++ (clustersBy (fun p => p.1.cluster) x.saved).map back }
  match t.wants.find? fun w => w.ctx == c with
  | some w => (t.fitWant w).isSome
  | none => true

/-- BLOCK_PLACEMENT. -/
def execBlockPlacement (die : Nat) (s : State) : Host.Outcome State Fault Refusal := .next (s.blockPlacement die)

/-- GRID_RESERVATION (spec/03 R69). -/
def execGridReservation (ctx grid : Nat) (s : State) : Host.Outcome State Fault Refusal :=
  .next (s.updCtx ctx fun x => { x with grids := x.grids.map fun g =>
    match g.unfitSince with
    | some t => if g.uid = grid ∧ t + 65536 ≤ s.time.toNat then { g with reserved := true } else g
    | none => g })

/-- Whether a context's time slice has passed, and another context of the same priority, running or stopped by the front end, has a block
that fits no core (spec/03 R73, R74). -/
def State.sliceOver (s : State) (c : Ctx) : Bool :=
  decide (1024 * c.desc.tslice ≤ c.used) && s.ctxs.any fun d => d.id != c.id && d.desc.prio == c.desc.prio &&
    (d.state == 1 && s.unfit d.id || d.state == 3 && d.byFront && !s.resumeFits d.id)

/-- TIME_SLICE_EXPIRY (spec/03 R73, R74, R76): the running context that holds a core and whose slice is over is stopped; of several, the
first in the victim order. -/
def execTimeSliceExpiry (ctx : Nat) (s : State) : Host.Outcome State Fault Refusal :=
  event (s.victim s.sliceOver == some ctx) s (s.requestStop ctx true)

end Sys2Proof.Machine
end

