-- ==== Sys2Proof/Machine/Save.lean ====
section
/-! DEFINITION. Context frames: what a stop saves and a restore reads (spec/10 R274-R277, R279-R283, spec/02 R31, R45, R54, spec/04
R109, R111, spec/06 R147, R154, spec/03 R79). What R279-R283 give no place is kept in the
context slot; where they give no layout, the model has its own (log 18). -/

namespace Sys2Proof.Machine

/-! ### Bytes -/

/-- Zero bytes. -/
def zeros (n : Nat) : List Byte := List.replicate n 0

/-- A number of `n` bytes at an offset. -/
def at_ (bs : List Byte) (o n : Nat) : Nat := leNat ((bs.drop o).take n)

/-- A header and a payload with their CHECK (spec/10 R279). The end frame has the launch and the core of the last block saved (spec/20
R514; log 18). -/
def contextFrame (s : State) (c kind : Nat) (b : Option Block) (frame unit : Nat) (payload : List Byte) : List Byte :=
  let (num, q, t, core) := match b with | some b => (b.number, b.queue, b.ticket.toNat, b.core) | none => (0, 0, 0, 0)
  let h := leBytes 4 kind ++ leBytes 4 payload.length ++ leBytes 8 c ++ leBytes 8 (if kind = 5 then 0 else num) ++
    leBytes 8 (q * 2 ^ 32 + t) ++ leBytes 4 (frame * 2 ^ 16 + unit) ++ leBytes 4 core ++ leBytes 8 s.time.toNat ++ zeros 8
  h ++ leBytes 4 (crc32c (h ++ payload)).toNat ++ zeros 4 ++ payload

/-! ### Gang frames (spec/10 R280) -/

/-- What a stop leaves of a slice's wait (spec/10 R275, R276, spec/02 R45): arrivals, claims and monitors are withdrawn. -/
def Slice.withdraw (x : Slice) : Slice :=
  match x.wait with
  | .frame _ => { x with again := .fresh, issued := 0 }
  | .fault (some _) => { x with again := .fresh, issued := 0 }
  | _ => { x with wait := .none, again := .fresh, issued := 0 }

/-- The 64 bytes of a slice record. -/
def sliceBytes (g : Gang) (i : Nat) (x : Slice) : List Byte :=
  let low := if x.exited then i else (g.members x.group).headD i
  let (tm, depth, dt) := match x.trapMode with | some (n, d) => (1, n, d.toNat) | none => (0, 0, 0)
  let token := match x.wait with | .fault (some t) => t.toNat | _ => 0
  leBytes 8 (x.pc.toNat + 2 ^ 57 + (if x.exited then 2 ^ 58 else 0) + tm * 2 ^ 59) ++
    leBytes 8 (x.fmt.toNat + x.fflags.toNat * 2 ^ 32 + x.dtag.toNat * 2 ^ 38 + x.active.toNat * 2 ^ 44 + x.stack.length * 2 ^ 48 + low * 2 ^ 56) ++
    leBytes 8 x.tpc.toNat ++ leBytes 8 x.taddr.toNat ++ leBytes 8 (x.tcause.toNat + x.tinfo.toNat * 2 ^ 32) ++
    leBytes 8 (depth + dt * 2 ^ 7) ++ leBytes 8 (x.gframe.toNat + x.tstat.toNat * 2 ^ 32) ++ leBytes 8 token

/-- The 16 topmost entries of a stack, top first. -/
def stackBytes (st : List Entry) : List Byte :=
  let es := (st.reverse.take 16).flatMap fun e => leBytes 16 e.bits.toNat
  es ++ zeros (256 - es.length)

/-- A gang frame's payload. -/
def gangBytes (g : Gang) : List Byte :=
  let slice (i : Nat) : List Byte := match g.slices[i]? with | some x => sliceBytes g i x | none => zeros 64
  let stack (i : Nat) : List Byte := match g.slices[i]? with | some x => stackBytes x.stack | none => zeros 256
  let low (i : Nat) : Option Group := g.groups.find? fun r => (g.members r.id).head? == some i
  let sregs (i : Nat) : List Byte := match low i with | some r => (List.range 64).flatMap fun j => leBytes 8 (r.s.getD j 0).toNat | none => zeros 512
  (List.range 8).flatMap slice ++ (List.range 8).flatMap stack ++ (List.range 8).flatMap sregs ++
    ((List.range 8).map fun i => match low i with | some r => r.q | none => 0) ++ zeros 56 ++
    ((List.range 32).map fun l => g.p.getD l 0 &&& 0xFE#8) ++ leBytes 32 (g.holding + g.slot * 2 ^ 9) ++
    (List.range (32 * g.holding)).flatMap fun k => leBytes 4 (g.vreg (k / 32) (k % 32)).toNat

/-! ### Tile-context and gate frames (spec/10 R281, R282) -/

/-- Bytes 0x0000-0x07FF: the registers, the bundle address and the pending NEXTWs. -/
def tileRegBytes (r : TileRegs) (sresume pc bundles : Nat) (ns : List NextW) : List Byte :=
  let head := leBytes 8 (sresume + r.rot.toNat * 8) ++ leBytes 8 pc ++ leBytes 8 (r.fmt.toNat + r.fflags.toNat * 2 ^ 32) ++ leBytes 8 r.f.toNat ++ zeros 32
  let k := (List.range 32).flatMap fun i => leBytes 8 (r.k.getD i 0).toNat
  let kw := (List.range 8).flatMap fun i => leBytes 8 (r.kw.getD i 0).toNat
  let nw := (List.range 8).flatMap fun i => match ns[i]? with
    | some n => leBytes 8 (match n.value with | some x => x.toNat | none => 0) ++ leBytes 8 (n.due - bundles + n.target * 2 ^ 8 + 2 ^ 11)
    | none => zeros 16
  let t := (List.range 32).flatMap fun i => leBytes 32 (r.t.getD i 0).toNat
  let sh (l : List W128) : List Byte := (List.range 16).flatMap fun i => leBytes 16 (l.getD i 0).toNat
  head ++ k ++ kw ++ nw ++ t ++ sh r.live ++ sh r.shadow

/-- The valid latches that a frame's tile context owns, ascending (spec/06 R154). -/
def State.ownLatches (s : State) (f : Frame) : List Latch :=
  if f.tctx.isNone then f.latches
  else (List.range 4).filterMap fun i => s.latches.find? fun l => l.valid && l.owner == f.uid && l.core == f.core && l.idx == i

/-- The 12,800 bytes of a saved latch. -/
def latchBytes (l : Latch) : List Byte := (List.range 12800).map l.byte

/-- The directory's entry of a latch: valid, saved, format, XV, N and the dense row of its first row (log 18). -/
def latchEntry (l : Latch) : List Byte := leBytes 4 (3 + l.efmt.toNat * 2 ^ 2 + l.xv.toNat * 2 ^ 8 + l.n * 2 ^ 24) ++ leBytes 8 l.row0 ++ zeros 4

/-- The 40 bytes of a frame's error queues: for each timeline a byte with its number of entries and OVF, then, in 17 bytes each, the first
two entries of the queues in their order: the number above the timeline's base, cause, %tinfo and address (log 18). -/
def Frame.errBytes (f : Frame) : List Byte :=
  let all := (f.errs.mapIdx fun k q => q.entries.map fun e => (k, e)).flatten
  let es := (all.take 2).flatMap fun p =>
    leBytes 4 (p.2.number - f.bases.getD p.1 0) ++ [p.2.cause] ++ leBytes 4 p.2.tinfo.toNat ++ leBytes 8 p.2.addr.toNat
  let ns := (List.range 3).map fun k => match f.errs[k]? with
    | some q => BitVec.ofNat 8 (q.entries.length + (if q.ovf then 8 else 0))
    | none => 0
  ns ++ es ++ zeros (37 - es.length)

/-- A tile-context frame's payload, of a frame that holds its latches. -/
def Frame.tileBytes (f : Frame) (b : Block) : List Byte :=
  let ls := f.latches
  let (w, x, z) := b.kernel.windows
  let counts := (List.range 3).flatMap fun k => leBytes 8 (f.bases.getD k 0 + f.doneOps.getD k 0)
  let dir := (List.range 4).flatMap fun i =>
    match ls.find? fun l => l.idx == i with | some l => latchEntry l | none => zeros 16
  tileRegBytes f.regs f.sresume.toNat f.pc.toNat f.bundles f.nextws ++
    tileRegBytes (f.image.getD f.regs) f.sresume.toNat f.pc.toNat f.bundles f.nextws ++
    counts ++ f.errBytes ++ dir ++ ls.flatMap latchBytes ++
    (List.range w).map (f.bufByte 2) ++ (List.range x).map (f.bufByte 3) ++ (List.range z).map (f.bufByte 4)

/-- A gate-frame link's payload. -/
def Frame.linkBytes (f : Frame) : List Byte :=
  let q := if f.tctx.isNone then 2 ^ 18 else 0
  leBytes 8 (f.number.toNat + f.tctx.getD 0 * 2 ^ 16 + q + f.status.toNat * 2 ^ 19) ++ leBytes 8 f.desc ++ leBytes 8 f.retpc.toNat ++
    (List.range 3).flatMap (fun k => leBytes 8 (f.bases.getD k 0)) ++ leBytes 8 (f.qseq % 4) ++ zeros 8

/-- The 256 bytes of a block frame up to CB0: LANES, the descriptor's address and ARGS from 0x00; POISON at 0x40, the rank at 0x41, the
arena slot at 0x42, the relaunch count at 0x44, the pool share at 0x46, the mask of spawned gangs at 0x48 and each gang's holding from
0x50. No claim is pending after a stop (spec/10 R275). The places are the model's (log 18). -/
def Block.head (b : Block) : List Byte :=
  leBytes 8 b.kernel.lanes ++ leBytes 8 b.kernel.addr ++ leBytes 8 b.args.toNat ++ zeros 40 ++
    leBytes 1 (if b.poison then 1 else 0) ++ leBytes 1 b.crank ++ leBytes 2 b.slot ++ leBytes 2 b.relaunch ++ leBytes 2 b.share ++
    leBytes 8 (b.gangs.foldl (fun m g => if g.spawned then m + 2 ^ g.no else m) 0) ++
    (List.range 32).flatMap (fun i => leBytes 2 (match b.gangs.find? fun g => g.no == i with | some g => g.holding | none => 0)) ++ zeros 112

/-- A block frame's payload. -/
def Block.bytes (b : Block) : List Byte :=
  b.head ++ (List.range 8).flatMap (fun i => leBytes 32 (b.cb.getD i 0).toNat) ++ b.sharedBytes 0 b.kernel.shared

/-! ### The save (spec/10 R274, R279) -/

/-- A frame as a stop leaves it: at its safe point, suspended, queued, or in a GRET whose drain has ended. Register writes still
to land have landed, since no bundle can read the register before. One that waits for a fault-table entry still has none. -/
def Frame.atStop (f : Frame) (order : Nat) : Frame :=
  let regs := f.landings.foldl (fun r l => match l.value with | some x => r.setK l.reg x | none => r) f.regs
  let st : BitVec 3 := if f.status = 3 ∨ f.status = 5 ∨ f.tctx = none then f.status else 4
  { f with regs, landings := [], status := st, fixed := [], draining := false, wait := .none, qseq := order }

/-- The place of a frame in its core's queue. -/
def State.queuePos (s : State) (f : Frame) : Nat :=
  if f.tctx.isSome then 0 else (s.frames.filter fun g => g.core == f.core && g.tctx.isNone && decide (g.qseq < f.qseq)).length

/-- A block as a stop leaves it. -/
def Block.atStop (b : Block) : Block :=
  { b with claims := [], gateSince := none, gangs := (b.gangs.filter fun g => !g.ended).map fun g =>
      { g with y := [], slices := g.slices.map fun x => { x.withdraw with yValid := 0, stack := x.stack.map fun e => { e with waited := 0 } },
               groups := g.groups.map fun r => { r with age := 0 } } }

/-- The context frames of one block. -/
def State.blockFrames (s : State) (c : Nat) (b : Block) (fs : List Frame) : List (List Byte) :=
  let gangs := sortBy (fun (x y : Gang) => decide (x.no < y.no)) b.gangs
  contextFrame s c 4 (some b) 0 0 b.bytes ::
    gangs.map (fun g => contextFrame s c 1 (some b) 0 g.no (gangBytes g)) ++
    fs.flatMap fun f =>
      contextFrame s c 3 (some b) f.number.toNat 0 f.linkBytes ::
        (if f.status = 0 then [] else [contextFrame s c 2 (some b) f.number.toNat (f.tctx.getD 0) (f.tileBytes b)])

/-- Frames of blocks that wait to be placed, with their places in the queue of the core on which they were saved, oldest first. -/
def waitingFrames (fs : List Frame) : List Frame :=
  fs.map fun f => { f with qseq := if f.tctx.isSome then 0 else
    (fs.filter fun g => g.core == f.core && g.tctx.isNone && decide (g.qseq < f.qseq)).length }

/-- The blocks of a context that a stop saves, with their frames: the resident ones and those restored and not yet placed. -/
def State.toSave (s : State) (c : Nat) : List (Block × List Frame) :=
  let here := (s.blocks.filter fun b => b.ctx == c).map fun b =>
    (b.atStop, (s.frames.filter fun f => f.blk == b.uid).map fun f =>
      { f.atStop (s.queuePos f) with latches := s.ownLatches f })
  let held := (s.ctx c).pending.filter fun p => !p.again
  let fs := waitingFrames (held.flatMap (·.frames))
  let waiting := held.flatMap fun p => p.blocks.map fun b => (b, fs.filter fun f => f.blk == b.uid)
  here ++ waiting

/-- The started grids with blocks left to dispatch, whose positions the end frame holds (spec/03 R75). -/
def Ctx.undispatched (c : Ctx) : List Grid := c.grids.filter fun g => decide (g.next < g.total)

/-- The end frame's payload: the number of frames, with its own, then from 0x40 the position, the queue and the ticket of each started
grid with blocks left to dispatch, 16 bytes each (log 18). -/
def endBytes (n : Nat) (gs : List Grid) : List Byte :=
  leBytes 8 n ++ zeros 56 ++ gs.flatMap (fun g => leBytes 8 g.next ++ leBytes 8 (g.queue * 2 ^ 32 + g.record.ticket.toNat)) ++
    zeros (16 * (ceilDiv gs.length 4 * 4 - gs.length))

/-- The save of a drained context: its frames and the end record are written, its blocks leave their cores, and STATE becomes 3. A
save that cannot be written kills the context with cause 3. The queue and spill counters of R238 have no place in R279-R282: they stay in
the context slot with the intake (DESIGN CHOICE; log 18). -/
def State.save (s : State) (c : Nat) : State :=
  let d := (s.ctx c).desc
  let bs := s.toSave c
  let fr := bs.flatMap fun p => s.blockFrames c p.1 p.2
  let tail := contextFrame s c 5 (bs.getLast?.map (·.1)) 0 0 (endBytes (fr.length + 1) (s.ctx c).undispatched)
  let bytes := fr.flatten ++ tail
  if 16384 * d.savelen < bytes.length then s.kill c 3
  else match s.devWrite c d.save bytes with
    | none => s.kill c 3
    | some t =>
      let mine (i : Issuer) : Bool := s.issuerCtx i == some c
      let uids := (s.frames.filter fun f => f.ctx == c).map (·.uid)
      let u : State := { t with
        blocks := t.blocks.filter fun b => b.ctx != c,
        frames := t.frames.filter fun f => f.ctx != c,
        running := t.running.filter fun r => !uids.contains r.2,
        latches := t.latches.map (Latch.without uids.contains),
        monitors := t.monitors.filter fun m => match m.kind with | .waiter i => !mine i | _ => true }
      u.updCtx c fun x =>
        { x with state := 3, stoppedAt := s.time.toNat, faultWaits := [], saved := bs, pending := x.pending.filter (·.again) }

/-! ### The drain (spec/10 R275-R277) -/

/-- Whether a wait ends within the drain: those of instructions that complete. -/
def WaitCond.completes : WaitCond → Bool
  | .timeline _ _ => false
  | .batch _ => false
  | .pbar _ => false
  | .ringTake _ _ _ _ => false
  | .ringMark _ _ _ => false
  | _ => true

/-- Whether an instruction in progress holds a slice (spec/10 R276): one that completes before a save. -/
def Slice.held (x : Slice) : Bool :=
  !x.exited && (match x.wait with
    | .none => (match x.again with | .fresh => false | .waited _ => false | _ => true)
    | .retry c => c.completes
    | _ => false)

/-- Whether an instruction of a slice goes on within the drain: it is held, or it waits for data or answers (spec/10 R275, R276). -/
def Slice.inProgress (x : Slice) : Bool :=
  x.held || !x.exited && (match x.wait with | .data _ => true | .flare => true | _ => false)

/-- Whether a tile context is at a safe point, suspended, or in a GRET whose drain has ended, and no fixed-latency operation of it is
pending (spec/04 R109). A context blocks only at a bundle with SAFE = 1 (R90). -/
def State.frameSafe (s : State) (f : Frame) : Bool :=
  f.tctx.isNone || decide (2 ≤ f.status.toNat) && (f.prune s.time.toNat).fixed.isEmpty

/-- Whether a load or atomic awaits its data: parts of it are in flight, or a slice still waits for it. -/
def State.awaited (s : State) (o : Op) : Bool :=
  o.units.any (fun u => u.returns && !u.isFill) ||
    s.blocks.any fun b => b.uid == o.blk && b.gangs.any fun g => g.slices.any fun x => x.wait == .data o.id

/-- The free-slot counters of a context (spec/10 R277): LDQ, STQ, CPQ, MXQ, CLQ, FLQ, NXQ, TSQ. An instruction of a slice group counts
one. -/
def State.counters (s : State) (c : Nat) : List Nat :=
  let ops := s.ops.filter fun o => o.ctx == c
  let held := (s.blocks.filter fun b => b.ctx == c).flatMap fun b => b.gangs.filter fun g => g.slices.any Slice.held
  let kind (k : TlKind) : List AOp := s.aops.filter fun o => o.ctx == c && o.kind == k
  let frames := s.frames.filter fun f => f.ctx == c
  [(ops.filter s.awaited).length + held.length,
   (ops.filter fun o => o.units.any fun u => !u.returns).length,
   ((kind .copy).map (·.lead)).eraseDups.length, (kind .matrix).length, (kind .coll).length,
   (((s.flares.filter fun r => s.issuerCtx r.issuer == some c).map (·.issuer)).eraseDups).length,
   (frames.map fun f => (f.nextws.filter fun n => n.value.isNone).length).sum,
   (frames.filter fun f => !s.frameSafe f).length]

/-- Whether the drain of a stopping context has ended (spec/10 R277). -/
def State.drainOver (s : State) (c : Nat) : Bool := (s.ctx c).state == 2 && (s.counters c).all (· == 0)

/-- The group of a gang that takes the trap of its queued CPY errors at its stopping boundary (spec/13 R349): the lowest slice's that is
not in trap mode. A gang that is in trap mode is saved in it already (log 22). -/
def Gang.errGroup (g : Gang) : Option Nat :=
  (g.live.find? fun i => match g.slices[i]? with
    | some x => x.trapMode.isNone
    | none => false).bind fun i => g.slices[i]?.map (·.group)

/-- The next gang of a drained context whose queued CPY errors are reported before the save (spec/13 R349): one error for each of its groups
that is not in trap mode, one after another (DESIGN CHOICE; log 22). -/
def State.drainTrap (s : State) (c : Nat) : Option State :=
  ((s.blocks.filter fun b => b.ctx == c).flatMap fun b => b.gangs.map fun g => (b.uid, g)).findSome? fun x =>
    match x.2.errGroup, x.2.cpyErr.report fun _ => true with
    | some r, some (t, q) =>
      some ((s.updGang x.1 x.2.name fun g => { g with cpyErr := q }).takeTrap x.1 x.2.name ((x.2.members r).map fun i => (i, t)))
    | _, _ => none

/-- STOP_DRAIN_COMPLETE (spec/10 R274, R277): every counter reads zero, and the context is saved, once queued CPY errors have trapped.
With no block left, nothing of a block is written (spec/03 R76). -/
def execStopDrainComplete (ctx : Nat) (s : State) : Host.Outcome State Fault Refusal :=
  event (s.drainOver ctx) s (match s.drainTrap ctx with | some t => t | none => s.save ctx)

/-! ### Reading frames back (spec/10 R283) -/

/-- A frame as read. -/
structure RawFrame where
  kind : Nat
  block : Nat
  queue : Nat
  ticket : Nat
  core : Nat
  frame : Nat
  unit : Nat
  payload : List Byte
deriving DecidableEq, Repr

/-- One frame at an offset of the save area: its header's CHECK, KIND and reserved fields. -/
def State.readFrame (s : State) (c o : Nat) : Option RawFrame :=
  let d := (s.ctx c).desc
  match s.devRead c (d.save + o) 64 with
  | none => none
  | some h =>
    let len := at_ h 4 4
    let w : BitVec 512 := BitVec.ofNat 512 (leNat h)
    if bits w 31 8 ≠ 0 ∨ bits w 127 76 ≠ 0 ∨ bits w 255 230 ≠ 0 ∨ bits w 319 296 ≠ 0 ∨ bits w 447 384 ≠ 0 ∨ bits w 511 480 ≠ 0 ∨
       at_ h 0 1 = 0 ∨ 5 < at_ h 0 1 ∨ len % 64 ≠ 0 ∨ bits w 75 64 ≠ c ∨ 16384 * d.savelen < o + 64 + len then none
    else match s.devRead c (d.save + o + 64) len with
      | none => none
      | some p =>
        if (crc32c (h.take 56 ++ p)).toNat ≠ at_ h 56 4 then none
        else some { kind := at_ h 0 1, block := at_ h 16 8, queue := bits w 229 224, ticket := at_ h 24 4, core := at_ h 36 1,
                    frame := at_ h 34 2, unit := at_ h 32 2, payload := p }

/-- The frames of the save area up to the end frame. -/
def State.readFrames (s : State) (c : Nat) : Nat → Nat → Option (List RawFrame)
  | 0, _ => none
  | fuel + 1, o =>
    match s.readFrame c o with
    | none => none
    | some f => if f.kind = 5 then some [f] else (s.readFrames c fuel (o + 64 + f.payload.length)).map fun fs => f :: fs

/-- The stack of a slice of `depth` entries, bottom first: the 16 topmost from the frame, the others from the arena (spec/02 R38), and
whether R31 forbids one of the frame. An entry of the arena that cannot be read is what the slot kept of it (`old`): the instruction that
refills it meets the fault. -/
def State.readStack (s : State) (c : Nat) (p : List Byte) (spill i depth : Nat) (old : List Entry) : List Entry × Bool :=
  let top := (List.range (min depth 16)).map fun k => BitVec.ofNat 128 (at_ p (0x200 + 256 * i + 16 * k) 16)
  let low := (List.range (depth - 16)).map fun k => match s.devNat c (spill + 16 * k) 16 with
    | some w => Entry.ofBits (BitVec.ofNat 128 w)
    | none => old.getD k (Entry.ofBits 0)
  (low ++ (top.reverse).map Entry.ofBits, !top.all Entry.allowed)

/-- The waiting state of a restored slice: for its token, or at the GATE that `frame` entered (spec/04 R111, spec/10 R275). -/
def waitOf (token : W32) (trapped : Bool) (frame : Option Nat) (old : Wait) : Wait :=
  match old with
  | .fault (some _) => .fault (some token)
  | _ =>
    if token ≠ 0 then .fault (some token)
    else match frame with
      | some f => if trapped then .none else .frame f
      | none => .none

/-- A slice read back, and whether its stack holds a forbidden entry. `old` is what the slot kept of it; `frame` is the frame that its
gang entered. -/
def State.readSlice (s : State) (c : Nat) (p : List Byte) (spill i : Nat) (frame : Option Nat) (old : Slice) : Option (Slice × Bool) :=
  let w : BitVec 512 := BitVec.ofNat 512 (at_ p (64 * i) 64)
  let depth := bits w 118 112
  let (st, bad) := s.readStack c p (spill + 768 * i) i depth old.stack
  let resv := bits w 63 60 ≠ 0 ∨ bits w 127 123 ≠ 0 ∨ bit w 119 ∨ bits w 383 333 ≠ 0 ∨ bits w 75 64 ≠ 0 ∨ bits w 191 185 ≠ 0 ∨
    bits w 255 249 ≠ 0 ∨ bits w 287 267 ≠ 0 ∨ bits w 415 401 ≠ 0 ∨ bits w 447 422 ≠ 0 ∨ bits w 511 480 ≠ 0
  if resv ∨ !bit w 57 ∨ 64 < depth then none
  else
    let active := w.extractLsb' 108 4
    some ({ old with
      group := bits w 122 120, pc := w.extractLsb' 0 57, active,
      gone := if bit w 58 then 15 else ~~~(st.foldl (fun m e => m ||| e.mask) active),
      fmt := w.extractLsb' 64 32, fflags := w.extractLsb' 96 6, stack := st, dtag := w.extractLsb' 102 6, yValid := 0,
      tpc := w.extractLsb' 128 64, taddr := w.extractLsb' 192 64, tcause := w.extractLsb' 256 32, tinfo := w.extractLsb' 288 32,
      trapMode := if bit w 59 then some (bits w 326 320, w.extractLsb' 327 6) else none,
      gframe := w.extractLsb' 384 32, tstat := w.extractLsb' 416 32,
      wait := if bit w 58 then .none else waitOf (w.extractLsb' 448 32) (bit w 59) frame old.wait, again := .fresh, issued := 0 }, bad)

/-- A gang read back, and its live slices where one of its slices holds a forbidden entry (spec/02 R31). It has the slices that are
PRESENT. With B 0, the CPY errors that are still queued count as of batch 0: its next CPWAIT reports them (spec/13 R349; log 22). -/
def State.readGang (s : State) (c : Nat) (p : List Byte) (slot : Nat) (spawned : Bool) (frame : Option Nat) (old : Gang) : Option (Gang × List Nat) :=
  let r := at_ p 0x1A60 2 % 512
  let n := ((List.range 8).takeWhile fun i => at_ p (64 * i) 8 / 2 ^ 57 % 2 == 1).length
  let slice (i : Nat) : Slice := old.slices.getD i (Slice.start 0 Config.fmtReset 15)
  if p.length ≠ 0x1A80 + 128 * r ∨ at_ p 0x1A60 32 / 2 ^ 14 ≠ 0 ∨ at_ p 0x1A08 56 ≠ 0 ∨
     (List.range 32).any (fun l => at_ p (0x1A40 + l) 1 % 2 == 1) ∨ (List.range (8 - n)).any (fun k => at_ p (64 * (n + k)) 64 ≠ 0) then none
  else match (List.range n).mapM fun i => s.readSlice c p (spillAddr (s.ctx c).desc slot old.no 0) i (if spawned then none else frame) (slice i) with
    | none => none
    | some xs =>
      let slices := xs.map (·.1)
      let ids := ((slices.filter fun x => !x.exited).map (·.group)).eraseDups
      let group (i : Nat) : Group := { id := i, s := (List.range 64).map (fun j => BitVec.ofNat 64 (at_ p (0xA00 + 512 * i + 8 * j) 8)),
                                       q := BitVec.ofNat 8 (at_ p (0x1A00 + i) 1), age := 0 }
      let g : Gang :=
        { old with slices, groups := ids.map group, holding := r, spawned, batch := 0, y := [],
                   cpyErr := { old.cpyErr with entries := old.cpyErr.entries.map fun e => { e with number := 0 } },
                   p := (List.range 32).map (fun l => BitVec.ofNat 8 (at_ p (0x1A40 + l) 1)),
                   v := (List.range (32 * r)).map fun k => (k, BitVec.ofNat 32 (at_ p (0x1A80 + 4 * k) 4)) }
      some (g, if xs.any (·.2) then g.live else [])

/-- Tile registers read back from an offset. -/
def readTileRegs (p : List Byte) (o : Nat) : TileRegs :=
  let w (a n : Nat) : Nat := at_ p (o + a) n
  { k := (List.range 32).map fun i => BitVec.ofNat 64 (w (0x40 + 8 * i) 8), kw := (List.range 8).map fun i => BitVec.ofNat 64 (w (0x140 + 8 * i) 8),
    f := BitVec.ofNat 8 (w 24 1), t := (List.range 32).map fun i => BitVec.ofNat 256 (w (0x200 + 32 * i) 32),
    live := (List.range 16).map fun i => BitVec.ofNat 128 (w (0x600 + 16 * i) 16),
    shadow := (List.range 16).map fun i => BitVec.ofNat 128 (w (0x700 + 16 * i) 16),
    fmt := BitVec.ofNat 32 (w 16 4), fflags := BitVec.ofNat 6 (w 20 1), rot := BitVec.ofNat 3 (w 0 1 / 8), time := 0 }

/-- The window bytes of a frame by space and offset, as Frame.buf lists them. -/
def readWindow (p : List Byte) (o space n : Nat) : List (Nat × Byte) :=
  (List.range n).map fun a => (space * 2 ^ 20 + a, BitVec.ofNat 8 (at_ p (o + a) 1))

/-- The latches of a tile-context frame, by its directory (spec/06 R154). -/
def readLatches (p : List Byte) (f core : Nat) : List Latch :=
  ((List.range 4).filter fun i => at_ p (0x1040 + 16 * i) 1 % 4 == 3).mapIdx fun k i =>
    let e := at_ p (0x1040 + 16 * i) 4
    { core, idx := i, owner := f, valid := true, efmt := BitVec.ofNat 6 (e / 2 ^ 2), xv := BitVec.ofNat 16 (e / 2 ^ 8), n := e / 2 ^ 24,
      row0 := at_ p (0x1044 + 16 * i) 8,
      bytes := (List.range 12800).map fun a => (a, BitVec.ofNat 8 (at_ p (0x1080 + 12800 * k + a) 1)) }

/-- The pending NEXTWs of a tile-context frame, landing by bundle counts from `n` on (spec/03 R79). -/
def readNextws (p : List Byte) (n : Nat) : List NextW :=
  (List.range 8).filterMap fun i =>
    let e := at_ p (0x188 + 16 * i) 8
    if e / 2 ^ 11 % 2 = 1 then
      some { id := 0, value := some (BitVec.ofNat 64 (at_ p (0x180 + 16 * i) 8)), due := n + e % 256, target := e / 256 % 8 }
    else none

/-- The error queues of a frame read back. Entries that the 40 bytes have no room for are what the slot kept (log 18). -/
def readErrs (p : List Byte) (f : Frame) : List ErrQueue :=
  let n (k : Nat) : Nat := at_ p (0x1018 + k) 1 % 8
  let first (k : Nat) : Nat := ((List.range k).map n).sum
  (List.range 3).map fun k =>
    { entries := (List.range (n k)).filterMap fun i =>
        let o := 0x101B + 17 * (first k + i)
        if first k + i < 2 then
          some { number := f.bases.getD k 0 + at_ p o 4, cause := BitVec.ofNat 8 (at_ p (o + 4) 1), tinfo := BitVec.ofNat 32 (at_ p (o + 5) 4),
                 addr := BitVec.ofNat 57 (at_ p (o + 9) 8) }
        else (f.errs.getD k { entries := [], ovf := false }).entries[i]?,
      ovf := at_ p (0x1018 + k) 1 / 8 % 2 == 1 }

/-- Whether the registers of a tile-context frame from an offset hold a nonzero reserved bit. -/
def tileResv (p : List Byte) (o : Nat) : Bool :=
  at_ p o 8 / 64 != 0 || decide (5 < at_ p o 1 % 8) || at_ p (o + 8) 8 / 2 ^ 57 != 0 || at_ p (o + 16) 8 / 2 ^ 38 != 0 ||
    at_ p (o + 16) 4 % 2 ^ 12 != 0 || at_ p (o + 25) 39 != 0 || (List.range 8).any fun i => at_ p (o + 0x188 + 16 * i) 8 / 2 ^ 12 != 0

/-- A frame read back from its link and its tile-context frame. -/
def readTile (p : List Byte) (f : Frame) (b : Block) : Option Frame :=
  let (w, x, z) := b.kernel.windows
  let ls := readLatches p f.uid f.core
  let o := 0x1080 + 12800 * ls.length
  let sr := at_ p 0 1 % 8
  if p.length ≠ o + w + x + z ∨ tileResv p 0 ∨ tileResv p 0x800 then none
  else
    let count (k : Nat) : Nat := at_ p (0x1000 + 8 * k) 8 - f.bases.getD k 0
    some { f with
      pc := BitVec.ofNat 57 (at_ p 8 8), regs := readTileRegs p 0, sresume := BitVec.ofNat 3 sr,
      image := if sr = 0 then none else some { readTileRegs p 0x800 with time := (match f.image with | some i => i.time | none => 0) },
      nextws := readNextws p f.bundles ++ f.nextws.drop 8, doneOps := (List.range 3).map count, issuedOps := (List.range 3).map count,
      errs := readErrs p f,
      latches := ls, buf := readWindow p o 2 w ++ readWindow p (o + w) 3 x ++ readWindow p (o + w + x) 4 z }

/-- The link read back. -/
def readLink (p : List Byte) (f : Frame) : Option Frame :=
  let w := at_ p 0 8
  if p.length ≠ 64 ∨ w / 2 ^ 22 ≠ 0 ∨ 5 < w / 2 ^ 19 ∨ at_ p 0x30 8 / 4 ≠ 0 ∨ at_ p 0x38 8 ≠ 0 ∨
     at_ p 0x10 8 / 2 ^ 57 ≠ 0 ∨ at_ p 8 8 / 2 ^ 57 ≠ 0 then none
  else some { f with number := BitVec.ofNat 16 w, desc := at_ p 8 8, retpc := BitVec.ofNat 57 (at_ p 0x10 8), status := BitVec.ofNat 3 (w / 2 ^ 19),
                     bases := (List.range 3).map fun k => at_ p (0x18 + 8 * k) 8, qseq := at_ p 0x30 8 }

/-- A frame whose number the slot does not know: what its link and its tile-context frame do not hold is as the GATE made it (spec/04
R87), with the layout entries of its descriptor read again (log 18). -/
def State.strangeFrame (s : State) (b : Block) (uid : Nat) (gangs : List Nat) (r : RawFrame) : Frame :=
  let desc := at_ r.payload 8 8
  let w : BitVec 1024 := BitVec.ofNat 1024 (((s.devNat b.ctx desc 128)).getD 0)
  let lms := (List.range (min (bits w 67 64) 8)).map fun k => (Binding.split (w.extractLsb' (128 + 64 * k) 64)).lm
  { uid, number := BitVec.ofNat 16 r.frame, ctx := b.ctx, blk := b.uid, core := r.core,
    tctx := if at_ r.payload 0 8 / 2 ^ 18 % 2 = 1 then none else some (at_ r.payload 0 8 / 2 ^ 16 % 4), qseq := 0, desc, retpc := 0,
    status := 0, refGang := gangs.headD 0, bases := [0, 0, 0], issuedOps := [0, 0, 0], doneOps := [0, 0, 0],
    errs := List.replicate 3 { entries := [], ovf := false }, gangs,
    maps := lms.map fun lm => (lm, BitVec.ofNat 128 ((s.devNat b.ctx (b.kernel.ltab + 16 * lm) 16).getD 0)),
    pc := BitVec.ofNat 57 (bits w 56 0), regs := TileRegs.start (List.replicate 8 0) (List.replicate 32 0) Config.fmtReset, sresume := 0,
    image := none, bundles := 0, nextws := [], landings := [], fixed := [], w := 0, x := 0, z := 0, buf := [], written := [],
    token := none, draining := false, wait := .none, latches := [] }

/-- The fault wait of a frame that the slot does not know, which its link does not hold: one that is suspended is in a tile trap where a
gang of its block holds it in its trap registers, and else issues its slot again (log 18). -/
def strangeToken (gs : List RawFrame) (x : RawFrame) : Option (Option W32) :=
  let trapped := gs.any fun g => (List.range 8).any fun i =>
    let w : BitVec 512 := BitVec.ofNat 512 (at_ g.payload (64 * i) 64)
    bit w 59 && bit w 264 && bits w 399 384 == x.frame
  if at_ x.payload 0 8 / 2 ^ 19 = 3 ∧ ¬trapped then some none else none

/-- The gate frames of a block, each over what is known of the frame of its number. -/
def readGates (b : Block) (known : RawFrame → Frame) : List RawFrame → Option (List Frame)
  | [] => some []
  | r :: rs =>
    let link := if r.kind = 3 then readLink r.payload (known r) else none
    match link with
    | none => none
    | some g =>
      if g.status = 0 then (readGates b known rs).map fun fs => g :: fs
      else match rs with
        | t :: ts =>
          (match (if t.kind = 2 then readTile t.payload g b else none), readGates b known ts with
           | some h, some fs => some (h :: fs)
           | _, _ => none)
        | [] => none

/-- A block as read back: its frames, and the gangs with a forbidden entry, with their live slices. -/
structure Restored where
  block : Block
  frames : List Frame
  bad : List (Nat × List Nat)
deriving DecidableEq, Repr

/-- The frames of a save area by block: what stands before the first block frame, the blocks, and the end frame. -/
def splitBlocks : List RawFrame → Option (List RawFrame × List (RawFrame × List RawFrame) × RawFrame)
  | [] => none
  | [r] => if r.kind = 5 then some ([], [], r) else none
  | r :: rs =>
    match splitBlocks rs with
    | none => none
    | some (xs, bs, e) => if r.kind = 4 then some ([], (r, xs) :: bs, e) else some (r :: xs, bs, e)

/-- The reserved bytes of a block frame's head. -/
def headResv (p : List Byte) : Bool := at_ p 0x18 40 != 0 || at_ p 0x40 1 / 2 != 0 || at_ p 0x90 112 != 0

/-- A grid that the slot does not know, for a block of it. -/
def strangeGrid (r : RawFrame) (k : Kernel) : Grid :=
  { uid := 0, queue := r.queue, record := { recordOf 0 0 with ticket := BitVec.ofNat 32 r.ticket }, node := none, kernel := k, next := 0, live := 0,
    total := 0, order := 0, unfitSince := none, reserved := false, trapExit := false }

/-- A block whose frame the slot does not know (log 18): it belongs to the started grid of its queue and ticket, if there is one, and its
kernel is read from its descriptor. `cluster` gives the name of its cluster by the cluster's size. -/
def State.strangeBlock (s : State) (c base : Nat) (cluster : Nat → Nat) (r : RawFrame) : Option Block :=
  let p := r.payload
  ((s.devRead c (at_ p 8 8) 64).bind (kernelOf (s.ctx c).desc (at_ p 8 8))).map fun k =>
    let g := ((s.ctx c).grids.find? fun g => g.queue == r.queue && g.record.ticket.toNat == r.ticket).getD (strangeGrid r k)
    { gridBlock c { g with kernel := k } (cluster k.csize) r.block with uid := base, slot := at_ p 0x42 2 }

/-- The block that a block frame stands for: the one that the slot kept of its number, launch, arena slot and descriptor, with its
frames, or one that the slot does not know. -/
def State.knownBlock (s : State) (c base : Nat) (cluster : Nat → Nat) (kept : List (Block × List Frame)) (r : RawFrame) : Option (Block × List Frame) :=
  match kept.find? fun k => k.1.number == r.block && k.1.queue == r.queue && k.1.ticket.toNat == r.ticket &&
      k.1.slot == at_ r.payload 0x42 2 && k.1.kernel.addr == at_ r.payload 8 8 with
  | some k => some k
  | none => (s.strangeBlock c base cluster r).map fun b => (b, [])

/-- A block read back from its frames. What has no place there (names, the launch's grid, the handler's packets) is what the slot kept,
or new, under names from `base` on (log 18). -/
def State.readBlock (s : State) (c base : Nat) (cluster : Nat → Nat) (kept : List (Block × List Frame)) (r : RawFrame) (rs : List RawFrame) :
    Option Restored :=
  let p := r.payload
  let gs := rs.takeWhile fun x => x.kind == 1
  match s.knownBlock c base cluster kept r with
  | none => none
  | some (b, fs) =>
    if p.length ≠ 0x200 + b.kernel.shared ∨ headResv p then none
    else
      let b1 : Block :=
        { b with core := r.core, args := BitVec.ofNat 64 (at_ p 0x10 8), crank := at_ p 0x41 1, relaunch := at_ p 0x44 2,
                 share := at_ p 0x46 2, poison := at_ p 0x40 1 == 1,
                 kernel := { b.kernel with lanes := at_ p 0 8 },
                 cb := (List.range 8).map fun i => BitVec.ofNat 256 (at_ p (0x100 + 32 * i) 32),
                 shared := (List.range b.kernel.shared).map fun a => (a, BitVec.ofNat 8 (at_ p (0x200 + a) 1)) }
      let spawned (no : Nat) : Bool := at_ p 0x48 8 / 2 ^ no % 2 == 1
      let old (no : Nat) : Gang := (b.gangs.find? fun g => g.no == no).getD (Gang.start no (base + 1 + no) 0 0 0 false [] [])
      let entered := (gs.filter fun x => !spawned x.unit).map fun x => (old x.unit).name
      let known (x : RawFrame) : Frame :=
        match fs.find? fun f => f.number.toNat == x.frame with
        | some f => { f with core := r.core }
        | none => { s.strangeFrame b1 (base + 64 + x.frame) entered x with token := strangeToken gs x }
      match readGates b1 known (rs.dropWhile fun x => x.kind == 1) with
      | none => none
      | some hs =>
        let gang (x : RawFrame) : Option (Gang × List Nat) :=
          s.readGang c x.payload b.slot (spawned x.unit) (hs.head?.map (·.uid)) (old x.unit)
        (gs.mapM gang).map fun ys =>
          let gangs := ys.map (·.1)
          { block := { b1 with gangs, freePart := b1.share - (gangs.map (·.holding)).sum }, frames := hs,
            bad := (ys.filter fun y => y.2 != []).map fun y => (y.1.name, y.2) }

/-- The positions that the end frame gives the grids with blocks left to dispatch. -/
def readEnd (p : List Byte) (n : Nat) (gs : List Grid) : Option (List (Nat × Nat)) :=
  if p.length ≠ 64 + 64 * ceilDiv gs.length 4 ∨ at_ p 0 8 ≠ n ∨ at_ p 8 56 ≠ 0 then none
  else some (gs.mapIdx fun k g => (g.uid, at_ p (64 + 16 * k) 8))

/-- Grids with the positions read back, and with the blocks that are there: those restored and those to be launched again. -/
def placeNexts (ns : List (Nat × Nat)) (bs : List Block) (gs : List Grid) : List Grid :=
  gs.map fun g =>
    let h : Grid := { g with live := (bs.filter fun b => b.grid == g.uid).length }
    match assocGet g.uid ns with | some n => { h with next := n } | none => h

/-- The first of the names, from `uid` on, that the `i`-th block of a save area takes where the slot does not know it: room for the
block, its gangs and its frames. -/
def strangeBase (uid i : Nat) : Nat := uid + 1 + 2 ^ 17 * i

/-- The name of the cluster of a block that the slot does not know: that of the first block of the cluster. -/
def strangeCluster (uid : Nat) (bs : List (RawFrame × List RawFrame)) (r : RawFrame) (csize : Nat) : Nat :=
  strangeBase uid (bs.findIdx fun b => b.1.queue == r.queue && b.1.ticket == r.ticket && b.1.block / csize == r.block / csize)

/-- The whole save area read and checked. -/
def State.readSave (s : State) (c : Nat) : Option (List Restored × List (Nat × Nat)) :=
  let x := s.ctx c
  match s.readFrames c (256 * x.desc.savelen) 0 with
  | none => none
  | some rs =>
    match splitBlocks rs with
    | some ([], bs, e) =>
      match bs.zipIdx.mapM fun b => s.readBlock c (strangeBase s.uid b.2) (strangeCluster s.uid bs b.1.1) x.saved b.1.1 b.1.2, readEnd e.payload rs.length x.undispatched with
      | some blocks, some ns => some (blocks, ns)
      | _, _ => none
    | _ => none

end Sys2Proof.Machine
end

