-- ==== Sys2Proof/Machine/Ctl.lean ====
section
/-! DEFINITION. Events of context control and translation: the host-visible registers, enabling, stopping, restoring and killing
contexts, timelines, and shootdowns (spec/03 R63, R74, spec/07 R200-R202, spec/10 R272-R283, R535). -/

namespace Sys2Proof.Machine

/-! ### The context descriptor (spec/10 R272) -/

/-- The fields of a context descriptor, when R272 accepts it. -/
def descOf (bs : List Byte) : Option CtxDesc :=
  let w : BitVec 2048 := BitVec.ofNat 2048 (leNat bs)
  let a (o : Nat) : Nat := bits w (8 * o + 56) (8 * o)
  let d : CtxDesc :=
    { root := bits w 47 0, qtab := a 0x08, thandler := a 0x10, arena := a 0x18, privmax := bits w 319 288, aslots := bits w 272 256,
      ftab := a 0x28, fhidx := bits w 427 416, ftcount := bits w 396 384, fpool := a 0x38, htab := a 0x40, gcount := bits w 616 608,
      hcount := bits w 588 576, intake := a 0x50, gtab := a 0x58, emutab := a 0x60, save := a 0x68, savelen := bits w 959 928,
      tslice := bits w 927 912, prio := bits w 897 896, cmask := w.extractLsb' 1024 512 }
  let high := [0x08, 0x10, 0x18, 0x28, 0x38, 0x40, 0x50, 0x58, 0x60, 0x68].any fun o => bits w (8 * o + 63) (8 * o + 57) != 0
  let resv := bits w 63 48 ≠ 0 ∨ bits w 287 273 ≠ 0 ∨ bits w 447 428 ≠ 0 ∨ bits w 415 397 ≠ 0 ∨ bits w 639 617 ≠ 0 ∨
    bits w 607 589 ≠ 0 ∨ bits w 911 898 ≠ 0 ∨ bits w 1023 960 ≠ 0 ∨ bits w 2047 1536 ≠ 0
  let place := d.root % 4096 ≠ 0 ∨ d.qtab % 64 ≠ 0 ∨ d.thandler % 8 ≠ 0 ∨ d.arena % 16384 ≠ 0 ∨ d.ftab % 16 ≠ 0 ∨ d.fpool % 8 ≠ 0 ∨
    d.htab % 32 ≠ 0 ∨ d.intake % 32 ≠ 0 ∨ d.gtab % 32 ≠ 0 ∨ d.emutab % 8 ≠ 0 ∨ d.save % 16384 ≠ 0
  let limit := d.privmax % 16 ≠ 0 ∨ 524288 < d.privmax ∨ d.aslots = 0 ∨ 65536 < d.aslots ∨ d.ftcount = 0 ∨ 4096 < d.ftcount ∨
    d.gcount = 0 ∨ 256 < d.gcount ∨ d.hcount = 0 ∨ 4096 < d.hcount ∨ d.savelen = 0 ∨ d.tslice = 0
  if high || decide resv || decide place || decide limit then none else some d

/-- Whether `n` physical bytes exist. -/
def physRange (a n : Nat) : Bool := physExists a && physExists (a + n - 1) && (decide (a + n ≤ Config.nearEnd) || decide (Config.hostBase ≤ a))

/-- The outcome of a write to a host-visible register: in recovery the link does not reach it (spec/10 R289). -/
def hostWrite (c : Bool) (s t : State) : Host.Outcome State Fault Refusal := event (c && !s.recovery) s t

/-- EN (spec/10 R535): the descriptor at CDESC is read; one that R272 accepts makes the context run. -/
def execEn (ctx : Nat) (s : State) : Host.Outcome State Fault Refusal :=
  let c := s.ctx ctx
  let desc := if c.cdesc % 256 = 0 ∧ physRange c.cdesc 256 then descOf (Memory.bytes s.mem c.cdesc 256) else none
  hostWrite (c.state == 0) s
    (match desc with
     | none => s.setCerr ctx 4
     | some d =>
       let t := s.updCtx ctx fun x =>
         { Ctx.absent x.id with state := 1, cdesc := x.cdesc, cerr := x.cerr, desc := d, restored := s.time.toNat }
       ((t.readFaults ctx).readIntake ctx).readQueues ctx)

/-- STOP (spec/10 R274, R535). -/
def execStop (ctx : Nat) (s : State) : Host.Outcome State Fault Refusal := hostWrite ((s.ctx ctx).state == 1) s (s.requestStop ctx false)

/-- Restored blocks that are placed together: those of one cluster. -/
def clustersOf (rs : List Restored) : List (List Restored) := clustersBy (fun r => r.block.cluster) rs

/-- The blocks of a cluster as the front end places them again. -/
def pendingOf (rs : List Restored) : Pending :=
  { blocks := rs.map (·.block), frames := rs.flatMap (·.frames), again := false, near := none,
    bad := rs.flatMap fun r => r.bad.map fun x => (r.block.uid, x.1, x.2) }

/-- The order in which restored frames take tile contexts: their saved queue positions, then their numbers (spec/04 R111). -/
def frameOrder (fs : List Frame) : List Frame :=
  sortBy (fun (a b : Frame) => decide (a.qseq < b.qseq) || (a.qseq == b.qseq && decide (a.number.toNat < b.number.toNat))) fs

/-- Restored blocks whose frames take their places in that order from `base` on. A block that is placed later keeps this place: its frame
goes before those that queue on its core in the meantime (DESIGN CHOICE for spec/04 R111; log 25). -/
def queued (base : Nat) (rs : List Restored) : List Restored :=
  let fs := (frameOrder (rs.flatMap (·.frames))).map (·.uid)
  rs.map fun r => { r with frames := r.frames.map fun f => { f with qseq := base + fs.idxOf f.uid } }

/-- Blocks of a context that wait are placed, as long as one fits; `fuel` bounds their number. -/
def State.placeRestored (c : Nat) : Nat → State → State
  | 0, s => s
  | fuel + 1, s =>
    match s.wants.find? fun w => w.ctx == c && (match w with | .pending _ _ => true | _ => false) && (s.fitWant w).isSome with
    | none => s
    | some w =>
      match s.fitWant w with
      | some (cores, slots) => State.placeRestored c fuel (s.placeWant w cores slots)
      | none => s

/-- The restore of a stopped context (spec/10 R283, spec/09 R246): every frame is checked before any block is placed. The blocks that
fit are placed at once, before packets gather again; the others wait. -/
def State.resume (s : State) (c : Nat) : State :=
  match s.readSave c with
  | none => s.kill c 5
  | some (rs, nexts) =>
    let t := s.updCtx c fun x =>
      { x with grids := placeNexts nexts (rs.map (·.block) ++ (x.pending.filter (·.again)).flatMap (·.blocks)) x.grids, state := 1, restored := s.time.toNat, used := 0, saved := [], pending := x.pending ++ (clustersOf (queued s.uid rs)).map pendingOf }
    let u := State.placeRestored c (t.ctx c).pending.length { t with uid := strangeBase t.uid rs.length }
    let v := (List.range Config.cores).foldl State.freePlace u
    ((v.ctx c).queues.foldl (fun v q => v.feWatch c q.idx) v).regather c

/-- RESUME (spec/10 R535). -/
def execResume (ctx : Nat) (s : State) : Host.Outcome State Fault Refusal := hostWrite ((s.ctx ctx).state == 3) s (s.resume ctx)

/-- KILL (spec/10 R278, R535). -/
def execKill (ctx : Nat) (s : State) : Host.Outcome State Fault Refusal := hostWrite (s.ctx ctx).present s (s.kill ctx 1)

/-- CLEAR (spec/10 R535). -/
def execClear (ctx : Nat) (s : State) : Host.Outcome State Fault Refusal :=
  hostWrite ((s.ctx ctx).state == 4) s (s.updCtx ctx fun x => { x with state := 0 })

/-- QGEN (spec/03 R55): the queue table is read again. A stopping or stopped context's queues stay frozen. -/
def execQgen (ctx : Nat) (s : State) : Host.Outcome State Fault Refusal :=
  let t := s.readQueues ctx
  hostWrite (s.ctx ctx).present s
    (if (s.ctx ctx).state = 1 then t else (t.ctx ctx).queues.foldl (fun u q => u.feDisarm ctx q.idx) t)

/-- GGEN (spec/09 R260). It clears the broken marks; the sequence numbers of the groups' operations go on as they were, of which the spec
says nothing (DESIGN CHOICE; log 23). -/
def execGgen (ctx : Nat) (s : State) : Host.Outcome State Fault Refusal := hostWrite true s (s.updCtx ctx fun x => { x with broken := [] })

/-- TIMELINE_CONTROL_WRITE (spec/03 R63). -/
def execTimelineControlWrite (t : BitVec 12) (w : TlWord) (value : W64) (s : State) : Host.Outcome State Fault Refusal :=
  let x := s.timeline t.toNat
  match w with
  | .count => hostWrite (!x.valid) s (s.setTimeline { x with count := value })
  | .control =>
    hostWrite true s (s.setTimeline { x with
      valid := bit value 15, err := x.err && !bit value 14, owner := if x.valid then x.owner else value.extractLsb' 0 12 })

/-- The state after an event that answers a next state. -/
def nextOr (s : State) (r : Host.Outcome State Fault Refusal) : State := match r with | .next t => t | _ => s

/-- A write of CCTL: the bits set act one after another, each judged against the STATE that those before it have left (spec/10
R535). -/
def State.cctl (s : State) (c : Nat) (value : W64) : State :=
  [execEn c, execStop c, execResume c, execKill c, execClear c].zipIdx.foldl
    (fun t (x : (State → Host.Outcome State Fault Refusal) × Nat) => if bit value x.2 then nextOr t (x.1 t) else t) s

/-- REGISTER_WRITE (spec/10 R273, R535, spec/09 R248, R252, R260): CDESC while the slot is absent, CCTL's bits in their order, CERR by
ones, and what the fabric manager sets; the others ignore writes. A time-out outside its range is not taken (log 9). -/
def execRegisterWrite (r : HostReg) (value : W64) (s : State) : Host.Outcome State Fault Refusal :=
  match r with
  | .cdesc c => hostWrite ((s.ctx c.toNat).state == 0) s (s.updCtx c.toNat fun x => { x with cdesc := bits value 47 0 })
  | .cerr c => hostWrite true s (s.updCtx c.toNat fun x => { x with cerr := x.cerr &&& ~~~(value.extractLsb' 0 7) })
  | .cctl c => hostWrite true s (s.cctl c.toNat value)
  | .ato => hostWrite (decide (2 ^ 20 ≤ value.toNat) && decide (value.toNat ≤ 2 ^ 32)) s { s with ato := value.toNat }
  | .colto => hostWrite (decide (2 ^ 24 ≤ value.toNat) && decide (value.toNat ≤ 2 ^ 32)) s { s with colto := value.toNat }
  | .devid => hostWrite true s { s with devid := value.extractLsb' 0 19 }
  | .route dev ports => hostWrite true s { s with routes := assocSet dev.toNat (ports.filter fun p => !bit s.fenceP p) s.routes }
  | .partition c devs => hostWrite true s { s with partitions := assocSet c.toNat devs s.partitions }
  | .cstat _ => .next s
  | .fsc _ => .next s
  | .reserved _ => .next s

/-! ### Reads by system software -/

/-- FSC: the free-slot counters, 8 bits each, as the lesser of each count and 255 (spec/10 R277). -/
def State.fsc (s : State) (c : Nat) : Nat := leNat ((s.counters c).map fun n => BitVec.ofNat 8 (min n 255))

/-- A register as system software reads it (spec/03 R63, spec/10 R273, R286). The word that a read of QGEN or GGEN returns is open
(log 2). -/
def State.registerAt (s : State) (r : HostView) : Nat :=
  match r with
  | .context c off =>
    let x := s.ctx c
    (match off with
     | 0x00 => x.cdesc
     | 0x10 => (Config.freeWord (2 * s.ctr + 1) 16).toNat + 2 ^ 32 * (Config.freeWord (2 * s.ctr + 1) 20).toNat
     | 0x18 => (Config.freeWord (2 * s.ctr + 1) 24).toNat + 2 ^ 32 * (Config.freeWord (2 * s.ctr + 1) 28).toNat
     | 0x20 => x.state + 256 * x.kcause
     | 0x28 => x.cerr.toNat
     | 0x30 => s.fsc c
     | _ => 0)
  | .timeline off =>
    let x := s.timeline (off / 16)
    if off % 16 < 8 then x.count.toNat
    else x.owner.toNat + (if x.err then 2 ^ 14 else 0) + (if x.valid then 2 ^ 15 else 0)
  | .health => (if s.replace then 1 else 0) + (if s.limiting then 2 else 0) + (if s.recovery then 4 else 0) + 256 * s.temp.toNat
  | .fenceC => s.fenceC.toNat
  | .fenceP => s.fenceP.toNat
  | .ecnt => s.ecntCorrected.toNat + 2 ^ 32 * s.ecntUncorrectable.toNat + 2 ^ 48 * s.ecntDeferred.toNat

/-- Whether the link shows a register: in recovery only those of health (spec/10 R289). -/
def State.shows (s : State) (r : HostView) : Bool :=
  !s.recovery || (match r with | .context _ _ => false | .timeline _ => false | _ => true)

/-- A read of a register by system software. -/
def State.hostRead (s : State) (r : HostView) : State :=
  { s with hostOut := s.hostOut ++ [if s.shows r then .register r (s.registerAt r) else .error 0] }

/-! ### Resuming (spec/03 R74) -/

/-- Whether a context is the next to resume among those that the front end stopped: highest priority, then first stopped.
One whose next block fits waits while one before it in that order does not fit (DESIGN CHOICE; log 24). -/
def State.nextResume (s : State) (c : Nat) : Bool :=
  let x := s.ctx c
  x.state == 3 && x.byFront && !s.ctxs.any fun y => y.id != c && y.state == 3 && y.byFront &&
    (decide (x.desc.prio < y.desc.prio) || (y.desc.prio == x.desc.prio && decide (y.stoppedAt < x.stoppedAt)))

/-- CONTEXT_AUTO_RESUME (spec/03 R74). While no core fits its block, the front end stops a context of lower priority. -/
def execContextAutoResume (ctx : Nat) (s : State) : Host.Outcome State Fault Refusal :=
  event (s.nextResume ctx) s (if s.resumeFits ctx then s.resume ctx else s.preempt (s.ctx ctx).desc.prio)

/-! ### Shootdowns (spec/07 R200-R202) -/

/-- BASE, TAIL, HEAD and SLOG of the invalidation ring's control block; none when it is not well formed. -/
def State.shootRing (s : State) (pa : Nat) : Option (Nat × Nat × Nat × Nat) :=
  let w : W256 := BitVec.ofNat 256 (Memory.nat s.mem pa 32)
  let base := bits w 47 0
  let slog := bits w 195 192
  if bits w 63 48 ≠ 0 ∨ bits w 255 196 ≠ 0 ∨ slog = 0 ∨ base % 4096 ≠ 0 ∨ Config.nearEnd < base + 2 ^ slog * 32 then none
  else some (base, bits w 127 64, bits w 191 128, slog)

/-- INVALIDATION_RING_ENABLE (spec/07 R201): the block is checked once. -/
def execInvalidationRingEnable (pa : Nat) (s : State) : Host.Outcome State Fault Refusal :=
  match (if pa + 32 ≤ Config.nearEnd then s.shootRing pa else none) with
  | none => .next s
  | some (base, _, head, slog) => .next { s with shootBlock := some (pa, base, slog), shootRead := head }

/-- A monitor of the device on a word, where its home has one free. -/
def State.shootArm (s : State) (pa : Nat) : State :=
  match homeSlice pa with
  | some h =>
    if s.monsAt h < Config.monitorsPerSlice then
      { s with monitors := s.monitors ++ [{ slice := h, loc := .phys pa, kind := .shoot, tests := [], hit := false }] }
    else s
  | none => s

/-- The monitors that the device holds: on the ring's tail, and on the ticket of each reserved record that it has not seen (spec/07
R201). -/
def State.shootWatch (s : State) : State :=
  let t : State := { s with monitors := s.monitors.filter fun m => m.kind != .shoot }
  match s.shootBlock with
  | some (pa, base, slog) =>
    ((List.range (min (2 ^ slog) (Memory.nat s.mem (pa + 8) 8 - s.shootRead))).map (s.shootRead + ·)).foldl (fun u i =>
      let slot := base + i % 2 ^ slog * 32
      if Memory.nat s.mem (slot + 24) 4 = i % 2 ^ 32 then u else u.shootArm (slot + 24)) (t.shootArm (pa + 8))
  | none => t

/-- Records at the front that have completed leave the ring, and HEAD advances over them. -/
def State.shootRetire : Nat → State → State
  | 0, s => s
  | fuel + 1, s =>
    match s.shootBlock, leastBy (fun (d : Shootdown) => d.record.getD 0) (s.shootdowns.filter fun d => d.record.isSome) with
    | some (pa, _, _), some d =>
      if d.done then
        State.shootRetire fuel (({ s with shootdowns := s.shootdowns.filter fun x => x.id != d.id } : State).poke (pa + 16) (leBytes 8 (d.record.getD 0 + 1)))
      else s
    | _, _ => s

/-- SHOOTDOWN_RECORD (spec/07 R201): the next record, once its ticket is seen, while fewer than 8 are in progress. -/
def execShootdownRecord (s : State) : Host.Outcome State Fault Refusal :=
  match s.shootBlock with
  | none => .next s
  | some (pa, base, slog) =>
    let i := s.shootRead
    let slot := base + i % 2 ^ slog * 32
    if Memory.nat s.mem (pa + 8) 8 ≤ i ∨ 8 ≤ (s.shootdowns.filter fun d => d.record.isSome && !d.done).length ∨
        Memory.nat s.mem (slot + 24) 4 ≠ i % 2 ^ 32 then .next s.shootWatch
    else
      let d := (shootOf s.uid i (BitVec.ofNat 256 (Memory.nat s.mem slot 32))).getD
        { id := s.uid, record := some i, ctx := 0, va := 0, pages := 0, sigtl := none, dropped := none, done := true }
      let t : State := { s with shootdowns := s.shootdowns ++ [d], uid := s.uid + 1, shootRead := i + 1 }
      .next (State.shootRetire (t.shootdowns.length) t)

/-- Where a change grants X, no gang holds fetch lines of the range any longer (spec/07 R202). -/
def State.grantX (s : State) (d : Shootdown) : State :=
  let gone (x : Nat × W256) : Bool := decide (d.va ≤ 32 * x.1) && decide (32 * x.1 < d.va + d.pages * 16384) &&
    (match s.walk d.ctx (32 * x.1) with | .page _ _ p => p.x | _ => false)
  { s with blocks := s.blocks.map fun b =>
      if b.ctx = d.ctx then { b with gangs := b.gangs.map fun g => { g with code := g.code.filter fun x => !gone x } } else b }

/-- The TLB entries of a shootdown's range. -/
def Shootdown.hits (d : Shootdown) (e : TlbEntry) : Bool :=
  e.ctx == d.ctx && decide (e.va < d.va + d.pages * 16384) && decide (d.va < e.va + e.size)

/-- Every TLB drops a shootdown's range, and the writes that it holds may issue again (spec/07 R202). -/
def State.shootDrop (s : State) (id : Nat) : State :=
  match s.shootdowns.find? fun d => d.id == id && !d.done && d.dropped.isNone with
  | none => s
  | some d =>
    ({ s with tlb := s.tlb.filter fun e => !d.hits e,
              shootdowns := s.shootdowns.map fun x => if x.id = d.id then { x with dropped := some s.uid } else x } : State).grantX d

/-- Whether an access that was issued before every TLB dropped a shootdown's range, and that may act under the old entry, is still in
flight (spec/07 R193, R202). An access of the thread set keeps only its physical place, so that any of the context counts (log 9). -/
def State.oldAccess (s : State) (d : Shootdown) (bound : Nat) : Bool :=
  let pages (e : OpEnv) : Bool := e.pages.any fun p => decide (d.va ≤ 16384 * p.1) && decide (16384 * p.1 < d.va + d.pages * 16384)
  let phys (l : Loc) : Bool := match l with | .phys _ => true | _ => false
  (s.ops.any fun o => o.ctx == d.ctx && decide (o.id < bound) && o.units.any fun u => !u.isFill && phys u.loc) ||
    (s.aops.any fun o => o.ctx == d.ctx && decide (o.id < bound) && !o.quiet &&
      (match o.work with
       | .cpy _ _ reads todo _ _ => (reads ++ todo).any fun p => phys p.2.1
       | .cpyRemote _ _ _ _ _ _ todo _ _ => todo.any fun p => phys p.2.1
       | .slot _ e _ _ => pages e
       | .remote _ e _ _ _ _ => pages e
       | .coll _ e _ _ _ _ _ _ => pages e)) ||
    s.frames.any fun f => f.ctx == d.ctx && f.fixed.any fun x => decide (x.id < bound) && !x.srcs.isEmpty && pages x.env

/-- Whether a write that a shootdown held has not issued again, although no other holds it (spec/07 R202). -/
def State.heldWrite (s : State) (d : Shootdown) : Bool :=
  let free (va : Nat) : Bool := d.covers d.ctx va && (s.shootdownAt d.ctx va).isNone
  (s.blocks.any fun b => b.ctx == d.ctx && b.gangs.any fun g => g.slices.any fun x =>
    match x.wait with | .retry (.remap va) => free va | _ => false) ||
    s.frames.any fun f => f.ctx == d.ctx && (match f.wait with | .remap va => free va | _ => false)

/-- SHOOTDOWN_COMPLETION (spec/07 R202): every TLB has dropped the range, what acted under the old entry is over, and every held write
has issued again. -/
def execShootdownCompletion (rec : Nat) (s : State) : Host.Outcome State Fault Refusal :=
  match s.shootdowns.find? fun d => d.id == rec && !d.done with
  | none => .next s
  | some d =>
    let ready := match d.dropped with | some n => !s.oldAccess d n && !s.heldWrite d | none => false
    let t : State := { s with shootdowns := s.shootdowns.map fun x => if x.id = d.id then { x with done := true } else x }
    let u := match d.sigtl with | some k => t.signal k false | none => t
    event ready s (State.shootRetire u.shootdowns.length u)

end Sys2Proof.Machine
end

