-- ==== Sys2Proof/Machine/Fabric.lean ====
section
/-! DEFINITION. The fabric: remote parts of copies, collectives, answers that do not come, links (spec/09 R232-R234, R248,
R251-R260). -/

namespace Sys2Proof.Machine

/-! ### Remote parts sent (spec/09 R254, R255) -/

/-- Whether every part of an operation has been sent. -/
def AOp.allSent (o : AOp) : Bool := o.started && o.srcs.isEmpty && o.parts.all fun p => p.sent.isSome

/-- Whether a part may be sent: the first that has not been, after those of the earlier operations of its queue, and once its local bytes
have been read. The remote side of a copy to this device itself follows the accesses of its block, and of its queue, that come before it
(spec/08 R222, R228, R229). -/
def State.sendable (s : State) (o : AOp) (k : Nat) : Bool :=
  o.started && o.srcs.isEmpty && (o.parts.findIdx? fun p => p.sent.isNone) == some k &&
    !(s.aops.any fun q => q.owner == o.owner && q.kind == .copy && decide (q.id < o.id) && q.remote?.isSome && !q.allSent) &&
    (match o.parts[k]?, o.remote? with
     | some p, some (_, _, toRemote) =>
       let far := s.selfLocs o [(p.addr, p.len)]
       !(far.any fun q => s.aopBusy o q.1 q.2) && !s.cpyClash o (if toRemote then [] else far) (if toRemote then far else []) &&
         (match o.work with
          | .cpyRemote _ _ _ _ _ true todo _ _ => !todo.any fun r => decide (r.1 < p.off + p.len) && decide (p.off < r.1 + r.2.2)
          | _ => true)
     | _, _ => true)

/-- The bytes of a part for the remote side: free where they overwrite bytes of the copy's own source (spec/13 R352). -/
def State.partBytes (s : State) (o : AOp) (p : RPart) : List Byte :=
  match o.work with
  | .cpyRemote _ _ _ _ _ true _ got near =>
    (gotRun got p.off p.len).mapIdx fun j b => if rangesMeet near (s.selfLocs o [(p.addr + j, 1)]) then s.freeByteAt j else b
  | .remote _ _ _ _ true back => (List.range p.len).map fun j => BitVec.ofNat 8 (backByte back (p.addr + j))
  | _ => []

/-- The packet of a part, in priority class 0. An address above the 57 bits of ADDR is cut to them (DESIGN CHOICE; log 17). -/
def State.partPacket (s : State) (o : AOp) (p : RPart) (dev ctx : Nat) (toRemote last : Bool) (bs : List Byte) : Packet :=
  let n := if toRemote then ceilDiv p.len 32 else 0
  { s.packet (if toRemote then 2 else 3) dev ctx o.ctx 0 with
    flags := if toRemote && last then 1 else 0, stag := BitVec.ofNat 16 p.id, addr := BitVec.ofNat 57 p.addr, len := p.len, nflit := n,
    data := bs ++ List.replicate (32 * n - bs.length) 0 }

/-! ### Remote parts answered -/

/-- What a copy from another device writes, from the bytes that have come. Elements whose bytes were refused are not written; in a
conversion they are free. -/
def OpEnv.backWrites (e : OpEnv) (seed : Nat) (i : Instr) (back : List (Nat × Byte)) : List Wr × FlagSet :=
  let gone (a : Nat) : Bool := (assocGet a back).isNone
  let byte (a : Nat) : Nat := if gone a then (Config.freeWord seed (2 ^ 48 + a)).toNat % 256 else backByte back a
  let run (f : Nat → Nat) : List Wr × FlagSet :=
    e.copyWrites seed i false (fun d j => byteCode f d 0 j) fun d j => if d.t.scaled then f (d.scaleA 0 ((d.x.col0 + j) / 32)) else 127
  let (ws, fl) := run byte
  if copyCvt i then (ws, fl)
  else
    let holes := (run fun a => if gone a then 255 else 0).1
    ((ws.zip holes).map (fun p => { p.1 with mask := p.1.mask &&& ~~~p.2.data }), fl)

/-- A part has been answered or lost. A copy from another device computes its writes with the last. -/
def State.partDone (s : State) (o : AOp) (p : RPart) : State :=
  let o1 := { o with parts := o.parts.filter fun x => x.id != p.id }
  match o1.work with
  | .remote i e _ _ false back =>
    if o1.parts.isEmpty then
      let (ws, fl) := e.backWrites (2 * s.ctr + 1) i back
      let far := s.selfLocs o1 (cutGranules ((copyRows i e).1.flatMap fun x => x.runs (if copyCvt i then .a else .none)))
      (s.putAop { o1 with writes := ws.zipIdx.map fun w => w.1.freeIn (2 * s.ctr + 1) w.2 far }).orTileFlags e.frame fl
    else s.putAop o1
  | _ => s.putAop o1

/-- The operation and part that a response or acknowledgement answers. -/
def State.partOf (s : State) (p : Packet) : Option (AOp × RPart) :=
  s.aops.findSome? fun o =>
    match o.remote? with
    | some (dev, ctx, _) =>
      if dev = p.sdev.toNat ∧ ctx = p.sctx.toNat ∧ o.ctx = p.dctx.toNat then
        (o.parts.find? fun x => x.sent.isSome && x.id % 2 ^ 16 == p.stag.toNat).map fun x => (o, x)
      else none
    | none => none

/-- A part refused at the remote side: the error names the part's address (spec/10 R271; log 17). -/
def AOp.refused (o : AOp) (p : RPart) : AOp := o.fail cProtection 6 p.addr

/-- A part whose remote side cannot be reached. -/
def AOp.lost (o : AOp) (p : RPart) : AOp := o.fail cProtection 7 p.addr

/-- READ_RESPONSE (spec/09 R254): a KIND 4 packet; with ERR no byte moves. -/
def execReadResponse (p : Packet) (s : State) : Host.Outcome State Fault Refusal :=
  match s.receive p with
  | none => .next s
  | some t =>
    if p.kind ≠ 4 then .next s
    else match t.partOf p with
      | none => .next t
      | some (o, x) =>
        if bit p.flags 0 then .next (t.partDone (o.refused x) x)
        else if p.len ≠ x.len then .next t
        else
          let bs := p.data.take x.len
          (match o.work with
           | .cpyRemote va dev ctx addr len false todo got near =>
             let got' := (bs.mapIdx fun j b => (x.off + j, b)) ++ got
             .next (t.partDone { o with work := .cpyRemote va dev ctx addr len false todo got' near } x)
           | .remote i e dev ctx false back =>
             let back' := (bs.mapIdx fun j b => (x.addr + j, b)) ++ back
             .next (t.partDone { o with work := .remote i e dev ctx false back' } x)
           | _ => .next t)

/-- WRITE_ACKNOWLEDGEMENT (spec/09 R254): a KIND 5 packet. -/
def execWriteAcknowledgement (p : Packet) (s : State) : Host.Outcome State Fault Refusal :=
  match s.receive p with
  | none => .next s
  | some t =>
    if p.kind ≠ 5 then .next s
    else match t.partOf p with
      | none => .next t
      | some (o, x) =>
        (match o.remote? with
         | some (_, _, true) => .next (t.partDone (if bit p.flags 0 then o.refused x else o) x)
         | _ => .next t)

/-- A part is sent; one without a route ends with an error (spec/09 R234, spec/10 R271). -/
def State.sendPart (s : State) (o : AOp) (k : Nat) : State :=
  match o.parts[k]?, o.remote? with
  | some p, some (dev, ctx, toRemote) =>
    (match s.send (s.partPacket o p dev ctx toRemote (k + 1 == o.parts.length) (s.partBytes o p)) with
     | some (_, t) => t.putAop { o with parts := o.parts.set k { p with sent := some s.time.toNat } }
     | none => s.partDone (o.lost p) p)
  | _, _ => s

/-- ANSWER_TIMEOUT (spec/09 R248, R254): no answer within ATO: code 5, or an error of the part. -/
def execAnswerTimeout (req : Nat) (s : State) : Host.Outcome State Fault Refusal :=
  let now := s.time.toNat
  match s.flares.find? fun r => r.id == req && r.answer.isNone with
  | some r => event (decide (r.sent + s.ato ≤ now)) s (s.answer req 5)
  | none =>
    match s.aops.findSome? fun o => (o.parts.find? fun x => x.id == req).map fun x => (o, x) with
    | none => .next s
    | some (o, x) =>
      event (match x.sent with | some t => decide (t + s.ato ≤ now) | none => false) s (s.partDone (o.lost x) x)

/-! ### Remote requests (spec/09 R254) -/

/-- Bytes written at their homes by a party without a core: a part written whole is no longer poisoned (spec/07 R204). -/
def State.writeBytes (s : State) (pa : Nat) (bs : List Byte) : State :=
  let whole (p : Nat) : Bool := decide (pa ≤ 16 * p) && decide (16 * p + 16 ≤ pa + bs.length)
  ({ s with poison := s.poison.filter fun p => !whole p } : State).poke pa bs

/-- The physical address that a remote access reaches, when it is not refused. -/
def State.remoteTarget (s : State) (p : Packet) (write : Bool) : Option Nat :=
  let c := p.dctx.toNat
  let va := p.addr.toNat
  if !s.admits c p.sdev.toNat || decide (Config.sharedBase < va + p.len) || inSpill (s.ctx c).desc va then none
  else match s.walk c va with
    | .page pa size m =>
      let ok := !m.sys && (if write then m.w && !((s.ctx c).sealedAt va || (s.ctx c).sealedAt (va + p.len - 1)) else m.r)
      if ok && physRange (pa + va % size) p.len then some (pa + va % size) else none
    | _ => none

/-- A write that a copy makes over this device's path to itself leaves the cache of the core that issued the copy: a later load of the
issuer does not return what the write has overwritten (spec/08 R217, spec/13 R352). -/
def State.dropSender (s : State) (p : Packet) (pa : Nat) : State :=
  if p.sdev ≠ s.devid then s
  else match s.aops.find? fun o => o.ctx == p.sctx.toNat && o.parts.any fun x => x.sent.isSome && x.id % 2 ^ 16 == p.stag.toNat with
    | some o => s.l1Drop o.core (.phys pa)
    | none => s

/-- REMOTE_WRITE (spec/09 R254): performed at its home and acknowledged; held while a shootdown covers it (spec/07 R202). -/
def execRemoteWrite (p : Packet) (s : State) : Host.Outcome State Fault Refusal :=
  match s.receive p with
  | none => .next s
  | some t =>
    if p.kind ≠ 2 ∨ (s.shootdownAt p.dctx.toNat p.addr.toNat).isSome then .next s
    else match t.remoteTarget p true with
      | none => .next (t.reply p 5 1 0 [])
      | some pa => .next ((((t.setOwner pa p.dctx.toNat).writeBytes pa (p.data.take p.len)).dropSender p pa).reply p 5 0 0 [])

/-- REMOTE_READ_REQUEST (spec/09 R254): a home load, and its response. -/
def execRemoteReadRequest (p : Packet) (s : State) : Host.Outcome State Fault Refusal :=
  match s.receive p with
  | none => .next s
  | some t =>
    if p.kind ≠ 3 then .next s
    else match t.remoteTarget p false with
      | none => .next (t.reply p 4 1 p.len [])
      | some pa =>
        if t.poisoned (.phys pa) p.len then .next (t.reply p 4 1 p.len [])
        else .next (t.reply p 4 0 p.len (t.readLoc (.phys pa) p.len))

/-! ### Collectives (spec/09 R257-R260) -/

/-- COLLECTIVE_DATA (spec/09 R257, spec/13 R346): a KIND 6 packet. Data that comes before the local COLL waits; that of an aborted
operation is dropped (spec/09 R260), and so is that of a finished one, unless its values differ: then it cuts the group short. -/
def execCollectiveData (p : Packet) (s : State) : Host.Outcome State Fault Refusal :=
  match s.receive p with
  | none => .next s
  | some t =>
    if p.kind ≠ 6 then .next s
    else
      let c := p.dctx.toNat
      let g := p.hidx.toNat
      let x := t.ctx c
      match p.coll with
      | none => .next t
      | some tag =>
        if !t.admits c p.sdev.toNat || x.broken.contains g || decide (x.desc.gcount ≤ g) then .next t
        else
          let t1 : State := { t with collIn := t.collIn ++ [p] }
          match t.aops.find? fun o => o.ctx == c && !o.cutShort && (match o.work with | .coll _ _ k _ _ seq _ _ => k == g && seq == tag.seq | _ => false) with
          | some o =>
            let o1 := { o with since := s.time.toNat }
            .next ((t1.putAop o1).collSettle o1)
          | none =>
            if (assocGet g x.collSeq).getD 0 ≤ tag.seq then .next t1
            else match x.collPast.find? fun y => y.1 == g && y.2.seq == tag.seq with
              | some own => .next (if tagDiffers tag own.2 then t.breakGroup c g else t)
              | none => .next t

/-- COLLECTIVE_ABORT (spec/09 R260): a KIND 7 packet, whose HIDX names the group it cuts short. -/
def execCollectiveAbort (group : BitVec 12) (p : Packet) (s : State) : Host.Outcome State Fault Refusal :=
  match s.receive p with
  | none => .next s
  | some t => .next (if p.kind ≠ 7 ∨ p.hidx ≠ group then s else if t.admits p.dctx.toNat p.sdev.toNat then t.breakGroup p.dctx.toNat p.hidx.toNat else t)

/-- COLLECTIVE_TIMEOUT (spec/09 R260): an operation has had no data for COLTO cycles. -/
def execCollectiveTimeout (ctx group : Nat) (s : State) : Host.Outcome State Fault Refusal :=
  let late (o : AOp) : Bool := o.ctx == ctx && o.group? == some group && o.started && !o.cutShort && decide (o.since + s.colto ≤ s.time.toNat)
  event (s.aops.any late) s (s.breakGroup ctx group)

/-! ### Links (spec/09 R232, R251-R253) -/

/-- Whether a group of a context has a member on one of some devices, or one whose path from here leaves by a port (spec/09 R252, R260). -/
def State.groupOn (s : State) (c g : Nat) (devs : List Nat) (port : Nat) : Bool :=
  match s.groupEntry c g with
  | some (m, _, mem) => (List.range m).any fun r =>
    match s.groupMember c mem r with
    | some (d, _) => devs.contains d || (d != s.devid.toNat && !((assocGet d s.routes).getD []).isEmpty && s.portOf d 0 == port)
    | none => false
  | none => false

/-- LINK_FAILURE (spec/09 R253, R260): the port is fenced and leaves the routes, the packets at the port are lost, and collectives are cut
short whose group has a member on a lost device or one that this device reached by the port. Requests and parts of a lost path end by the
answer time-out (R248, R254). -/
def execLinkFailure (port : BitVec 5) (lostDevs : List Nat) (s : State) : Host.Outcome State Fault Refusal :=
  let t : State := { s with
    fenceP := s.fenceP ||| (1#32 <<< port.toNat), replace := true,
    fabOut := s.fabOut.filter fun q => s.port q.2 != port.toNat,
    routes := s.routes.map fun r => (r.1, r.2.filter (· != port.toNat)) }
  let gs := (t.aops.filterMap fun o => o.group?.map fun g => (o.ctx, g)).eraseDups
  .next (gs.foldl (fun t x => if s.groupOn x.1 x.2 lostDevs port.toNat then t.breakGroup x.1 x.2 else t) t)

/-- DROPPED_PACKET (spec/09 R232): a malformed packet is logged and not answered. Whether it counts among its path's numbers the spec does
not say: it does not (DESIGN CHOICE; log 17). -/
def execDroppedPacket (p : Packet) (s : State) : Host.Outcome State Fault Refusal :=
  event (!packetOk p) s { s with fabErr := s.fabErr + 1 }

/-- LINK_RETRANSMISSION (spec/09 R251): the link sends a flit again and loses none, so what the device holds stays as it is. -/
def execLinkRetransmission (_port : BitVec 5) (s : State) : Host.Outcome State Fault Refusal := .next s

/-- One packet that has waited 4,096 flit times moves ahead of the one before it on its port, of the next class up; its wait begins
again. -/
def State.agePort (s : State) (port : Nat) : List (Nat × Packet) → Option (Nat × Packet) → List (Nat × Packet)
  | [], some q => [q]
  | [], none => []
  | p :: ps, none => if s.port p.2 = port then s.agePort port ps (some p) else p :: s.agePort port ps none
  | p :: ps, some q =>
    if s.port p.2 ≠ port then p :: s.agePort port ps (some q)
    else if q.2.prio.toNat = p.2.prio.toNat + 1 ∧ p.1 + Config.flitAge ≤ s.time.toNat then (s.time.toNat, p.2) :: q :: ps
    else q :: s.agePort port ps (some p)

/-- FLIT_PRIORITY_AGEING (spec/09 R251): a packet that has waited moves ahead of one of the next class up. -/
def execFlitPriorityAgeing (port : BitVec 5) (s : State) : Host.Outcome State Fault Refusal :=
  .next { s with fabOut := s.agePort port.toNat s.fabOut none }

/-- The first packet of a class at a port leaves: the link has a credit for its class, and none for the classes of the packets before it
(spec/09 R251; log 17). -/
def State.portSend (s : State) (port prio : Nat) : State :=
  match s.fabOut.find? fun q => s.port q.2 == port && q.2.prio.toNat == prio with
  | some q => { s with fabOut := s.fabOut.erase q, hostOut := s.hostOut ++ [.sent port q.2] }
  | none => s

end Sys2Proof.Machine
end

