-- ==== Sys2Proof/Machine/Failures.lean ====
section
/-! DEFINITION. The host link, errors in storage, degraded operation and firmware (spec/01 R23, R24, spec/07 R203-R205, spec/09
R261, spec/10 R284-R290). -/

namespace Sys2Proof.Machine

/-! ### Host accesses (spec/09 R261) -/

/-- Whether `n` bytes lie in host memory, whose coherence point is the host's own (spec/09 R261). -/
def hostOwn (pa n : Nat) : Bool := decide (Config.hostBase ≤ pa) && decide (pa + n ≤ Config.physEnd)

/-- Whether `n` bytes lie in the device's far and near memory and the link serves them (spec/10 R289), or in host memory. -/
def State.hostReach (s : State) (pa n : Nat) : Bool := hostOwn pa n || (!s.recovery && decide (pa + n ≤ Config.nearEnd))

/-- Whether a physical range meets a sealed region of a context (spec/07 R198). -/
def State.sealedPhys (s : State) (pa n : Nat) : Bool :=
  s.ctxs.any fun c => c.seals.any fun e => (List.range ((pa + n - 1) / 16384 - pa / 16384 + 1)).any fun i =>
    s.inRegion c.id e.base e.len (max pa ((pa / 16384 + i) * 16384))

/-- What the host receives. -/
def State.toHost (s : State) (o : HostOut) : State := { s with hostOut := s.hostOut ++ [o] }

/-- HOST_LOAD: a home load. -/
def execHostLoad (pa n : Nat) (s : State) : Host.Outcome State Fault Refusal :=
  .next (if s.hostReach pa n && !s.poisoned (.phys pa) n then s.toHost (.loaded pa (s.readLoc (.phys pa) n)) else s.toHost (.error pa))

/-- HOST_STORE: it enters home order on arrival; into a sealed region it is refused. In recovery it reaches the staging window
(spec/10 R289). A store of the host to its own memory is one at its own coherence point. -/
def execHostStore (pa : Nat) (data : List Byte) (s : State) : Host.Outcome State Fault Refusal :=
  .next (if s.recovery && !hostOwn pa data.length then
      (if pa + data.length ≤ 2 ^ 26 then
        { s with fw := { s.fw with staging := (data.mapIdx fun i b => (pa + i, b)).foldl (fun m x => assocSet x.1 x.2 m) s.fw.staging } }
       else s.toHost (.error pa))
    else if s.hostReach pa data.length && !s.sealedPhys pa data.length then (s.writeBytes pa data).toHost (.stored pa)
    else s.toHost (.error pa))

/-- HOST_ATOMIC: an atomic at the home. -/
def execHostAtomic (pa : Nat) (f : HostAtomicOp) (s : State) : Host.Outcome State Fault Refusal :=
  let n := if f.w64 then 8 else 4
  .next (if s.hostReach pa n && pa % n == 0 && !s.sealedPhys pa n && !s.poisoned (.phys pa) n then
      let old := s.readNat (.phys pa) n
      let (_, new) := atomRun (.op f.op) n old [{ lane := 0, operand := f.operand.setWidth 128, comparand := 0 }]
      (s.writeBytes pa (leBytes n new)).toHost (.old pa (BitVec.ofNat 64 old))
    else s.toHost (.error pa))

/-! ### Errors in storage (spec/07 R203-R205, spec/10 R284) -/

/-- One more uncorrectable error; the count saturates (spec/10 R286). -/
def State.countError (s : State) : State :=
  { s with ecntUncorrectable := if s.ecntUncorrectable = 0xFFFF then s.ecntUncorrectable else s.ecntUncorrectable + 1 }

/-- An error of the device: every context is killed with KCAUSE 6, and the device enters recovery. -/
def State.uncontainable (s : State) : State :=
  let t := (List.range Config.contexts).foldl (fun t c => if (t.ctx c).present then t.kill c 6 else t) s
  { t with recovery := true, fw := { t.fw with running := false } }

/-- A 16-byte part is poisoned. -/
def State.poisonPart (s : State) (part : Nat) : State := { s with poison := if s.poison.contains part then s.poison else part :: s.poison }

/-- The owner context of a part ends (spec/07 R204). -/
def State.ownerEnds (s : State) (part : Nat) : State :=
  match assocGet (part / 16) s.owners with
  | some c => if (s.ctx c).present then s.kill c 4 else s
  | none => s

/-- A code line with an error reaches issue: the fetching gang raises MEM_UNCORRECTABLE at its program counter. -/
def State.codeError (s : State) (i : Issuer) : State :=
  match i with
  | .group b gn gi =>
    (match s.gang? b gn with
     | some g => s.takeTrap b gn ((g.members gi).filterMap fun k => match g.slices[k]? with
         | some x => if x.wait = .none then some (k, mkTrap cMemUncorrectable 0 x.pc.toNat) else none
         | none => none)
     | none => s)
  | .tile f => (match s.frame? f with | some x => s.trapAt f 0 (mkTrap cMemUncorrectable 0 x.pc.toNat) | none => s)
  | .none => s

/-- An error in the arrays of a block: one found while they are saved marks the block, which then ends at its restore (spec/10 R282). -/
def State.arrayError (s : State) (blk : Nat) : State :=
  if (s.block? blk).any fun b => s.drainOver b.ctx then s.updBlock blk fun b => { b with poison := true } else s.blockError blk

/-- UNCORRECTABLE_ERROR (spec/07 R204, R205). -/
def execUncorrectableError (p : ErrPlace) (s : State) : Host.Outcome State Fault Refusal :=
  let t := s.countError
  match p with
  | .l1Line core line => .next { t with l1 := t.l1.filter fun x => !(x.core == core && x.line == line) }
  | .homeClean _ => .next t
  | .homeDirty part => .next ((t.poisonPart part).ownerEnds part)
  | .near part => .next ((t.poisonPart part).ownerEnds part)
  | .far part => .next (t.poisonPart part)
  | .block blk => .next (t.arrayError blk)
  | .codeUnissued blk gang unit => .next { (s.updGang blk gang fun g => { g with code := g.code.filter fun x => x.1 != unit }) with ecntDeferred := if s.ecntDeferred = 0xFFFF then s.ecntDeferred else s.ecntDeferred + 1 }
  | .codeIssued i => .next (t.codeError i)
  | .ownerTag => .next t.uncontainable

/-- SCRUB_INTERVAL (spec/07 R203, spec/10 R286): corrected errors are counted; the count saturates. A rate past the threshold, whose
value the spec does not give, requests a replacement (log 24). -/
def execScrubInterval (corrected : Nat) (s : State) : Host.Outcome State Fault Refusal :=
  .next { s with ecntCorrected := BitVec.ofNat 32 (min (2 ^ 32 - 1) (s.ecntCorrected.toNat + corrected)),
                 replace := s.replace || Config.rateExceeded corrected }

/-! ### Power, temperature, fencing (spec/01 R23, R24, spec/10 R284-R286) -/

/-- A die temperature: at 105 degrees or more every context stops (spec/01 R23). -/
def State.atTemp (s : State) (temp : Byte) : State :=
  let t : State := { s with temp }
  if 105 ≤ temp.toNat then t.uncontainable else t

/-- POWER_LIMIT (spec/01 R23). -/
def execPowerLimit (temp : Byte) (s : State) : Host.Outcome State Fault Refusal := .next (({ s with limiting := true } : State).atTemp temp)

/-- LIMITING_END (spec/01 R23). -/
def execLimitingEnd (temp : Byte) (s : State) : Host.Outcome State Fault Refusal := .next (({ s with limiting := false } : State).atTemp temp)

/-- OVERTEMP_SHUTDOWN (spec/01 R23): 105 degrees or more. -/
def execOvertempShutdown (temp : Byte) (s : State) : Host.Outcome State Fault Refusal := event (decide (105 ≤ temp.toNat)) s (s.atTemp temp)

/-- BRIDGE_FAILURE (spec/10 R284). -/
def execBridgeFailure (s : State) : Host.Outcome State Fault Refusal := .next s.uncontainable

/-- ROOT_MONITOR_INTEGRITY_FAILURE (spec/10 R284). -/
def execRootMonitorIntegrityFailure (s : State) : Host.Outcome State Fault Refusal := .next s.uncontainable

/-- CORE_FENCE (spec/10 R285): every running context with a block on the core is stopped; once none has one there, the core is
fenced, and those contexts may resume on other cores. -/
def execCoreFence (core : Nat) (s : State) : Host.Outcome State Fault Refusal :=
  let on (c : Ctx) : Bool := s.blocks.any fun b => b.ctx == c.id && b.core == core
  if s.ctxs.any on then
    .next ((s.ctxs.filter fun c => c.state == 1 && on c).foldl (fun t c => t.requestStop c.id true) s)
  else .next { s with fenceC := s.fenceC ||| (1#160 <<< core), replace := true }

/-! ### Firmware (spec/10 R287-R290) -/

/-- The check of a management image (spec/10 R288). -/
def imageVerifies (i : Image) : Bool :=
  Config.sha512 i.body == i.digest && Config.ed25519Verify i.key i.digest i.signature &&
    Config.sha512 (leBytes 32 i.key.toNat) == Config.fusedKeyDigest && decide (Config.fusedEpoch.toNat ≤ i.epoch.toNat)

/-- The device after a reset with an image store (spec/10 R288): what the outside still has to do stays on the agenda. -/
def State.boot (s : State) (store : Option Image) : State :=
  let ok := match store with | some i => imageVerifies i | none => false
  { State.reset with
    agenda := s.agenda, ctr := s.ctr, uid := s.uid, hostOut := s.hostOut, recovery := !ok,
    fw := { mreg0 := Config.rootDigest, mreg1 := (match store with | some i => if ok then i.digest else 0 | none => 0), store,
            staging := [], writing := none, running := ok } }

/-- DEVICE_RESET (spec/10 R288). One that ends the write of an image to the store starts with that image (R289). -/
def execDeviceReset (s : State) : Host.Outcome State Fault Refusal :=
  .next (s.boot (match s.fw.writing with | some i => some i | none => s.fw.store))

/-- IMAGE_CHECK_REQUEST (spec/10 R289): an image that passes is written to the store, and DEVICE_RESET ends the write; one that fails
is discarded. -/
def execImageCheckRequest (s : State) : Host.Outcome State Fault Refusal :=
  let i := Config.imageOf s.fw.staging
  event s.recovery s
    { s with fw := { s.fw with staging := [], writing := if imageVerifies i then some i else s.fw.writing } }

/-- POWER_LOSS (spec/10 R289): during the write of an image to the store it leaves the store invalid. -/
def execPowerLoss (s : State) : Host.Outcome State Fault Refusal :=
  .next (s.boot (if s.fw.writing.isSome then none else s.fw.store))

/-- The quote's first 176 bytes. -/
def State.quoteHead (s : State) (nonce : W256) : List Byte :=
  leBytes 32 nonce.toNat ++ leBytes 64 s.fw.mreg0.toNat ++ leBytes 64 s.fw.mreg1.toNat ++ leBytes 16 Config.serial.toNat

/-- ATTESTATION_QUOTE (spec/10 R290). -/
def execAttestationQuote (nonce : W256) (s : State) : Host.Outcome State Fault Refusal :=
  .next (if s.fw.running && !s.recovery then
      s.toHost (.quote (s.quoteHead nonce ++ leBytes 64 (Config.identitySign (Config.sha512 (s.quoteHead nonce))).toNat))
    else s.toHost .refusedQuote)

end Sys2Proof.Machine
end

