-- ==== Sys2Proof/Machine/Dispatch.lean ====
section
/-! DEFINITION. The meaning of every instruction: one arm for each constructor of Instr. -/

namespace Sys2Proof.Machine

/-- The meaning of an instruction for the issuing party State.cur. -/
def exec (i : Instr) (s : State) : Host.Outcome State Fault Refusal :=
  match i with
  | .nop => Sys2Proof.Machine.execNop s
  | .iadd g d ty sub sat a b => Sys2Proof.Machine.execIadd g d ty sub sat a b s
  | .imul g d ty hi a b => Sys2Proof.Machine.execImul g d ty hi a b s
  | .imad g d ty hi a b c => Sys2Proof.Machine.execImad g d ty hi a b c s
  | .imnmx g d ty max a b => Sys2Proof.Machine.execImnmx g d ty max a b s
  | .iset g d cmp ty a b => Sys2Proof.Machine.execIset g d cmp ty a b s
  | .lop3 g d w64 table a b c => Sys2Proof.Machine.execLop3 g d w64 table a b c s
  | .shf g d w64 right arith a b => Sys2Proof.Machine.execShf g d w64 right arith a b s
  | .popc g d w64 a => Sys2Proof.Machine.execPopc g d w64 a s
  | .clz g d w64 a => Sys2Proof.Machine.execClz g d w64 a s
  | .brev g d w64 a => Sys2Proof.Machine.execBrev g d w64 a s
  | .bfx g d w64 sext a b c => Sys2Proof.Machine.execBfx g d w64 sext a b c s
  | .bfi g d w64 a b c => Sys2Proof.Machine.execBfi g d w64 a b c s
  | .sel g d w64 p neg a b => Sys2Proof.Machine.execSel g d w64 p neg a b s
  | .mov g d w a => Sys2Proof.Machine.execMov g d w a s
  | .movi g d imm => Sys2Proof.Machine.execMovi g d imm s
  | .lea g d glob k a b => Sys2Proof.Machine.execLea g d glob k a b s
  | .idot4 g d sa sb a b c => Sys2Proof.Machine.execIdot4 g d sa sb a b c s
  | .fadd g d na nb a b => Sys2Proof.Machine.execFadd g d na nb a b s
  | .fmul g d na nb a b => Sys2Proof.Machine.execFmul g d na nb a b s
  | .ffma g d na nb nc a b c => Sys2Proof.Machine.execFfma g d na nb nc a b c s
  | .fmnmx g d max a b => Sys2Proof.Machine.execFmnmx g d max a b s
  | .fset g d cmp u a b => Sys2Proof.Machine.execFset g d cmp u a b s
  | .hadd2 g d bf na nb a b => Sys2Proof.Machine.execHadd2 g d bf na nb a b s
  | .hfma2 g d bf na nb nc a b c => Sys2Proof.Machine.execHfma2 g d bf na nb nc a b c s
  | .sfn g d f a => Sys2Proof.Machine.execSfn g d f a s
  | .fcvt g d sat dt st a => Sys2Proof.Machine.execFcvt g d sat dt st a s
  | .setfmt g mask a => Sys2Proof.Machine.execSetfmt g mask a s
  | .cbload never cb base off => Sys2Proof.Machine.execCbload never cb base off s
  | .decw g d latch a e mode k => Sys2Proof.Machine.execDecw g d latch a e mode k s
  | .brecld never rec base off => Sys2Proof.Machine.execBrecld never rec base off s
  | .shfl g d mode a b => Sys2Proof.Machine.execShfl g d mode a b s
  | .vote g d a => Sys2Proof.Machine.execVote g d a s
  | .redux g d op a => Sys2Proof.Machine.execRedux g d op a s
  | .ld g d o sz m => Sys2Proof.Machine.execLd g d o sz m s
  | .ldnc g d o sz m => Sys2Proof.Machine.execLdnc g d o sz m s
  | .st g d o sz m => Sys2Proof.Machine.execSt g d o sz m s
  | .ldb g d rec e b scale => Sys2Proof.Machine.execLdb g d rec e b scale s
  | .stb g d rec e b scale => Sys2Proof.Machine.execStb g d rec e b scale s
  | .atom g d op o w64 a b => Sys2Proof.Machine.execAtom g d op o w64 a b s
  | .cas g d o sz a b => Sys2Proof.Machine.execCas g d o sz a b s
  | .red g op o w64 a b => Sys2Proof.Machine.execRed g op o w64 a b s
  | .fence never o => Sys2Proof.Machine.execFence never o s
  | .sealRegion g d a b => Sys2Proof.Machine.execSealRegion g d a b s
  | .unseal g d a => Sys2Proof.Machine.execUnseal g d a s
  | .mapcommit g p a => Sys2Proof.Machine.execMapcommit g p a s
  | .maprelease g p a => Sys2Proof.Machine.execMaprelease g p a s
  | .poolget g d p base off => Sys2Proof.Machine.execPoolget g d p base off s
  | .poolput g d base off => Sys2Proof.Machine.execPoolput g d base off s
  | .cpy g kind a b c => Sys2Proof.Machine.execCpy g kind a b c s
  | .cpbatch never d => Sys2Proof.Machine.execCpbatch never d s
  | .cpwait never a imm => Sys2Proof.Machine.execCpwait never a imm s
  | .tlwait never a b => Sys2Proof.Machine.execTlwait never a b s
  | .bar never n => Sys2Proof.Machine.execBar never n s
  | .cbar never => Sys2Proof.Machine.execCbar never s
  | .pbarrive never base c off => Sys2Proof.Machine.execPbarrive never base c off s
  | .pbwait never base p off => Sys2Proof.Machine.execPbwait never base p off s
  | .monwait g d cmp o w64 a b => Sys2Proof.Machine.execMonwait g d cmp o w64 a b s
  | .racq never d sc base off => Sys2Proof.Machine.execRacq never d sc base off s
  | .rcommit never sc base n off => Sys2Proof.Machine.execRcommit never sc base n off s
  | .rpeek never d sc base off => Sys2Proof.Machine.execRpeek never d sc base off s
  | .rrel never sc base n off => Sys2Proof.Machine.execRrel never sc base n off s
  | .bra g offset => Sys2Proof.Machine.execBra g offset s
  | .brx g a b len => Sys2Proof.Machine.execBrx g a b len s
  | .call g offset => Sys2Proof.Machine.execCall g offset s
  | .ret g => Sys2Proof.Machine.execRet g s
  | .join never => Sys2Proof.Machine.execJoin never s
  | .regang g mask => Sys2Proof.Machine.execRegang g mask s
  | .yield g => Sys2Proof.Machine.execYield g s
  | .exit g => Sys2Proof.Machine.execExit g s
  | .gate never idx => Sys2Proof.Machine.execGate never idx s
  | .spawn g qd b offset => Sys2Proof.Machine.execSpawn g qd b offset s
  | .flare g p code a b rel trap => Sys2Proof.Machine.execFlare g p code a b rel trap s
  | .reggive never n => Sys2Proof.Machine.execReggive never n s
  | .regclaim never n => Sys2Proof.Machine.execRegclaim never n s
  | .replay g p a => Sys2Proof.Machine.execReplay g p a s
  | .srd g d sreg => Sys2Proof.Machine.execSrd g d sreg s
  | .swr g sreg a => Sys2Proof.Machine.execSwr g sreg a s
  | .trap g imm => Sys2Proof.Machine.execTrap g imm s
  | .rft never => Sys2Proof.Machine.execRft never s
  | .pairWord g d op second => Sys2Proof.Machine.execPairWord g d op second s
  | .uniformWord g d op => Sys2Proof.Machine.execUniformWord g d op s
  | .tileBundle w => Sys2Proof.Machine.execTileBundle w s
  | .kadd d sub a b => Sys2Proof.Machine.execKadd d sub a b s
  | .kmul d hi a b => Sys2Proof.Machine.execKmul d hi a b s
  | .klop d op a b => Sys2Proof.Machine.execKlop d op a b s
  | .kmovi d imm => Sys2Proof.Machine.execKmovi d imm s
  | .kcmp f cmp u a b => Sys2Proof.Machine.execKcmp f cmp u a b s
  | .kld sz reg a off => Sys2Proof.Machine.execKld sz reg a off s
  | .kst sz reg a off => Sys2Proof.Machine.execKst sz reg a off s
  | .shpw eng idx field src => Sys2Proof.Machine.execShpw eng idx field src s
  | .setfmtK a mask => Sys2Proof.Machine.execSetfmtK a mask s
  | .cbloadK cb a => Sys2Proof.Machine.execCbloadK cb a s
  | .dmov sw td ta => Sys2Proof.Machine.execDmov sw td ta s
  | .tfill sw td ka => Sys2Proof.Machine.execTfill sw td ka s
  | .racqTile sw sc kd ka => Sys2Proof.Machine.execRacqTile sw sc kd ka s
  | .rcommitTile sw sc ks ka => Sys2Proof.Machine.execRcommitTile sw sc ks ka s
  | .rpeekTile sw sc kd ka => Sys2Proof.Machine.execRpeekTile sw sc kd ka s
  | .rrelTile sw sc ks ka => Sys2Proof.Machine.execRrelTile sw sc ks ka s
  | .tcopy sw td ta cvt remote => Sys2Proof.Machine.execTcopy sw td ta cvt remote s
  | .tgath sw td ta ka cvt => Sys2Proof.Machine.execTgath sw td ta ka cvt s
  | .tscat sw td ta ka => Sys2Proof.Machine.execTscat sw td ta ka s
  | .coll sw td ta ka op red ty => Sys2Proof.Machine.execColl sw td ta ka op red ty s
  | .tew sw td ta form => Sys2Proof.Machine.execTew sw td ta form s
  | .teu sw td ta f => Sys2Proof.Machine.execTeu sw td ta f s
  | .tcvt sw td ta => Sys2Proof.Machine.execTcvt sw td ta s
  | .trans sw td ta => Sys2Proof.Machine.execTrans sw td ta s
  | .rowred sw td ta op => Sys2Proof.Machine.execRowred sw td ta op s
  | .rowstat sw td ta => Sys2Proof.Machine.execRowstat sw td ta s
  | .rowscale sw tz tm tl => Sys2Proof.Machine.execRowscale sw tz tm tl s
  | .mma sw tz ta l => Sys2Proof.Machine.execMma sw tz ta l s
  | .mloop sw tz ta l kc ki mode => Sys2Proof.Machine.execMloop sw tz ta l kc ki mode s
  | .mlatch sw l tb => Sys2Proof.Machine.execMlatch sw l tb s
  | .mdrain sw td tz mode => Sys2Proof.Machine.execMdrain sw td tz mode s
  | .mzero sw tz => Sys2Proof.Machine.execMzero sw tz s
  | .tbr t => Sys2Proof.Machine.execTbr t s
  | .tcall t => Sys2Proof.Machine.execTcall t s
  | .tret ka => Sys2Proof.Machine.execTret ka s
  | .gret => Sys2Proof.Machine.execGret s
  | .nextw ka => Sys2Proof.Machine.execNextw ka s
  | .tlwaitTile kind ka => Sys2Proof.Machine.execTlwaitTile kind ka s
  | .trapTile imm => Sys2Proof.Machine.execTrapTile imm s
  | .loadDataReturn op unit => Sys2Proof.Machine.execLoadDataReturn op unit s
  | .storeAcknowledgement op unit => Sys2Proof.Machine.execStoreAcknowledgement op unit s
  | .flareAnswer p => Sys2Proof.Machine.execFlareAnswer p s
  | .answerTimeout req => Sys2Proof.Machine.execAnswerTimeout req s
  | .copyCompletion op => Sys2Proof.Machine.execCopyCompletion op s
  | .matrixOperationCompletion op => Sys2Proof.Machine.execMatrixOperationCompletion op s
  | .collectiveCompletion op => Sys2Proof.Machine.execCollectiveCompletion op s
  | .fixedLatencyWriteVisible frame op part => Sys2Proof.Machine.execFixedLatencyWriteVisible frame op part s
  | .kldLanding frame op => Sys2Proof.Machine.execKldLanding frame op s
  | .kmulLanding frame op => Sys2Proof.Machine.execKmulLanding frame op s
  | .nextwLanding frame => Sys2Proof.Machine.execNextwLanding frame s
  | .monwaitWake w => Sys2Proof.Machine.execMonwaitWake w s
  | .monwaitPoll w => Sys2Proof.Machine.execMonwaitPoll w s
  | .ringWaitWake w => Sys2Proof.Machine.execRingWaitWake w s
  | .gretCompletion frame => Sys2Proof.Machine.execGretCompletion frame s
  | .frameTakesTileContext core => Sys2Proof.Machine.execFrameTakesTileContext core s
  | .tileContextSwitch core => Sys2Proof.Machine.execTileContextSwitch core s
  | .sliceRotation blk gang slice => Sys2Proof.Machine.execSliceRotation blk gang slice s
  | .pendingGangPromotion core quad => Sys2Proof.Machine.execPendingGangPromotion core quad s
  | .launchTicketSeen ctx queue => Sys2Proof.Machine.execLaunchTicketSeen ctx queue s
  | .frontEndPoll ctx queue => Sys2Proof.Machine.execFrontEndPoll ctx queue s
  | .recordStart ctx src => Sys2Proof.Machine.execRecordStart ctx src s
  | .recordFinish ctx rec => Sys2Proof.Machine.execRecordFinish ctx rec s
  | .blockPlacement die => Sys2Proof.Machine.execBlockPlacement die s
  | .gridReservation ctx grid => Sys2Proof.Machine.execGridReservation ctx grid s
  | .timeSliceExpiry ctx => Sys2Proof.Machine.execTimeSliceExpiry ctx s
  | .contextAutoResume ctx => Sys2Proof.Machine.execContextAutoResume ctx s
  | .handlerGangPlacement ctx => Sys2Proof.Machine.execHandlerGangPlacement ctx s
  | .coalescingWindowExpiry ctx group => Sys2Proof.Machine.execCoalescingWindowExpiry ctx group s
  | .groupAgePromotion ctx group => Sys2Proof.Machine.execGroupAgePromotion ctx group s
  | .flareRequest p => Sys2Proof.Machine.execFlareRequest p s
  | .remoteWrite p => Sys2Proof.Machine.execRemoteWrite p s
  | .remoteReadRequest p => Sys2Proof.Machine.execRemoteReadRequest p s
  | .readResponse p => Sys2Proof.Machine.execReadResponse p s
  | .writeAcknowledgement p => Sys2Proof.Machine.execWriteAcknowledgement p s
  | .collectiveData p => Sys2Proof.Machine.execCollectiveData p s
  | .collectiveAbort group p => Sys2Proof.Machine.execCollectiveAbort group p s
  | .collectiveTimeout ctx group => Sys2Proof.Machine.execCollectiveTimeout ctx group s
  | .linkFailure port lostDevs => Sys2Proof.Machine.execLinkFailure port lostDevs s
  | .hostLoad pa n => Sys2Proof.Machine.execHostLoad pa n s
  | .hostStore pa data => Sys2Proof.Machine.execHostStore pa data s
  | .hostAtomic pa f => Sys2Proof.Machine.execHostAtomic pa f s
  | .faultEntryAssign ctx => Sys2Proof.Machine.execFaultEntryAssign ctx s
  | .shootdownRecord => Sys2Proof.Machine.execShootdownRecord s
  | .shootdownCompletion rec => Sys2Proof.Machine.execShootdownCompletion rec s
  | .invalidationRingEnable pa => Sys2Proof.Machine.execInvalidationRingEnable pa s
  | .en ctx => Sys2Proof.Machine.execEn ctx s
  | .stop ctx => Sys2Proof.Machine.execStop ctx s
  | .resume ctx => Sys2Proof.Machine.execResume ctx s
  | .kill ctx => Sys2Proof.Machine.execKill ctx s
  | .clear ctx => Sys2Proof.Machine.execClear ctx s
  | .qgen ctx => Sys2Proof.Machine.execQgen ctx s
  | .ggen ctx => Sys2Proof.Machine.execGgen ctx s
  | .timelineControlWrite t w value => Sys2Proof.Machine.execTimelineControlWrite t w value s
  | .registerWrite r value => Sys2Proof.Machine.execRegisterWrite r value s
  | .stopDrainComplete ctx => Sys2Proof.Machine.execStopDrainComplete ctx s
  | .uncorrectableError p => Sys2Proof.Machine.execUncorrectableError p s
  | .scrubInterval corrected => Sys2Proof.Machine.execScrubInterval corrected s
  | .powerLimit temp => Sys2Proof.Machine.execPowerLimit temp s
  | .overtempShutdown temp => Sys2Proof.Machine.execOvertempShutdown temp s
  | .bridgeFailure => Sys2Proof.Machine.execBridgeFailure s
  | .coreFence core => Sys2Proof.Machine.execCoreFence core s
  | .deviceReset => Sys2Proof.Machine.execDeviceReset s
  | .imageCheckRequest => Sys2Proof.Machine.execImageCheckRequest s
  | .powerLoss => Sys2Proof.Machine.execPowerLoss s
  | .attestationQuote nonce => Sys2Proof.Machine.execAttestationQuote nonce s
  | .droppedPacket p => Sys2Proof.Machine.execDroppedPacket p s
  | .linkRetransmission port => Sys2Proof.Machine.execLinkRetransmission port s
  | .flitPriorityAgeing port => Sys2Proof.Machine.execFlitPriorityAgeing port s
  | .limitingEnd temp => Sys2Proof.Machine.execLimitingEnd temp s
  | .rootMonitorIntegrityFailure => Sys2Proof.Machine.execRootMonitorIntegrityFailure s

end Sys2Proof.Machine
end

