-- ==== Sys2Proof/Machine/Sched.lean ====
section
/-! DEFINITION. The moves of the machine: a quadrant's issue, a sequencer's bundle, the moves of engines and caches, and which
moves can come next (spec/02 R49-R52, spec/03 R70-R72, spec/04 R90, R97, R109, R110, spec/07 R173, R185, R186, spec/12 R315). -/

namespace Sys2Proof.Machine

/-! ### Instruction fetch -/

/-- `n` bytes of code at a program counter, and the TLB fill. A fault is precise at the program counter (spec/07 R186, R202,
R204). -/
def State.fetchCode (s : State) (w : Who) (pc : VAddr) (align n : Nat) : Except Stop (Nat × State) := do
  checkForm (pc.setWidth 64) align
  if regionOf pc.toNat ≠ .global then .error (.trap (mkTrap cProtection 3 pc.toNat))
  else
    let (pa, p) ← s.checkWalk w .fetch pc.toNat pc.toNat
    s.checkPerm w .fetch pc.toNat pc.toNat p
    if s.poisoned (.phys pa) n then .error (.trap (mkTrap cMemUncorrectable 0 pc.toNat))
    else .ok (Memory.nat s.mem pa n, s.tlbFill w.core w.ctx pc.toNat)

/-- A gang holds the fetch unit of an address, when the address may be executed and the unit is not poisoned. -/
def State.holdCode (s : State) (w : Who) (blk gang va : Nat) : State :=
  match s.fetchCode w (BitVec.ofNat 57 (va / 32 * 32)) 32 32 with
  | .ok (n, _) => s.updGang blk gang fun g => { g with code := assocSet (va / 32) (BitVec.ofNat 256 n) g.code }
  | .error _ => s

/-- The word of a group at its program counter; of a pair, both words. What the gang holds is executed as it was fetched (spec/07
R202); what it does not hold is fetched, and held. -/
def State.fetchThread (s : State) (v : View) : Except Stop (W64 × W64 × State) :=
  let pc := v.pc.toNat
  let pair (x : W64) : Bool := (TWord.split x).fmt == 5 && pc % 16 == 0
  match (if pc % 8 = 0 then assocGet (pc / 32) v.g.code else none) with
  | some u =>
    let x : W64 := BitVec.ofNat 64 (u.toNat / 2 ^ (8 * (pc % 32)))
    .ok (x, if pair x then BitVec.ofNat 64 (u.toNat / 2 ^ (8 * (pc % 32 + 8))) else 0, s)
  | none => do
    let (w, t) ← s.fetchCode (s.whoLane v none) v.pc 8 8
    let x : W64 := BitVec.ofNat 64 w
    if pair x then
      let (w2, u) ← s.fetchCode (s.whoLane v none) v.pc 8 16
      .ok (x, BitVec.ofNat 64 (w2 / 2 ^ 64), u.holdCode (s.whoLane v none) v.b.uid v.g.name pc)
    else .ok (x, 0, t.holdCode (s.whoLane v none) v.b.uid v.g.name pc)

/-- What a group's word stands for in its context (spec/12 R315): the instruction, or the trap of its decoding. -/
def State.decodeFor (s : State) (v : View) (w w2 : W64) : Except Trap Instr :=
  match decodeThread v.g.holding (decide (v.pc.toNat % 16 = 0)) w w2 with
  | .error e => .error (DecErrTrap e)
  | .ok i =>
    match s.missingFeature v.b.ctx i with
    | some f => .error (mkTrap cFeature f)
    | none => .ok i

/-! ### The issue of a quadrant (spec/02 R49, R50) -/

/-- Whether a slice may issue now: its wait is over, neither its path nor its gang has to give way (spec/02 R49, R51), and a stop lets
it. -/
def State.mayIssue (s : State) (b : Block) (g : Gang) (x : Slice) : Bool :=
  s.sliceReady b g x && !(x.begins && (x.mustRotate || g.leaves)) &&
    (match (s.ctx b.ctx).state with
     | 1 => true
     | 2 => x.inProgress
     | _ => false)

/-- A candidate for issue. -/
structure Cand where
  blk : Nat
  gang : Nat
  grp : Nat
  age : Nat
  slot : Nat
  low : Nat
deriving DecidableEq, Repr

/-- The candidates among the groups of a gang. -/
def State.gangCands (s : State) (b : Block) (g : Gang) : List Cand :=
  if g.active && s.gangReady b g then
    g.groups.filterMap fun r =>
      match g.members r.id with
      | [] => none
      | i :: is =>
        if (i :: is).all fun k => match g.slices[k]? with | some x => s.mayIssue b g x | none => false then
          some { blk := b.uid, gang := g.name, grp := r.id, age := r.age, slot := g.slot, low := i }
        else none
  else []

/-- The candidates of a quadrant. -/
def State.cands (s : State) (core quad : Nat) : List Cand :=
  (s.blocks.filter fun b => b.core == core).flatMap fun b =>
    (b.gangs.filter fun g => g.quad == quad).flatMap fun g => s.gangCands b g

/-- Whether a candidate goes before another (spec/02 R50). -/
def Cand.before (a b : Cand) : Bool :=
  decide (b.age < a.age) || (a.age == b.age && (decide (a.slot < b.slot) || (a.slot == b.slot && decide (a.low < b.low))))

/-- The candidate that a quadrant chooses. -/
def State.choose (s : State) (core quad : Nat) : Option Cand :=
  match s.cands core quad with
  | [] => none
  | c :: cs => some (cs.foldl (fun a b => if b.before a then b else a) c)

/-- A gang one issue cycle older (spec/02 R49-R51). -/
def Gang.older (g : Gang) (ready : Bool) : Gang :=
  { g with
    readyFor := if g.active then 0 else if ready then g.readyFor + 1 else 0,
    groups := g.groups.map fun r => { r with age := r.age + 1 },
    slices := g.slices.map fun x => { x with stack := x.stack.map fun e => if e.kind = .path then { e with waited := e.waited + 1 } else e } }

/-- An issue cycle of a quadrant passes. -/
def State.issueCycle (s : State) (core quad : Nat) : State :=
  { s with blocks := s.blocks.map fun b =>
      if b.core = core then { b with gangs := b.gangs.map fun g => if g.quad = quad then g.older (s.gangReady b g) else g } else b }

/-- The counts of an issue, and the wait that is over. An instruction that issues again counts once. -/
def Gang.issues (g : Gang) (grp : Nat) : Gang :=
  let ms := g.members grp
  { g with
    issuedActive := if ms.any fun i => match g.slices[i]? with | some x => x.begins | none => false then g.issuedActive + 1 else g.issuedActive,
    groups := g.groups.map fun r => if r.id = grp then { r with age := 0 } else r,
    slices := g.slices.mapIdx fun i x =>
      if ms.contains i then { x with issued := if x.begins then x.issued + 1 else x.issued, wait := .none } else x }

/-- What the issuing group State.cur does with the word at its program counter. -/
def State.issueAt (s : State) (v : View) : Host.Outcome State Fault Refusal :=
  match s.fetchThread v with
  | .error st => .next (s.finishStop v st)
  | .ok (w, w2, t) =>
    match t.decodeFor v w w2 with
    | .error x => .next (t.threadTrap v x)
    | .ok i => exec i t

/-- The issue of a candidate. -/
def State.issueCand (s : State) (c : Cand) : Host.Outcome State Fault Refusal :=
  let t : State := { (s.updGang c.blk c.gang fun g => g.issues c.grp) with cur := .group c.blk c.gang c.grp }
  match t.view? with
  | none => .next s
  | some v => t.issueAt v

/-- The rotations that have come due in a quadrant (spec/02 R49). -/
def State.dueRotations (s : State) (core quad : Nat) : State :=
  ((s.blocks.filter fun b => b.core == core && (s.ctx b.ctx).state == 1).flatMap fun b =>
    (b.gangs.filter fun g => g.quad == quad && g.slices.any fun x => !x.exited && x.begins && x.mustRotate).flatMap fun g =>
      g.groups.map fun r => (b.uid, g.name, r.id)).foldl (fun t x => t.rotateGroup x.1 x.2.1 x.2.2) s

/-- Promotions of a quadrant: at most one for each place of the active set. -/
def State.promotions (core quad : Nat) : Nat → State → State
  | 0, s => s
  | n + 1, s => State.promotions core quad n (s.promote core quad s.gangReadyAt)

/-- One issue cycle of a quadrant: what must rotate rotates, ready pending gangs enter, and the chosen candidate issues. No lane
that is not blocked is left out for ever (spec/02 R52). -/
def State.runIssue (s : State) (core quad : Nat) : Host.Outcome State Fault Refusal :=
  let t := State.promotions core quad Config.quadActive (s.dueRotations core quad)
  match t.choose core quad with
  | none => .next (t.issueCycle core quad)
  | some c => (t.issueCycle core quad).issueCand c

/-! ### The tile sequencer (spec/04 R90, R97, R109, R110) -/

/-- Whether a bundle is a safe point: its SAFE bit, or a GRET in it. -/
def safePoint (w : W256) : Bool := bundleSafe w || (match bundleSlot w .b with | .ok (.op .gret) => true | _ => false)

/-- A frame stops before its bundle, once its fixed-latency operations have ended (spec/04 R109). -/
def State.stopFrame (s : State) (f : Frame) : State :=
  if (f.prune s.time.toNat).fixed.isEmpty then
    { (s.updFrame f.uid fun x => { x with status := 4 }) with running := s.running.filter fun r => r.2 != f.uid }
  else s

/-- The bundle of the tile context that holds a core's sequencer. A fetch fault is taken at the slot where the bundle would go
on. -/
def State.runBundle (s : State) (core : Nat) : Host.Outcome State Fault Refusal :=
  match (s.running.find? fun r => r.1 == core).bind fun r => s.frame? r.2 with
  | none => .next s
  | some f =>
    let t : State := { s with cur := .tile f.uid }
    match t.tview? with
    | none => .next s
    | some v =>
      if !s.tileReady f then .next s
      else match t.fetchCode (t.whoTile v) f.pc 32 32 with
        | .error (.trap x) => .next (t.trapAt f.uid f.sresume.toNat x)
        | .error (.serve va k) => .next (t.serveAt f.uid f.sresume.toNat va k)
        | .error (.hold _) => .next s
        | .ok (n, u) =>
          let w : W256 := BitVec.ofNat 256 n
          if (s.ctx f.ctx).state == 2 && f.sresume == 0 && safePoint w then .next (u.stopFrame f) else exec (.tileBundle w) u

/-! ### Moves -/

/-- Whether a constructor stands for a machine event: it has no encoding. -/
def Instr.isEvent (i : Instr) : Bool :=
  match i with
  | .pairWord _ _ _ _ => false
  | i => encode i == .none

/-- A part of an asynchronous operation: a remote part sent, or, numbered after those, a local piece read or written. -/
def State.runPart (s : State) (o : AOp) (k : Nat) : State :=
  if k < o.parts.length then (if s.sendable o k then s.sendPart o k else s)
  else if s.asyncWritable o (k - o.parts.length) then s.asyncPart o (k - o.parts.length) else s

/-- A fetch unit that a gang holds is dropped, unless an instruction of it is in progress. -/
def Gang.dropCode (g : Gang) (k : Nat) : Gang :=
  match g.code[k]? with
  | none => g
  | some c =>
    if g.slices.any fun x => !x.exited && !x.begins && x.pc.toNat / 32 == c.1 then g else { g with code := g.code.eraseIdx k }

/-- A gang fetches code that it has not come to (spec/07 R204). -/
def State.fetchAhead (s : State) (blk gang va : Nat) : State :=
  match s.block? blk with
  | some b =>
    if (s.gang? blk gang).any fun g => (assocGet (va / 32) g.code).isNone then
      s.holdCode { blk := some b, ctx := b.ctx, core := b.core, lane := none, service := false } blk gang va
    else s
  | none => s

/-- One move. A move whose condition does not hold changes nothing. -/
def runAct (a : Act) (s : State) : Host.Outcome State Fault Refusal :=
  match a with
  | .event i => if Instr.isEvent i then exec i s else .next s
  | .issue core quad => s.runIssue core quad
  | .bundle core => s.runBundle core
  | .gate blk =>
    .next (match s.block? blk with | some b => if (s.ctx b.ctx).state = 1 then s.gateCheck blk else s | none => s)
  | .evictLine core line => .next { s with l1 := s.l1.filter fun x => !(x.core == core && x.line == line) }
  | .lateFetch core ctx pa => .next (s.lateFetch core ctx pa)
  | .lateInstall core pa => .next (s.lateInstall core pa)
  | .evictTlb k => .next { s with tlb := s.tlb.eraseIdx k }
  | .dropCode blk gang k => .next (s.updGang blk gang fun g => g.dropCode k)
  | .fetchAhead blk gang va => .next (s.fetchAhead blk gang va)
  | .asyncStart op => .next (match s.aop? op with | some o => if s.startable o then s.asyncStart o else s | none => s)
  | .asyncRead op k =>
    .next (match s.aop? op with
      | some o => (match o.srcs[k]? with | some p => if s.asyncReadable o p then s.asyncRead o k else s | none => s)
      | none => s)
  | .asyncFetch op step k => .next (match s.aop? op with | some o => s.asyncFetch o step k | none => s)
  | .asyncPart op k => .next (match s.aop? op with | some o => s.runPart o k | none => s)
  | .fixedRead frame op k =>
    .next (match s.frame? frame with
      | some f =>
        (match f.fixed.find? fun x => x.id == op with
         | some x => (match x.srcs[k]? with | some p => if s.fixedReadable f x p then s.fixedRead f x k else s | none => s)
         | none => s)
      | none => s)
  | .shootDrop id => .next (s.shootDrop id)
  | .portSend port prio => .next (s.portSend port prio)
  | .hostRead r => .next (s.hostRead r)

/-! ### What can come next -/

/-- Returns and acknowledgements of accesses. -/
def State.opMoves (s : State) : List Act :=
  s.ops.flatMap fun o => o.units.map fun u => .event (if u.returns then .loadDataReturn o.id u.name else .storeAcknowledgement o.id u.name)

/-- The completion event of an engine's kind. -/
def doneEvent (o : AOp) : Instr :=
  match o.kind with
  | .copy => .copyCompletion o.id
  | .matrix => .matrixOperationCompletion o.id
  | .coll => .collectiveCompletion o.id

/-- The fetches that an MLOOP may make for later steps. -/
def State.fetches (s : State) (o : AOp) : List Act :=
  match o.work with
  | .slot i e m _ =>
    (match i, loopOfEnv i e with
     | .mloop .., some x =>
       ((List.range x.steps).drop (m + 1)).flatMap fun j => (List.range (s.stepSrcs e x j).length).map fun k => Act.asyncFetch o.id j k
     | _, _ => [])
  | _ => []

/-- Moves of asynchronous operations. -/
def State.aopMoves (s : State) : List Act :=
  s.aops.flatMap fun o =>
    let n := o.parts.length + (match o.work with
      | .cpy _ _ _ todo _ _ => todo.length
      | .cpyRemote _ _ _ _ _ _ todo _ _ => todo.length
      | _ => o.writes.length)
    let start : List Act := if o.started then [] else [Act.asyncStart o.id]
    let reads : List Act := (List.range o.srcs.length).map fun k => Act.asyncRead o.id k
    let ahead : List Act := s.fetches o
    let parts : List Act := (List.range n).map fun k => Act.asyncPart o.id k
    let late : List Act := o.parts.map fun p => Act.event (.answerTimeout p.id)
    let coll : List Act := match o.work with | .coll _ _ g _ _ _ _ _ => [Act.event (.collectiveTimeout o.ctx g)] | _ => []
    [start, reads, ahead, parts, [Act.event (doneEvent o)], late, coll].flatten

/-- Fills that a core may make early: of the parts that some access of a context with a block on the core goes to. -/
def State.lateMoves (s : State) : List Act :=
  let here : List (Nat × Nat) := (s.blocks.map fun b => (b.core, b.ctx)).eraseDups
  let fetch : List Act := s.ops.flatMap fun o => o.units.flatMap fun u =>
    match u.loc with
    | .phys a => (here.filter fun x => x.2 == o.ctx).map fun x => Act.lateFetch x.1 o.ctx a
    | .shared _ _ => []
  let install : List Act := (s.l1.filter (·.late)).flatMap fun x => (List.range 16).map fun i => Act.lateInstall x.core (256 * x.line + 16 * i)
  List.append fetch install

/-- Moves of gangs: issue, promotion, rotation, wake-ups. -/
def State.gangMoves (s : State) : List Act :=
  s.blocks.flatMap fun b =>
    Act.gate b.uid ::
      (b.gangs.filter fun g => !g.finished).flatMap fun g =>
        let turn : List Act := [Act.issue b.core g.quad, Act.event (.pendingGangPromotion b.core g.quad)]
        let rot : List Act := (List.range g.slices.length).map fun i => Act.event (.sliceRotation b.uid g.name i)
        let wake : List Act := g.groups.flatMap fun r =>
          let i : Issuer := .group b.uid g.name r.id
          [Act.event (.monwaitWake i), Act.event (.monwaitPoll i), Act.event (.ringWaitWake i)]
        let drop : List Act := (List.range g.code.length).map fun k => Act.dropCode b.uid g.name k
        let ahead : List Act := (g.slices.filter fun x => !x.exited).map fun x => Act.fetchAhead b.uid g.name (x.pc.toNat + 32)
        [turn, rot, wake, drop, ahead].flatten

/-- Moves of tile contexts. -/
def State.tileMoves (s : State) : List Act :=
  s.frames.flatMap fun f =>
    let own : List Act := [Act.bundle f.core, Act.event (.tileContextSwitch f.core), Act.event (.frameTakesTileContext f.core),
      Act.event (.gretCompletion f.uid), Act.event (.nextwLanding f.uid), Act.event (.ringWaitWake (.tile f.uid))]
    let lands : List Act := f.landings.flatMap fun l => [Act.event (.kldLanding f.uid l.id), Act.event (.kmulLanding f.uid l.id)]
    let fixed : List Act := f.fixed.flatMap fun x =>
      let reads : List Act := (List.range x.srcs.length).map fun k => Act.fixedRead f.uid x.id k
      let writes : List Act := (List.range x.writes.length).map fun k => Act.event (.fixedLatencyWriteVisible f.uid x.id k)
      List.append reads writes
    [own, lands, fixed].flatten

/-- Moves of one context: its queues, grids, intake, faults and stop. -/
def ctxMoves (c : Ctx) : List Act :=
  if c.present then
    let k := c.id
    let qs : List Instr := c.queues.flatMap fun q => [.launchTicketSeen k q.idx, .frontEndPoll k q.idx, .recordStart k (.queue q.idx)]
    let ls : List Instr := c.launches.flatMap fun l => (List.range l.nodes).map fun n => Instr.recordStart k (.node l.uid n)
    let gs : List Instr := c.grids.flatMap fun g => [.recordFinish k g.uid, .gridReservation k g.uid]
    let cs : List Instr := c.groups.flatMap fun g => [.coalescingWindowExpiry k g.uid, .groupAgePromotion k g.uid]
    let own : List Instr := [.timeSliceExpiry k, .contextAutoResume k, .handlerGangPlacement k, .faultEntryAssign k, .stopDrainComplete k]
    [qs, ls, gs, cs, own].flatten.map Act.event
  else []

/-- The event of a packet at this device. -/
def packetEvent (p : Packet) : Instr :=
  match p.kind.toNat with
  | 0 => .flareRequest p
  | 1 => .flareAnswer p
  | 2 => .remoteWrite p
  | 3 => .remoteReadRequest p
  | 4 => .readResponse p
  | 5 => .writeAcknowledgement p
  | 6 => .collectiveData p
  | 7 => .collectiveAbort p.hidx p
  | _ => .droppedPacket p

/-- Moves of the front end, the fabric and the caches. -/
def State.deviceMoves (s : State) : List Act :=
  let place : List Act := if s.ctxs.any Ctx.present then [Act.event (.blockPlacement 0), Act.event (.blockPlacement 1)] else []
  let packets : List Act := s.selfPkts.map fun p => Act.event (packetEvent p)
  let late : List Act := s.flares.map fun r => Act.event (.answerTimeout r.id)
  let reset : List Act := if s.fw.writing.isSome then [Act.event .deviceReset] else []
  let record : List Act := if s.shootBlock.isSome then [Act.event .shootdownRecord] else []
  let done : List Act := s.shootdowns.flatMap fun d => [Act.shootDrop d.id, Act.event (.shootdownCompletion d.id)]
  let lines : List Act := s.l1.map fun x => Act.evictLine x.core x.line
  let tlbs : List Act := (List.range s.tlb.length).map Act.evictTlb
  let ports : List Act := ((s.fabOut.map fun q => (s.port q.2, q.2.prio.toNat)).eraseDups).map fun x => Act.portSend x.1 x.2
  [s.ctxs.flatMap ctxMoves, place, packets, ports, late, reset, record, done, lines, tlbs].flatten

/-- The moves that the device may make next; some of them may change nothing. What reaches it from outside comes by the agenda
alone (log 1). -/
def State.moves (s : State) : List Act := [s.opMoves, s.lateMoves, s.aopMoves, s.gangMoves, s.tileMoves, s.deviceMoves].flatten

/-! ### Time -/

/-- Cycles pass (log 8): the time, and the time slices of the running contexts that hold a core (spec/03 R73). -/
def State.pass (s : State) (n : Nat) : State :=
  { s with
    time := s.time + BitVec.ofNat 64 n,
    ctr := s.ctr + 1,
    cur := .none,
    ctxs := s.ctxs.map fun c => if c.state = 1 ∧ s.holdsCore c.id then { c with used := c.used + n } else c }

/-- The move that a state makes next, and the state without it: the head of the agenda, or a free choice among the device's moves. -/
def State.pick (s : State) : Option Act × State :=
  match s.agenda with
  | a :: rest => (some a, { s with agenda := rest })
  | [] => (s.moves[Config.freeChoice s.ctr % s.moves.length]?, s)

/-! ### Placing an instruction -/

/-- The context of a placed instruction: running, with every feature, and a page table that maps the first GiB for execution. -/
def placedCtx : Ctx :=
  { Ctx.absent 0 with state := 1, desc := { (Ctx.absent 0).desc with root := 0x100000, cmask := BitVec.allOnes 512 } }

/-- The kernel of a placed block. -/
def placedKernel : Kernel :=
  { addr := 0, entry := 0x10000, gtab := 0, ltab := 0, brtab := 0, shared := 0, priv := 0, argn := 0, idem := false, csize := 1,
    regs := 256, lanes := 4, resv := 0, brcount := 0, gaten := 0, zwin := 0, xwin := 0, wwin := 0 }

/-- The slice of a placed block. -/
def placedSlice : Slice :=
  { group := 0, pc := 0x10000, active := 15, gone := 0, fmt := Config.fmtReset, fflags := 0, stack := [], dtag := 63, yValid := 0,
    tcause := 0, tpc := 0, taddr := 0, tinfo := 0, gframe := 0, tstat := 0, trapMode := none, wait := .none, again := .fresh,
    issued := 0, memErr := false }

/-- The gang of a placed block: one slice, one group. -/
def placedGang : Gang :=
  { no := 0, name := 0, quad := 0, slot := 0, spawned := false, holding := 256, slices := [placedSlice],
    groups := [{ id := 0, s := List.replicate 64 0, q := 0, age := 0 }], v := [], y := [], p := List.replicate 32 0, active := true,
    issuedActive := 0, readyFor := 0, batch := 0, cpyErr := { entries := [], ovf := false }, code := [], ended := false }

/-- A placed block. -/
def placedBlock : Block :=
  { uid := 1, ctx := 0, core := 0, grid := 0, queue := 0, ticket := 0, cluster := 1, crank := 0, number := 0, bx := 0, bY := 0, bz := 0,
    args := 0, kernel := placedKernel, handler := none, slot := 0, share := 256, freePart := 0, claims := [], shared := [], cb := [],
    gangs := [placedGang], relaunch := 0, trapExit := false }

/-- The frame of a placed bundle. -/
def placedFrame : Frame :=
  { uid := 2, number := 0, ctx := 0, blk := 1, core := 0, tctx := some 0, qseq := 2, desc := 0, retpc := 0, status := 1, refGang := 0,
    bases := [0, 0, 0], issuedOps := [0, 0, 0], doneOps := [0, 0, 0], errs := List.replicate 3 { entries := [], ovf := false },
    gangs := [0], maps := [], pc := 0x10000, regs := TileRegs.start (List.replicate 8 0) (List.replicate 32 0) Config.fmtReset,
    sresume := 0, image := none, bundles := 0, nextws := [], landings := [], fixed := [], w := 0, x := 0, z := 0, buf := [],
    written := [], token := none, draining := false, wait := .none, latches := [] }

/-- The page table entries and the code of a placed instruction: levels 4 and 3, and a 1 GiB page with X. -/
def placedMem (m : List (Nat × Byte)) (n w : Nat) : List (Nat × Byte) :=
  Memory.write (Memory.write (Memory.write (Memory.write m 0x100000 (leBytes 8 0x101001)) 0x101000 (leBytes 8 0x102001))
    0x102000 (leBytes 8 0x22)) 0x10000 (leBytes n w)

/-- A state whose next step issues the instruction that `w` holds: a thread word or pair for one group of four lanes, a bundle for
one tile context. -/
def State.place (s : State) (nbits w : Nat) : State :=
  let tile := decide (128 < nbits)
  { s with
    agenda := [if tile then .bundle 0 else .issue 0 0], uid := max s.uid 3, tlb := [], poison := [], ops := [], aops := [], recovery := false,
    mem := placedMem s.mem (if tile then 32 else 16) w,
    ctxs := placedCtx :: s.ctxs.drop 1,
    blocks := [if tile then { placedBlock with gangs := [{ placedGang with slices := [{ placedSlice with wait := .frame 2 }] }] } else placedBlock],
    frames := if tile then [placedFrame] else [],
    running := if tile then [(0, 2)] else [] }

end Sys2Proof.Machine
end

