-- ==== Sys2Proof/Machine/Step.lean ====
section
/-! DEFINITION. One step of the machine. -/

namespace Sys2Proof.Machine

/-- A step: one move, and the cycles that it takes. -/
def step (s : State) : Host.Outcome State Fault Refusal :=
  match s.pick with
  | (none, t) => .next (t.pass (1 + Config.freeCycles s.ctr))
  | (some a, t) =>
    match runAct a t with
    | .next u => .next (u.pass (1 + Config.freeCycles s.ctr))
    | .fault r => .fault r
    | .refused r => .refused r

/-- The state whose next step fetches and runs an instruction (log 19). -/
def State.withFetchWord (s : State) (nbits w : Nat) : State := s.place nbits w

end Sys2Proof.Machine
end

