-- ==== Sys2Proof/Safety.lean ====
section
/-! DEFINITION. What counts as a safe run, in the terms that statements use: the forms of the state that every step keeps, how a
later state reads at the parts of an earlier one, and which parts an instruction leaves alone. -/

namespace Sys2Proof.Machine

/-! ### Forms that every step keeps -/

/-- The memory of a state is in canonical form. -/
def State.memOk (s : State) : Prop := Memory.wf s.mem = true

/-- Each context slot stands at its own number (spec/10 R273). -/
def State.slotsOk (s : State) : Prop := s.ctxs.map (·.id) = List.range Config.contexts

/-- A step is safe when the machine goes on from it. -/
def State.goesOn (s : State) : Prop := ∃ t, step s = .next t

/-! ### Reading the issuing gang in a later state -/

/-- The issuing gang. -/
def State.gangAt (t : State) (v : View) : Option Gang := t.gang? v.b.uid v.g.name

/-- A lane of a V register of the issuing gang. -/
def State.vAt (t : State) (v : View) (r lane : Nat) : Option W32 := (t.gangAt v).map fun g => g.vreg r lane

/-- A predicate of a lane of the issuing gang. -/
def State.pAt (t : State) (v : View) (n lane : Nat) : Option Bool := (t.gangAt v).map fun g => g.pred n lane

/-- A lane of a latch of the issuing gang. -/
def State.yAt (t : State) (v : View) (k lane : Nat) : Option W32 := (t.gangAt v).map fun g => g.latch k lane

/-- A slice of the issuing gang. -/
def State.sliceAt (t : State) (v : View) (i : Nat) : Option Slice := (t.gangAt v).bind fun g => g.slices[i]?

/-- The registers of the issuing group. -/
def State.groupAt (t : State) (v : View) : Option Group :=
  (t.gangAt v).bind fun g => g.groups.find? fun r => r.id == v.r.id

/-- The group of a slice of the issuing gang, with the registers that the slice works with (spec/02 R40). -/
def State.sliceGroup (t : State) (v : View) (i : Nat) : Option Group :=
  (t.gangAt v).bind fun g => (g.slices[i]?).bind fun x => g.groups.find? fun r => r.id == x.group

/-- A slice that has gone on by `n` bytes and is otherwise as it was. -/
def Slice.on (x : Slice) (n : Nat) : Slice := { x with pc := x.pc + BitVec.ofNat 57 n, again := .fresh }

/-- Every member of the issuing group is what `f` makes of it. -/
def State.members (t : State) (v : View) (f : Nat → Slice → Slice) : Prop := ∀ i ∈ v.m, t.sliceAt v i = some (f i (v.slice i))

/-- In addition, every other slice of the gang is as it was. -/
def State.slices (t : State) (v : View) (f : Nat → Slice → Slice) : Prop :=
  t.members v f ∧ ∀ i, i ∉ v.m → t.sliceAt v i = v.g.slices[i]?

/-- The group is past its instruction of `n` bytes, and nothing else of any slice of the gang has changed. -/
def State.past (t : State) (v : View) (n : Nat) : Prop := t.slices v fun _ x => x.on n

/-- The latches of a slice after an instruction of the long class: invalid once it has issued (spec/11 R299). One that issues again after
a wait made them invalid when it issued first. -/
def View.longLatches (v : View) (x : Slice) : BitVec 4 := if (v.slice v.low).again = .fresh then 0 else x.yValid

/-- The group is past its instruction, which was of the long class. -/
def State.pastLong (t : State) (v : View) : Prop := t.slices v fun _ x => { x.on 8 with yValid := v.longLatches x }

/-- The group has issued its instruction, which was of the long class, and waits behind it. -/
def State.issuedAndWaits (t : State) (v : View) (w : Wait) : Prop := t.slices v fun _ x => { x.on 8 with yValid := v.longLatches x, wait := w }

/-- Sticky flags of the members of the group: those that they had, and those that executing lanes raise (spec/05 R124). -/
def View.raised (v : View) (ls : List Nat) (fl : Nat → FlagSet) (ff : Nat → BitVec 6) : Prop :=
  ∀ i ∈ v.m, ∀ k < 6, bit (ff i) k = (bit (v.slice i).fflags k || ls.any fun l => l / 4 == i && bit (fl l) k)

/-! ### Frames -/

/-- Two states differ in blocks and in the model's own counter alone: memory, caches, translations, accesses and copies in flight,
timelines, contexts, frames and every device register are the same. -/
def State.onlyBlocks (s t : State) : Prop := { t with blocks := s.blocks, ctr := s.ctr } = s

/-- A gang without its registers, predicates, latches, slices and groups, and without what its quadrant keeps of its turn. -/
def Gang.rest (g : Gang) : Gang :=
  { g with slices := [], groups := [], v := [], y := [], p := [], active := false, issuedActive := 0, readyFor := 0, leaves := false }

/-- In addition, of all blocks and gangs only the issuing gang differs, and that in its registers, slices, groups and turn alone. -/
def State.onlyGang (s t : State) (v : View) : Prop :=
  s.onlyBlocks t ∧ ∃ f : Gang → Gang, (∀ g, (f g).rest = g.rest) ∧ t.blocks = (s.updGang v.b.uid v.g.name f).blocks

/-- Every byte of memory reads as before. -/
def State.sameBytes (s t : State) : Prop := ∀ a, Memory.get t.mem a = Memory.get s.mem a

/-- Every location that shares no byte with the `n` bytes at a location reads as before. -/
def State.elsewhere (s t : State) (l : Loc) (n : Nat) : Prop := ∀ k m, l.overlaps n k m = false → t.readLoc k m = s.readLoc k m

/-- Every lane of every V register of the issuing gang reads as before. -/
def State.sameV (s t : State) (v : View) : Prop := ∀ r l, t.vAt v r l = s.vAt v r l

/-- Every predicate of every lane reads as before. -/
def State.sameP (s t : State) (v : View) : Prop := ∀ n l, t.pAt v n l = s.pAt v n l

/-- Every lane of every latch reads as before. -/
def State.sameY (s t : State) (v : View) : Prop := ∀ k l, t.yAt v k l = s.yAt v k l

/-- Registers, predicates and latches of the issuing gang read as before. -/
def State.sameRegs (s t : State) (v : View) : Prop := s.sameV t v ∧ s.sameP t v ∧ s.sameY t v ∧ t.groupAt v = some v.r

/-- A thread trap of the issuing group: each slice saves its address in %tpc, its cause in %tcause and the information in %tinfo, enters
trap mode with its stack depth and %dtag, and goes on at the handler with its latches invalid; registers, predicates and everything else
stay as they were (spec/10 R265, R267). -/
def State.tookTrap (s t : State) (v : View) (cause info : W32) : Prop :=
  s.onlyGang t v ∧ s.sameV t v ∧ s.sameP t v ∧ ∀ i ∈ v.m, ∃ x r, t.sliceAt v i = some x ∧ t.sliceGroup v i = some r ∧
    r.s = v.r.s ∧ r.q = v.r.q ∧ x.pc = BitVec.ofNat 57 (s.ctx v.b.ctx).desc.thandler ∧ x.tpc = (v.slice i).pc.setWidth 64 ∧
    x.tcause = cause ∧ x.tinfo = info ∧ x.taddr = 0 ∧ x.gframe = 0 ∧ x.tstat = (v.slice i).tstat ∧
    x.trapMode = some ((v.slice i).stack.length, (v.slice i).dtag) ∧ x.yValid = 0 ∧ x.stack = (v.slice i).stack ∧
    x.active = (v.slice i).active ∧ x.fmt = (v.slice i).fmt ∧ x.fflags = (v.slice i).fflags

/-! ### Families of instructions of one shape -/

/-- IADD, IMUL, IMAD, IMNMX, LOP3, SHF, POPC, CLZ, BREV, BFX, BFI, MOV, IDOT4, FADD, FMUL, FFMA, FMNMX, HADD2, HFMA2, SFN and FCVT:
guard, destination, operation and sources. -/
def aluForm : Instr → Option (Guard × VDst × AluOp × Src × Src × Src)
  | .iadd g d ty sub sat a b => some (g, d, .iadd ty sub sat, a, b, noSrc)
  | .imul g d ty hi a b => some (g, d, .imul ty hi, a, b, noSrc)
  | .imad g d ty hi a b c => some (g, d, .imad ty hi, a, b, c)
  | .imnmx g d ty mx a b => some (g, d, .imnmx ty mx, a, b, noSrc)
  | .lop3 g d w64 table a b c => some (g, d, .lop3 w64 table, a, b, c)
  | .shf g d w64 right arith a b => some (g, d, .shf w64 right arith, a, b, noSrc)
  | .popc g d w64 a => some (g, d, .popc w64, a, noSrc, noSrc)
  | .clz g d w64 a => some (g, d, .clz w64, a, noSrc, noSrc)
  | .brev g d w64 a => some (g, d, .brev w64, a, noSrc, noSrc)
  | .bfx g d w64 sext a b c => some (g, d, .bfx w64 sext, a, b, c)
  | .bfi g d w64 a b c => some (g, d, .bfi w64, a, b, c)
  | .mov g d w a => some (g, d, .mov w, a, noSrc, noSrc)
  | .idot4 g d sa sb a b c => some (g, d, .idot4 sa sb, a, b, c)
  | .fadd g d na nb a b => some (g, d, .fadd na nb, a, b, noSrc)
  | .fmul g d na nb a b => some (g, d, .fmul na nb, a, b, noSrc)
  | .ffma g d na nb nc a b c => some (g, d, .ffma na nb nc, a, b, c)
  | .fmnmx g d mx a b => some (g, d, .fmnmx mx, a, b, noSrc)
  | .hadd2 g d bf na nb a b => some (g, d, .hadd2 bf na nb, a, b, noSrc)
  | .hfma2 g d bf na nb nc a b c => some (g, d, .hfma2 bf na nb nc, a, b, c)
  | .sfn g d f a => some (g, d, .sfn f, a, noSrc, noSrc)
  | .fcvt g d sat dt st a => some (g, d, .fcvt sat dt st, a, noSrc, noSrc)
  | _ => none

/-- SEL, MOVI, LEA, SHFL, REDUX, VOTE.ballot and SRD: guard, destination, width, sources, the value of a lane, and whether a lane
has one (LEA's may meet BOUNDS). `valueGives` says what the values are. -/
def valueForm : Instr → Option (Guard × VDst × Nat × List Src × (State → View → Nat → Nat) × (State → View → Nat → Bool))
  | .sel g d w64 p neg a b => some (g, d, wSel w64, [a, b],
      fun _ v l => if v.g.pred p.toNat l != neg then v.src .int (wSel w64) l a else v.src .int (wSel w64) l b, fun _ _ _ => true)
  | .movi g d imm => some (g, d, 32, [], fun _ _ _ => (imm.signExtend 32).toNat, fun _ _ _ => true)
  | .lea g d glob k a b => some (g, d, 64, [a, b],
      fun s v l => (match v.lea s glob k a b l with | .ok x => x | .error _ => 0),
      fun s v l => (match v.lea s glob k a b l with | .ok _ => true | .error _ => false))
  | .shfl g d mode a b => some (g, d, 32, [a, b],
      fun _ v l => (match shflLane mode l (v.src .int 32 l b) with
        | some j => if v.lanes.contains j then v.src .int 32 j a else v.src .int 32 l a
        | none => v.src .int 32 l a), fun _ _ _ => true)
  | .redux g d op a => some (g, d, 32, [a], fun _ v _ => v.redux op a (v.exec g), fun _ _ _ => true)
  | .vote g (.ballot d) a => some (g, d, 32, [a], fun _ v _ => v.ballot (v.exec g) a, fun _ _ _ => true)
  | .srd g d r => some (g, d, sregWidth r, [], fun s v l => s.sreg v l r, fun _ _ _ => true)
  | _ => none

/-- An instruction of `valueForm` under another guard, as it executes in the second word of a pair (spec/11 R306). -/
def underGuard (g : Guard) : Instr → Instr
  | .sel _ d w64 p neg a b => .sel g d w64 p neg a b
  | .movi _ d imm => .movi g d imm
  | .lea _ d glob k a b => .lea g d glob k a b
  | .shfl _ d mode a b => .shfl g d mode a b
  | .redux _ d op a => .redux g d op a
  | .vote _ d a => .vote g d a
  | i => i

/-- ISET, FSET and VOTE to a predicate: guard, destination, sources, and the truth and flags in a lane. -/
def predForm : Instr → Option (Guard × PDst × List Src × (View → Nat → Bool × FlagSet))
  | .iset g d cmp ty a b => some (g, d, [a, b],
      fun v l => (icmp cmp (intVal ty (v.src .int ty.width l a)) (intVal ty (v.src .int ty.width l b)), 0))
  | .fset g d cmp u a b => some (g, d, [a, b], fun v l =>
      fCompare cmp u (BitVec.ofNat 32 (v.src (.cvt .f32) 32 l a)) (BitVec.ofNat 32 (v.src (.cvt .f32) 32 l b)))
  | .vote g (.pred mode d) a => some (g, d, [a], fun v _ =>
      let on (l : Nat) : Bool := v.src .int 32 l a != 0
      (match mode with
       | .all => (v.exec g).all on
       | .any => (v.exec g).any on
       | .uni => (v.exec g).all on || !(v.exec g).any on, 0))
  | _ => none

/-- The instructions whose only guard is always true or always false, with the guard that is always false; NOP, which has no effect. -/
def neverForm : Instr → Bool
  | .nop | .cbload true .. | .brecld true .. | .fence true .. | .cpbatch true .. | .cpwait true .. | .tlwait true .. | .bar true ..
  | .cbar true | .pbarrive true .. | .pbwait true .. | .racq true .. | .rcommit true .. | .rpeek true .. | .rrel true .. | .join true
  | .gate true .. | .reggive true .. | .regclaim true .. | .rft true => true
  | _ => false

/-- The latches of a slice after an instruction whose guard is false: one of the long class makes them invalid, CPBATCH makes its own
valid (spec/11 R298, R299), and any other leaves them. -/
def neverLatches (i : Instr) (v : View) (x : Slice) : BitVec 4 :=
  match i with
  | .cpwait .. | .tlwait .. | .pbwait .. | .racq .. | .rpeek .. | .regclaim .. => v.longLatches x
  | .cpbatch _ d => x.yValid ||| BitVec.ofNat 4 (2 ^ d.latch.toNat)
  | _ => x.yValid

/-- LD and LDNC: guard, destination, order, size, address, and whether every lane's load is a home load. -/
def loadForm : Instr → Option (Guard × BitVec 8 × Order × Size × MemAddr × Bool)
  | .ld g d o sz m => some (g, d, o, sz, m, orderAcq o)
  | .ldnc g d o sz m => some (g, d, o, sz, m, true)
  | _ => none

/-- ATOM, CAS and RED: guard, what the home does, bytes, order, the register for the old values, the comparand, address and operand. -/
def atomForm : Instr → Option (Guard × AtomFn × Nat × Order × Option (BitVec 8) × (View → Nat → Nat) × Src × Src)
  | .atom g d op o w64 a b => some (g, .op op, wSel w64 / 8, o, some d, fun _ _ => 0, a, b)
  | .cas g d o sz a b => some (g, .cas, Size.bytes' sz, o, some d, fun v l => v.g.vwide d.toNat l sz.regs, a, b)
  | .red g op o w64 a b => some (g, .op op, wSel w64 / 8, o, none, fun _ _ => 0, a, b)
  | _ => none

/-- RACQ and RPEEK: whether it acquires, destination, scope, base and offset. -/
def ringTakeForm : Instr → Option (Bool × BitVec 6 × Scope × Src × BitVec 10)
  | .racq false d sc base off => some (true, d, sc, base, off)
  | .rpeek false d sc base off => some (false, d, sc, base, off)
  | _ => none

/-- RCOMMIT and RREL: whether it commits, scope, base, slot register and offset. -/
def ringMarkForm : Instr → Option (Bool × Scope × Src × BitVec 6 × BitVec 10)
  | .rcommit false sc base n off => some (true, sc, base, n, off)
  | .rrel false sc base n off => some (false, sc, base, n, off)
  | _ => none

/-! ### What the statements of an instruction's result share -/

/-- A result of `w` bits stands in the lanes that execute, and every other lane of every V register reads as before. -/
def State.wroteV (s t : State) (v : View) (d : Nat) (nwb : Bool) (w : Nat) (ls : List Nat) (f : Nat → Nat) : Prop :=
  (∀ l ∈ ls, nwb = false → ∀ k < max w 32 / 32, t.vAt v (d + k) l = some (BitVec.ofNat 32 (f l / 2 ^ (32 * k)))) ∧
    ∀ r l, l < 32 → (nwb = true ∨ l ∉ ls ∨ r < d ∨ d + max w 32 / 32 ≤ r) → t.vAt v r l = s.vAt v r l

/-- A latch holds the values of the lanes that execute; its other lanes keep theirs where it was valid, and every other latch is as
before (spec/11 R298). -/
def State.wroteY (s t : State) (v : View) (k : Nat) (ls : List Nat) (f : Nat → Nat) : Prop :=
  (∀ l ∈ ls, t.yAt v k l = some (BitVec.ofNat 32 (f l))) ∧
    (∀ l < 32, l ∉ ls → (l / 4 ∈ v.m → bit (v.slice (l / 4)).yValid k = true) → t.yAt v k l = s.yAt v k l) ∧
    ∀ j l, l < 32 → j ≠ k → t.yAt v j l = s.yAt v j l

/-- Predicate P of the lanes that execute holds their values (P0 reads true), and every other predicate of every lane reads as
before. -/
def State.wroteP (s t : State) (v : View) (n : Nat) (ls : List Nat) (f : Nat → Bool) : Prop :=
  (∀ l ∈ ls, n ≠ 0 → t.pAt v n l = some (f l)) ∧ ∀ m l, m < 8 → l < 32 → (m ≠ n ∨ l ∉ ls) → t.pAt v m l = s.pAt v m l

/-- An S register of the issuing group holds a value of `w` bits, zero-extended, one of 128 bits in two registers, and the others and
the Q predicates are as before (spec/11 R295). -/
def State.wroteS (t : State) (v : View) (n w x : Nat) : Prop :=
  ∃ r, t.groupAt v = some r ∧ r.q = v.r.q ∧ ∀ k < 64, r.sreg k =
    if w = 128 ∧ k = n + 1 then BitVec.ofNat 64 (x / 2 ^ 64) else if k = n then BitVec.ofNat 64 (x % 2 ^ w) else v.r.sreg k

/-- A Q predicate of the issuing group holds a value, and the others and the S registers are as before. -/
def State.wroteQ (t : State) (v : View) (n : Nat) (x : Bool) : Prop :=
  ∃ r, t.groupAt v = some r ∧ r.s = v.r.s ∧ ∀ k < 8, bit r.q k = if k = n then x else bit v.r.q k

/-- A predicate destination of either kind holds values: P in each lane that executes, Q once. -/
def State.wrotePred (s t : State) (v : View) (d : PDst) (ls : List Nat) (f : Nat → Bool) : Prop :=
  if d.q then s.sameP t v ∧ (match ls with | [] => t.groupAt v = some v.r | l :: _ => t.wroteQ v d.n.toNat (f l))
  else s.wroteP t v d.n.toNat ls f ∧ t.groupAt v = some v.r

/-- All that an instruction does which writes a V destination: the register, the latch and the flags, and nothing else. -/
def State.vectorDone (s t : State) (v : View) (d : VDst) (w : Nat) (ls : List Nat) (f : Nat → Nat) (fl : Nat → FlagSet) : Prop :=
  s.onlyGang t v ∧ s.wroteV t v d.n.toNat d.nwb w ls f ∧ s.wroteY t v d.latch.toNat ls f ∧ s.sameP t v ∧
    t.groupAt v = some v.r ∧ ∃ ff, v.raised ls fl ff ∧
      t.slices v fun i x => { x.on 8 with fflags := ff i, yValid := x.yValid ||| BitVec.ofNat 4 (2 ^ d.latch.toNat) }

/-! ### Control blocks -/

/-- The `n` bytes at a location, in parts of 16. -/
def runOf (l : Loc) (n : Nat) : Pieces := (List.range (n / 16)).map fun i => (l.plus (16 * i), 16)

/-- A location that stands somewhere: in memory, or in the shared memory of a block that is there. -/
def State.hasLoc (s : State) : Loc → Prop
  | .phys _ => True
  | .shared b _ => (s.holder? b).isSome = true

/-- The number that RACQ takes from a ring with a free slot, or RPEEK from one with a committed slot (spec/16 R433). -/
def Rcb.next (r : Rcb) (acq : Bool) : Option Nat :=
  if acq then (if ringDelta r.chead r.tail < r.scount then some r.tail else none)
  else if 0 < ringDelta r.head r.ctail then some r.head else none

/-- A number of a ring is taken: TAIL, or HEAD, is one further, and no other byte has changed. -/
def State.ringTaken (s t : State) (l : Loc) (r : Rcb) (acq : Bool) (n : Nat) : Prop :=
  Rcb.ofBytes (t.readLoc l 32) = some (if acq then { r with tail := (n + 1) % 2 ^ 32 } else { r with head := (n + 1) % 2 ^ 32 }) ∧
    s.elsewhere t l 32

/-- Where RCOMMIT, or RREL, stands in a ring: the counter that it moves and the one that bounds it. -/
def Rcb.span (r : Rcb) (commit : Bool) : Nat × Nat := if commit then (r.ctail, r.tail) else (r.chead, r.head)

/-- Whether a slot number of a ring is marked (spec/16 R434). -/
def State.ringMarked (s : State) (commit : Bool) (l : Loc) (i : Nat) : Bool := s.monitors.any fun m => m.kind.marks commit l i

/-- A slot address names a number that RCOMMIT, or RREL, accepts: one between its counters that is not marked, and either the oldest or
with a free monitor at the block's home for its mark (spec/16 R433, R434). -/
def State.canMark (s : State) (l : Loc) (r : Rcb) (commit : Bool) (slot n : Nat) : Prop :=
  r.base ≤ slot ∧ (slot - r.base) % r.ssize = 0 ∧ (slot - r.base) / r.ssize < r.scount ∧
    r.slotNumber slot (r.span commit).1 (r.span commit).2 = some n ∧ s.ringMarked commit l n = false ∧
    (n = (r.span commit).1 ∨ ∃ h, l.slice? = some h ∧ s.monsAt h < Config.monitorsPerSlice)

/-- A number of a ring is committed, or released: the oldest moves the counter past itself and the marked numbers that follow it, whose
marks are gone; any other is marked. No other byte has changed (spec/16 R433, R434). -/
def State.ringMarks (s t : State) (l : Loc) (r : Rcb) (commit : Bool) (i : Nat) : Prop :=
  let lo := (r.span commit).1
  let hi := (r.span commit).2
  if i = lo then
    ∀ n, n + 1 ≤ ringDelta lo hi → (∀ j < n, s.ringMarked commit l ((i + 1 + j) % 2 ^ 32) = true) →
      s.ringMarked commit l ((i + 1 + n) % 2 ^ 32) = false →
      Rcb.ofBytes (t.readLoc l 32) =
          some (if commit then { r with ctail := (i + 1 + n) % 2 ^ 32 } else { r with chead := (i + 1 + n) % 2 ^ 32 }) ∧
        s.elsewhere t l 32 ∧
        t.monitors.map (·.kind) = (s.monitors.map (·.kind)).filter fun k => !(List.range n).any fun j => k.marks commit l ((i + 1 + j) % 2 ^ 32)
  else (∀ k m, t.readLoc k m = s.readLoc k m) ∧
    ∃ k : MonKind, k.marks commit l i = true ∧ t.monitors.map (·.kind) = s.monitors.map (·.kind) ++ [k]

/-- One operation more is in flight, with these units first. -/
def State.issuedOp (s t : State) (v : View) (o : Order) (us : List OpUnit) : Prop :=
  ∃ rest, t.ops = s.ops ++ [{ v.op s o (us ++ rest) with id := s.uid }]

/-- STB's store of an element: the code of its register's value, in a nibble of its byte where elements are of 4 bits, and the flags of
the conversion (spec/17 R479). -/
def stbPart (v : View) (d : BitVec 8) (r : BufRec) (x : ElemAt × Option Nat) : OpUnit × FlagSet :=
  let c := elemStore r.menc r.rfmt (v.fmt x.1.lane) (v.bookOf r.menc) x.2 (v.g.vreg d.toNat x.1.lane).toNat
  if efWidth r.menc = 4 then
    (storeUnit (v.party x.1.lane) x.1.loc x.1.n (if x.1.nib then 16 * c.1 else c.1) (if x.1.nib then 0xF0 else 0x0F), c.2)
  else (storeUnit (v.party x.1.lane) x.1.loc x.1.n c.1 (byteMask x.1.n), c.2)

/-- An access of a block meets nothing that is still in flight: no access of the thread set or of a K slot, and no operation of fixed
latency of the block. -/
def State.quiet (s : State) (blk : Nat) : Prop := s.ops = [] ∧ ∀ f ∈ s.frames, f.blk = blk → f.fixed = []

/-- What a load that is not a home load returns: its core's resident part of the location as it issues, else the home's value. -/
def State.loadValue (s : State) (core : Nat) (home : Bool) (l : Loc) (n : Nat) : Nat :=
  match (if home then none else s.l1Hit core l n) with
  | some x => x.toNat
  | none => s.readNat l n

/-- The group is past its instruction of 8 bytes and waits for nothing. -/
def State.through (t : State) (v : View) : Prop :=
  ∀ i ∈ v.m, ∃ x, t.sliceAt v i = some x ∧ x.pc = (v.slice i).pc + 8 ∧ x.wait = .none

/-- No release wait holds the instruction (spec/08 R225). -/
def State.released (s : State) (v : View) (o : Order) : Prop := orderRel o = true → s.releaseDone v.b.uid v.b.core v.issuer = true

/-- One lane of MAPCOMMIT or MAPRELEASE is done, with a status, in the machine `u` that its own effect leaves: with the last lane all
statuses stand in the predicate and the group goes on, before that the lane is marked as done and the instruction stays in hand. -/
def State.laneEnded (u t : State) (v : View) (p : Nat) (xs : List (Nat × Nat)) (done status : BitVec 32) (lane : Nat) (st : Bool) : Prop :=
  u.onlyGang t v ∧ u.sameV t v ∧
    if xs.all (fun y => y.1 == lane || bit done y.1) = true then
      t.past v 8 ∧ u.wroteP t v p (xs.map (·.1)) fun l => if l = lane then st || bit status l else bit status l
    else u.sameP t v ∧ ∀ i ∈ v.m, ∃ y d z, t.sliceAt v i = some y ∧ y.pc = (v.slice i).pc ∧ y.wait = (v.slice i).wait ∧
      y.again = .lanes d z none ∧ ∀ k < 32, bit d k = (bit done k || k == lane) ∧ bit z k = (bit status k || (k == lane && st))

/-- No cached line of a core remains that an acquire at .clus or wider invalidates (spec/08 R226). -/
def State.acquired (t : State) (core : Nat) : Prop := ∀ x ∈ t.l1, x.core = core → x.isSealed = true

/-- The block of the issuing group has no frame and no pending register claim. -/
def State.plainBlock (s : State) (v : View) : Prop := (∀ f ∈ s.frames, f.blk ≠ v.b.uid) ∧ v.b.claims = []

/-- The FMT field of a bit, by SETFMT's mask bit (spec/17 R461). -/
def fmtField (k : Nat) : Option Nat :=
  if 16 ≤ k then some 3 else if 14 ≤ k then some 0 else if k = 13 then some 1 else if k = 12 then some 2 else none

/-- The lowest of four lanes in a mask. -/
def lowLane (m : BitVec 4) : Nat := ((List.range 4).find? fun k => bit m k).getD 0

/-- The lanes of a slice that meet a condition, as a mask. -/
def laneMask (f : Nat → Bool) : BitVec 4 := (List.range 4).foldl (fun m k => if f k then m ||| BitVec.ofNat 4 (2 ^ k) else m) 0

/-- A slice after a branch is as before but for its program counter, path, stack and group, and the count of R49 begins anew where it
diverges. -/
def Slice.branched (o x : Slice) : Prop :=
  { x with group := o.group, pc := o.pc, active := o.active, stack := o.stack, dtag := o.dtag, issued := o.issued, again := o.again } = o

/-- What a divergence pushes on a slice's stack: the rejoin entry, with the lowest tag that no rejoin entry holds, and a path entry for
each further path in turn; %dtag becomes the tag (spec/02 R31, R33). -/
def Slice.diverged (o x : Slice) (paths : List (BitVec 4 × VAddr)) : Prop :=
  ∃ r ps, x.stack = o.stack ++ r :: ps ∧ x.dtag = r.tag ∧ r.kind = .rejoin ∧ r.mask = o.active ∧ r.outer = o.dtag ∧ r.fmt = o.fmt ∧
    r.arr = false ∧ r.tag.toNat < 63 ∧ (∀ e ∈ o.stack, e.kind = .rejoin → e.tag ≠ r.tag) ∧
    (∀ k < r.tag.toNat, ∃ e ∈ o.stack, e.kind = .rejoin ∧ e.tag.toNat = k) ∧ ps.map (fun p => (p.mask, p.pc)) = paths ∧
    ∀ p ∈ ps, p.kind = .path ∧ p.tag = r.tag ∧ p.fmt = o.fmt ∧ p.outer = 0 ∧ p.arr = false

/-- Where a lane of a branch goes: its target where it branches, else the next instruction. -/
def View.goesTo (v : View) (taken : List Nat) (tgt : Nat → VAddr) (l : Nat) : VAddr := if taken.contains l then tgt l else v.pc + 8

/-! ### Values of the integer and logic operations -/

/-- The operations on integers and bits. -/
def integerOp : AluOp → Bool
  | .fadd .. | .fmul .. | .ffma .. | .fmnmx .. | .hadd2 .. | .hfma2 .. | .sfn .. | .fcvt .. => false
  | _ => true

/-- What the entry of an integer or logic operation says of its result `x`, the pattern of sources `a`, `b` and `c`. -/
def aluGives (op : AluOp) (a b c x : Nat) : Prop :=
  let on (n k : Nat) : Bool := Nat.testBit n k
  match op with
  | .iadd t sub sat =>
    let e := if sub then intVal t a - intVal t b else intVal t a + intVal t b
    x < 2 ^ t.width ∧ if sat then intVal t x = max (intRange (intSigned t) t.width).1 (min (intRange (intSigned t) t.width).2 e)
    else (x : Int) = e % 2 ^ t.width
  | .imul t hi => (x : Int) = (if hi then intVal t a * intVal t b / 2 ^ t.width else intVal t a * intVal t b) % 2 ^ t.width
  | .imad t hi =>
    (x : Int) = ((if hi then intVal t a * intVal t b / 2 ^ t.width else intVal t a * intVal t b) + intVal t c) % 2 ^ t.width
  | .imnmx t mx => x < 2 ^ t.width ∧ intVal t x = if mx then max (intVal t a) (intVal t b) else min (intVal t a) (intVal t b)
  | .lop3 w table => x < 2 ^ wSel w ∧ ∀ k < wSel w, on x k = on table.toNat (4 * (on a k).toNat + 2 * (on b k).toNat + (on c k).toNat)
  | .shf w right arith =>
    x < 2 ^ wSel w ∧ ∀ k < wSel w, on x k =
      if right then (if k + b < wSel w then on a (k + b) else arith && on a (wSel w - 1)) else decide (b ≤ k) && on a (k - b)
  | .popc w => x = ((List.range (wSel w)).filter fun k => on a k).length
  | .clz w => x ≤ wSel w ∧ (∀ k < wSel w, wSel w ≤ k + x → on a k = false) ∧ (x < wSel w → on a (wSel w - 1 - x) = true)
  | .brev w => x < 2 ^ wSel w ∧ ∀ k < wSel w, on x k = on a (wSel w - 1 - k)
  | .bfx w sext =>
    let pos := b % 256
    let len := min (c % 256) (wSel w)
    let f (k : Nat) : Bool := if pos + k < wSel w then on a (pos + k) else sext && on a (wSel w - 1)
    x < 2 ^ wSel w ∧ ∀ k < wSel w, on x k = if k < len then f k else sext && decide (len ≠ 0) && f (len - 1)
  | .bfi w =>
    let pos := c % 256
    let len := min (c / 256 % 256) (wSel w)
    x < 2 ^ wSel w ∧ ∀ k < wSel w, on x k = if pos ≤ k ∧ k < pos + len then on a (k - pos) else on b k
  | .mov _ => x = a
  | .idot4 sa sb =>
    let e (s : Bool) (n i : Nat) : Int := let y := n / 256 ^ i % 256; if s = true ∧ 128 ≤ y then (y : Int) - 256 else y
    (x : Int) = (c + e sa a 0 * e sb b 0 + e sa a 1 * e sb b 1 + e sa a 2 * e sb b 2 + e sa a 3 * e sb b 3) % 2 ^ 32
  | _ => False

/-! ### Values of the other vector instructions -/

/-- Bits of the device feature mask that are assigned: those of the thread opcodes but NOP, of formats 5 and 6, and of the slots' opcodes
(spec/10 R291, spec/12 R315, R316, R320). -/
def featureBit (b : Nat) : Bool :=
  [(0x01, 0x11), (0x20, 0x27), (0x40, 0x44), (0x50, 0x52), (0x60, 0x6E), (0x80, 0x83), (0x90, 0x98), (0xA0, 0xA7), (0xB0, 0xB5),
   (0xD0, 0xD3), (0xFE, 0xFF), (257, 266), (289, 294), (321, 324), (353, 359), (385, 389), (417, 423)].any fun r =>
    decide (r.1 ≤ b) && decide (b ≤ r.2)

/-- The registers of spec/11 R301 but %ncores and the feature words, with what they hold for a lane. -/
def State.sregTable (s : State) (v : View) (l : Nat) : List (Nat × Nat) :=
  let x := v.slice (l / 4)
  [(0x00, l), (0x01, l / 4), (0x02, v.g.no), (0x03, v.b.number), (0x04, v.b.bx), (0x05, v.b.bY), (0x06, v.b.bz), (0x07, v.b.crank),
   (0x08, v.b.core), (0x09, v.g.quad), (0x0A, v.b.ctx), (0x0B, s.devid.toNat), (0x0D, v.b.args.toNat), (0x0E, v.g.holding),
   (0x0F, s.time.toNat), (0x10, x.dtag.toNat), (0x11, x.fflags.toNat), (0x20, x.tcause.toNat), (0x21, x.tpc.toNat),
   (0x22, x.taddr.toNat), (0x23, x.tinfo.toNat), (0x24, x.gframe.toNat), (0x25, x.tstat.toNat)]

/-- What the entry of an instruction of `valueForm` says of the value `x` of an executing lane `l`. -/
def State.valueGives (s : State) (v : View) (l x : Nat) : Instr → Prop
  | .sel _ _ w64 p neg a b => x = v.src .int (wSel w64) l (if v.g.pred p.toNat l = neg then b else a)
  | .movi _ _ imm => x < 2 ^ 32 ∧ (BitVec.ofNat 32 x).toInt = imm.toInt
  | .lea _ _ glob k a b =>
    let y := (v.src .int 64 l a + v.src .int 64 l b * 2 ^ k.toNat) % 2 ^ 64
    if glob = true ∧ 0x01FFFF0000000000 ≤ y ∧ y ≤ 0x01FFFFFFFFFFFFFF then
      let o := y - 0x01FFFF0000000000
      let d := (s.ctx v.b.ctx).desc
      o < v.b.kernel.priv ∧ x = d.arena + v.b.slot * d.slotSize + (v.g.no * 32 + l) * v.b.kernel.priv + o
    else x = y
  | .shfl _ _ mode a b =>
    let n := v.src .int 32 l b
    let j : Int := match mode with | .idx => n | .up => l - n | .down => l + n | .xor => ((l ^^^ n % 32 : Nat) : Int)
    x = v.src .int 32 (if 0 ≤ j ∧ j ≤ 31 ∧ j.toNat ∈ v.lanes then j.toNat else l) a
  | .redux g _ op a =>
    let xs := (v.exec g).map fun l => v.src .int 32 l a
    match op with
    | .add => x = xs.sum % 2 ^ 32
    | .minI => x ∈ xs ∧ ∀ y ∈ xs, (BitVec.ofNat 32 x).toInt ≤ (BitVec.ofNat 32 y).toInt
    | .maxI => x ∈ xs ∧ ∀ y ∈ xs, (BitVec.ofNat 32 y).toInt ≤ (BitVec.ofNat 32 x).toInt
    | .minN => x ∈ xs ∧ ∀ y ∈ xs, x ≤ y
    | .maxN => x ∈ xs ∧ ∀ y ∈ xs, y ≤ x
    | .and => ∀ k, x.testBit k = xs.all fun y => y.testBit k
    | .or => ∀ k, x.testBit k = xs.any fun y => y.testBit k
    | .xor => ∀ k, x.testBit k = decide ((xs.filter fun y => y.testBit k).length % 2 = 1)
  | .vote g (.ballot _) a => ∀ k, x.testBit k = decide (k ∈ v.exec g ∧ v.src .int 32 k a ≠ 0)
  | .srd _ _ r =>
    (∀ y, (r.toNat, y) ∈ s.sregTable v l → x = y) ∧
      (r = 0x0C → x = ((List.range 160).filter fun c => !s.fenced c).length) ∧
      ∀ j < 8, r.toNat = 0x30 + j → ∀ k, x.testBit k = (decide (k < 64) && featureBit (64 * j + k))
  | _ => False

/-! ### Binary32 patterns -/

/-- The binary32 pattern of 2^n, or of -2^n, for -149 <= n <= 127 (spec/05 R116). -/
def pow2Pat (neg : Bool) (n : Int) : W32 :=
  BitVec.ofNat 32 ((if neg then 2 ^ 31 else 0) + if -126 ≤ n then (n + 127).toNat * 2 ^ 23 else 2 ^ (n + 149).toNat)

/-- The binary32 pattern of an integer of at most 24 bits. -/
def intPat (n : Int) : W32 :=
  if n = 0 then 0
  else
    let k := Nat.log2 n.natAbs
    BitVec.ofNat 32 ((if n < 0 then 2 ^ 31 else 0) + (k + 126) * 2 ^ 23 + n.natAbs * 2 ^ (23 - k))

/-! ### Contexts and collectives -/

/-- A context restored from its frames: it runs, and its time slice begins anew, unless a gang that has come back at once ends it; a block
that fits no core waits (spec/10 R283). -/
def State.resumed (s t : State) (c : Nat) (rs : List Restored) : Prop :=
  ((t.ctx c).state = 1 ∨ (t.ctx c).state = 4 ∧ (t.ctx c).kcause = 2) ∧ (t.ctx c).saved = [] ∧ (t.ctx c).restored = s.time.toNat ∧
    (t.ctx c).used = 0 ∧ ((t.ctx c).state = 1 → (∀ n core, s.fitsCore n core = false) →
      (t.ctx c).pending = (s.ctx c).pending ++ (clustersOf (queued s.uid rs)).map pendingOf)

/-- A group of a context is broken: each of its operations is cut short and writes nothing more, whatever error it had before, and
where none had its result yet no byte of memory changes (spec/09 R260). -/
def State.groupBroken (s t : State) (c g : Nat) : Prop :=
  (t.ctx c).broken.contains g = true ∧
    (∀ o ∈ s.aops, o.ctx = c → o.group? = some g → o.cut = false →
      ∃ y ∈ t.aops, y.id = o.id ∧ y.cut = true ∧ y.err = o.err ∧ y.srcs = [] ∧ y.writes = []) ∧
    (∀ o ∈ t.aops, o.ctx = c → o.group? = some g → o.cut = true) ∧
    ((∀ o ∈ s.aops, o.ctx = c → o.group? = some g → s.collDone o = []) → t.mem = s.mem)

/-- The operation of a context's group and sequence that collective data belongs to. -/
def collMatch (c g seq : Nat) (o : AOp) : Bool :=
  o.ctx == c && !o.cutShort && (match o.work with | .coll _ _ k _ _ q _ _ => k == g && q == seq | _ => false)

/-- Whether the tag of collective data names an operation's own operation, reduction, type and element count. -/
def tagAgrees (t : CollTag) (op : CollOp) (red : CollRed) (ty : CollTy) (n : Nat) : Prop :=
  t.op = op ∧ t.red = red ∧ t.ty = ty ∧ t.count = n

/-! ### Tile contexts -/

/-- Two states differ in frames alone. -/
def State.onlyFrames (s t : State) : Prop := { t with frames := s.frames } = s

/-- In addition, every frame but one is as before. -/
def State.onlyFrame (s t : State) (frame : Nat) : Prop := s.onlyFrames t ∧ ∀ u, u ≠ frame → t.frame? u = s.frame? u

/-- A frame that differs in its registers alone. -/
def Frame.onlyRegs (f g : Frame) : Prop := { g with regs := f.regs } = f

/-- A scalar that a slot operation can write: K, KW, an F predicate as 0 or 1, %fflags; any other reads 0 here. -/
def TileRegs.scalar (r : TileRegs) (n : Nat) : W64 :=
  if n < 32 then r.k.getD n 0 else if n < 40 then r.kw.getD (n - 32) 0
  else if n < 48 then (if bit r.f (n - 40) then 1 else 0) else if n = 50 then r.fflags.setWidth 64 else 0

/-- What a scalar number keeps of a value: an F predicate its lowest bit, %fflags its six bits, a read-only number nothing
(spec/11 R302). -/
def scalarCut (n : Nat) (x : W64) : W64 := if n < 40 then x else if n < 48 then x &&& 1 else if n = 50 then x &&& 0x3F else 0

/-- Of a tile context's registers only the scalars K, KW, F and %fflags may differ. -/
def TileRegs.onlyScalars (a b : TileRegs) : Prop := { b with k := a.k, kw := a.kw, f := a.f, fflags := a.fflags } = a

/-- Of the issuing tile context only scalar `n` has changed, and it holds `x`. -/
def State.wroteK (t : State) (v : TView) (n : Nat) (x : W64) : Prop :=
  ∃ f, t.frame? v.f.uid = some f ∧ v.f.onlyRegs f ∧ v.f.regs.onlyScalars f.regs ∧
    ∀ m < 64, f.regs.scalar m = if m = n then scalarCut n x else v.f.regs.scalar m

/-- A part that stands somewhere: in memory or a resident block, in the frame's own windows, a gang, a latch. -/
def State.hasPlace (s : State) (frame : Nat) : Place → Bool
  | .mem (.phys _) => true
  | .mem (.shared b _) => (s.holder? b).isSome
  | .buf f _ _ => f == frame && (s.frame? frame).isSome
  | .vreg b g l _ _ => decide (l < 32) && (s.gang? b g).isSome
  | .latch c i _ => (s.latch? c i).isSome

/-- Whether two parts share no byte. -/
def Place.apart : Place → Place → Bool
  | .mem l, .mem k => !l.overlaps 16 k 16
  | .buf f sp a, .buf g sq b => f != g || decide (sp * 2 ^ 20 + a + 16 ≤ sq * 2 ^ 20 + b) || decide (sq * 2 ^ 20 + b + 16 ≤ sp * 2 ^ 20 + a)
  | .vreg b g l r _, .vreg c h m q _ => (b, g, r) != (c, h, q) || l != m
  | .latch c i a, .latch d j b => c != d || i != j || decide (a + 16 ≤ b) || decide (b + 16 ≤ a)
  | _, _ => true

/-- KADD, KLOP, KMOVI and KCMP: the scalar written and its value. -/
def scalarForm (i : Instr) (v : TView) (s : State) : Option (Nat × W64) :=
  match i with
  | .kadd d sub a b => some (d.toNat, if sub then v.k s a - v.ksrc s b else v.k s a + v.ksrc s b)
  | .klop d op a b => some (d.toNat, match op with
      | .and => v.k s a &&& v.ksrc s b
      | .or => v.k s a ||| v.ksrc s b
      | .xor => v.k s a ^^^ v.ksrc s b
      | .andn => v.k s a &&& ~~~v.ksrc s b
      | .shl => v.k s a <<< ((v.ksrc s b).toNat % 64)
      | .shr => v.k s a >>> ((v.ksrc s b).toNat % 64)
      | .sar => (v.k s a).sshiftRight ((v.ksrc s b).toNat % 64))
  | .kmovi d imm => some (d.toNat, imm.signExtend 64)
  | .kcmp f cmp u a b => some (40 + f.toNat,
      if (if u then icmp cmp (v.k s a).toNat (v.ksrc s b).toNat else icmp cmp (v.k s a).toInt (v.ksrc s b).toInt) then 1 else 0)
  | _ => none

/-- A slot of a bundle that neither traps nor waits, by its word alone or by its test and target: no operation, a swap, KADD, KMUL, KLOP,
KMOVI, KCMP, SHPW, SETFMT, and TBR and TCALL to a target in the address space (spec/04 R97, R106). -/
def State.plainSlot (s : State) (v : TView) (w : W256) (x : Slot) : Prop :=
  match bundleSlot w x with
  | .error _ => False
  | .ok .noop => True
  | .ok (.swap _) => True
  | .ok (.op i) => s.missingFeature v.f.ctx i = none ∧
      match i with
      | .kadd .. | .kmul .. | .klop .. | .kmovi .. | .kcmp .. | .shpw .. | .setfmtK .. => True
      | .tbr t | .tcall t => v.test s t = true → 0 ≤ (v.f.pc.toNat : Int) + 32 + 32 * t.offset.toInt ∧
          (v.f.pc.toNat : Int) + 32 + 32 * t.offset.toInt < 2 ^ 57
      | _ => False

/-- The scalars that a bundle of plain slots writes at its own end, the K slot's first, with their values: KMUL's lands later. -/
def State.bundleScalars (s : State) (v : TView) (w : W256) : List (Nat × W64) :=
  (match bundleSlot w .k with | .ok (.op i) => (scalarForm i v s).toList | _ => []) ++
    match bundleSlot w .b with
    | .ok (.op (.tcall t)) => if v.test s t then [(31, (v.f.pc + 32).setWidth 64)] else []
    | _ => []

/-- Where a bundle goes on whose B slot holds no operation or a branch. -/
def State.bundleNext (s : State) (v : TView) (w : W256) : VAddr :=
  match bundleSlot w .b with
  | .ok (.op (.tbr t)) | .ok (.op (.tcall t)) =>
    if v.test s t then BitVec.ofInt 57 ((v.f.pc.toNat : Int) + 32 + 32 * t.offset.toInt) else v.f.pc + 32
  | _ => v.f.pc + 32

/-- The shape registers of a slot after it commits: with a swap, one live and one shadow register exchanged (spec/04 R100). -/
def TileRegs.exchanged (old new src : TileRegs) (e : Eng) (sw : Swap) : Prop :=
  ∀ k < 16, new.live.getD k 0 = (if sw.map (fun j => engBase e + j.toNat) = some k then src.shadow.getD k 0 else old.live.getD k 0) ∧
    new.shadow.getD k 0 = if sw.map (fun j => engBase e + j.toNat) = some k then src.live.getD k 0 else old.shadow.getD k 0

/-- An engine operation of fixed latency as its slot takes it: engine, swap, capture, cycles R and W, sources, checks. -/
structure FixedForm where
  eng : Eng
  sw : Swap
  env : OpEnv
  cycles : Nat × Nat
  srcs : List Place
  ok : Except Stop Unit

/-- DMOV, TFILL, TEW, TEU, TCVT, TRANS, ROWRED, ROWSTAT, ROWSCALE and MZERO. -/
def fixedForm (i : Instr) (v : TView) (s : State) : Option FixedForm :=
  let one (eng : Eng) (sw : Swap) (td ta : BitVec 5) (cycles : Side → Side → Nat × Nat) (use : ScaleUse) (ok : Side → Side → Except Stop Unit) (z : Side → Side := id) :
      Option FixedForm :=
    let img := v.r.swapped eng sw
    let e := v.env img [] []
    some ⟨eng, sw, e, cycles (img.side eng ta) (img.side eng td), e.parts (z (img.side eng ta)) use, ok (img.side eng ta) (img.side eng td)⟩
  match i with
  | .dmov sw td ta => one .d sw td ta dTiming .none fun a d =>
      v.tilesOk [⟨a, [1, 2, 3, 4, 5], false, .none⟩, ⟨d, [1, 2, 3, 4, 5], true, .none⟩] (!sameWin a d || a.t.ef != d.t.ef) 5
  | .tfill sw td ka =>
      let img := v.r.swapped .d sw
      let d := img.side .d td
      some ⟨.d, sw, v.env img [] [(v.k s ka).toNat], dTiming d d, [], v.tilesOk [⟨d, [1, 2, 3, 4, 5], true, .none⟩] false⟩
  | .tew sw td ta form =>
      let img := v.r.swapped .v sw
      let a := img.side .v ta
      let d := img.side .v td
      let b := match form with | .tile _ tb => [img.side .v tb] | _ => []
      let e := v.env img [] (match form with | .scalar _ kb => [(v.k s kb).toNat % 2 ^ 32] | _ => [])
      some ⟨.v, sw, e, vTiming a.count 64 8, (a :: b).flatMap fun x => e.parts x .a,
        v.tilesOk ((a :: b).map (fun x => ⟨x, vSpaces, false, .a⟩) ++ [⟨d, vSpaces, true, .none⟩])
          ((d :: a :: b).any fun x => !sameWin x a || !floatEf x.t.ef)⟩
  | .teu sw td ta _ => one .v sw td ta (fun a _ => vTiming a.count 16 12) .a fun a d =>
      v.tilesOk [⟨a, vSpaces, false, .a⟩, ⟨d, vSpaces, true, .none⟩] (!sameWin a d || !floatEf a.t.ef || !floatEf d.t.ef)
  | .tcvt sw td ta => one .v sw td ta (fun a _ => vTiming a.count 64 8) .a fun a d =>
      v.tilesOk [⟨a, vSpaces, false, .a⟩, ⟨d, vSpaces, true, .a⟩] (!sameWin a d || !floatEf a.t.ef || !floatEf d.t.ef)
  | .trans sw td ta => one .v sw td ta (fun a _ => vTiming a.count 64 8) .none fun a d =>
      v.tilesOk [⟨a, vSpaces, false, .none⟩, ⟨d, vSpaces, true, .none⟩] (a.x.rows != d.x.cols || a.x.cols != d.x.rows || a.t.ef != d.t.ef)
  | .rowred sw td ta _ => one (z := Side.zAsF32) .v sw td ta (fun a _ => vTiming a.count 64 8) .a fun a d =>
      v.tilesOk [⟨a.zAsF32, vSpaces, false, .a⟩, ⟨d, vSpaces, true, .none⟩] (!floatEf a.t.ef || d.t.ef != 1 || d.x.rows != a.x.rows || d.x.cols != 1) 0x20 false
  | .rowstat sw td ta => one (z := Side.zAsF32) .v sw td ta (fun a _ => vTiming a.count 64 8) .a fun a d =>
      v.tilesOk [⟨a.zAsF32, vSpaces, false, .a⟩, ⟨d, vSpaces, true, .none⟩] (!floatEf a.t.ef || d.t.ef != 1 || d.x.rows != a.x.rows || d.x.cols != 2) 0x20 false
  | .rowscale sw tz tm tl =>
      let img := v.r.swapped .v sw
      let z := (img.side .v tz).zAsF32
      let m := img.side .v tm
      let l := img.side .v tl
      let e := v.env img [] []
      some ⟨.v, sw, e, vTiming z.count 64 8, [z, m, l].flatMap fun x => e.parts x .a,
        v.tilesOk [⟨m, vSpaces, false, .a⟩, ⟨z, [4], true, .none⟩, ⟨l, vSpaces, true, .a⟩]
          (m.t.ef != 1 || l.t.ef != 1 || m.x.rows != z.x.rows || m.x.cols != 2 || l.x.rows != z.x.rows || l.x.cols != 1) 0x20 false⟩
  | .mzero sw tz =>
      let img := v.r.swapped .m sw
      some ⟨.m, sw, v.env img [] [], (4, 4), [], v.tilesOk [⟨img.side .m tz, [4], true, .none⟩] false⟩
  | _ => none

/-- The fixed-latency operations that move codes as they are and set no flag (spec/14 R358, spec/15 R419, spec/18 R490, R493). -/
def movesOnly : Instr → Bool
  | .dmov .. | .tfill .. | .trans .. | .mzero .. => true
  | _ => false

/-- The issuing frame holds one operation of fixed latency more, and of its registers only the shape registers have changed: an operation
that has nothing to read is computed as it issues, with its flags where it converts. -/
def State.issuedFixed (s t : State) (v : TView) (i : Instr) (x : FixedForm) : Prop :=
  ∃ f o, t.frame? v.f.uid = some f ∧ f.fixed = v.f.fixed ++ [o] ∧ o.id = s.uid ∧ o.instr = i ∧ o.env = x.env ∧
    o.rDue = s.time.toNat + x.cycles.1 ∧ o.wDue = s.time.toNat + x.cycles.2 ∧ o.srcs = x.srcs.eraseDups ∧ o.got = [] ∧ o.seen = [] ∧
    (x.srcs = [] → o.computed = true ∧ o.writes = (s.fixedWrites i x.env []).1) ∧ (x.srcs ≠ [] → o.computed = false ∧ o.writes = []) ∧
    TileRegs.exchanged v.f.regs f.regs v.r x.eng x.sw ∧ (x.srcs ≠ [] ∨ movesOnly i = true → f.regs.fflags = v.f.regs.fflags) ∧
    { f.regs with live := v.f.regs.live, shadow := v.f.regs.shadow, fflags := v.f.regs.fflags } = v.f.regs

/-- The timeline that an asynchronous slot operation counts on, and its engine and swap; MLATCH from W is not one (spec/04 R104). -/
def asyncForm (i : Instr) (v : TView) : Option (TlKind × Eng × Swap) :=
  match i with
  | .tcopy sw .. | .tgath sw .. | .tscat sw .. => some (.copy, .c, sw)
  | .coll sw .. => some (.coll, .c, sw)
  | .mloop sw .. | .mdrain sw .. => some (.matrix, .m, sw)
  | .mlatch sw _ tb => if ((v.r.swapped .m sw).side .m tb).t.space = 6 then some (.matrix, .m, sw) else none
  | _ => none

/-- Checks of a collective: both sides global and below the shared space, its type and counts, its alignment and pages. -/
def collOk (sw : Swap) (td ta : BitVec 5) (ka : BitVec 6) (op : CollOp) (ty : CollTy) (v : TView) (s : State) : Prop :=
  let a := TReg.ofBits ((v.r.swapped .c sw).t.getD ta.toNat 0)
  let d := TReg.ofBits ((v.r.swapped .c sw).t.getD td.toNat 0)
  let k := v.k s ka
  let n := bits k 55 16
  let w := efWidth (collEf ty) / 8
  let c := s.collLens v.b.ctx (bits k 7 0) op n
  a.space = 6 ∧ d.space = 6 ∧ a.base < Config.sharedBase ∧ d.base < Config.sharedBase ∧
    (a.nsp = 0 ↔ a.mbase = 0) ∧ (d.nsp = 0 ↔ d.mbase = 0) ∧ a.ef = collEf ty ∧ d.ef = collEf ty ∧ n ≠ 0 ∧ bits k 15 8 = 0 ∧ bits k 63 56 = 0 ∧ a.base % w = 0 ∧ d.base % w = 0 ∧
    (∃ ps, s.pagesFor (s.whoTile v) .load (if c.1 = 0 then [] else [(a.base, c.1 * w)]) = .ok ps) ∧
    ∃ ps, s.pagesFor (s.whoTile v) .store (if c.2 = 0 then [] else [(d.base, c.2 * w)]) = .ok ps

/-- The checks of an asynchronous slot operation pass. -/
def asyncOk (i : Instr) (v : TView) (s : State) : Prop :=
  match i with
  | .tcopy sw td ta cvt remote =>
    let img := v.r.swapped .c sw
    let k := match remote with | some n => v.k s n | none => 0
    let ra := remote.isSome && bit k 63
    let rd := remote.isSome && !bit k 63
    copyShapes (img.side .c ta) (img.side .c td) cvt ra rd (remote.isSome && bits k 62 31 != 0) = .ok () ∧
      ∃ p, s.copyPages v i (v.env img [] []) ra rd = .ok p
  | .tgath sw td ta ka cvt =>
    let img := v.r.swapped .c sw
    let n := (img.side .c td).x.rows
    copyShapes (img.side .c ta) (img.side .c td) cvt false false (256 < n) true false = .ok () ∧ (v.k s ka).toNat % 4 = 0 ∧
      (img.side .c td).fits v (if cvt then .a else .none) = .ok () ∧ (img.side .c ta).aligned = .ok () ∧
      ∃ bs t p, s.loadRange (s.whoTile v) v.b.uid (v.k s ka) (4 * n) 4 = .ok (bs, t) ∧
        t.copyPages v i (v.env img [] ((wordsOf bs).map BitVec.toNat)) false false = .ok p
  | .tscat sw td ta ka =>
    let img := v.r.swapped .c sw
    let n := (img.side .c ta).x.rows
    copyShapes (img.side .c ta) (img.side .c td) false false false (256 < n) false true = .ok () ∧ (v.k s ka).toNat % 4 = 0 ∧
      (img.side .c ta).fits v .none = .ok () ∧ (img.side .c td).aligned = .ok () ∧
      ∃ bs t p, s.loadRange (s.whoTile v) v.b.uid (v.k s ka) (4 * n) 4 = .ok (bs, t) ∧
        t.copyPages v i (v.env img [] ((wordsOf bs).map BitVec.toNat)) false false = .ok p
  | .coll sw td ta ka op _ ty => collOk sw td ta ka op ty v s
  | .mlatch sw _ tb =>
    let b := (v.r.swapped .m sw).side .m tb
    v.tilesOk [⟨b, [2, 6], false, .b⟩] b.badB = .ok () ∧ ∃ ps, s.sidePages v .load b .b = .ok ps
  | .mloop sw _ _ _ kc ki mode =>
    ∃ x, loopOf i (v.r.swapped .m sw) (v.k s kc).toNat (v.k s ki).toNat = some x ∧ (v.k s kc).toNat < 2 ^ 13 ∧
      (v.k s ki).toNat < 2 ^ 32 ∧ x.steps ≠ 0 ∧ x.steps ≤ 4096 ∧ x.leaves v = false ∧
      ∃ ps, s.loopOk v x (match mode with | .streamG _ => 6 | _ => 2) false = .ok ps
  | .mdrain sw td tz mode =>
    let img := v.r.swapped .m sw
    let z := img.side .m tz
    let d := img.side .m td
    let use : ScaleUse := if mode = .cvt then .a else .none
    z.access [4] false = .ok () ∧ d.access [1, 5, 6] true = .ok () ∧ z.shape = .ok () ∧ z.zFormat = .ok () ∧ d.shape = .ok () ∧ sameWin z d = true ∧
      drainEf mode d.t.ef = true ∧ z.aligned = .ok () ∧ d.aligned = .ok () ∧ z.bounds v .none 0x20 = .ok () ∧
      d.bounds v use 0x20 = .ok () ∧ ∃ ps, s.sidePages v (drainAcc mode) d use = .ok ps
  | _ => True

/-- RACQ and RPEEK of the D slot: swap, whether it acquires, scope, destination, and the control block's address. -/
def tileTakeForm : Instr → Option (Swap × Bool × Scope × BitVec 4 × BitVec 6)
  | .racqTile sw sc kd ka => some (sw, true, sc, kd, ka)
  | .rpeekTile sw sc kd ka => some (sw, false, sc, kd, ka)
  | _ => none

/-- RCOMMIT and RREL of the D slot. -/
def tileMarkForm : Instr → Option (Swap × Bool × BitVec 4 × BitVec 6)
  | .rcommitTile sw _ ks ka => some (sw, true, ks, ka)
  | .rrelTile sw _ ks ka => some (sw, false, ks, ka)
  | _ => none

end Sys2Proof.Machine
end

