-- ==== Sys2Proof/Certificates/Slice0/Obligations.lean ====
section
/-! DEFINITION. The statements for the provers. -/

open Sys2Proof Sys2Proof.Machine

/-! ### Thread set: registers -/

/-- NOP, every instruction under a guard that is always false, and YIELD complete for every group that issues them. NOP changes nothing
but the program counter. Under a false guard nothing else changes either, but that a long-class instruction invalidates the latches of
its slices and CPBATCH makes its own valid. YIELD invalidates the latches, takes its gang from the active set, whatever its guard, and
changes nothing else (spec/02 R52, spec/11 R299, R305, spec/15 R422, spec/18 R503, R504). -/
def Obligations.NeverAndYield : Prop :=
  (∀ (s : State) v, s.view? = some v → ∃ t, exec .nop s = .next t ∧ s.onlyGang t v ∧ s.sameRegs t v ∧ t.past v 8) ∧
  (∀ i (s : State) v, neverForm i = true → s.view? = some v →
    ∃ t, exec i s = .next t ∧ s.onlyGang t v ∧ s.sameV t v ∧ s.sameP t v ∧ t.groupAt v = some v.r ∧
      (t.slices v fun _ x => { x.on 8 with yValid := neverLatches i v x }) ∧ ((∀ d, i ≠ .cpbatch true d) → s.sameY t v)) ∧
  ∀ g (s : State) v, s.view? = some v → ∃ t, exec (.yield g) s = .next t ∧ s.onlyGang t v ∧ s.sameRegs t v ∧ t.pastLong v ∧
    ((v.slice v.low).again = .fresh → (t.gangAt v).map (·.active) = some false)

/-- A vector operation: each executing lane of the destination receives the operation's value of its own sources, the latch captures
it, the flags of the executing lanes are ORed into their slices, and nothing else changes. For each integer and logic operation the value
is the one that its entry gives, with no flag: sums, products and saturation by the exact integers (spec/14 R383), the four products of
IDOT4 (R385), and LOP3, SHF, POPC, CLZ, BREV, BFX, BFI and MOV bit by bit (spec/13 R331, spec/15 R401, R418, spec/16 R430,
spec/17 R464). -/
def Obligations.VectorResult : Prop :=
  (∀ i g d op a b c (s : State) v, aluForm i = some (g, d, op, a, b, c) → s.view? = some v → v.stale [a, b, c] = none →
    ∃ t, exec i s = .next t ∧ s.vectorDone t v d op.widths.1 (v.exec g) (fun l => (v.alu op (v.fmt l) a b c l).1)
      (fun l => (v.alu op (v.fmt l) a b c l).2)) ∧
  ∀ (op : AluOp) (fmt : W32) (books : List W256) (a b c : Nat), a < 2 ^ op.widths.2.1 → b < 2 ^ op.widths.2.2.1 → c < 2 ^ op.widths.2.2.2 →
    integerOp op = true → (aluEval op fmt books a b c).2 = 0 ∧ aluGives op a b c (aluEval op fmt books a b c).1

/-- SEL, MOVI, LEA, SHFL, REDUX, VOTE.ballot and SRD write a value to each executing lane, raise no flag and change nothing else. The
values are those that their entries give: LEA's sum, or the arena address of a local-window address below PRIV (spec/15 R400); the sum,
the least, the greatest or the bitwise combination of the executing lanes (spec/16 R440); the lane that SHFL names, if it is a source
(spec/17 R466); a bit for each executing lane that votes true (spec/18 R502); and the special register of the number (spec/11 R301). -/
def Obligations.ValueResult : Prop :=
  (∀ i g d w srcs f ok (s : State) v, valueForm i = some (g, d, w, srcs, f, ok) → s.view? = some v → v.stale srcs = none →
    (∀ l ∈ v.exec g, ok s v l = true) →
    ∃ t, exec i s = .next t ∧ s.vectorDone t v d w (v.exec g) (f s v) fun _ => 0) ∧
  ∀ i g d w srcs f ok (s : State) v l, valueForm i = some (g, d, w, srcs, f, ok) → s.view? = some v → l ∈ v.exec g → ok s v l = true →
    s.valueGives v l (f s v l) i

/-- ISET, FSET and VOTE write a predicate: P in each executing lane, Q once for the group; registers and latches keep their values. -/
def Obligations.PredicateResult : Prop :=
  ∀ i g d srcs f (s : State) v, predForm i = some (g, d, srcs, f) → s.view? = some v → v.stale srcs = none →
    ∃ t, exec i s = .next t ∧ s.onlyGang t v ∧ s.wrotePred t v d (v.exec g) (fun l => (f v l).1) ∧ s.sameV t v ∧ s.sameY t v ∧
      ∃ ff, v.raised (v.exec g) (fun l => (f v l).2) ff ∧ t.slices v fun i x => { x.on 8 with fflags := ff i }

/-- SETFMT copies the fields of its mask into the FMT of the slices with an executing lane, bit by bit, and keeps the other bits; SWR
writes %fflags, %tpc and the resume field of %tstat of those slices. Nothing else changes. -/
def Obligations.SetfmtSwr : Prop :=
  (∀ g mask a (s : State) v, s.view? = some v → v.stale [a] = none →
    ∃ t, exec (.setfmt g mask a) s = .next t ∧ s.onlyGang t v ∧ s.sameRegs t v ∧
      ∃ ft : Nat → W32, (t.slices v fun i x => { x.on 8 with fmt := ft i }) ∧ ∀ i ∈ v.m, ∀ k < 32, bit (ft i) k =
        if (v.exec g).any (fun l => l / 4 == i) && (fmtField k).any (fun m => bit mask m) then bit (BitVec.ofNat 32 (v.uni 32 a)) k
        else bit (v.slice i).fmt k) ∧
  ∀ g r a (s : State) v, s.view? = some v → v.stale [a] = none →
    (r = 0x21 → v.exec g ≠ [] → v.uni 64 a / 2 ^ 57 = 0) →
    ∃ t, exec (.swr g r a) s = .next t ∧ s.onlyGang t v ∧ s.sameRegs t v ∧
      t.slices v fun i x =>
        if (v.exec g).any fun l => l / 4 == i then
          if r = 0x11 then { x.on 8 with fflags := BitVec.ofNat 6 (v.uni 64 a) }
          else if r = 0x21 then { x.on 8 with tpc := BitVec.ofNat 64 (v.uni 64 a) }
          else if r = 0x25 ∧ v.uni 64 a % 8 < 6 then { x.on 8 with tstat := (x.tstat &&& 0xFFFFFFF8#32) ||| BitVec.ofNat 32 (v.uni 64 a % 8) }
          else x.on 8
        else x.on 8

/-- A uniform word computes once and writes its S destination, unless no lane executes; the flags go to the slices that have an executing
lane. Which slice's FMT it reads, that of the lowest executing lane, and which slices take its flags is the model's choice (log 13). -/
def Obligations.UniformResult : Prop :=
  ∀ g d op (s : State) v r, s.view? = some v → v.stale (UniOp.srcs op) = none → v.uniOp s (v.exec g) op = .ok r →
    ∃ t, exec (.uniformWord g d op) s = .next t ∧ s.onlyGang t v ∧ s.sameV t v ∧ s.sameP t v ∧
      s.wroteY t v d.latch.toNat (v.exec g) (fun _ => r.2.1) ∧
      (if d.nwb ∨ v.exec g = [] then t.groupAt v = some v.r else t.wroteS v d.n.toNat r.1 r.2.1) ∧
      ∃ ff, v.raised (v.exec g) (fun _ => r.2.2) ff ∧
        t.slices v fun i x => { x.on 8 with fflags := ff i, yValid := x.yValid ||| BitVec.ofNat 4 (2 ^ d.latch.toNat) }

/-- A pair whose second half is one of IADD to FCVT: both halves read the registers as they were before the pair, the first writes
its S destination and the second its V destination, and the group goes on 16 bytes further. A pair whose second half is SEL, MOVI, LEA,
SHFL, REDUX or VOTE.ballot does the same with that half's value, under the pair's guard. It says nothing of the other second halves. That
SFN, SHFL and REDUX may be a second half is the model's choice (log 10), and so is the FMT that the first half reads (log 13). -/
def Obligations.PairResult : Prop :=
  (∀ g d op second g2 d2 op2 a b c (s : State) v r, aluForm second = some (g2, d2, op2, a, b, c) → s.view? = some v →
    v.stale (UniOp.srcs op) = none → v.stale [a, b, c] = none → v.uniOp s (v.exec g) op = .ok r →
    ∃ t, exec (.pairWord g d op second) s = .next t ∧ s.onlyGang t v ∧ s.sameP t v ∧
      (if d.nwb ∨ v.exec g = [] then t.groupAt v = some v.r else t.wroteS v d.n.toNat r.1 r.2.1) ∧
      s.wroteV t v d2.n.toNat d2.nwb op2.widths.1 (v.exec g) (fun l => (v.alu op2 (v.fmt l) a b c l).1) ∧
      ∀ i ∈ v.m, ∃ x, t.sliceAt v i = some x ∧ x.pc = (v.slice i).pc + 16 ∧ x.wait = (v.slice i).wait ∧ x.fmt = (v.slice i).fmt) ∧
  ∀ g d op second g2 d2 w srcs f ok (s : State) v r, second.secondHalf = true →
    valueForm (underGuard g second) = some (g2, d2, w, srcs, f, ok) → s.view? = some v → v.stale (UniOp.srcs op) = none →
    v.stale srcs = none → (∀ l ∈ v.exec g, ok s v l = true) → v.uniOp s (v.exec g) op = .ok r →
    ∃ t, exec (.pairWord g d op second) s = .next t ∧ s.onlyGang t v ∧ s.sameP t v ∧
      (if d.nwb ∨ v.exec g = [] then t.groupAt v = some v.r else t.wroteS v d.n.toNat r.1 r.2.1) ∧
      s.wroteV t v d2.n.toNat d2.nwb w (v.exec g) (f s v) ∧
      ∀ i ∈ v.m, ∃ x, t.sliceAt v i = some x ∧ x.pc = (v.slice i).pc + 16 ∧ x.wait = (v.slice i).wait ∧ x.fmt = (v.slice i).fmt

/-- CBLOAD replaces one codebook of the block by 32 bytes of memory, and BRECLD one record of the buffer table by 40 bytes, byte by
byte; no register of the gang changes, nor does any byte of memory outside the record. -/
def Obligations.TableLoads : Prop :=
  (∀ cb base off (s : State) v bs t0, s.view? = some v →
    s.loadRange (v.who s) v.b.uid (v.uniAddr base off 16) 32 32 = .ok (bs, t0) →
    ∃ t, exec (.cbload false cb base off) s = .next t ∧ s.sameRegs t v ∧ t.past v 8 ∧ s.sameBytes t ∧
      ∃ b, t.block? v.b.uid = some b ∧ ∀ k < 8, b.cb.getD k 0 = if k = cb.toNat then BitVec.ofNat 256 (leNat bs) else v.b.cb.getD k 0) ∧
  ∀ rec base off (s : State) v bs t0 ps, s.view? = some v → s.memOk →
    s.loadRange (v.who s) v.b.uid (v.uniAddr base off 8) 40 8 = .ok (bs, t0) → rec.toNat < v.b.kernel.brcount →
    t0.checkRange (v.who s) .store (BitVec.ofNat 64 (v.b.kernel.brtab + 40 * rec.toNat)) 40 8 = .ok ps →
    (∀ p ∈ ps, t0.earlierBusy v.b.uid p.1 p.2 = false) → ps.Pairwise (fun p q => p.1.overlaps p.2 q.1 q.2 = false) →
    ∃ t, exec (.brecld false rec base off) s = .next t ∧ s.sameRegs t v ∧ t.past v 8 ∧
      (ps.map fun p => t.readLoc p.1 p.2).flatten = bs ∧
      ∀ a, (∀ p ∈ ps, p.1.overlaps p.2 (.phys a) 1 = false) → Memory.get t.mem a = Memory.get s.mem a

/-- DECW decodes its elements and packs them, lane by lane and register by register, into the destination of the executing lanes,
and advances its bit address by the bits that it used. -/
def Obligations.DecwResult : Prop :=
  ∀ g d latch a e mode k (s : State) v xs used,
    let n := v.uni 32 e
    let w := decWidth mode
    let m := 32 / w
    let off := (v.r.sreg a.toNat).toNat
    let table := match mode with | .pc t => (v.r.sreg t.toNat).toNat | _ => 0
    let tab := match mode with | .pc _ => pcTable (v.b.sharedBytes table 128) | _ => []
    s.view? = some v → n ≠ 0 → n ≤ 32 * (k.toNat + 1) * m → table % 8 = 0 →
    (∀ t, mode = .pc t → table + 128 ≤ v.b.kernel.shared ∧ s.earlierBusy v.b.uid (.shared v.b.uid table) 128 = false) →
    v.b.decode mode tab off n = .ok (xs, used) →
    s.earlierBusy v.b.uid (.shared v.b.uid (off / 8)) ((off + decSpan mode off n + 7) / 8 - off / 8) = false →
    ∃ t, exec (.decw g d latch a e mode k) s = .next t ∧ s.onlyGang t v ∧ s.sameP t v ∧ t.wroteS v a.toNat 64 (off + used) ∧
      (∀ l ∈ v.exec g, ∀ j ≤ k.toNat, ∃ x, t.vAt v (d.toNat + j) l = some x ∧
        ∀ i < m, x.toNat / 2 ^ (w * i) % 2 ^ w = xs.getD ((j * 32 + l) * m + i) 0 % 2 ^ w) ∧
      (∀ r l, l < 32 → (l ∉ v.exec g ∨ r < d.toNat ∨ d.toNat + k.toNat < r) → t.vAt v r l = s.vAt v r l) ∧
      t.slices v fun _ x => { x.on 8 with yValid := x.yValid ||| BitVec.ofNat 4 (2 ^ latch.toNat) }

/-- Results of float operations that are exact. The special functions that programs may rely on: exp2 of the integers from -149 to 127,
reciprocals of powers of two, reciprocal square roots of powers of four, and log2 of powers of two. FADD, FMUL and FFMA of integers give
the integer of at most 24 bits that is the exact result, FMNMX the lesser or the greater, and FCVT between binary32 and 32-bit integers
the same integer, all without a flag, in every rounding mode; and FADD, FMUL and FFMA of a NaN give the canonical NaN, with NV where an
operand is a signalling one (spec/05 R116, R126, spec/14 R363, R366). -/
def Obligations.ExactSpecials : Prop :=
  (∀ (fmt : W32) (books : List W256) (x y z : Int), x.natAbs < 2 ^ 24 → y.natAbs < 2 ^ 24 → z.natAbs < 2 ^ 24 →
    (x + y ≠ 0 → (x + y).natAbs < 2 ^ 24 →
      aluEval (.fadd false false) fmt books (intPat x).toNat (intPat y).toNat 0 = ((intPat (x + y)).toNat, 0)) ∧
    (x * y ≠ 0 → (x * y).natAbs < 2 ^ 24 →
      aluEval (.fmul false false) fmt books (intPat x).toNat (intPat y).toNat 0 = ((intPat (x * y)).toNat, 0)) ∧
    (x * y + z ≠ 0 → (x * y + z).natAbs < 2 ^ 24 →
      aluEval (.ffma false false false) fmt books (intPat x).toNat (intPat y).toNat (intPat z).toNat = ((intPat (x * y + z)).toNat, 0)) ∧
    (∀ mx, aluEval (.fmnmx mx) fmt books (intPat x).toNat (intPat y).toNat 0 = ((intPat (if mx then max x y else min x y)).toNat, 0)) ∧
    (∀ sat, aluEval (.fcvt sat (.ty .f32) .i32) fmt books (BitVec.ofInt 32 x).toNat 0 0 = ((intPat x).toNat, 0)) ∧
    ∀ sat, aluEval (.fcvt sat (.ty .i32) .f32) fmt books (intPat x).toNat 0 0 = ((BitVec.ofInt 32 x).toNat, 0)) ∧
  (∀ (fmt : W32) (books : List W256) (na nb nc : Bool) (x y z : W32),
    let sig (w : W32) : Bool := (f32v w).isNan && !bit w 22
    let nan (c : Bool) (r : Nat × FlagSet) : Prop := r = (0x7FC00000, if c then fNV else 0)
    ((f32v x).isNan = true ∨ (f32v y).isNan = true →
      nan (sig x || sig y) (aluEval (.fadd na nb) fmt books x.toNat y.toNat 0) ∧
      nan (sig x || sig y) (aluEval (.fmul na nb) fmt books x.toNat y.toNat 0) ∧
      nan (sig x || sig y || sig z) (aluEval (.ffma na nb nc) fmt books x.toNat y.toNat z.toNat)) ∧
    (fmtFTZ fmt = false → (f32v z).isNan = true → (f32v x).isNan = false → (f32v y).isNan = false → ¬((f32v x).isZero = true ∧ (f32v y).isInf = true) →
      ¬((f32v x).isInf = true ∧ (f32v y).isZero = true) →
      nan (sig z) (aluEval (.ffma na nb nc) fmt books x.toNat y.toNat z.toNat))) ∧
  (∀ n : Int, -149 ≤ n → n ≤ 127 → (sfnEval .ex2 (intPat n)).1 = pow2Pat false n) ∧
  (∀ neg, ∀ n : Int, -126 ≤ n → n ≤ 126 → (sfnEval .rcp (pow2Pat neg n)).1 = pow2Pat neg (-n)) ∧
  (∀ n : Int, -63 ≤ n → n ≤ 63 → (sfnEval .rsq (pow2Pat false (2 * n))).1 = pow2Pat false (-n)) ∧
  ∀ n : Int, -149 ≤ n → n ≤ 127 → (sfnEval .lg2 (pow2Pat false n)).1 = intPat n

/-! ### Thread set: memory -/

/-- LD and LDNC complete for every group whose sources are fresh, whose lanes pass the checks of R186 and meet no poisoned part. They put
one access for each executing lane in flight, and the group waits for the data; with no executing lane they are done. No register
and no byte of memory changes as they issue. Where nothing of the block is in flight, a lane's data returns at once, and the group goes
on: the destination then holds the bytes of the core's resident part or, without one, those at the home at that instant. Of the values
that R217 allows a load, that is the model's choice (log 11) (spec/03 R71, spec/07 R186, spec/15 R394, R395). -/
def Obligations.LoadIssues : Prop :=
  (∀ i g d o sz m home (s : State) v ls, loadForm i = some (g, d, o, sz, m, home) → s.view? = some v → v.stale [m.base, m.index] = none →
    s.checkLanes v .load (Size.bytes' sz) ((v.exec g).map fun l => (l, v.addr m (Size.bytes' sz) l)) = .ok ls →
    let us := ls.map (s.loadUnit v home (Size.bytes' sz) fun l => .v l d)
    s.poisonHit ((v.exec g).map fun l => (l, v.addr m (Size.bytes' sz) l)) us = none →
    ∃ t, exec i s = .next t ∧ s.sameRegs t v ∧ s.sameBytes t ∧ t.shootdowns = s.shootdowns ∧ t.ctxs = s.ctxs ∧
      if ls = [] then s.onlyGang t v ∧ t.pastLong v else s.issuedOp t v o us ∧ t.issuedAndWaits v (.data s.uid)) ∧
  ∀ i g d o sz m home (s : State) v l k, loadForm i = some (g, d, o, sz, m, home) → s.view? = some v → v.stale [m.base, m.index] = none →
    v.exec g = [l] → s.check (s.whoLane v (some l)) .load (v.addr m (Size.bytes' sz) l) (Size.bytes' sz) (Size.bytes' sz) = .ok k →
    ((home = true ∨ s.l1Hit v.b.core k (Size.bytes' sz) = none) → s.poisoned k (Size.bytes' sz) = false) → s.quiet v.b.uid →
    ∃ t u, exec i s = .next t ∧ exec (.loadDataReturn s.uid 0) t = .next u ∧ u.through v ∧ s.sameBytes u ∧
      ∀ j < sz.regs, u.vAt v (d.toNat + j) l = some (BitVec.ofNat 32 (s.loadValue v.b.core home k (Size.bytes' sz) / 2 ^ (32 * j)))

/-- LDB and STB complete for every group whose sources are fresh and whose record and elements pass their checks. LDB puts the loads of
the elements in flight and waits, a dropped lane reading 0; STB puts their stores in flight, with the codes of the register's values,
sets the flags of the conversions and does not wait. Where nothing of the block is in flight, a lane's access is performed at once:
LDB's register then holds the converted element, whose code is that of the core's resident part or of the home at that instant, which
is the model's choice (log 11), and the element's bits at its home are those that STB wrote (spec/06 R169-R171, spec/15 R397,
spec/17 R479). -/
def Obligations.BufferAccesses : Prop :=
  (∀ g d rec e b sc (s : State) v r xs es t0, s.view? = some v → v.stale [e, b] = none →
    s.elemsScaled v g .load rec.toNat e b sc = .ok (r, xs, es, t0) →
    let us := es.map fun x => t0.loadUnit v false x.1.n
      (fun _ => .elem x.1.lane d r.menc r.rfmt x.1.nib (v.fmt x.1.lane) (v.bookOf r.menc) x.2) (x.1.lane, x.1.loc)
    t0.poisonHit (es.map fun x => (x.1.lane, x.1.va)) us = none →
    ∃ t, exec (.ldb g d rec e b sc) s = .next t ∧ s.sameBytes t ∧ s.sameP t v ∧ t.groupAt v = some v.r ∧
      s.wroteV t v d.toNat false 32 ((xs.filter fun x => x.2.isNone).map (·.1)) (fun _ => 0) ∧
      if es = [] then t.ops = s.ops ∧ t.pastLong v else s.issuedOp t v .rlx us ∧ t.issuedAndWaits v (.data s.uid)) ∧
  (∀ g d rec e b sc (s : State) v r xs x t0, s.view? = some v → v.stale [e, b] = none →
    s.elemsScaled v g .load rec.toNat e b sc = .ok (r, xs, [x], t0) →
    (t0.l1Hit v.b.core x.1.loc x.1.n = none → s.poisoned x.1.loc x.1.n = false) → s.quiet v.b.uid →
    let y := t0.loadValue v.b.core false x.1.loc x.1.n
    let code := if efWidth r.menc = 4 then (if x.1.nib then y / 16 else y % 16) else y
    ∃ t u, exec (.ldb g d rec e b sc) s = .next t ∧ exec (.loadDataReturn s.uid 0) t = .next u ∧ u.through v ∧ s.sameBytes u ∧
      u.vAt v d.toNat x.1.lane = some (BitVec.ofNat 32 (elemLoad r.menc r.rfmt (v.fmt x.1.lane) (v.bookOf r.menc) x.2 code).1)) ∧
  (∀ g d rec e b sc (s : State) v r xs es t0, s.view? = some v → v.stale [e, b] = none →
    s.elemsScaled v g .store rec.toNat e b sc = .ok (r, xs, es, t0) →
    ∃ t, exec (.stb g d rec e b sc) s = .next t ∧ s.sameBytes t ∧ s.sameRegs t v ∧
      (if es = [] then t.ops = s.ops else s.issuedOp t v .rlx (es.map fun x => (stbPart v d r x).1)) ∧
      ∃ ff : Nat → BitVec 6, (t.slices v fun i x => { x.on 8 with fflags := ff i }) ∧ ∀ i ∈ v.m, ∀ k < 6, bit (ff i) k =
        (bit (v.slice i).fflags k || es.any fun x => x.1.lane / 4 == i && bit (stbPart v d r x).2 k)) ∧
  ∀ g d rec e b sc (s : State) v r xs x t0 a dm mk, s.view? = some v → v.stale [e, b] = none →
    s.elemsScaled v g .store rec.toNat e b sc = .ok (r, xs, [x], t0) → x.1.loc = .phys a → x.1.n ≤ 16 → s.quiet v.b.uid → s.memOk →
    (stbPart v d r x).1.kind = .store dm mk →
    ∃ t u, exec (.stb g d rec e b sc) s = .next t ∧ exec (.storeAcknowledgement s.uid 0) t = .next u ∧
      u.readNat (.phys a) x.1.n = (mergeMask (BitVec.ofNat 128 (s.readNat (.phys a) x.1.n)) dm mk).toNat % 2 ^ (8 * x.1.n) ∧
      ∀ j, j < a ∨ a + x.1.n ≤ j → Memory.get u.mem j = Memory.get s.mem j

/-- ST completes for every group whose sources are fresh, whose lanes pass the checks of R186 and whose release waits are over. It puts
one store of its register's bytes for each executing lane in flight, and goes on; no byte of memory changes until a store arrives. Where
nothing of the block is in flight, a lane's store arrives at once: its bytes stand at the address, and every other byte of memory is as
before (spec/07 R186, spec/08 R225, spec/17 R476). -/
def Obligations.StoreIssues : Prop :=
  (∀ g d o sz m (s : State) v ls, s.view? = some v → v.stale [m.base, m.index] = none →
    s.checkLanes v .store (Size.bytes' sz) ((v.exec g).map fun l => (l, v.addr m (Size.bytes' sz) l)) = .ok ls → s.released v o →
    ∃ t, exec (.st g d o sz m) s = .next t ∧ t.past v 8 ∧ s.sameRegs t v ∧ s.sameBytes t ∧
      if ls = [] then s.onlyGang t v
      else s.issuedOp t v o (ls.map fun x => storeUnit (v.party x.1) x.2 (Size.bytes' sz) (v.g.vwide d.toNat x.1 sz.regs) (byteMask (Size.bytes' sz)))) ∧
  ∀ g d o sz m (s : State) v l a, s.view? = some v → v.stale [m.base, m.index] = none → v.exec g = [l] →
    s.check (s.whoLane v (some l)) .store (v.addr m (Size.bytes' sz) l) (Size.bytes' sz) (Size.bytes' sz) = .ok (.phys a) → s.released v o →
    s.quiet v.b.uid → s.memOk →
    ∃ t u, exec (.st g d o sz m) s = .next t ∧ exec (.storeAcknowledgement s.uid 0) t = .next u ∧ t.past v 8 ∧
      u.readNat (.phys a) (Size.bytes' sz) = v.g.vwide d.toNat l sz.regs % 2 ^ (8 * Size.bytes' sz) ∧
      ∀ k, k < a ∨ a + Size.bytes' sz ≤ k → Memory.get u.mem k = Memory.get s.mem k

/-- ATOM, CAS and RED complete for every group whose sources are fresh, whose lanes pass the checks of R186 and meet no poisoned part, and
whose release waits are over. They put one access for each location in flight, with the requests of its lanes in ascending lane
order; ATOM and CAS wait for the old values, RED goes on. Where nothing of the block is in flight, a lane's access is performed at
once: the location holds the operation's result, every other byte of memory is as before, and the destination of ATOM and CAS holds the
old value (spec/13 R323, R324, spec/16 R438). -/
def Obligations.AtomicIssues : Prop :=
  (∀ i g fn n o rd cmp a b (s : State) v ls, atomForm i = some (g, fn, n, o, rd, cmp, a, b) → s.view? = some v → v.stale [a, b] = none →
    s.checkLanes v .atomic n ((v.exec g).map fun l => (l, BitVec.ofNat 64 (v.src .int 64 l a))) = .ok ls →
    (∀ x ∈ ls, s.poisoned x.2 n = false) → s.released v o →
    let us := atomUnits v fn n rd (ls.map fun x =>
      (x.2, ⟨x.1, BitVec.ofNat 128 (v.src .int (8 * n) x.1 b), BitVec.ofNat 128 (cmp v x.1)⟩))
    ∃ t, exec i s = .next t ∧ s.sameRegs t v ∧ s.sameBytes t ∧
      if ls = [] then s.onlyGang t v ∧ (if rd.isSome then t.pastLong v else t.past v 8)
      else s.issuedOp t v o us ∧ if rd.isSome then t.issuedAndWaits v (.data s.uid) else t.past v 8) ∧
  ∀ i g fn n o rd cmp a b (s : State) v l pa, atomForm i = some (g, fn, n, o, rd, cmp, a, b) → s.view? = some v → v.stale [a, b] = none →
    v.exec g = [l] → s.check (s.whoLane v (some l)) .atomic (BitVec.ofNat 64 (v.src .int 64 l a)) n n = .ok (.phys pa) →
    s.poisoned (.phys pa) n = false → s.released v o → s.quiet v.b.uid → s.memOk →
    let old := s.readNat (.phys pa) n
    ∃ t u, exec i s = .next t ∧
      exec (if rd.isSome then .loadDataReturn s.uid 0 else .storeAcknowledgement s.uid 0) t = .next u ∧
      u.readNat (.phys pa) n =
        atomStep fn n old ⟨l, BitVec.ofNat 128 (v.src .int (8 * n) l b), BitVec.ofNat 128 (cmp v l)⟩ % 2 ^ (8 * n) ∧
      (∀ k, k < pa ∨ pa + n ≤ k → Memory.get u.mem k = Memory.get s.mem k) ∧
      ∀ d, rd = some d → u.through v ∧ ∀ k < ceilDiv n 4, u.vAt v (d.toNat + k) l = some (BitVec.ofNat 32 (old / 2 ^ (32 * k)))

/-- A FENCE whose release waits are over completes: with an acquire at .clus or wider no unsealed line of its core stays cached;
memory and registers are unchanged. -/
def Obligations.FenceCompletes : Prop :=
  ∀ o (s : State) v, s.view? = some v → s.released v o →
    ∃ t, exec (.fence false o) s = .next t ∧ t.past v 8 ∧ s.sameRegs t v ∧ t.mem = s.mem ∧
      (orderAcq o = true → t.acquired v.b.core) ∧ (orderAcq o = false → s.onlyGang t v)

/-- SEAL of a region that its context may seal takes the lowest free seal entry, valid once no store to the region is on its way; that
no cache then keeps a line of the region is the model's choice (log 21). UNSEAL of a region with no reader frees the entry and the sealed
lines of the region. Both report true, and no byte of memory changes. -/
def Obligations.SealUnseal : Prop :=
  (∀ g d a b (s : State) v i, s.view? = some v → v.b.ctx < s.ctxs.length → v.exec g ≠ [] →
    let c := s.ctx v.b.ctx
    let base := v.uni 64 a
    let len := v.uni 64 b
    (∀ e ∈ c.seals, ¬(e.by_ = v.issuer ∧ e.stage < 2)) → base < 2 ^ 57 → base % 16384 = 0 → len % 16384 = 0 → 16384 ≤ len →
    len ≤ 2 ^ 40 → base + len ≤ Config.sharedBase → s.sealChecks v base len = .ok () → s.released v (.rel .sys) →
    (List.range 64).find? (fun i => !c.seals.any fun e => e.idx == i) = some i →
    (∀ e ∈ c.seals, base + len ≤ e.base ∨ e.base + e.len ≤ base) → s.regionWriting v.b.ctx base len = false →
    ∃ t, exec (.sealRegion g d a b) s = .next t ∧ t.past v 8 ∧ s.wrotePred t v d (v.exec g) (fun _ => true) ∧ s.sameBytes t ∧
      (t.ctx v.b.ctx).seals = c.seals ++ [{ idx := i, base, len, stage := 2, copies := 0, by_ := v.issuer }] ∧
      ∀ x ∈ t.l1, s.inRegion v.b.ctx base len (256 * x.line) = false) ∧
  ∀ g d a (s : State) v e, s.view? = some v → v.b.ctx < s.ctxs.length → v.exec g ≠ [] →
    let c := s.ctx v.b.ctx
    let base := v.uni 64 a
    (∀ x ∈ c.seals, ¬(x.by_ = v.issuer ∧ x.stage = 3)) → base < 2 ^ 57 → base % 16384 = 0 →
    c.seals.find? (fun x => x.base == base && x.stage == 2) = some e → s.released v (.ar .sys) → e.busy = false →
    ∃ t, exec (.unseal g d a) s = .next t ∧ t.past v 8 ∧ s.wrotePred t v d (v.exec g) (fun _ => true) ∧ s.sameBytes t ∧
      (t.ctx v.b.ctx).seals = c.seals.filter (fun x => x.idx != e.idx) ∧ t.acquired v.b.core ∧
      ∀ x ∈ t.l1, x.isSealed = true → s.inRegion v.b.ctx e.base e.len (256 * x.line) = false

/-- MAPCOMMIT and MAPRELEASE take their lanes one by one: after each, the machine differs from what the lane's own commit, or release,
leaves in the issuing gang alone; at the last, the statuses of all lanes stand in the predicate. A commit of a page that is mapped already
changes nothing and reports true. One of a reserved page takes the topmost frame of the pool: TOP is one less, the frame reads 0, and the
page's entry is of TYPE 2 with the frame's address and its other bits kept. A release of a page that is not of TYPE 2 or is sealed, or for
which the pool has no room, frees no frame and reports false at once. Any other makes the entry TYPE 3 and waits for its shootdown, and
then pushes the frame: it is written above the topmost and TOP is one more (spec/15 R403). -/
def Obligations.PagePool : Prop :=
  (∀ i g p a (s : State) v, i = .mapcommit g p a ∨ i = .maprelease g p a → s.view? = some v → v.stale [a] = none →
    v.pageLanes g a = .ok [] → ∃ t, exec i s = .next t ∧ s.onlyGang t v ∧ s.sameRegs t v ∧ t.past v 8) ∧
  (∀ g p a (s : State) v xs done status sh x, s.view? = some v → v.stale [a] = none → v.pageLanes g a = .ok xs →
    v.progress = (done, status, sh) → xs.find? (fun y => !bit done y.1) = some x → s.released v (.rel .dev) →
    ∃ t, exec (.mapcommit g p a) s = .next t ∧
      (s.commitLane v.b.ctx x.2).2.laneEnded t v p.toNat xs done status x.1 (s.commitLane v.b.ctx x.2).1 ∧
      ∀ pte e, x.2 < Config.sharedBase → level0 s.mem s.poison x.2 walkLevels (s.ctx v.b.ctx).desc.root = some (pte, e) →
        (bits e 1 0 = 2 → s.commitLane v.b.ctx x.2 = (true, s)) ∧
        ∀ top cap f ps, let c := (s.ctx v.b.ctx).desc
          bits e 1 0 = 3 → s.memOk → s.framePool v.b.ctx = some (top, cap) → top ≠ 0 → top ≤ cap →
          s.devNat v.b.ctx (c.fpool + 8 * top) 8 = some f → f % 16384 = 0 → f + 16384 ≤ Config.nearEnd →
          s.devRange v.b.ctx true c.fpool 4 = some ps → ps.Nodup → (∀ p ∈ ps, (p < pte ∨ pte + 8 ≤ p) ∧ (p < f ∨ f + 16384 ≤ p)) →
          (pte + 8 ≤ f ∨ f + 16384 ≤ pte) →
          let t := (s.commitLane v.b.ctx x.2).2
          (s.commitLane v.b.ctx x.2).1 = true ∧ ps.map (Memory.get t.mem) = leBytes 4 (top - 1) ∧
            Memory.nat t.mem pte 8 = f + 8 * bits e 6 3 + 2 ∧ (∀ k < 16384, Memory.get t.mem (f + k) = 0) ∧
            ∀ k, k ∉ ps → (k < pte ∨ pte + 8 ≤ k) → (k < f ∨ f + 16384 ≤ k) → Memory.get t.mem k = Memory.get s.mem k) ∧
  (∀ g p a (s : State) v xs done status id pa x, s.view? = some v → v.stale [a] = none → v.pageLanes g a = .ok xs →
    v.progress = (done, status, some (id, pa)) → xs.find? (fun y => !bit done y.1) = some x →
    let u := ({ s with shootdowns := s.shootdowns.filter fun d => d.id != id } : State).pushFrame v.b.ctx pa
    ∃ t, exec (.maprelease g p a) s = .next t ∧
      (if u.1 then u.2 else u.2.unrelease v.b.ctx x.2).laneEnded t v p.toNat xs done status x.1 u.1) ∧
  (∀ g p a (s : State) v xs done status x, s.view? = some v → v.stale [a] = none → v.pageLanes g a = .ok xs →
    v.progress = (done, status, none) → xs.find? (fun y => !bit done y.1) = some x → s.released v (.rel .dev) →
    ∃ t, exec (.maprelease g p a) s = .next t ∧ match s.releaseLane v.b.ctx x.2 with
      | (none, u) => u.laneEnded t v p.toNat xs done status x.1 false
      | (some sh, u) => u.onlyGang t v ∧ s.sameV t v ∧ s.sameP t v ∧ ∀ i ∈ v.m, ∃ y, t.sliceAt v i = some y ∧
          y.pc = (v.slice i).pc ∧ y.wait = .retry (.shootdown sh.1) ∧ y.again = .lanes done status (some sh)) ∧
  (∀ (s : State) ctx va pte e top cap, va < Config.sharedBase →
    level0 s.mem s.poison va walkLevels (s.ctx ctx).desc.root = some (pte, e) → s.framePool ctx = some (top, cap) →
    (bits e 1 0 ≠ 2 ∨ (s.ctx ctx).sealedAt va = true ∨ cap ≤ top → s.releaseLane ctx va = (none, s)) ∧
    (bits e 1 0 = 2 → (s.ctx ctx).sealedAt va = false → top < cap → (s.pushFrame ctx (bits e 47 14 * 16384)).1 = true → s.memOk →
      let r := s.releaseLane ctx va
      r.1 = some (s.uid, bits e 47 14 * 16384) ∧ Memory.nat r.2.mem pte 8 = e.toNat + 1 ∧
        (∀ k, k < pte ∨ pte + 8 ≤ k → Memory.get r.2.mem k = Memory.get s.mem k) ∧
        ∃ d ∈ r.2.shootdowns, d.id = s.uid ∧ d.ctx = ctx ∧ d.va = va ∧ d.pages = 1 ∧ d.done = false)) ∧
  ∀ (s : State) ctx pa top cap ps qs, let c := (s.ctx ctx).desc
    s.memOk → s.framePool ctx = some (top, cap) → s.devRange ctx true c.fpool 4 = some ps →
    s.devRange ctx true (c.fpool + 8 + 8 * top) 8 = some qs → (ps ++ qs).Nodup →
    (∀ t, s.devWrite ctx (c.fpool + 8 + 8 * top) (leBytes 8 pa) = some t → t.devRange ctx true c.fpool 4 = some ps) →
    let t := (s.pushFrame ctx pa).2
    (s.pushFrame ctx pa).1 = true ∧ ps.map (Memory.get t.mem) = leBytes 4 (top + 1) ∧ qs.map (Memory.get t.mem) = leBytes 8 pa ∧
      ∀ k, k ∉ ps → k ∉ qs → Memory.get t.mem k = Memory.get s.mem k

/-- POOLGET gives each executing lane the address of a block of the pool, or 0 with a false predicate, and invalidates as an acquire
does; POOLPUT gives the blocks back. Memory is what the lanes' own updates of the control block, the stack and the state bytes leave: a
lane's get takes the index at the top of the stack, its address is BASE + index × SIZE, TOP is one less and the index's STATE byte is 1;
of an empty pool it changes nothing; a lane's put sets the STATE byte to 0, its index is on the stack and TOP is one more
(spec/07 R195). -/
def Obligations.Allocator : Prop :=
  (∀ g d p base off (s : State) v l xs t0, s.view? = some v → v.exec g ≠ [] → s.pcbLoc v (v.uniAddr base off 8) = .ok l →
    s.poolgets v l (v.exec g) = .ok (xs, t0) →
    ∃ t, exec (.poolget g d p base off) s = .next t ∧ t.mem = t0.mem ∧ t.acquired v.b.core ∧ (∀ k m, t.readLoc k m = t0.readLoc k m) ∧
      s.wroteV t v d.toNat false 64 (v.exec g) (fun l => ((xs.find? fun x => x.1 == l).bind (·.2)).getD 0) ∧
      s.wroteP t v p.toNat (v.exec g) (fun l => ((xs.find? fun x => x.1 == l).bind (·.2)).isSome) ∧ t.pastLong v) ∧
  (∀ g d base off (s : State) v l t0, s.view? = some v → v.exec g ≠ [] → s.pcbLoc v (v.uniAddr base off 8) = .ok l →
    s.released v (.rel .dev) →
    (v.exec g).foldlM (fun t lane => t.poolput1 v l lane (v.g.vwide d.toNat lane 2)) s = .ok t0 →
    ∃ t, exec (.poolput g d base off) s = .next t ∧ t.mem = t0.mem ∧ (∀ k m, t.readLoc k m = t0.readLoc k m) ∧ s.sameRegs t v ∧ t.past v 8) ∧
  (∀ (s : State) v l lane p, Pcb.ofBytes (s.readLoc l 64) = some p → p.top = 0 → s.poolget1 v (runOf l 64) lane = .ok (none, s)) ∧
  (∀ (s : State) v l lane p k f, let idx := leNat (s.readPieces k)
    s.memOk → s.hasLoc l → Pcb.ofBytes (s.readLoc l 64) = some p → p.top ≠ 0 → s.poolLoc v (p.stack + 4 * (p.top - 1)) 4 = .ok k →
    idx < p.count → s.poolLoc v (p.state + idx) 1 = .ok [(f, 1)] → s.hasLoc f → s.readNat f 1 = 0 → l.overlaps 64 f 1 = false →
    ∃ t, s.poolget1 v (runOf l 64) lane = .ok (some (p.base + idx * p.size), t) ∧
      Pcb.ofBytes (t.readLoc l 64) = some { p with top := p.top - 1 } ∧ t.readNat f 1 = 1 ∧
      ∀ j m, l.overlaps 64 j m = false → f.overlaps 1 j m = false → t.readLoc j m = s.readLoc j m) ∧
  ∀ (s : State) v l lane p idx k f, s.memOk → s.hasLoc l → Pcb.ofBytes (s.readLoc l 64) = some p → idx < p.count → p.top < p.count →
    s.poolLoc v (p.state + idx) 1 = .ok [(f, 1)] → s.hasLoc f → s.readNat f 1 = 1 →
    s.poolLoc v (p.stack + 4 * p.top) 4 = .ok k → (k.map (·.2)).sum = 4 → k.Pairwise (fun q r => q.1.overlaps q.2 r.1 r.2 = false) →
    l.overlaps 64 f 1 = false →
    (∀ q ∈ k, s.hasLoc q.1 ∧ l.overlaps 64 q.1 q.2 = false ∧ f.overlaps 1 q.1 q.2 = false) →
    ∃ t, s.poolput1 v (runOf l 64) lane (p.base + idx * p.size) = .ok t ∧ Pcb.ofBytes (t.readLoc l 64) = some { p with top := p.top + 1 } ∧
      t.readNat f 1 = 0 ∧ leNat (t.readPieces k) = idx ∧
      ∀ j m, l.overlaps 64 j m = false → f.overlaps 1 j m = false → (∀ q ∈ k, q.1.overlaps q.2 j m = false) → t.readLoc j m = s.readLoc j m

/-! ### Thread set: copies, waits and rings -/

/-- CPY puts one copy for each executing lane into the gang's queue, in its open batch, and goes on; CPBATCH closes the batch and
gives its number. Neither changes a byte of memory. -/
def Obligations.CopyQueue : Prop :=
  (∀ g kind a b c (s : State) v ws, s.view? = some v → v.stale [a, b, c] = none →
    ((v.exec g).map fun l => CpyReq.mk l (BitVec.ofNat 64 (v.src .int 64 l a)) (BitVec.ofNat 64 (v.src .int 64 l b))
      (BitVec.ofNat 64 (v.src .int (if kind == .toLocal then 32 else 64) l c))).mapM (s.cpyLane v kind) = .ok ws →
    (s.copies v.b.uid v.g.name).length + ws.length ≤ 32 →
    ∃ t os, exec (.cpy g kind a b c) s = .next t ∧ t.aops = s.aops ++ os ∧ (os.map fun o => (o.work, o.seals)) = ws ∧
      (∀ o ∈ os, o.owner = gangIssuer v.b.uid v.g.name ∧ o.batch = some (v.g.batch + 1) ∧ o.started = false ∧ o.writes = []) ∧
      s.sameRegs t v ∧ t.past v 8 ∧ s.sameBytes t) ∧
  ∀ d (s : State) v, s.view? = some v →
    ∃ t, exec (.cpbatch false d) s = .next t ∧ s.onlyBlocks t ∧ (t.gangAt v).map (·.batch) = some (v.g.batch + 1) ∧
      (d.nwb = false → v.lanes ≠ [] → t.wroteS v d.n.toNat 64 (v.g.batch + 1)) ∧ s.sameV t v ∧ s.sameP t v ∧
      t.slices v fun _ x => { x.on 8 with yValid := x.yValid ||| BitVec.ofNat 4 (2 ^ d.latch.toNat) }

/-- CPWAIT, TLWAIT, PBWAIT and MONWAIT go on at once when what they wait for holds: every copy of the batches named complete and none
with an error to report, the timeline reached, the phase other than the one named, every lane's comparison true. TLWAIT, and MONWAIT
with an acquire at .clus or wider, invalidate their core's cache. -/
def Obligations.WaitsEnd : Prop :=
  (∀ a imm (s : State) v, s.view? = some v →
    let n := match (v.slice v.low).again with
      | .waited k => k
      | _ => min v.g.batch (BitVec.ofNat 64 (v.uni 64 a) + imm.signExtend 64).toNat
    s.batchDone v.b.uid v.g.name n = true → v.g.cpyErr.report (fun b => decide (b ≤ n)) = none →
    ∃ t, exec (.cpwait false a imm) s = .next t ∧ s.onlyGang t v ∧ s.sameRegs t v ∧ t.pastLong v) ∧
  (∀ a b (s : State) v, s.view? = some v → v.uni 64 a < 4096 → s.holdsTimeline v.b.ctx (v.uni 64 a) = true →
    ((s.timeline (v.uni 64 a)).count - BitVec.ofNat 64 (v.uni 64 b)).toNat < 2 ^ 63 →
    ∃ t, exec (.tlwait false a b) s = .next t ∧ t.acquired v.b.core ∧ t.mem = s.mem ∧ t.timelines = s.timelines ∧ s.sameRegs t v ∧ t.pastLong v) ∧
  (∀ base p off (s : State) v o, s.view? = some v → State.pbarOff v (v.uniAddr base off 8) = .ok o →
    s.earlierBusy v.b.uid (.shared v.b.uid o) 8 = false →
    bits (BitVec.ofNat 64 (s.readNat (.shared v.b.uid o) 8)) 32 32 ≠ v.uni 32 p % 2 →
    ∃ t, exec (.pbwait false base p off) s = .next t ∧ s.onlyGang t v ∧ s.sameRegs t v ∧ t.pastLong v) ∧
  ∀ g d cmp o w64 a b (s : State) v xs, s.view? = some v → v.stale [a, b] = none → s.monLoads v g cmp (wSel w64) a b = .ok xs →
    (∀ x ∈ xs, x.2.2.2 = true) →
    ∃ t, exec (.monwait g d cmp o w64 a b) s = .next t ∧ t.pastLong v ∧ s.sameBytes t ∧ s.sameP t v ∧ t.groupAt v = some v.r ∧
      s.wroteV t v d.toNat false (wSel w64) (xs.map (·.1)) (fun l => ((xs.find? fun x => x.1 == l).map (·.2.2.1)).getD 0) ∧
      (orderAcq o = true → xs ≠ [] → t.acquired v.b.core)

/-- PBARRIVE takes its count from the arrivals pending: fewer than pending, the phase stays; the last of them reloads the pending count
and flips the phase. Nothing outside the barrier's 8 bytes of shared memory changes. -/
def Obligations.PhaseBarrier : Prop :=
  ∀ base c off (s : State) v o, s.view? = some v → State.pbarOff v (v.uniAddr base off 8) = .ok o →
    s.earlierBusy v.b.uid (.shared v.b.uid o) 8 = false → v.uni 32 c % 2 ^ 16 ≠ 0 → (∀ b ∈ s.retired, b.uid ≠ v.b.uid) →
    ∃ t, exec (.pbarrive false base c off) s = .next t ∧ s.onlyBlocks t ∧ s.sameRegs t v ∧
      (∀ i ∈ v.m, ∃ x, t.sliceAt v i = some x ∧ x.pc = (v.slice i).pc + 8) ∧
      let old : W64 := BitVec.ofNat 64 (s.readNat (.shared v.b.uid o) 8)
      let new : W64 := BitVec.ofNat 64 (t.readNat (.shared v.b.uid o) 8)
      let due := max 1 (bits old 15 0)
      let pending := if bits old 31 16 = 0 then due else bits old 31 16
      let n := v.uni 32 c % 2 ^ 16
      bits new 15 0 = bits old 15 0 ∧
      (if n < pending then bits new 31 16 = pending - n ∧ bits new 32 32 = bits old 32 32
       else bits new 31 16 = due ∧ bits new 32 32 = 1 - bits old 32 32) ∧
      ∀ k, k < o ∨ o + 8 ≤ k → t.readNat (.shared v.b.uid k) 1 = s.readNat (.shared v.b.uid k) 1

/-- RACQ of a ring that is not full takes number TAIL, and RPEEK of one with a committed slot takes number HEAD: the S register receives
the address of its slot, BASE + (number mod SCOUNT) × SSIZE, and the counter is one further. RCOMMIT and RREL of a slot that stands between
their counters and is not marked move the counter over it when it is the oldest, and over the marked slots that follow, and mark it
otherwise, where the home of the control block has a free monitor. No other byte changes (spec/16 R432-R434). -/
def Obligations.Rings : Prop :=
  (∀ i acq d sc base off (s : State) v l r n, ringTakeForm i = some (acq, d, sc, base, off) → s.view? = some v → s.memOk →
    s.rcbLoc (v.ringParty s) (v.uniAddr base off 8) = .ok (runOf l 32) → s.hasLoc l → Rcb.ofBytes (s.readLoc l 32) = some r →
    r.next acq = some n →
    ∃ t, exec i s = .next t ∧ s.ringTaken t l r acq n ∧ t.wroteS v d.toNat 64 (r.base + n % r.scount * r.ssize) ∧ s.sameV t v ∧
      s.sameP t v ∧ t.pastLong v ∧ (scopeWide sc = true → t.acquired v.b.core)) ∧
  ∀ i commit sc base k off (s : State) v l r n, ringMarkForm i = some (commit, sc, base, k, off) → s.view? = some v → s.memOk →
    s.rcbLoc (v.ringParty s) (v.uniAddr base off 8) = .ok (runOf l 32) → s.hasLoc l → s.released v (.rel sc) →
    Rcb.ofBytes (s.readLoc l 32) = some r → s.canMark l r commit (v.r.sreg k.toNat).toNat n →
    ∃ t, exec i s = .next t ∧ s.ringMarks t l r commit n ∧ s.sameRegs t v ∧ t.past v 8

/-! ### Thread set: control -/

/-- BRA and BRX: in each slice the path that runs next is, for BRA, the lanes that do not branch where some do and some do not, and,
for BRX, the lanes that go where the lowest active lane goes. A slice that diverges pushes the rejoin entry, with the lowest free tag,
which %dtag becomes, and a path entry for each further path, in ascending order of its lowest lane (spec/02 R33); a slice that does not
keeps its stack. Stacks short enough to stay on the core. Nothing else of a slice changes, each slice keeps the S and Q registers that
its group held (spec/02 R40), and no memory, V register, predicate or latch and no other slice changes. -/
def Obligations.Branches : Prop :=
  (∀ g offset (s : State) v tgt, s.view? = some v → inSpace (branchTo v.pc offset.toInt) = some tgt →
    (∀ i ∈ v.m, (v.slice i).active ≠ 0 ∧ (v.slice i).stack.length ≤ 14) →
    ∃ t, exec (.bra g offset) s = .next t ∧ s.onlyGang t v ∧ s.sameV t v ∧ s.sameP t v ∧ s.sameY t v ∧ t.groupAt v = some v.r ∧
      (∀ i, i ∉ v.m → t.sliceAt v i = v.g.slices[i]?) ∧ ∀ i ∈ v.m, ∃ x r, t.sliceAt v i = some x ∧ (v.slice i).branched x ∧
      t.sliceGroup v i = some r ∧ r.s = v.r.s ∧ r.q = v.r.q ∧
      let old := (v.slice i).active
      let taken (k : Nat) : Bool := bit old k && v.bguard g (4 * i + k)
      if tgt = v.pc + 8 ∨ (List.range 4).all (fun k => !bit old k || taken k) = true then
        x.pc = tgt ∧ x.active = old ∧ x.stack = (v.slice i).stack ∧ x.dtag = (v.slice i).dtag
      else x.pc = v.pc + 8 ∧ (∀ k < 4, bit x.active k = (bit old k && !taken k)) ∧
        if (List.range 4).any taken = false then x.stack = (v.slice i).stack ∧ x.dtag = (v.slice i).dtag
        else (v.slice i).diverged x [(laneMask taken, tgt)]) ∧
  ∀ g a b len (s : State) v es t0 tgt, s.view? = some v → v.stale [a, b] = none →
    (∀ l ∈ v.bexec g, v.src .int 32 l b < len.toNat) →
    s.brxEntries v a ((v.bexec g).map fun l => (l, v.src .int 32 l b)) = .ok (es, t0) →
    (∀ l ∈ v.bexec g, ∃ e, es.find? (fun e => e.1 == l) = some e ∧ inSpace (branchTo v.pc e.2) = some (tgt l)) →
    (∀ i ∈ v.m, (v.slice i).active ≠ 0 ∧ (v.slice i).stack.length ≤ 12) →
    ∃ t, exec (.brx g a b len) s = .next t ∧ t0.onlyGang t v ∧ t.mem = s.mem ∧ s.sameV t v ∧ s.sameP t v ∧ s.sameY t v ∧
      t.groupAt v = some v.r ∧ (∀ i, i ∉ v.m → t.sliceAt v i = v.g.slices[i]?) ∧
      ∀ i ∈ v.m, ∃ x r, t.sliceAt v i = some x ∧ (v.slice i).branched x ∧ t.sliceGroup v i = some r ∧ r.s = v.r.s ∧ r.q = v.r.q ∧
      let old := (v.slice i).active
      let go (k : Nat) : VAddr := v.goesTo (v.bexec g) tgt (4 * i + k)
      let others := ((((List.range 4).filter fun k => bit old k).map go).filter fun p => p != go (lowLane old)).eraseDups
      x.pc = go (lowLane old) ∧ (∀ k < 4, bit x.active k = (bit old k && go k == go (lowLane old))) ∧
        if others = [] then x.stack = (v.slice i).stack ∧ x.dtag = (v.slice i).dtag
        else (v.slice i).diverged x (others.map fun p => (laneMask fun k => bit old k && go k == p, p))

/-- CALL pushes a call entry with the address of the next instruction; RET takes the topmost call entry that covers the active lanes,
if no path divides it from them; JOIN outside a divergence goes on. With paths left it runs the lowest, whose entry leaves the stack, and
the rejoin entry records the JOIN's address at its first arrival. At the last it restores the lanes of the rejoin entry that have not
exited, and that entry leaves the stack (spec/02 R34). -/
def Obligations.CallRetJoin : Prop :=
  (∀ g offset (s : State) v tgt, s.view? = some v → v.bexec g ≠ [] → inSpace (branchTo v.pc offset.toInt) = some tgt →
    (∀ i ∈ v.m, (v.slice i).stack.length < 16) →
    ∃ t, exec (.call g offset) s = .next t ∧ s.onlyGang t v ∧ s.sameV t v ∧ s.sameP t v ∧ ∀ i ∈ v.m, ∃ x e, t.sliceAt v i = some x ∧
      x.pc = tgt ∧ x.active = (v.slice i).active ∧ x.stack = (v.slice i).stack ++ [e] ∧ e.kind = .call ∧ e.pc = v.pc + 8 ∧
      e.mask = (v.slice i).active ∧ e.tag = (v.slice i).dtag) ∧
  (∀ g (s : State) v, ∀ pre post : Nat → List Entry, ∀ e : Nat → Entry, s.view? = some v → v.bexec g ≠ [] →
    (∀ i ∈ v.m, (v.slice i).stack = pre i ++ e i :: post i ∧ (v.slice i).stack.length ≤ 16 ∧ (e i).kind = .call ∧
      (v.slice i).active &&& ~~~(e i).mask = 0 ∧ (e i).tag = (v.slice i).dtag ∧
      ∀ f ∈ post i, ¬(f.kind = .call ∧ (v.slice i).active &&& ~~~f.mask = 0)) →
    ∃ t, exec (.ret g) s = .next t ∧ s.onlyGang t v ∧ s.sameV t v ∧ s.sameP t v ∧ ∀ i ∈ v.m, ∃ x, t.sliceAt v i = some x ∧
      x.pc = (e i).pc ∧ x.stack = pre i ++ post i ∧ x.active = (v.slice i).active) ∧
  ∀ (s : State) v, s.view? = some v → (∀ i ∈ v.m, (v.slice i).stack.length ≤ 16) →
    ∃ t, exec (.join false) s = .next t ∧ s.onlyGang t v ∧ s.sameV t v ∧ s.sameP t v ∧ ∀ i ∈ v.m, ∃ x, t.sliceAt v i = some x ∧
      ((v.slice i).dtag = 63 ∨ rejoinOf (v.slice i).stack (v.slice i).dtag = none →
        x.pc = (v.slice i).pc + 8 ∧ x.active = (v.slice i).active ∧ x.stack = (v.slice i).stack) ∧
      ∀ e, (v.slice i).dtag ≠ 63 → rejoinOf (v.slice i).stack (v.slice i).dtag = some e →
        ∃ pre post, (v.slice i).stack = pre ++ e :: post ∧ (∀ f ∈ pre, ¬(f.kind = .rejoin ∧ f.tag = (v.slice i).dtag)) ∧
          match lowestDesc (v.slice i).stack (v.slice i).dtag with
          | none => x.pc = (v.slice i).pc + 8 ∧ x.active = e.mask &&& ~~~(v.slice i).gone ∧ x.dtag = e.outer ∧ x.fmt = e.fmt ∧
              x.stack = pre ++ post
          | some j => ∃ p, (v.slice i).stack[j]? = some p ∧ x.pc = p.pc ∧ x.active = p.mask ∧ x.dtag = p.tag ∧ x.fmt = p.fmt ∧
              x.stack = (pre ++ (if e.arr then e else { e with pc := (v.slice i).pc, arr := true }) :: post).eraseIdx j

/-- BAR and CBAR of the last participants: every slice of the group goes on past the barrier. CBAR invalidates the core's cache. -/
def Obligations.BarrierCompletes : Prop :=
  (∀ n (s : State) v b, s.view? = some v → v.g.spawned = false → s.plainBlock v →
    (s.arrive v (.bar n.toNat false)).block? v.b.uid = some b →
    (b.allWait fun w => w == .bar n.toNat false || w == .bar n.toNat true) = true →
    ∃ t, exec (.bar false n) s = .next t ∧ s.sameV t v ∧ s.sameP t v ∧ s.sameBytes t ∧
      ∀ i ∈ v.m, ∃ x, t.sliceAt v i = some x ∧ x.pc = (v.slice i).pc + 8 ∧ x.wait = .none) ∧
  ∀ (s : State) v, s.view? = some v → v.g.spawned = false → s.plainBlock v → (∃ i ∈ v.m, (v.slice i).again ≠ .woken) →
    (∀ b ∈ (s.arrive v (.cbar false)).blocks, b.cluster = v.b.cluster →
      (b.allWait fun w => w == .cbar false || w == .cbar true) = true ∧ s.storesDone b.uid b.core = true) →
    ∃ t, exec (.cbar false) s = .next t ∧ s.sameV t v ∧ s.sameP t v ∧ s.sameBytes t ∧ t.acquired v.b.core ∧
      ∀ i ∈ v.m, ∃ x, t.sliceAt v i = some x ∧ x.pc = (v.slice i).pc + 8 ∧ x.wait = .none

/-- REGANG of the last of the slices that its mask names: they go on past it, each with its own FMT, mask stack, %dtag, active mask and
flags, and all slices of an effective mask are in one group then, which holds the S and Q registers of the group that held the lowest of
them. No V register, predicate, latch or byte of memory changes (spec/02 R41, R42, spec/16 R441). -/
def Obligations.RegangCompletes : Prop :=
  ∀ g mask (s : State) v, s.view? = some v → v.bexec g ≠ [] → s.plainBlock v → (∀ i ∈ v.m, regangMet mask v s i = true) →
    (let u := (s.regangArrive v mask).settle v.b.uid; u.regangDeadlock v.b.uid v.g.name = u) →
    ∃ t, exec (.regang g mask) s = .next t ∧ s.sameV t v ∧ s.sameP t v ∧ s.sameY t v ∧ s.sameBytes t ∧ ∀ i ∈ v.m,
      (∃ x, t.sliceAt v i = some x ∧ x.wait = .none ∧
        { x with group := (v.slice i).group, wait := (v.slice i).wait } = (v.slice i).on 8) ∧
      ∀ low rest r0, maskSlices (v.g.regangMask mask i) = low :: rest → s.sliceGroup v low = some r0 →
        ∃ r, r.s = r0.s ∧ r.q = r0.q ∧ ∀ j ∈ low :: rest, t.sliceGroup v j = some r ∧
          (t.sliceAt v j).map (·.pc) = (s.sliceAt v j).map (fun y => y.pc + 8) ∧ (t.sliceAt v j).map (·.wait) = some .none

/-- EXIT: a lane that exits is no longer part of its slice, and a lane that does not stays in it; where lanes of its path stay, the path
goes on past the EXIT. A block whose only gang exits whole, with no load or atomic of it to return, retires; its shared memory stays
behind, in `retired`, for the copies that go on: where it stays is the model's choice (log 14). -/
def Obligations.ExitLanes : Prop :=
  (∀ g (s : State) v, s.view? = some v → v.bexec g ≠ [] → (∀ i ∈ v.m, (v.slice i).stack.length ≤ 16) →
    ∃ t, exec (.exit g) s = .next t ∧ (∀ l ∈ v.bexec g, ∀ x, t.sliceAt v (l / 4) = some x → bit x.gone (l % 4) = true) ∧
      (s.plainBlock v → ∀ i ∈ v.m, ∀ k < 4, bit (v.slice i).active k = true → bit (v.slice i).gone k = false →
        (4 * i + k) ∉ v.bexec g → (v.slice i).wait = .none →
        ∃ x, t.sliceAt v i = some x ∧ x.pc = (v.slice i).pc + 8 ∧ bit x.gone k = false ∧
          ∀ j < 4, bit x.active j = (bit (v.slice i).active j && !(v.bexec g).contains (4 * i + j)))) ∧
  ∀ g (s : State) v, s.view? = some v → v.b.gangs = [v.g] → s.plainBlock v → s.gangBusy v.b.uid v.g.name = false →
    v.m = v.g.live → (∀ i ∈ v.m, ∀ k < 4, bit (v.slice i).gone k = true ∨ (4 * i + k) ∈ v.bexec g) →
    ∃ t b, exec (.exit g) s = .next t ∧ t.block? v.b.uid = none ∧ b ∈ t.retired ∧ b.uid = v.b.uid ∧ b.shared = v.b.shared

/-- GATE: the group waits at it with its index; at the last arrival with a valid descriptor a frame is created that starts at the
descriptor's tile function with the scalars S0-S7 of the reference gang, when the core's queue has a place for it, and the group is
blocked by it. -/
def Obligations.GateArrives : Prop :=
  ∀ idx (s : State) v, s.view? = some v → v.g.spawned = false → s.plainBlock v →
    (∀ i ∈ v.m, (v.slice i).trapMode = none ∧ (v.slice i).stack.length ≤ 16 ∧ ∀ e ∈ (v.slice i).stack, e.kind ≠ .rejoin) →
    let u := (s.arrive v (.gate idx.toNat)).settle v.b.uid
    (∀ b, u.block? v.b.uid = some b → b.gateComplete = false →
      ∃ t, exec (.gate false idx) s = .next t ∧ s.sameV t v ∧ s.sameP t v ∧
        ∀ i ∈ v.m, ∃ x, t.sliceAt v i = some x ∧ x.wait = .gate idx.toNat ∧ x.pc = (v.slice i).pc) ∧
    ∀ b r w w1024 maps u1 d, u.block? v.b.uid = some b → b.gateComplete = true → b.refGang = some r → b.gateView r = some w →
      (∀ g ∈ b.gateGangs, ∀ i ∈ g.live, ∀ x, g.slices[i]? = some x → x.wait = .gate idx.toNat) → idx.toNat < b.kernel.gaten →
      u.gateReads w (b.kernel.gtab + 128 * idx.toNat) = .ok (w1024, maps, u1) → b.gateDesc w1024 maps = some d →
      (b.gateSince.isSome = true → u.gateFull b = false) → u1.gateFull b = false →
      ∃ t f, exec (.gate false idx) s = .next t ∧ f ∈ t.frames ∧ f.uid = u1.uid ∧ f.blk = b.uid ∧ f.pc = BitVec.ofNat 57 d.tfunc ∧
        f.refGang = r.name ∧ (∀ k < 8, f.regs.k.getD k 0 = w.r.sreg k) ∧ s.sameV t v ∧ s.sameP t v ∧
        ∀ i ∈ v.m, ∃ x, t.sliceAt v i = some x ∧ x.wait = .frame u1.uid

/-- SPAWN creates a gang of 8 slices at its target, with 8 S registers of the issuing group, in its own quadrant where that has a free
gang context, else in the lowest that has one; it reports false and creates nothing where no quadrant has one, the block has 32 gangs or
its free part is short of registers (spec/02 R47). That the gang takes the lowest free context of its quadrant is the model's choice
(log 25). REGGIVE returns the topmost registers to the block, and REGCLAIM takes registers that the block has free. -/
def Obligations.GangResources : Prop :=
  (∀ g qd b offset (s : State) v tgt q c no, s.view? = some v → v.bexec g ≠ [] → inSpace (branchTo v.pc offset.toInt) = some tgt →
    (s.freeContext v.b.core v.g.quad = some c ∧ q = v.g.quad ∨
      s.freeContext v.b.core v.g.quad = none ∧ s.freeContext v.b.core q = some c ∧ q < 4 ∧ ∀ k < q, s.freeContext v.b.core k = none) →
    (List.range 32).find? (fun n => !v.b.gangs.any fun g => g.no == n && !g.ended) = some no →
    v.g.holding ≤ v.b.freePart → v.g.name ≠ s.uid →
    ∃ t b' h, exec (.spawn g qd b offset) s = .next t ∧ t.wroteQ v qd.toNat true ∧ t.past v 8 ∧ s.sameV t v ∧ s.sameP t v ∧
      s.sameBytes t ∧ t.block? v.b.uid = some b' ∧ b'.freePart = v.b.freePart - v.g.holding ∧ h ∈ b'.gangs ∧ h.name = s.uid ∧
      h.spawned = true ∧ h.no = no ∧ h.quad = q ∧ h.slot = c ∧ h.holding = v.g.holding ∧ h.slices.length = 8 ∧
      (∀ x ∈ h.slices, x.pc = tgt ∧ x.active = 15 ∧ x.wait = .none) ∧ ∀ r ∈ h.groups, ∀ k < 8, r.sreg k = v.r.sreg (b.toNat + k)) ∧
  (∀ g qd b offset (s : State) v tgt, s.view? = some v → v.bexec g ≠ [] → inSpace (branchTo v.pc offset.toInt) = some tgt → v.g.quad < 4 →
    (∀ q < 4, s.freeContext v.b.core q = none) ∨ (∀ n < 32, ∃ h ∈ v.b.gangs, h.no = n ∧ h.ended = false) ∨ v.b.freePart < v.g.holding →
    ∃ t, exec (.spawn g qd b offset) s = .next t ∧ s.onlyGang t v ∧ t.wroteQ v qd.toNat false ∧ t.past v 8 ∧ s.sameV t v ∧ s.sameP t v) ∧
  (∀ n (s : State) v, s.view? = some v → s.plainBlock v → (∀ i ∈ v.m, (v.slice i).wait = .none) →
    n.toNat + 4 ≤ v.g.holding →
    ∃ t, exec (.reggive false n) s = .next t ∧ (t.gangAt v).map (·.holding) = some (v.g.holding - n.toNat) ∧
      (∃ b, t.block? v.b.uid = some b ∧ v.b.freePart + n.toNat ≤ b.freePart) ∧ s.sameP t v ∧ s.sameBytes t ∧
      (∀ r l, r < v.g.holding - n.toNat → l < 32 → t.vAt v r l = s.vAt v r l) ∧
      ∀ i ∈ v.m, ∃ x, t.sliceAt v i = some x ∧ x.pc = (v.slice i).pc + 8) ∧
  ∀ n (s : State) v, s.view? = some v → s.plainBlock v → v.g.holding + n.toNat ≤ 256 → n.toNat ≤ v.b.freePart →
    ∃ t, exec (.regclaim false n) s = .next t ∧ (t.gangAt v).map (·.holding) = some (v.g.holding + n.toNat) ∧
      ((v.slice v.low).again = .fresh → (t.gangAt v).map (·.active) = some false) ∧ s.sameP t v ∧ s.sameBytes t ∧
      (∀ r l, r < v.g.holding → l < 32 → t.vAt v r l = s.vAt v r l) ∧
      ∀ i ∈ v.m, ∃ x, t.sliceAt v i = some x ∧ x.pc = (v.slice i).pc + 8 ∧ x.wait = .none

/-- FLARE sends a request for each executing lane, with the device, context, handler index, class and tag of the lane's second operand,
REL from the modifier and its eight registers as data; when every answer is there it writes them, a true predicate for a request accepted
(spec/14 R370, R371). REPLAY is sent when it issues first, and waits; its tokens act when it issues again. One token of no entry in use
reports false and changes nothing else; one of an entry whose waiter is there reports true and frees the entry. -/
def Obligations.FlareReplay : Prop :=
  (∀ g p code a b rel trap (s : State) v, s.view? = some v → v.exec g ≠ [] → (v.slice v.low).again ≠ .woken →
    s.released v (if rel then .rel .sys else .rlx) →
    ∃ t, exec (.flare g p code a b rel trap) s = .next t ∧ s.sameV t v ∧ s.sameP t v ∧ s.sameBytes t ∧
      ∀ l ∈ v.exec g, ∃ r ∈ t.flares, let d := BitVec.ofNat 64 (v.src .int 64 l b)
        r.issuer = v.issuer ∧ r.lane = l ∧ r.pkt.kind = 0 ∧ r.pkt.ddev = d.extractLsb' 0 19 ∧ r.pkt.dctx = d.extractLsb' 19 12 ∧
          r.pkt.hidx = d.extractLsb' 31 12 ∧ r.pkt.prio = d.extractLsb' 43 2 ∧ r.pkt.stag = d.extractLsb' 45 16 ∧
          r.pkt.flags = (if rel then 1 else 0) ∧ r.pkt.sdev = s.devid ∧ r.pkt.sctx = BitVec.ofNat 12 v.b.ctx ∧
          r.pkt.data = leBytes 32 (v.g.vwide a.toNat l 8)) ∧
  (∀ g p code a b rel trap (s : State) v answer, s.view? = some v → (v.slice v.low).again = .woken →
    (∀ l ∈ v.exec g, ∃ r, s.flares.find? (fun r => r.issuer == v.issuer && r.lane == l) = some r ∧ r.answer = some (answer l)) →
    (trap = true → ∀ l ∈ v.exec g, answer l = 0 ∨ answer l = 4) →
    ∃ t, exec (.flare g p code a b rel trap) s = .next t ∧ t.past v 8 ∧ s.sameBytes t ∧
      s.wroteP t v p.toNat (v.exec g) (fun l => answer l == 0 || answer l == 4) ∧
      (match code with | some c => s.wroteV t v c.toNat false 32 (v.exec g) answer | none => s.sameV t v) ∧
      ∀ r ∈ t.flares, r.issuer ≠ v.issuer) ∧
  (∀ g p a (s : State) v, s.view? = some v → v.stale [a] = none → v.exec g = [] →
    ∃ t, exec (.replay g p a) s = .next t ∧ s.onlyGang t v ∧ s.sameRegs t v ∧ t.past v 8) ∧
  (∀ g p a (s : State) v, s.view? = some v → v.stale [a] = none → v.exec g ≠ [] → (v.slice v.low).again = .fresh → s.released v (.rel .dev) →
    ∃ t, exec (.replay g p a) s = .next t ∧ s.onlyGang t v ∧ s.sameV t v ∧ s.sameP t v ∧ ∀ i ∈ v.m, ∃ x, t.sliceAt v i = some x ∧
      x.pc = (v.slice i).pc ∧ x.wait = .retry .replay ∧ x.again ≠ .fresh ∧ x.active = (v.slice i).active) ∧
  (∀ g p a (s : State) v l, s.view? = some v → v.stale [a] = none → v.exec g = [l] → (v.slice v.low).again ≠ .fresh →
    (s.ctx v.b.ctx).faultOf (BitVec.ofNat 32 (v.src .int 32 l a)) = none →
    ∃ t, exec (.replay g p a) s = .next t ∧ s.onlyGang t v ∧ s.sameV t v ∧ s.wroteP t v p.toNat [l] (fun _ => false) ∧ t.past v 8) ∧
  ∀ g p a (s : State) v l e, s.view? = some v → v.stale [a] = none → v.exec g = [l] → (v.slice v.low).again ≠ .fresh →
    v.b.ctx < s.ctxs.length → (s.ctx v.b.ctx).faultOf (BitVec.ofNat 32 (v.src .int 32 l a)) = some e → (s.ctx v.b.ctx).state < 2 →
    (match e.waiter with | .group b _ _ => (s.block? b).isSome | .tile f => (s.frame? f).isSome | .none => false) = true →
    ∃ t, exec (.replay g p a) s = .next t ∧ s.wroteP t v p.toNat [l] (fun _ => true) ∧ s.sameV t v ∧
      (∀ i ∈ v.m, ∃ x, t.sliceAt v i = some x ∧ x.pc = (v.slice i).pc + 8) ∧
      (t.ctx v.b.ctx).faults = (s.ctx v.b.ctx).faults.filter fun f => f.idx != e.idx

/-- TRAP with a handler: each slice of the group saves its address in %tpc, cause 0x0C in %tcause and the immediate in %tinfo, enters
trap mode with its stack depth and %dtag, invalidates its latches and goes on at the handler; no V, S or Q register, no predicate and no
byte of memory changes. That a thread trap writes 0 to %gframe and leaves %tstat is the model's choice (log 22). RFT with the depth and
%dtag of the entry leaves trap mode and restores the address; a gang that trapped at the GATE of a frame that still holds it waits there
again, which is the model's choice (log 22). RFT of a tile trap resumes the frame at %tpc and the slot in %tstat, and its gang waits at the
GATE. The registers stay as they are. With no slice of the group in trap mode, RFT traps as ILLEGAL_ENCODING with %tinfo 1; with some slice
outside it, or at another depth or %dtag, it kills the context with cause 2 (spec/10 R269). -/
def Obligations.TrapAndReturn : Prop :=
  (∀ g imm (s : State) v, s.view? = some v → v.exec g ≠ [] → v.b.claims = [] → (s.ctx v.b.ctx).desc.thandler % 2 ^ 57 ≠ 0 →
    (∀ i ∈ v.m, (v.slice i).trapMode = none) →
    ∃ t, exec (.trap g imm) s = .next t ∧ s.tookTrap t v 0x0C (imm.setWidth 32)) ∧
  (∀ (s : State) v, s.view? = some v → v.b.claims = [] → (s.ctx v.b.ctx).desc.thandler % 2 ^ 57 ≠ 0 →
    (∀ i ∈ v.m, (v.slice i).trapMode = none) → ∃ t, exec (.rft false) s = .next t ∧ s.tookTrap t v 0x02 1) ∧
  (∀ (s : State) v, s.view? = some v → v.b.ctx < s.ctxs.length → (∃ i ∈ v.m, (v.slice i).trapMode ≠ none) →
    (∃ i ∈ v.m, (v.slice i).trapMode ≠ some ((v.slice i).stack.length, (v.slice i).dtag)) →
    ∃ t, exec (.rft false) s = .next t ∧ (t.ctx v.b.ctx).state = 4 ∧ (t.ctx v.b.ctx).kcause = 2 ∧ ∀ b ∈ t.blocks, b.ctx ≠ v.b.ctx) ∧
  (∀ (s : State) v f, s.view? = some v →
    (∀ i ∈ v.m, (v.slice i).trapMode = some ((v.slice i).stack.length, (v.slice i).dtag)) →
    let x0 := v.slice v.low
    x0.memErr = false → bit x0.tcause 8 = true →
    (s.frames.find? fun f => f.blk == v.b.uid && f.number.toNat == x0.gframe.toNat % 2 ^ 16) = some f → s.frame? f.uid = some f →
    ∃ t h, exec (.rft false) s = .next t ∧ t.mem = s.mem ∧ s.sameV t v ∧ s.sameP t v ∧ (∀ u, u ≠ f.uid → t.frame? u = s.frame? u) ∧
      t.frame? f.uid = some h ∧ { h with status := f.status, pc := f.pc, sresume := f.sresume, image := f.image } = f ∧ h.status = 1 ∧
      h.pc = x0.tpc.setWidth 57 ∧ h.sresume.toNat = x0.tstat.toNat % 8 ∧
      ∀ i ∈ v.m, ∃ x r, t.sliceAt v i = some x ∧ t.sliceGroup v i = some r ∧ r.s = v.r.s ∧ r.q = v.r.q ∧ x.pc = f.retpc - 8 ∧
        x.wait = .frame f.uid ∧ x.trapMode = none ∧ x.yValid = 0 ∧ x.active = (v.slice i).active ∧ x.stack = (v.slice i).stack ∧ x.fmt = (v.slice i).fmt) ∧
  ∀ (s : State) v, s.view? = some v →
    (∀ i ∈ v.m, (v.slice i).trapMode = some ((v.slice i).stack.length, (v.slice i).dtag)) →
    (v.slice v.low).memErr = false → bit (v.slice v.low).tcause 8 = false →
    ∃ t, exec (.rft false) s = .next t ∧ s.onlyGang t v ∧ s.sameV t v ∧ s.sameP t v ∧ ∀ i ∈ v.m, ∃ x r, t.sliceAt v i = some x ∧
      t.sliceGroup v i = some r ∧ r.s = v.r.s ∧ r.q = v.r.q ∧
      (match s.frames.find? fun f => f.blk == v.b.uid && f.gangs.contains v.g.name && f.gatePc == (v.slice v.low).tpc with
       | none => x.pc = (v.slice i).tpc.setWidth 57 ∧ x.wait = (v.slice i).wait
       | some f => x.pc = f.retpc - 8 ∧ x.wait = .frame f.uid) ∧
      x.trapMode = none ∧ x.yValid = 0 ∧ x.active = (v.slice i).active ∧ x.stack = (v.slice i).stack ∧ x.fmt = (v.slice i).fmt

/-! ### Tile set -/

/-- KADD, KLOP, KMOVI and KCMP write their result to one scalar at once, KMUL holds its 128-bit product's half until it lands at the
fourth bundle, SETFMT copies the fields of its mask into %fmt and SHPW writes one field of a shadow shape register. Nothing else of the
machine changes: no other register of the tile context, no other frame, no block, context, memory or cache. -/
def Obligations.ScalarSlots : Prop :=
  (∀ i n x (s : State) v, scalarForm i v s = some (n, x) → s.tview? = some v → slotWait i v s = none →
    ∃ t, exec i s = .next t ∧ s.onlyFrame t v.f.uid ∧ t.wroteK v n x) ∧
  (∀ d hi a b (s : State) v, s.tview? = some v → slotWait (.kmul d hi a b) v s = none →
    ∃ t f, exec (.kmul d hi a b) s = .next t ∧ { t with uid := s.uid, frames := s.frames } = s ∧
      (∀ u, u ≠ v.f.uid → t.frame? u = s.frame? u) ∧ t.frame? v.f.uid = some f ∧ { f with landings := v.f.landings } = v.f ∧
      f.landings = v.f.landings ++ [⟨s.uid, d.toNat, some (v.f.bundles + 3),
        some (BitVec.ofInt 64 ((v.k s a).toInt * (v.ksrc s b).toInt / if hi then 2 ^ 64 else 1))⟩]) ∧
  (∀ a m (s : State) v, s.tview? = some v → slotWait (.setfmtK a m) v s = none →
    ∃ t f, exec (.setfmtK a m) s = .next t ∧ s.onlyFrame t v.f.uid ∧ t.frame? v.f.uid = some f ∧ v.f.onlyRegs f ∧
      { f.regs with fmt := v.f.regs.fmt } = v.f.regs ∧
      ∀ k < 32, bit f.regs.fmt k = if (fmtField k).any (fun j => bit m j) then bit (v.k s a) k else bit v.f.regs.fmt k) ∧
  ∀ e idx field src (s : State) v, s.tview? = some v → slotWait (.shpw e idx field src) v s = none →
    let x := match src with | .reg n => (v.k s n).toNat | .imm i => i.toNat
    ∃ t f, exec (.shpw e idx field src) s = .next t ∧ s.onlyFrame t v.f.uid ∧ t.frame? v.f.uid = some f ∧ v.f.onlyRegs f ∧
      { f.regs with shadow := v.f.regs.shadow } = v.f.regs ∧
      (∀ k < 16, k ≠ engBase e + idx.toNat → f.regs.shadow.getD k 0 = v.f.regs.shadow.getD k 0) ∧
      let old := Win.ofBits (v.f.regs.shadow.getD (engBase e + idx.toNat) 0)
      let new := Win.ofBits (f.regs.shadow.getD (engBase e + idx.toNat) 0)
      match field with
      | .rows => new = { old with rows := x % 2 ^ 16 }
      | .cols => new = { old with cols := x % 2 ^ 16 }
      | .pitch => new = { old with pitch := x % 2 ^ 32 }
      | .row0 => new = { old with row0 := x % 2 ^ 16 }
      | .col0 => new = { old with col0 := x % 2 ^ 16 }

/-- KLD, KST and CBLOAD of the K slot complete for every tile context whose registers have landed and whose address passes the checks of
R186 and meets no poisoned part. KLD puts one load in flight and keeps its register until the data returns; KLD.desc loads a tile
register at once; KST puts the stores of its register's bytes in flight; CBLOAD reads 32 bytes and replaces a codebook of the block,
whole. No byte of memory changes as they issue. Where nothing of the block is in flight, KLD's data returns and lands at once: its
scalar then holds the bytes at the address, zero-extended, and nothing else of the tile context changes; and KST's bytes stand at their
address, every other byte of memory as before. That a load of KLD or CBLOAD returns the core's resident part, or the home's value of that
instant, is the model's choice among the values that R217 allows (log 11) (spec/07 R186, spec/13 R344, spec/15 R391, spec/11 R304). -/
def Obligations.SlotMemory : Prop :=
  (∀ sz reg a off (s : State) v l, s.tview? = some v → slotWait (.kld sz reg a off) v s = none → sz ≠ .desc →
    let va := v.k s a + off.signExtend 64
    s.check (s.whoTile v) .load va (ksizeBytes sz) (ksizeBytes sz) = .ok l →
    (s.l1Hit v.b.core l (ksizeBytes sz) = none → s.poisoned l (ksizeBytes sz) = false) →
    ∃ t f rest u, exec (.kld sz reg a off) s = .next t ∧ s.sameBytes t ∧ t.ops = s.ops ++ [{ v.op s (u :: rest) with id := s.uid }] ∧
      u.loc = l ∧ u.n = ksizeBytes sz ∧ t.frame? v.f.uid = some f ∧ f.regs = v.f.regs ∧
      f.landings = v.f.landings ++ [{ id := s.uid, reg := reg.toNat, due := none, value := none }]) ∧
  (∀ reg a off (s : State) v bs t0, s.tview? = some v → slotWait (.kld .desc reg a off) v s = none →
    s.loadRange (s.whoTile v) v.b.uid (v.k s a + off.signExtend 64) 32 8 = .ok (bs, t0) → leNat bs % 8 ≠ 1 →
    ∃ t f, exec (.kld .desc reg a off) s = .next t ∧ s.sameBytes t ∧ t.frame? v.f.uid = some f ∧ v.f.onlyRegs f ∧
      { f.regs with t := v.f.regs.t } = v.f.regs ∧
      ∀ k < 32, f.regs.t.getD k 0 = if k = reg.toNat then BitVec.ofNat 256 (leNat bs) else v.f.regs.t.getD k 0) ∧
  (∀ sz reg a off (s : State) v ps, s.tview? = some v → slotWait (.kst sz reg a off) v s = none →
    s.checkRange (s.whoTile v) .store (v.k s a + off.signExtend 64) (ksizeBytes sz) (min (ksizeBytes sz) 8) = .ok ps →
    let x := if sz = .desc then (v.r.t.getD reg.toNat 0).toNat else (v.k s reg).toNat
    ∃ t, exec (.kst sz reg a off) s = .next t ∧ s.sameBytes t ∧ t.frames = s.frames ∧
      t.ops = s.ops ++ [{ v.op s ((offsets 0 (eights ps)).map fun p =>
        storeUnit (.tile v.f.uid) p.2.1 p.2.2 (x / 2 ^ (8 * p.1)) (byteMask p.2.2)) with id := s.uid }]) ∧
  (∀ cb a (s : State) v bs t0, s.tview? = some v → slotWait (.cbloadK cb a) v s = none →
    s.loadRange (s.whoTile v) v.b.uid (v.k s a) 32 32 = .ok (bs, t0) →
    ∃ t b, exec (.cbloadK cb a) s = .next t ∧ s.sameBytes t ∧ t.frames = s.frames ∧ t.block? v.b.uid = some b ∧ b.gangs = v.b.gangs ∧
      ∀ k < 8, b.cb.getD k 0 = if k = cb.toNat then BitVec.ofNat 256 (leNat bs) else v.b.cb.getD k 0) ∧
  (∀ sz reg a off (s : State) v l, s.tview? = some v → slotWait (.kld sz reg a off) v s = none → sz ≠ .desc →
    let n := ksizeBytes sz
    s.check (s.whoTile v) .load (v.k s a + off.signExtend 64) n n = .ok l → (s.l1Hit v.b.core l n = none → s.poisoned l n = false) →
    s.quiet v.b.uid → (∀ x ∈ v.f.landings, x.id ≠ s.uid) →
    ∃ t u w, exec (.kld sz reg a off) s = .next t ∧ exec (.loadDataReturn s.uid 0) t = .next u ∧
      exec (.kldLanding v.f.uid s.uid) u = .next w ∧ s.sameBytes w ∧
      w.wroteK v reg.toNat (BitVec.ofNat 64 (s.loadValue v.b.core false l n))) ∧
  (∀ sz reg a off (s : State) v pa n, s.tview? = some v → slotWait (.kst sz reg a off) v s = none → sz ≠ .desc →
    s.checkRange (s.whoTile v) .store (v.k s a + off.signExtend 64) (ksizeBytes sz) (min (ksizeBytes sz) 8) = .ok [(.phys pa, n)] →
    n ≤ 8 → s.quiet v.b.uid → s.memOk →
    ∃ t u, exec (.kst sz reg a off) s = .next t ∧ exec (.storeAcknowledgement s.uid 0) t = .next u ∧ u.frames = s.frames ∧
      u.readNat (.phys pa) n = (v.k s reg).toNat % 2 ^ (8 * n) ∧ ∀ k, k < pa ∨ pa + n ≤ k → Memory.get u.mem k = Memory.get s.mem k) ∧
  ∀ cb a (s : State) v ps, s.tview? = some v → slotWait (.cbloadK cb a) v s = none →
    s.checkRange (s.whoTile v) .load (v.k s a) 32 32 = .ok ps → (∀ p ∈ ps, s.l1Hit v.b.core p.1 p.2 = none → s.poisoned p.1 p.2 = false) →
    s.quiet v.b.uid →
    ∃ t b, exec (.cbloadK cb a) s = .next t ∧ s.sameBytes t ∧ t.frames = s.frames ∧ t.block? v.b.uid = some b ∧ b.gangs = v.b.gangs ∧
      ∀ k < 8, b.cb.getD k 0 = if k = cb.toNat then
          BitVec.ofNat 256 (leNat (ps.flatMap fun p => leBytes p.2 (s.loadValue v.b.core false p.1 p.2)))
        else v.b.cb.getD k 0

/-- An operation of fixed latency whose checks pass is captured with its sources, its registers after its swap and its cycles R and W;
one without sources has its writes at once. No byte of memory and no register but the shape registers changes at the issue of one that has
sources or that moves codes as they are (DMOV, TFILL, TRANS, MZERO). -/
def Obligations.FixedIssues : Prop :=
  (∀ i x (s : State) v, s.tview? = some v → fixedForm i v s = some x → slotWait i v s = none → x.ok = .ok () →
    (∀ y ∈ v.f.fixed, y.id ≠ s.uid) →
    ∃ t, exec i s = .next t ∧ t.mem = s.mem ∧ t.blocks = s.blocks ∧ s.issuedFixed t v i x) ∧
  (∀ sw tz ta l (s : State) v ps, s.tview? = some v → slotWait (.mma sw tz ta l) v s = none →
    let img := v.r.swapped .m sw
    s.loopOk v { z := img.side .m tz, a := img.side .m ta, b := none, l := l.toNat, steps := 1, ainc := 0, binc := 0 } 0 false = .ok ps →
    let e := v.env img ps []
    (∀ q, .mem q ∈ e.parts (img.side .m ta) .a → s.poisoned q 16 = false) →
    e.parts (img.side .m ta) .a ≠ [] →
    ∃ t, exec (.mma sw tz ta l) s = .next t ∧ t.mem = s.mem ∧ t.blocks = s.blocks ∧
      s.issuedFixed t v (.mma sw tz ta l) ⟨.m, sw, e, (16, 20), e.parts (img.side .m ta) .a ++ e.parts (img.side .m tz) .none ++
        latchParts v.b.core l.toNat (s.latchD v.b.core l.toNat).n, .ok ()⟩) ∧
  ∀ sw l tb (s : State) v, s.tview? = some v → slotWait (.mlatch sw l tb) v s = none →
    let img := v.r.swapped .m sw
    let b := img.side .m tb
    b.t.space = 2 → v.tilesOk [⟨b, [2, 6], false, .b⟩] b.badB = .ok () → (v.env img [] []).parts b .b ≠ [] →
    ∃ t, exec (.mlatch sw l tb) s = .next t ∧ t.mem = s.mem ∧ t.blocks = s.blocks ∧
      s.issuedFixed t v (.mlatch sw l tb) ⟨.m, sw, v.env img [] [], (20, 20), (v.env img [] []).parts b .b, .ok ()⟩ ∧
      ∃ x, t.latch? v.b.core l.toNat = some x ∧ x.owner = v.f.uid ∧ x.efmt = b.t.ef

/-- TCOPY, TGATH, TSCAT, COLL, MLOOP, MLATCH from memory and MDRAIN take the next number on their timeline and enter their engine's
queue, not started; no byte of memory changes at their issue. -/
def Obligations.AsyncIssues : Prop :=
  ∀ i k eng sw (s : State) v, s.tview? = some v → asyncForm i v = some (k, eng, sw) → slotWait i v s = none → asyncOk i v s →
    ∃ t o f, exec i s = .next t ∧ t.mem = s.mem ∧ t.aops = s.aops ++ [o] ∧ o.id = s.uid ∧ o.owner = .tile v.f.uid ∧ o.kind = k ∧
      o.number = v.f.issued k + 1 ∧ o.started = false ∧ o.writes = [] ∧ o.got = [] ∧ t.frame? v.f.uid = some f ∧
      f.issued k = v.f.issued k + 1 ∧ (∀ j, j ≠ k → f.issued j = v.f.issued j) ∧ f.fixed = v.f.fixed ∧
      TileRegs.exchanged v.f.regs f.regs v.r eng sw ∧ { f.regs with live := v.f.regs.live, shadow := v.f.regs.shadow } = v.f.regs

/-- The ring operations of the D slot, under the rules of the thread forms: RACQ and RPEEK write the address of the slot of number TAIL, or
HEAD, to their scalar, and the counter is one further; RCOMMIT and RREL move their counter or mark their slot. No other byte and no other
scalar changes (spec/16 R433-R435). -/
def Obligations.SlotRings : Prop :=
  (∀ i sw acq sc kd ka (s : State) v l r n, tileTakeForm i = some (sw, acq, sc, kd, ka) → s.tview? = some v → s.memOk →
    slotWait i v s = none → s.rcbLoc (v.ringParty s) (v.k s ka) = .ok (runOf l 32) → s.hasLoc l →
    Rcb.ofBytes (s.readLoc l 32) = some r → r.next acq = some n →
    ∃ t f, exec i s = .next t ∧ s.ringTaken t l r acq n ∧ t.frame? v.f.uid = some f ∧
      f.regs.k.getD kd.toNat 0 = BitVec.ofNat 64 (r.base + n % r.scount * r.ssize) ∧
      (∀ n < 32, n ≠ kd.toNat → f.regs.k.getD n 0 = v.f.regs.k.getD n 0) ∧ TileRegs.exchanged v.f.regs f.regs v.r .d sw ∧
      (scopeWide sc = true → t.acquired v.b.core)) ∧
  ∀ i sw commit ks ka (s : State) v l r n, tileMarkForm i = some (sw, commit, ks, ka) → s.tview? = some v → s.memOk →
    slotWait i v s = none → s.rcbLoc (v.ringParty s) (v.k s ka) = .ok (runOf l 32) → s.hasLoc l →
    Rcb.ofBytes (s.readLoc l 32) = some r → s.canMark l r commit (v.k s (ks.setWidth 6)).toNat n →
    ∃ t f, exec i s = .next t ∧ s.ringMarks t l r commit n ∧ t.frame? v.f.uid = some f ∧
      TileRegs.exchanged v.f.regs f.regs v.r .d sw ∧ f.regs.k = v.f.regs.k

/-- The B slot: TBR and TCALL go to their target when their test holds and to the next bundle when it fails, TCALL leaving the next
bundle's address in K31; TRET goes where its scalar says; GRET drains the frame and frees the sequencer; NEXTW advances the rotating
pointer and puts its claim in flight; TLWAIT goes on once the operations have completed, without an error to report, and for collectives
invalidates the cache; TRAP traps at the next bundle: the frame is suspended and its reference gang is in trap mode. -/
def Obligations.BranchSlot : Prop :=
  (∀ t0 call (s : State) v tgt, s.tview? = some v →
    let i := if call then Instr.tcall t0 else .tbr t0
    slotWait i v s = none → (v.f.pc.toNat : Int) + 32 + 32 * t0.offset.toInt = tgt → 0 ≤ tgt → tgt < 2 ^ 57 →
    ∃ t f, exec i s = .next t ∧ s.onlyFrames t ∧ t.frame? v.f.uid = some f ∧
      f.pc = (if v.test s t0 then BitVec.ofInt 57 tgt else v.f.pc + 32) ∧
      ∀ n < 32, f.regs.k.getD n 0 = if call = true ∧ v.test s t0 = true ∧ n = 31 then (v.f.pc + 32).setWidth 64 else v.f.regs.k.getD n 0) ∧
  (∀ ka (s : State) v, s.tview? = some v → slotWait (.tret ka) v s = none → (v.k s ka).toNat < 2 ^ 57 → (v.k s ka).toNat % 32 = 0 →
    ∃ t f, exec (.tret ka) s = .next t ∧ s.onlyFrames t ∧ t.frame? v.f.uid = some f ∧ f.pc = (v.k s ka).setWidth 57 ∧ f.regs = v.f.regs) ∧
  (∀ (s : State) v, s.tview? = some v → slotWait .gret v s = none →
    ∃ t f, exec .gret s = .next t ∧ t.mem = s.mem ∧ t.blocks = s.blocks ∧ t.frame? v.f.uid = some f ∧ f.draining = true ∧ f.status = 5 ∧
      f.regs = v.f.regs ∧ ∀ r ∈ t.running, r.2 ≠ v.f.uid) ∧
  (∀ ka (s : State) v l, s.tview? = some v → slotWait (.nextw ka) v s = none →
    s.check (s.whoTile v) .atomic (v.k s ka) 32 32 = .ok l → s.poisoned l 32 = false →
    ∃ t f u, exec (.nextw ka) s = .next t ∧ s.sameBytes t ∧ t.ops = s.ops ++ [{ v.op s [u] with id := s.uid }] ∧ u.kind = .nextw ∧ u.loc = l ∧
      t.frame? v.f.uid = some f ∧ f.regs = { v.f.regs with rot := v.f.regs.rot + 1 } ∧
      f.nextws = v.f.nextws ++ [{ id := s.uid, value := none, due := v.f.bundles + 11, target := v.r.rot.toNat }]) ∧
  (∀ k ka (s : State) v, s.tview? = some v → slotWait (.tlwaitTile k ka) v s = none →
    (v.f.errs.getD (kindIdx k) { entries := [], ovf := false }).report (fun m => decide (m ≤ (v.k s ka).toNat)) = none →
    ∃ t, exec (.tlwaitTile k ka) s = .next t ∧ t.mem = s.mem ∧ t.frames = s.frames ∧ (k = .coll → t.acquired v.b.core) ∧ (k ≠ .coll → t = s)) ∧
  ∀ imm (s : State) v (g : Gang), s.tview? = some v → slotWait (.trapTile imm) v s = none → (s.ctx v.f.ctx).desc.thandler % 2 ^ 57 ≠ 0 →
    s.gang? v.f.blk v.f.refGang = some g →
    ∃ t f h, exec (.trapTile imm) s = .next t ∧ t.mem = s.mem ∧ t.frame? v.f.uid = some f ∧ f.pc = v.f.pc + 32 ∧ f.status = 3 ∧ f.sresume = 0 ∧
      f.regs = v.f.regs ∧ (∀ r ∈ t.running, r.2 ≠ v.f.uid) ∧ t.gang? v.f.blk v.f.refGang = some h ∧
      ∀ (j : Nat) (x : Slice), g.slices[j]? = some x → x.exited = false → ∃ y : Slice, h.slices[j]? = some y ∧
        y.pc = BitVec.ofNat 57 (s.ctx v.f.ctx).desc.thandler ∧ y.tcause = 0x10C ∧ y.tinfo = imm.setWidth 32 ∧
        y.tpc = (v.f.pc + 32).setWidth 64 ∧ y.gframe = BitVec.ofNat 32 (2 ^ 16 + v.f.number.toNat) ∧
        y.tstat = BitVec.ofNat 32 (3 * 8) ∧ y.active = ~~~x.gone ∧ y.trapMode = some (x.stack.length, x.dtag)

/-- A bundle issues whole, and completes for every tile context whose interlocks are over. With every slot a no-operation it goes on by 32
bytes and only counts; with a KADD beside no-operations it also writes that sum. With any of KADD, KMUL, KLOP, KMOVI, KCMP, SHPW and
SETFMT in its K slot, a swap or none in its D, C, V and M slots, and TBR or TCALL in its B slot, every slot commits: the scalars that
KADD, KLOP, KMOVI, KCMP and a taken TCALL name hold the values of the sources as they stood at the issue, the later slot's where two name
one; KMUL's product is on its way; the swapped shape registers are exchanged; and the tile context goes on at its branch's target or at
the next bundle. Memory, blocks and all other scalars are as before (spec/04 R95, R97, R98, R100, spec/18 R482). -/
def Obligations.BundleIssues : Prop :=
  (∀ w (s : State) v, s.tview? = some v → w.toNat / 2 ^ 240 % 256 = 0 → s.bundleWait w v = none → v.f.sresume = 0 → v.f.draining = false →
    (∀ x ∈ slotOrder, bundleSlot w x = .ok .noop) →
    ∃ t f, exec (.tileBundle w) s = .next t ∧ s.onlyFrames t ∧ t.frame? v.f.uid = some f ∧ f.pc = v.f.pc + 32 ∧ f.regs = v.f.regs ∧
      f.bundles = v.f.bundles + 1 ∧ f.image = none) ∧
  (∀ w d sub a b (s : State) v, s.tview? = some v → w.toNat / 2 ^ 240 % 256 = 0 → s.bundleWait w v = none → v.f.sresume = 0 →
    v.f.draining = false → bundleSlot w .k = .ok (.op (.kadd d sub a b)) → (∀ x ∈ slotOrder, x ≠ .k → bundleSlot w x = .ok .noop) →
    s.missingFeature v.f.ctx (.kadd d sub a b) = none →
    ∃ t f, exec (.tileBundle w) s = .next t ∧ s.onlyFrames t ∧ t.frame? v.f.uid = some f ∧ f.pc = v.f.pc + 32 ∧
      f.regs = v.f.regs.setK d.toNat (if sub then v.k s a - v.ksrc s b else v.k s a + v.ksrc s b)) ∧
  ∀ w (s : State) v, s.tview? = some v → w.toNat / 2 ^ 240 % 256 = 0 → s.bundleWait w v = none → v.f.sresume = 0 → v.f.draining = false →
    (∀ x ∈ slotOrder, s.plainSlot v w x) →
    ∃ t f, exec (.tileBundle w) s = .next t ∧ t.mem = s.mem ∧ t.blocks = s.blocks ∧ t.frame? v.f.uid = some f ∧
      f.pc = s.bundleNext v w ∧ f.bundles = v.f.bundles + 1 ∧ f.image = none ∧ f.sresume = 0 ∧
      (∀ m < 64, f.regs.scalar m = match (s.bundleScalars v w).reverse.find? (fun p => p.1 == m) with
        | some p => scalarCut m p.2
        | none => v.f.regs.scalar m) ∧
      (∀ d hi a b, bundleSlot w .k = .ok (.op (.kmul d hi a b)) → d ≠ 31 →
        ∃ l ∈ f.landings, l.reg = d.toNat ∧ l.due = some (v.f.bundles + 4) ∧ l.value = some (kmulOf hi (v.k s a) (v.ksrc s b))) ∧
      ∀ k < 16, let own := slotOrder.any fun x => match bundleSlot w x with | .ok (.swap i) => engBase (slotEng x) + i.toNat == k | _ => false
        f.regs.live.getD k 0 = (if own then v.r.shadow.getD k 0 else v.f.regs.live.getD k 0) ∧
          (own = true → f.regs.shadow.getD k 0 = v.r.live.getD k 0)

/-! ### Encoding -/

/-- The all-zero word is NOP, and a word of OPCODE 0 and FORMAT 0 with any other bit set is ILLEGAL_ENCODING with %tinfo 0 (spec/11 R307).
Words and slots that spec/11-18 write out bit by bit decode to the instructions that they stand for. -/
def Obligations.DecodeWords : Prop :=
  (∀ hold, decodeWord hold 0 = .ok .nop) ∧
  (∀ hold (w : W64), w ≠ 0 → (TWord.split w).opc = 0 → (TWord.split w).fmt = 0 → decodeWord hold w = .error (.enc 0)) ∧
  decodeWord 256 0x4C4010205C018C01#64 = .ok (.ldnc ⟨false, 0⟩ 8 (.acq .dev) .b64 ⟨.s 2, .imm 0, 0, 1⟩) ∧
  decodeWord 256 0x4CA0100040538800#64 = .ok (.atom ⟨false, 0⟩ 8 .add (.ar .dev) false (.v 2) (.v 5)) ∧
  decodeWord 256 0x4C2002205C000800#64 = .ok (.st ⟨false, 0⟩ 1 .rlx .b32 ⟨.s 2, .imm 0, 0, 0⟩) ∧
  decodeWord 256 0x0D400220C0000000#64 = .ok (.unseal ⟨false, 0⟩ ⟨false, 1⟩ (.s 6)) ∧
  decodeWord 256 0x1060002070400000#64 = .ok (.tlwait false (.s 3) (.s 4)) ∧
  decodeWord 256 0x164002011040A020#64 = .ok (.flare ⟨false, 0⟩ 1 (some 20) 8 (.s 4) true false) ∧
  decodeWord 256 0x3A40000000000042#64 = .ok (.trap ⟨false, 0⟩ 0x42) ∧
  decodeSlot true .k 0x0441200020#48 = .ok (.op (.kadd 4 false 4 (.imm 1))) ∧
  decodeSlot true .d 0x04104000#48 = .ok (.op (.dmov none 4 2)) ∧
  decodeSlot true .c 0x10082190#48 = .ok (.op (.coll none 2 1 3 .allreduce .sum .bf16)) ∧
  decodeSlot true .m 0x08204328B004#48 = .ok (.op (.mloop none 8 2 0 10 11 (.streamW 3))) ∧
  decodeSlot true .b 0x048FF00002#48 = .ok (.op (.tbr ⟨false, 0x23, 63, 2⟩))

/-- Every well-formed instruction of the thread set is read back from its word, and a pair from its two words, with every operand. -/
def Obligations.ThreadRoundTrip : Prop :=
  (∀ i w, Instr.wf i = true → encode i = .word w → decodeWord 256 w = .ok i) ∧
  ∀ i w w2, Instr.wf i = true → encode i = .pair w w2 → decodePair 256 w w2 = .ok i ∧ ∀ hold, decodeThread hold true w w2 = decodePair hold w w2

/-- Every well-formed slot operation is read back from its slot's bits, with every operand. A bundle made of the encodings of well-formed
operations, with any of its slots left out, is read back whole: its SAFE and STOP bits, each slot's operation, and no operation where none
stands; its bits [247:240] are zero, and a bundle in which they are not is ILLEGAL_ENCODING. -/
def Obligations.SlotRoundTrip : Prop :=
  (∀ i x w, Instr.wf i = true → encode i = .slot x w → decodeSlot true x w = .ok (.op i)) ∧
  (∀ safe stop (f : Slot → Option (Instr × BitVec 48)), (∀ x i y, f x = some (i, y) → Instr.wf i = true ∧ encode i = .slot x y) →
    let w := bundleWord safe stop fun x => (f x).map (·.2)
    decodeBundle w = .ok (.tileBundle w) ∧ bundleSafe w = safe ∧ bundleStop w = stop ∧
      ∀ x, bundleSlot w x = match f x with | some (i, _) => .ok (.op i) | none => .ok .noop) ∧
  ∀ w : W256, decodeBundle w = if Instr.wf (.tileBundle w) then .ok (.tileBundle w) else .error (.enc 0)

/-! ### The step -/

/-- A step runs what the decoder reads. When a quadrant's issue cycle is next, its due rotations and promotions are made, and the group
that it then chooses issues the instruction of the word, or of the pair, at its program counter, provided that its context has the
instruction's features; a word that does not decode traps at the program counter. A sequencer's move issues the bundle at its tile
context's program counter; an event's move is the event. After each of them the model's time passes. Which move is next, the agenda, is
the model's choice (log 1), and so is the time that passes, a cycle and a free number of further cycles (log 8). -/
def Obligations.StepRuns : Prop :=
  (∀ (s : State) core quad rest c v w w2 t, s.agenda = .issue core quad :: rest →
    let s0 : State := State.promotions core quad Config.quadActive (({ s with agenda := rest } : State).dueRotations core quad)
    s0.choose core quad = some c →
    let s1 : State := { ((s0.issueCycle core quad).updGang c.blk c.gang fun g => g.issues c.grp) with cur := .group c.blk c.gang c.grp }
    s1.view? = some v → s1.fetchThread v = .ok (w, w2, t) →
    (∀ i u, decodeThread v.g.holding (decide (v.pc.toNat % 16 = 0)) w w2 = .ok i → t.missingFeature v.b.ctx i = none →
      exec i t = .next u → step s = .next (u.pass (1 + Config.freeCycles s.ctr))) ∧
    ∀ e, decodeThread v.g.holding (decide (v.pc.toNat % 16 = 0)) w w2 = .error e →
      step s = .next ((t.threadTrap v (DecErrTrap e)).pass (1 + Config.freeCycles s.ctr))) ∧
  (∀ (s : State) core rest f v n t u, s.agenda = .bundle core :: rest →
    ((s.running.find? fun r => r.1 == core).bind fun r => s.frame? r.2) = some f →
    let s1 : State := { s with agenda := rest, cur := .tile f.uid }
    s1.tview? = some v → s.tileReady f = true → s1.fetchCode (s1.whoTile v) f.pc 32 32 = .ok (n, t) → (s.ctx f.ctx).state = 1 →
    exec (.tileBundle (BitVec.ofNat 256 n)) t = .next u → step s = .next (u.pass (1 + Config.freeCycles s.ctr))) ∧
  ∀ (s : State) i rest u, s.agenda = .event i :: rest → Instr.isEvent i = true → exec i { s with agenda := rest } = .next u →
    step s = .next (u.pass (1 + Config.freeCycles s.ctr))

/-- No step ends in a fault or a refusal: from every state the machine goes on. -/
def Obligations.StepGoesOn : Prop := ∀ s : State, s.goesOn

/-- Every step keeps memory in its canonical form, so that equal memories are equal data, and each of the 64 context slots at its own
number. -/
def Obligations.StepKeepsForms : Prop := ∀ s t : State, s.memOk → s.slotsOk → step s = .next t → t.memOk ∧ t.slotsOk

/-- The state after reset: memory and context slots in their forms, every slot absent and nothing resident, in flight or fenced, no
timeline given, as the model has it before the root monitor runs (logs 2 and 19). -/
def Obligations.ResetState : Prop :=
  State.reset.memOk ∧ State.reset.slotsOk ∧ (∀ c < Config.contexts, (State.reset.ctx c).state = 0) ∧ State.reset.blocks = [] ∧
    State.reset.frames = [] ∧ State.reset.ops = [] ∧ State.reset.aops = [] ∧ State.reset.retired = [] ∧ State.reset.collIn = [] ∧
    State.reset.fabOut = [] ∧ State.reset.shootBlock = none ∧ State.reset.timelines = [] ∧ State.reset.fenceC = 0 ∧
    State.reset.fenceP = 0 ∧ State.reset.fw.mreg0 = Config.rootDigest ∧ State.reset.fw.running = false

/-! ### Events: accesses, completions, landings -/

/-- LOAD_DATA_RETURN of a part that may be performed, its gang not at its end: the part is gone; a load's value, what it got as it issued or
the home's value of this instant (the model's choice among the values that R217 allows, log 11), stands in its register and no byte of
memory changes; an atomic leaves the new value at its location, each lane its own old value, and every byte outside
its location as before; with the last data of an operation its slices go on. -/
def Obligations.LoadReturns : Prop :=
  ∀ op unit (s : State) o u, s.unit? op unit = some (o, u) → u.returns = true →
    ((match u.kind with | .load _ _ got => got.isSome | _ => false) = true ∨ s.unitReady o u = true) →
    (∀ g, s.gang? o.blk o.gang = some g → g.finished = false) →
    ∃ t, exec (.loadDataReturn op unit) s = .next t ∧ t.unit? op unit = none ∧
      (∀ home dst got, u.kind = .load home dst got → s.sameBytes t) ∧
      (∀ home lane d got g, u.kind = .load home (.v lane d) got → s.gang? o.blk o.gang = some g → lane < 32 →
        ∃ h, t.gang? o.blk o.gang = some h ∧
          (∀ k < ceilDiv u.n 4, h.vreg (d.toNat + k) lane =
            BitVec.ofNat 32 ((match got with | some x => x.toNat | none => s.readNat u.loc u.n) / 2 ^ (32 * k))) ∧
          ∀ r l, l < 32 → (l ≠ lane ∨ r < d.toNat ∨ d.toNat + ceilDiv u.n 4 ≤ r) → h.vreg r l = g.vreg r l) ∧
      (∀ fn reqs r a, u.kind = .atom fn reqs (some r) → u.loc = .phys a → u.n ≤ 16 → s.memOk →
        let x := atomRun fn u.n (s.readNat (.phys a) u.n) reqs
        t.readNat (.phys a) u.n = x.2 % 2 ^ (8 * u.n) ∧
        (∀ k, k < a ∨ a + u.n ≤ k → Memory.get t.mem k = Memory.get s.mem k) ∧
        ∀ g, s.gang? o.blk o.gang = some g → (reqs.map (·.lane)).Nodup → (∀ q ∈ reqs, q.lane < 32) →
          ∃ h, t.gang? o.blk o.gang = some h ∧ ∀ p ∈ x.1, ∀ k < ceilDiv u.n 4, h.vreg (r.toNat + k) p.1 = BitVec.ofNat 32 (p.2 / 2 ^ (32 * k))) ∧
      ((∃ gi, o.issuer = .group o.blk o.gang gi) → u.isFill = false → (∀ x ∈ o.units, x.name = u.name ∨ x.isFill = true) →
        ∀ h, t.gang? o.blk o.gang = some h → ∀ x ∈ h.slices, x.wait ≠ .data o.id)

/-- STORE_ACKNOWLEDGEMENT of a part that may be performed: the part is gone, a store has changed exactly the bits of its mask at its
location, an atomic without a result has left its new value there, and every byte outside the location is as before. -/
def Obligations.StoreArrives : Prop :=
  ∀ op unit (s : State) o u, s.unit? op unit = some (o, u) → u.returns = false → s.unitReady o u = true →
    (∀ g, s.gang? o.blk o.gang = some g → g.finished = false) →
    ∃ t, exec (.storeAcknowledgement op unit) s = .next t ∧ t.unit? op unit = none ∧
      (∀ d m a, u.kind = .store d m → u.loc = .phys a → u.n ≤ 16 → s.memOk →
        t.readNat (.phys a) u.n = (mergeMask (BitVec.ofNat 128 (s.readNat (.phys a) u.n)) d m).toNat % 2 ^ (8 * u.n) ∧
        ∀ k, k < a ∨ a + u.n ≤ k → Memory.get t.mem k = Memory.get s.mem k) ∧
      ∀ fn reqs a, u.kind = .atom fn reqs none → u.loc = .phys a → u.n ≤ 16 → s.memOk →
        t.readNat (.phys a) u.n = (atomRun fn u.n (s.readNat (.phys a) u.n) reqs).2 % 2 ^ (8 * u.n) ∧
        ∀ k, k < a ∨ a + u.n ≤ k → Memory.get t.mem k = Memory.get s.mem k

/-- A copy, matrix operation or collective that has finished completes after the earlier ones of its timeline or queue: a frame's
operation is counted in its frame and its context, its error joins the queue of its timeline, and before it, for a collective that was cut
short, COLL_PEER_LOST with its group (spec/09 R260); a gang's copy leaves its queue. No byte
of memory changes at the completion of a frame's operation. -/
def Obligations.Completions : Prop :=
  ∀ i op (s : State) o, s.aop? op = some o → s.completable o = true →
    (match o.kind with | .copy => i = .copyCompletion op | .matrix => i = .matrixOperationCompletion op | .coll => i = .collectiveCompletion op) →
    (∀ f x, o.owner = .tile f → s.frame? f = some x → o.ctx < s.ctxs.length →
      let q0 := x.errs.getD (kindIdx o.kind) { entries := [], ovf := false }
      ∃ t y, exec i s = .next t ∧ t.aop? op = none ∧ t.mem = s.mem ∧ t.frame? f = some y ∧
        (∀ k < 3, y.doneOps.getD k 0 = x.doneOps.getD k 0 + if k = kindIdx o.kind then 1 else 0) ∧
        (∀ k < 3, (t.ctx o.ctx).tlCount.getD k 0 = (s.ctx o.ctx).tlCount.getD k 0 + if k = kindIdx o.kind then 1 else 0) ∧
        (o.err = none → o.cut = false → ∀ k < 3, y.errs[k]? = some (x.errs.getD k { entries := [], ovf := false })) ∧
        (∀ e, o.err = some e → o.cut = false → q0.entries.length < 4 →
          ∃ q, y.errs[kindIdx o.kind]? = some q ∧ q.entries = q0.entries ++ [e]) ∧
        ∀ g, o.group? = some g → o.cut = true → q0.entries.length + o.err.toList.length < 4 →
          ∃ q, y.errs[kindIdx o.kind]? = some q ∧ q.entries = q0.entries ++
            ({ number := o.number, cause := 0x0F, tinfo := BitVec.ofNat 32 g, addr := 0 } : AsyncErr) :: o.err.toList) ∧
    ∀ b g gi x, o.owner = .group b g gi → s.gang? b g = some x →
      ∃ (u : State) (y : Gang), exec i s = .next (u.settle b) ∧ u.aop? op = none ∧ u.mem = s.mem ∧ u.gang? b g = some y ∧ y.v = x.v ∧ y.slices = x.slices

/-- A write of an operation of fixed latency becomes visible once computed and in its order, in a typed buffer, a V-tile, shared memory or
a latch: unless a later operation's write is visible over it, its bits then stand in its part, and every other part reads as before. KLD
and KMUL results, and NEXTW's oldest, land in the registers that wait for them. Nothing else of the tile context changes, its tile, shape
and format registers among it, and no other tile context. -/
def Obligations.Landings : Prop :=
  (∀ frame op part (s : State) f x w, s.frame? frame = some f → (f.fixed.find? fun y => y.id == op) = some x → x.writes[part]? = some w →
    x.computed = true → s.fixedWritable f x w = true →
    w.add = [] → s.hasPlace frame w.place = true → (∀ b g l r out, w.place = .vreg b g l r out → w.mask.toNat < 2 ^ 32) →
    (∀ l, w.place = .mem l → w.n = 16) → s.memOk →
    ∃ t g y, exec (.fixedLatencyWriteVisible frame op part) s = .next t ∧ t.frame? frame = some g ∧
      (g.fixed.find? fun y => y.id == op) = some y ∧ y.writes = x.writes.eraseIdx part ∧ y.seen = w :: x.seen ∧
      { g with fixed := f.fixed, buf := f.buf, written := f.written } = f ∧ (∀ u, u ≠ frame → t.frame? u = s.frame? u) ∧
      (f.fixed.all (fun y => !x.before y) = true →
        t.readPlace frame w.place.bare = mergeMask (s.readPlace frame w.place.bare) w.data w.mask ∨
          ∃ b g l r, w.place.bare = .vreg b g l r false ∧ (t.readPlace frame w.place.bare).setWidth 32 =
            (mergeMask (s.readPlace frame w.place.bare) w.data w.mask).setWidth 32) ∧
      ∀ q : Place, q.apart w.place = true → (∀ b g l r out, q = .vreg b g l r out → l < 32) →
        t.readPlace frame q.bare = s.readPlace frame q.bare) ∧
  (∀ i frame op (s : State) f l x, s.frame? frame = some f → (f.landings.find? fun y => y.id == op) = some l → l.value = some x → l.reg < 64 →
    (match l.due with | none => i = .kldLanding frame op | some d => i = .kmulLanding frame op ∧ (f.draining = true ∨ d ≤ f.bundles)) →
    ∃ t g, exec i s = .next t ∧ s.onlyFrame t frame ∧ t.frame? frame = some g ∧ { g with regs := f.regs, landings := f.landings } = f ∧
      f.regs.onlyScalars g.regs ∧ (g.landings = f.landings.filter fun y => y.id != op) ∧
      ∀ m < 64, g.regs.scalar m = if m = l.reg then scalarCut l.reg x else f.regs.scalar m) ∧
  ∀ frame (s : State) f l ls x, s.frame? frame = some f → f.nextws = l :: ls → l.value = some x → l.due ≤ f.bundles → l.target < 8 →
    ∃ t g, exec (.nextwLanding frame) s = .next t ∧ s.onlyFrame t frame ∧ t.frame? frame = some g ∧
      { g with regs := f.regs, nextws := f.nextws } = f ∧ g.nextws = ls ∧ f.regs.onlyScalars g.regs ∧
      ∀ m < 64, g.regs.scalar m = if m = 32 + l.target then x else f.regs.scalar m

/-- MONWAIT_WAKE after a write that satisfied a comparison and MONWAIT_POLL at the end of an interval let the slices that wait so go on;
nothing else of the gang changes. RING_WAIT_WAKE tests a group's ring again: with a slot to grant, RACQ, or RPEEK, completes as it would at
its issue; without one the group waits on. A tile context tests when its bundle issues again. The waiter's monitors are disarmed where it
goes on. That RING_WAIT_WAKE may come at any time is the model's choice (log 22), and so are the instants at which MONWAIT_POLL comes
(log 8) (spec/03 R70, spec/16 R433, R434). -/
def Obligations.WakeUps : Prop :=
  (∀ b gn gi (s : State) g, s.gang? b gn = some g → (s.monitors.any fun m => m.kind == .waiter (.group b gn gi) && m.hit) = true →
    ∃ t h, exec (.monwaitWake (.group b gn gi)) s = .next t ∧ t.mem = s.mem ∧ (∀ m ∈ t.monitors, m.kind ≠ .waiter (.group b gn gi)) ∧
      t.gang? b gn = some h ∧ { h with slices := g.slices } = g ∧ ∀ k : Nat, h.slices[k]? = (g.slices[k]?).map fun x =>
        if x.group = gi ∧ x.wait = .monwait none then { x with wait := .none, again := .woken } else x) ∧
  (∀ b gn gi (s : State) g, s.gang? b gn = some g →
    ∃ t h, exec (.monwaitPoll (.group b gn gi)) s = .next t ∧ t.mem = s.mem ∧ t.monitors = s.monitors ∧
      t.gang? b gn = some h ∧ { h with slices := g.slices } = g ∧ ∀ k : Nat, h.slices[k]? = (g.slices[k]?).map fun x =>
        match x.wait with
        | .monwait (some n) => if x.group = gi then { x with wait := .none, again := .polled n } else x
        | _ => x) ∧
  (∀ b gn gi (s : State) v peek d sc va l r, ({ s with cur := .group b gn gi } : State).view? = some v →
    (v.slice v.low).wait = .retry (.ringTake peek d sc va) → (s.ctx v.b.ctx).state = 1 → s.memOk →
    let u := s.disarm v.issuer
    u.rcbLoc (v.ringParty u) va = .ok (runOf l 32) → s.hasLoc l → Rcb.ofBytes (s.readLoc l 32) = some r →
    ∃ t, exec (.ringWaitWake (.group b gn gi)) s = .next t ∧ match r.next (!peek) with
      | some n => s.ringTaken t l r (!peek) n ∧ t.wroteS v d.toNat 64 (r.base + n % r.scount * r.ssize) ∧ s.sameV t v ∧ s.sameP t v ∧
          (t.slices v fun _ x => { x.on 8 with wait := .none }) ∧ (scopeWide sc = true → t.acquired v.b.core) ∧
          ∀ m ∈ t.monitors, m.kind ≠ .waiter (.group b gn gi)
      | none => t.mem = s.mem ∧ t.blocks = s.blocks) ∧
  ∀ f (s : State) x l, s.frame? f = some x → x.wait = .ring l →
    ∃ t, exec (.ringWaitWake (.tile f)) s = .next t ∧ t.mem = s.mem ∧ (∀ m ∈ t.monitors, m.kind ≠ .waiter (.tile f)) ∧
      t.frame? f = some { x with wait := .none }

/-- The turns of frames and gangs. A frame whose GRET has drained with no error queued gives K0 to K7 back to its gangs, which go on
behind the GATE, and frees its tile context and sequencer; its latches are free, and keep their bytes. A gang trapped at the GATE returns
behind it, by the model's choice (log 22). A queued error is raised instead, at its B slot. The oldest queued
frame of a core takes a free tile context and its windows; a free sequencer takes the next ready one. The slices of a group whose paths
must give way rotate at their instruction boundary, each with its own paths, and the others are as they were. The gang that its quadrant
has chosen to give way leaves the active set at its next instruction boundary, with its latches invalid, whatever has become free since.
The longest-waiting ready pending gang takes a free place of its quadrant's active set. -/
def Obligations.Turns : Prop :=
  (∀ frame (s : State) f, s.frame? frame = some f → s.drained f = true → f.lowestErr = none →
    ∃ u : State, exec (.gretCompletion frame) s = .next (u.settle f.blk) ∧ u.frame? frame = none ∧ u.mem = s.mem ∧
      (∀ r ∈ u.running, r.2 ≠ frame) ∧ (∀ l ∈ u.latches, l.owner = frame → l.valid = false) ∧ u.latches.map (·.bytes) = s.latches.map (·.bytes) ∧
      ∀ n g, s.gang? f.blk n = some g → g.finished = false → f.gangs.contains n = true →
        ∃ h, u.gang? f.blk n = some h ∧ h.v = g.v ∧ h.y = g.y ∧ h.p = g.p ∧
          (∀ k : Nat, h.groups[k]? = (g.groups[k]?).map fun r => { r with s := r.s.mapIdx fun i x => if i < 8 then f.regs.k.getD i 0 else x }) ∧
          ∀ k : Nat, h.slices[k]? = (g.slices[k]?).map fun x =>
            if x.wait = .frame f.uid then { x with fflags := x.fflags ||| f.regs.fflags, pc := f.retpc, wait := .none, again := .fresh }
            else if x.trapMode.isSome = true ∧ x.tpc = f.gatePc then { x with fflags := x.fflags ||| f.regs.fflags, tpc := f.retpc.setWidth 64 }
            else { x with fflags := x.fflags ||| f.regs.fflags }) ∧
  (∀ frame (s : State) f k t q, s.frame? frame = some f → s.drained f = true → f.lowestErr = some (k, t, q) →
    exec (.gretCompletion frame) s =
      .next ((s.updFrame frame fun x => { x with draining := false, errs := putAt 3 { entries := [], ovf := false } x.errs k q }).trapAt frame 5 t)) ∧
  (∀ core (s : State) f b c w x z, s.frame? f.uid = some f → f ∈ s.queuedFrames core → (∀ g ∈ s.queuedFrames core, g = f ∨ f.qseq < g.qseq) →
    s.block? f.blk = some b → s.tilePlace core b.kernel = some (c, w, x, z) → (∀ b ∈ s.blocks, b.core = core → b.gateSince = none) →
    ∃ t, exec (.frameTakesTileContext core) s = .next t ∧ t.mem = s.mem ∧ t.blocks = s.blocks ∧
      t.frame? f.uid = some { f with tctx := some c, w, x, z, status := if f.status = 3 then 3 else 1, latches := [] }) ∧
  (∀ core (s : State) f, s.nextTile core = some f → s.frame? f.uid = some f → (∀ r ∈ s.running, r.1 ≠ core) →
    ∃ t, exec (.tileContextSwitch core) s = .next t ∧ t.mem = s.mem ∧ t.blocks = s.blocks ∧ t.running = s.running ++ [(core, f.uid)] ∧
      t.frame? f.uid = some { f with wait := .none, status := if f.status = 2 then 1 else f.status }) ∧
  (∀ blk gang k (s : State) g x r, s.gang? blk gang = some g → g.slices[k]? = some x → k < 8 → g.slices.length ≤ 8 →
    (g.groups.find? fun r => r.id == x.group) = some r → x.wait = .none → x.again = .fresh → x.exited = false → x.mustRotate = true →
    (∀ y ∈ g.slices, y.group = x.group → y.exited = false → y.stack.length ≤ 16) →
    ∃ t h, exec (.sliceRotation blk gang k) s = .next t ∧ t.mem = s.mem ∧ t.cur = s.cur ∧ t.gang? blk gang = some h ∧ h.v = g.v ∧ h.p = g.p ∧
      h.y = g.y ∧ ∀ (j : Nat) (y : Slice), g.slices[j]? = some y → ∃ z : Slice, h.slices[j]? = some z ∧ { z with group := y.group } =
        if y.group = x.group ∧ y.exited = false ∧ y.wait = .none ∧ y.again = .fresh ∧ y.mustRotate = true then y.rotate y.pc else y) ∧
  (∀ core quad (s : State) b g, b ∈ s.blocks → s.block? b.uid = some b → b.core = core → g ∈ b.gangs → b.gang? g.name = some g → g.quad = quad →
    g.finished = false → g.active = true → g.leaves = true → g.atEdge = true →
    (∀ b' ∈ s.blocks, b'.core = core → ∀ g' ∈ b'.gangs, g'.quad = quad → g'.finished = false → g'.active = true → g'.leaves = true →
      (b'.uid, g') = (b.uid, g)) →
    ∃ t h, exec (.pendingGangPromotion core quad) s = .next t ∧ s.onlyBlocks t ∧ t.gang? b.uid g.name = some h ∧ h.leaves = false ∧
      h.issuedActive = 0 ∧ h.v = g.v ∧ h.p = g.p ∧ h.slices = g.slices.map fun x => { x with yValid := 0 }) ∧
  ∀ core quad (s : State) b g, b ∈ s.blocks → s.block? b.uid = some b → b.core = core → g ∈ b.gangs → b.gang? g.name = some g → g.quad = quad →
    g.finished = false → g.active = false → s.gangReady b g = true →
    (∀ b' ∈ s.blocks, b'.core = core → ∀ g' ∈ b'.gangs, g'.quad = quad → g'.finished = false → g'.active = true → g'.leaves = false) →
    (∀ b' ∈ s.blocks, b'.core = core → ∀ g' ∈ b'.gangs, g'.quad = quad → g'.finished = false → g'.active = false →
      s.gangReadyAt b'.uid g' = true → (b'.uid, g') = (b.uid, g) ∨ g'.readyFor < g.readyFor ∨ g'.readyFor = g.readyFor ∧ g.slot < g'.slot) →
    ((s.blocks.filter fun b => b.core == core).flatMap fun b => b.gangs.filter fun g => g.quad == quad && !g.finished && g.active).length
      < Config.quadActive →
    ∃ t, exec (.pendingGangPromotion core quad) s = .next t ∧ s.onlyBlocks t ∧
      t.gang? b.uid g.name = some { g with active := true, issuedActive := 0, readyFor := 0 }

/-! ### Events: Flares, placement, launches -/

/-- A Flare request for a context that does not admit it is answered with code 3, and one whose handler entry is bad with code 2 and
logged with its index and its sender; a request that its class has room for joins the queue and is answered with code 0. An answer writes
its code to the request that it belongs to; a request that has no answer within ATO cycles gets code 5, and a copy's part an error. -/
def Obligations.FlareTraffic : Prop :=
  (∀ (s : State) p u, s.receive p = some u → p.kind = 0 → bit p.flags 1 = false → u.admits p.dctx.toNat p.sdev.toNat = false →
    exec (.flareRequest p) s = .next (u.reply p 1 3 0 [])) ∧
  (∀ (s : State) p u v, s.receive p = some u → p.kind = 0 → bit p.flags 1 = false → u.admits p.dctx.toNat p.sdev.toNat = true →
    u.handlerEntry p.dctx.toNat p.hidx.toNat = (none, v) → exec (.flareRequest p) s = .next ((v.logIndex p.dctx.toNat p).reply p 1 2 0 [])) ∧
  (∀ (s : State) p u v h w, s.receive p = some u → p.kind = 0 → bit p.flags 1 = false → u.admits p.dctx.toNat p.sdev.toNat = true →
    u.handlerEntry p.dctx.toNat p.hidx.toNat = (some h, v) → ((v.ctx p.dctx.toNat).intake.getD p.prio.toNat .empty).spill = [] →
    ((v.ctx p.dctx.toNat).intake.getD p.prio.toNat .empty).queue.length < ((v.ctx p.dctx.toNat).intake.getD p.prio.toNat .empty).cap →
    v.enqueue p.dctx.toNat p.prio.toNat p h = some w → p.dctx.toNat < v.ctxs.length → p.prio.toNat < (v.ctx p.dctx.toNat).intake.length →
    exec (.flareRequest p) s = .next (w.reply p 1 0 0 []) ∧
      ∃ q ∈ ((w.ctx p.dctx.toNat).intake.getD p.prio.toNat .empty).queue, q.pkt = p ∧ q.h = h) ∧
  (∀ (s : State) p u r, s.receive p = some u → p.kind = 1 → (u.flares.find? fun r => r.answeredBy p) = some r →
    (u.flares.find? fun x => x.id == r.id && x.answer.isNone) = some r →
    ∃ t, exec (.flareAnswer p) s = .next t ∧ t.mem = s.mem ∧
      t.flares = u.flares.map fun x => if x.id = r.id then { x with answer := some p.flags.toNat } else x) ∧
  (∀ req (s : State) r, (s.flares.find? fun r => r.id == req && r.answer.isNone) = some r → r.sent + s.ato ≤ s.time.toNat →
    ∃ t, exec (.answerTimeout req) s = .next t ∧ t.mem = s.mem ∧
      t.flares = s.flares.map fun x => if x.id = req then { x with answer := some 5 } else x) ∧
  ∀ req (s : State) o x sent, (s.flares.find? fun r => r.id == req && r.answer.isNone) = none →
    (s.aops.findSome? fun o => (o.parts.find? fun x => x.id == req).map fun x => (o, x)) = some (o, x) → s.aop? o.id = some o →
    x.sent = some sent → sent + s.ato ≤ s.time.toNat →
    ∃ t y, exec (.answerTimeout req) s = .next t ∧ t.mem = s.mem ∧ t.aop? o.id = some y ∧ y.err.isSome = true ∧
      y.parts = o.parts.filter fun z => z.id != req

/-- A coalescing group closes when its window has passed, and counts one class higher, up to class 3, for each 16,384 cycles that it has
waited since. The oldest waiter of a context takes a fault-table entry, its Flare is held and the waiter is told its token. A closed
group's handler gang is placed, and the group is gone from those that wait. -/
def Obligations.Intake : Prop :=
  (∀ ctx group (s : State), ctx < s.ctxs.length →
    ∃ t, exec (.coalescingWindowExpiry ctx group) s = .next t ∧ t.mem = s.mem ∧ t.blocks = s.blocks ∧
      (t.ctx ctx).groups = (s.ctx ctx).groups.map fun g =>
        if g.uid = group ∧ g.closed = none ∧ g.opened + g.h.window ≤ s.time.toNat then { g with closed := some (g.opened + g.h.window) } else g) ∧
  (∀ ctx group (s : State), ctx < s.ctxs.length →
    ∃ t, exec (.groupAgePromotion ctx group) s = .next t ∧ t.mem = s.mem ∧ t.blocks = s.blocks ∧
      ∀ k : Nat, (t.ctx ctx).groups[k]? = ((s.ctx ctx).groups[k]?).map fun g =>
        match g.closed with
        | some c => if g.uid = group then { g with bumped := min (3 - g.cls) ((s.time.toNat - c) / 16384) } else g
        | none => g) ∧
  (∀ ctx (s : State) w ws idx gen t0 h, ctx < s.ctxs.length → (s.ctx ctx).faultWaits = w :: ws →
    s.freeFaultEntry ctx 0 (s.ctx ctx).desc.ftcount = some (some (idx, gen)) →
    let left := s.updCtx ctx fun x => { x with faultWaits := ws }
    left.devWrite ctx ((s.ctx ctx).desc.ftab + 16 * idx) (left.faultBytes gen w.waiter) = some t0 →
    t0.handlerEntry ctx (s.ctx ctx).desc.fhidx = (some h, t0) →
    ∃ t e q, exec (.faultEntryAssign ctx) s = .next t ∧ t.mem = t0.mem ∧ (t.ctx ctx).faultWaits = ws ∧
      (t.ctx ctx).faults = (s.ctx ctx).faults ++ [e] ∧ e.idx = idx ∧ e.gen = gen ∧ e.state = 1 ∧ e.waiter = w.waiter ∧ e.held = some q ∧
      q.pkt.hidx = BitVec.ofNat 12 (s.ctx ctx).desc.fhidx ∧ q.pkt.dctx = BitVec.ofNat 12 ctx ∧ q.pkt.prio = 3) ∧
  ∀ ctx (s : State) g core slot, s.nextHandler ctx = some (g, core, slot) →
    ∃ t, exec (.handlerGangPlacement ctx) s = .next t ∧ (ctx < s.ctxs.length → g.uid < s.uid → ∀ y ∈ (t.ctx ctx).groups, y.uid ≠ g.uid) ∧
      ∃ b ∈ t.blocks, b.uid = s.uid ∧ b.ctx = ctx ∧ b.core = core ∧ b.slot = slot ∧
      b.handler = some { hidx := g.hidx, cls := g.cls, maxg := g.h.maxg, pkts := g.pkts.map (·.pkt) }

/-- The front end takes a published record of a served queue, once and in order: a well-formed one is kept in hand with its kernel and
with the completion ring that its queue has as it is taken, which is the model's choice (log 24). A poll whose word has not come doubles
its interval, to at most 65,536 cycles. A record whose conditions hold starts: a launch becomes a grid with no block placed; a record of
neither kind finishes at once and signals its timeline. A node of a graph whose record is taken starts as a record does, when its
conditions hold (spec/03 R64). A grid whose work is done leaves, and its record signals. -/
def Obligations.FrontEnd : Prop :=
  (∀ i ctx queue (s : State) q n w bs k, i = .launchTicketSeen ctx queue ∨ i = .frontEndPoll ctx queue ∧ q.poll ≠ 0 →
    ctx < s.ctxs.length → (s.ctx ctx).queue? queue = some q → (s.ctx ctx).state = 1 → q.inHand = none → s.awaits ctx q = some (n, w, true) →
    s.devRead ctx (q.base + n % 2 ^ q.slog * 64) 64 = some bs → s.recordOk ctx (BitVec.ofNat 512 (leNat bs)) = true →
    let r := q.record n (BitVec.ofNat 512 (leNat bs))
    ((r.kind = 0 ∧ (∃ x, s.kernelAt ctx r.code r.args = (some x, s) ∧ r.gx * r.gy * r.gz % x.csize = 0 ∧ k = some x)) ∨
      (r.kind = 1 ∧ (∃ x, s.graphAt ctx r.code = .ok x) ∧ k = none) ∨ (r.kind = 2 ∧ k = none)) →
    ∃ t q', exec i s = .next t ∧ t.mem = s.mem ∧ (t.ctx ctx).queue? queue = some q' ∧ q'.inHand = some (r, k)) ∧
  (∀ ctx queue (s : State) q n w, ctx < s.ctxs.length → (s.ctx ctx).queue? queue = some q → (s.ctx ctx).state = 1 → q.poll ≠ 0 →
    s.awaits ctx q = some (n, w, false) → w = q.word →
    ∃ t, exec (.frontEndPoll ctx queue) s = .next t ∧ t.mem = s.mem ∧
      (t.ctx ctx).queue? queue = some { q with poll := min (2 * q.poll) 65536 }) ∧
  (∀ ctx queue (s : State) q r k, ctx < s.ctxs.length → (s.ctx ctx).queue? queue = some q → q.inHand = some (r, some k) →
    (s.ctx ctx).state = 1 → r.kind = 0 → s.waitsHold r = true →
    ∃ t g, exec (.recordStart ctx (.queue queue)) s = .next t ∧ (t.ctx ctx).grids = (s.ctx ctx).grids ++ [g] ∧ g.record = r ∧ g.kernel = k ∧
      g.queue = queue ∧ g.next = 0 ∧ g.live = 0 ∧ g.total = r.gx * r.gy * r.gz) ∧
  (∀ ctx queue (s : State) q r k, ctx < s.ctxs.length → (s.ctx ctx).queue? queue = some q → q.inHand = some (r, k) →
    (s.ctx ctx).state = 1 → r.kind = 2 → s.waitsHold r = true → r.sigmode % 2 = 1 → (s.timeline r.sigtl).valid = true →
    ∃ t, exec (.recordStart ctx (.queue queue)) s = .next t ∧ (t.ctx ctx).grids = (s.ctx ctx).grids ∧
      (t.timeline r.sigtl).count = (s.timeline r.sigtl).count + 1) ∧
  (∀ ctx uid n (s : State) l r k, ctx < s.ctxs.length → ((s.ctx ctx).launches.find? fun l => l.uid == uid) = some l → (s.ctx ctx).state = 1 →
    l.states.getD n 0 = 1 → l.bad = false → assocGet n l.taken = some (r, some k) →
    ∃ t, exec (.recordStart ctx (.node uid n)) s = .next t ∧ if s.waitsHold r = true then
        ∃ g, (t.ctx ctx).grids = (s.ctx ctx).grids ++ [g] ∧ g.record = r ∧ g.kernel = k ∧ g.node = some (uid, n) ∧ g.next = 0
      else t = s) ∧
  ∀ ctx rec (s : State) g, ctx < s.ctxs.length → ((s.ctx ctx).grids.find? fun g => g.uid == rec) = some g → s.gridDone g = true →
    ∃ t, exec (.recordFinish ctx rec) s = .next t ∧ (∀ x ∈ (t.ctx ctx).grids, x.uid ≠ rec) ∧
      (g.node = none → g.record.sigmode % 2 = 1 → (s.timeline g.record.sigtl).valid = true →
        (t.timeline g.record.sigtl).count = (s.timeline g.record.sigtl).count + 1)

/-- The next block of the first grid to be tried starts on the core that fits it, in its arena slot, and is counted. A grid that has
fitted nowhere for 65,536 cycles is reserved for. A context whose slice is over while another of its priority finds no core stops, of
several the one of the lowest priority, then the longest since it was restored, then the lowest-numbered (spec/03 R74, R76); the next of
those that the front end stopped resumes when its block fits, or is killed when its save area cannot be read. -/
def Obligations.Placement : Prop :=
  (∀ die (s : State) c uid rest g core slot, s.wants = .next c uid :: rest → c < s.ctxs.length →
    ((s.ctx c).grids.find? fun g => g.uid == uid) = some g → g.kernel.csize = 1 → s.fitWant (.next c uid) = some ([core], [slot]) →
    dieOf core = die → s.argsLost (gridBlock c g 0 g.next) = false →
    ∃ t g', exec (.blockPlacement die) s = .next t ∧ ((t.ctx c).grids.find? fun g => g.uid == uid) = some g' ∧ g'.next = g.next + 1 ∧
      g'.live = g.live + 1 ∧ ∃ b ∈ t.blocks, b.uid = s.uid ∧ b.ctx = c ∧ b.core = core ∧ b.slot = slot ∧ b.grid = g.uid ∧ b.number = g.next ∧
        b.kernel = g.kernel ∧ b.bx = g.next % g.record.gx ∧ b.bY = g.next / g.record.gx % g.record.gy ∧
        b.bz = g.next / (g.record.gx * g.record.gy) ∧ ∀ x ∈ b.gangs, ∀ y ∈ x.slices, y.pc = BitVec.ofNat 57 g.kernel.entry) ∧
  (∀ ctx grid (s : State), ctx < s.ctxs.length →
    ∃ t, exec (.gridReservation ctx grid) s = .next t ∧ t.mem = s.mem ∧ t.blocks = s.blocks ∧
      ∀ k : Nat, (t.ctx ctx).grids[k]? = ((s.ctx ctx).grids[k]?).map fun g =>
        match g.unfitSince with
        | some c => if g.uid = grid ∧ c + 65536 ≤ s.time.toNat then { g with reserved := true } else g
        | none => g) ∧
  (∀ ctx (s : State) d, ctx < s.ctxs.length → s.slotsOk → (s.ctx ctx).state = 1 → s.holdsCore ctx = true →
    1024 * (s.ctx ctx).desc.tslice ≤ (s.ctx ctx).used → d ∈ s.ctxs → d.id ≠ ctx → d.desc.prio = (s.ctx ctx).desc.prio →
    (d.state = 1 ∧ s.unfit d.id = true ∨ d.state = 3 ∧ d.byFront = true ∧ s.resumeFits d.id = false) →
    (∀ e ∈ s.ctxs, e.state = 1 → s.holdsCore e.id = true → s.sliceOver e = true → e.id = ctx ∨ (s.ctx ctx).desc.prio < e.desc.prio ∨
      (s.ctx ctx).desc.prio = e.desc.prio ∧ ((s.ctx ctx).restored < e.restored ∨ (s.ctx ctx).restored = e.restored ∧ ctx < e.id)) →
    ∃ t, exec (.timeSliceExpiry ctx) s = .next t ∧ (t.ctx ctx).state = 2 ∧ (t.ctx ctx).byFront = true ∧ (t.ctx ctx).groups = [] ∧
      t.blocks = s.blocks ∧ t.mem = s.mem) ∧
  (∀ ctx (s : State) rs ns, ctx < s.ctxs.length → s.nextResume ctx = true → s.resumeFits ctx = true → s.readSave ctx = some (rs, ns) →
    ∃ t, exec (.contextAutoResume ctx) s = .next t ∧ s.resumed t ctx rs) ∧
  ∀ ctx (s : State), ctx < s.ctxs.length → s.nextResume ctx = true → s.resumeFits ctx = true → s.readSave ctx = none →
    ∃ t, exec (.contextAutoResume ctx) s = .next t ∧ (t.ctx ctx).state = 4 ∧ (t.ctx ctx).kcause = 5

/-! ### Events: fabric, host, control, reliability -/

/-- A remote write that its context admits and whose page and regions allow it is performed at its home, byte for byte, and
acknowledged; a remote read returns the bytes at its home; a refused one is answered with ERR and moves no byte, and so is, by the model's
choice (log 24), a read of a poisoned part. A response or acknowledgement ends its part, with an error when it carries ERR; the bytes of a
response are kept for their local places, and become visible there part by part, but where a copy from this device to itself overlaps its
own source: there the bytes are undefined (spec/13 R352). -/
def Obligations.RemoteParts : Prop :=
  (∀ (s : State) p u pa, s.receive p = some u → p.kind = 2 → s.shootdownAt p.dctx.toNat p.addr.toNat = none →
    u.remoteTarget p true = some pa → s.memOk →
    ∃ v : State, exec (.remoteWrite p) s = .next (v.reply p 5 0 0 []) ∧
      Memory.bytes v.mem pa (p.data.take p.len).length = p.data.take p.len ∧
      ∀ k, k < pa ∨ pa + (p.data.take p.len).length ≤ k → Memory.get v.mem k = Memory.get s.mem k) ∧
  (∀ (s : State) p u, s.receive p = some u → p.kind = 2 → s.shootdownAt p.dctx.toNat p.addr.toNat = none → u.remoteTarget p true = none →
    exec (.remoteWrite p) s = .next (u.reply p 5 1 0 [])) ∧
  (∀ (s : State) p u pa, s.receive p = some u → p.kind = 3 → u.remoteTarget p false = some pa → u.poisoned (.phys pa) p.len = false →
    exec (.remoteReadRequest p) s = .next (u.reply p 4 0 p.len (Memory.bytes s.mem pa p.len))) ∧
  (∀ (s : State) p u, s.receive p = some u → p.kind = 3 →
    (u.remoteTarget p false = none ∨ ∃ pa, u.remoteTarget p false = some pa ∧ u.poisoned (.phys pa) p.len = true) →
    exec (.remoteReadRequest p) s = .next (u.reply p 4 1 p.len [])) ∧
  (∀ i (s : State) p u o x dev ctx back, s.receive p = some u → u.partOf p = some (o, x) → u.aop? o.id = some o →
    o.remote? = some (dev, ctx, back) → (i = .readResponse p ∧ p.kind = 4 ∧ back = false ∨ i = .writeAcknowledgement p ∧ p.kind = 5 ∧ back = true) →
    bit p.flags 0 = true →
    ∃ t y, exec i s = .next t ∧ t.mem = s.mem ∧ t.aop? o.id = some y ∧ y.err.isSome = true ∧ y.parts = o.parts.filter fun z => z.id != x.id) ∧
  (∀ (s : State) p u o x dev ctx, s.receive p = some u → u.partOf p = some (o, x) → u.aop? o.id = some o →
    o.remote? = some (dev, ctx, true) → p.kind = 5 → bit p.flags 0 = false →
    ∃ t y, exec (.writeAcknowledgement p) s = .next t ∧ t.mem = s.mem ∧ t.aop? o.id = some y ∧ y.err = o.err ∧
      y.parts = o.parts.filter fun z => z.id != x.id) ∧
  ∀ (s : State) p u o x dev ctx, s.receive p = some u → u.partOf p = some (o, x) → u.aop? o.id = some o →
    o.remote? = some (dev, ctx, false) → p.kind = 4 → bit p.flags 0 = false → p.len = x.len →
    ∃ t y, exec (.readResponse p) s = .next t ∧ t.mem = s.mem ∧ t.aop? o.id = some y ∧ y.err = o.err ∧
      (y.parts = o.parts.filter fun z => z.id != x.id) ∧
      ∀ va d c b len todo got near, o.work = .cpyRemote va d c b len false todo got near →
        y.work = .cpyRemote va d c b len false todo ((p.data.take x.len).mapIdx (fun j z => (x.off + j, z)) ++ got) near ∧
        ∀ k off a n, todo[k]? = some (off, .phys a, n) → 0 < n → n ≤ 16 → x.off ≤ off → off + n ≤ x.off + x.len →
          x.len ≤ p.data.length → s.memOk → (∀ q ∈ t.selfLocs y (cutGranules [(b, len)]), q.1.overlaps q.2 (.phys a) n = false) →
          Memory.bytes (t.asyncPart y k).mem a n = (p.data.drop (off - x.off)).take n ∧
            ∀ j, j < a ∨ a + n ≤ j → Memory.get (t.asyncPart y k).mem j = Memory.get s.mem j

/-- Data of a collective waits for its operation, held by the model in `collIn` (log 23), or joins it: the operation has its result once
its own input is read and every other rank's has come, and data of another operation, reduction, type or count cuts the group short, also
where that operation has already ended. An abort, or COLTO cycles without data, breaks the group: its operations end with an error and
write nothing more. A failed port is fenced and leaves every route, the packets at it are lost, requests go on waiting for their answers,
by the model's choice (log 17), and a group with a member whose route or device is lost is broken; a packet that the model's check of its
form refuses (log 17) is counted and otherwise dropped, a retransmission changes nothing, and ageing only reorders what leaves. -/
def Obligations.CollectivesAndLinks : Prop :=
  (∀ (s : State) p u tag, s.receive p = some u → p.kind = 6 → p.coll = some tag → u.admits p.dctx.toNat p.sdev.toNat = true →
    (u.ctx p.dctx.toNat).broken.contains p.hidx.toNat = false → p.hidx.toNat < (u.ctx p.dctx.toNat).desc.gcount →
    (u.aops.find? (collMatch p.dctx.toNat p.hidx.toNat tag.seq)) = none →
    (assocGet p.hidx.toNat (u.ctx p.dctx.toNat).collSeq).getD 0 ≤ tag.seq →
    exec (.collectiveData p) s = .next { u with collIn := u.collIn ++ [p] }) ∧
  (∀ (s : State) p u tag o sw td ta ka op red ty e g rank m n inputs, s.receive p = some u → p.kind = 6 → p.coll = some tag →
    u.admits p.dctx.toNat p.sdev.toNat = true → (u.ctx p.dctx.toNat).broken.contains p.hidx.toNat = false →
    p.hidx.toNat < (u.ctx p.dctx.toNat).desc.gcount → p.dctx.toNat < u.ctxs.length →
    (u.aops.find? (collMatch p.dctx.toNat p.hidx.toNat tag.seq)) = some o → u.aop? o.id = some o →
    o.work = .coll (.coll sw td ta ka op red ty) e g rank m tag.seq n inputs →
    let ps := (u.collIn ++ [p]).filter fun q => collFor q p.dctx.toNat g tag.seq
    ∃ t, exec (.collectiveData p) s = .next t ∧
      (¬tagAgrees tag op red ty n → u.groupBroken t p.dctx.toNat g) ∧
      ((∀ q ∈ ps, ∃ x, q.coll = some x ∧ tagAgrees x op red ty n) → t.mem = s.mem ∧ t.collIn = u.collIn ++ [p] ∧
        ((inputs.find? fun x => x.1 == rank) = none → t.aop? o.id = some { o with since := s.time.toNat }) ∧
        ∀ own xs, (inputs.find? fun x => x.1 == rank) = some own → o.got = [] → (∀ r < m, r ≠ rank → ∃ bs, (r, bs) ∈ xs) →
          (((List.range m).filter (· != rank)).filterMap fun r =>
            (rankInput ps r ((collCounts op n m r).1 * (efWidth (collEf ty) / 8))).map fun bs => (r, bs)) = xs →
          ∃ y, t.aop? o.id = some y ∧ y.work = .coll (.coll sw td ta ka op red ty) e g rank m tag.seq n (own :: xs) ∧ y.got ≠ [] ∧
            y.err = o.err ∧ y.writes = if o.discard then [] else
              (e.collWrites (2 * s.ctr + 1) (.coll sw td ta ka op red ty) m rank n (own :: xs)).1)) ∧
  (∀ (s : State) p u tag own, s.receive p = some u → p.kind = 6 → p.coll = some tag → u.admits p.dctx.toNat p.sdev.toNat = true →
    (u.ctx p.dctx.toNat).broken.contains p.hidx.toNat = false → p.hidx.toNat < (u.ctx p.dctx.toNat).desc.gcount →
    (u.aops.find? (collMatch p.dctx.toNat p.hidx.toNat tag.seq)) = none → p.dctx.toNat < u.ctxs.length →
    tag.seq < (assocGet p.hidx.toNat (u.ctx p.dctx.toNat).collSeq).getD 0 →
    ((u.ctx p.dctx.toNat).collPast.find? fun y => y.1 == p.hidx.toNat && y.2.seq == tag.seq) = some own →
    ∃ t, exec (.collectiveData p) s = .next t ∧ (tagAgrees tag own.2.op own.2.red own.2.ty own.2.count → t = u) ∧
      (¬tagAgrees tag own.2.op own.2.red own.2.ty own.2.count → u.groupBroken t p.dctx.toNat p.hidx.toNat)) ∧
  (∀ (s : State) p u, s.receive p = some u → p.kind = 7 → u.admits p.dctx.toNat p.sdev.toNat = true → p.dctx.toNat < u.ctxs.length →
    ∃ t, exec (.collectiveAbort p.hidx p) s = .next t ∧ u.groupBroken t p.dctx.toNat p.hidx.toNat) ∧
  (∀ ctx group (s : State) o, ctx < s.ctxs.length → o ∈ s.aops → o.ctx = ctx → o.group? = some group → o.started = true → o.cut = false →
    o.since + s.colto ≤ s.time.toNat → ∃ t, exec (.collectiveTimeout ctx group) s = .next t ∧ s.groupBroken t ctx group) ∧
  (∀ (port : BitVec 5) lost (s : State),
    ∃ t, exec (.linkFailure port lost) s = .next t ∧ bit t.fenceP port.toNat = true ∧ t.replace = true ∧ (∀ r ∈ t.routes, port.toNat ∉ r.2) ∧
      (t.fabOut = s.fabOut.filter fun q => s.port q.2 != port.toNat) ∧ t.flares = s.flares ∧
      ∀ o c g, o ∈ s.aops → o.ctx = c → o.group? = some g → (∀ x ∈ s.aops, x.group? = none ∨ x.ctx = c ∧ x.group? = some g) →
        c < s.ctxs.length → s.groupOn c g lost port.toNat = true → s.groupBroken t c g) ∧
  (∀ p (s : State), packetOk p = false → exec (.droppedPacket p) s = .next { s with fabErr := s.fabErr + 1 }) ∧
  (∀ port (s : State), exec (.linkRetransmission port) s = .next s) ∧
  ∀ port (s : State), ∃ l : List (Nat × Packet), exec (.flitPriorityAgeing port) s = .next { s with fabOut := l } ∧
    (l.map (·.2)).Perm (s.fabOut.map (·.2))

/-- A host load receives the bytes at their home; a host store that meets no sealed region writes its bytes and no other; a host atomic
receives the old value and leaves the new one. One that the link does not serve, or that a sealed region or an error refuses, changes
no byte; that a sealed region refuses also where its home is host memory, and that a host load or atomic of a poisoned part is refused, is
the model's choice (log 24). In recovery, a store to the staging window fills it. -/
def Obligations.HostAccesses : Prop :=
  (∀ pa n (s : State), s.hostReach pa n = true → s.poisoned (.phys pa) n = false →
    exec (.hostLoad pa n) s = .next { s with hostOut := s.hostOut ++ [.loaded pa (Memory.bytes s.mem pa n)] }) ∧
  (∀ pa data (s : State), s.memOk → s.hostReach pa data.length = true → s.sealedPhys pa data.length = false →
    ∃ t, exec (.hostStore pa data) s = .next t ∧ Memory.bytes t.mem pa data.length = data ∧ t.hostOut = s.hostOut ++ [.stored pa] ∧
      t.blocks = s.blocks ∧ t.ctxs = s.ctxs ∧ ∀ k, k < pa ∨ pa + data.length ≤ k → Memory.get t.mem k = Memory.get s.mem k) ∧
  (∀ pa data (s : State), s.recovery = true → hostOwn pa data.length = false → pa + data.length ≤ 2 ^ 26 →
    ∃ t, exec (.hostStore pa data) s = .next t ∧ t.mem = s.mem ∧
      ∀ k x, data[k]? = some x → assocGet (pa + k) t.fw.staging = some x) ∧
  (∀ pa (f : HostAtomicOp) (s : State), s.memOk →
    let n := if f.w64 then 8 else 4
    s.hostReach pa n = true → pa % n = 0 → s.sealedPhys pa n = false → s.poisoned (.phys pa) n = false →
    ∃ t, exec (.hostAtomic pa f) s = .next t ∧ t.hostOut = s.hostOut ++ [.old pa (BitVec.ofNat 64 (s.readNat (.phys pa) n))] ∧
      t.readNat (.phys pa) n = atomStep (.op f.op) n (s.readNat (.phys pa) n) ⟨0, f.operand.setWidth 128, 0⟩ % 2 ^ (8 * n) ∧
      ∀ k, k < pa ∨ pa + n ≤ k → Memory.get t.mem k = Memory.get s.mem k) ∧
  ∀ i pa n (s : State), (i = .hostLoad pa n ∧ (s.hostReach pa n = false ∨ s.poisoned (.phys pa) n = true) ∨
      (∃ data, i = .hostStore pa data ∧ data.length = n ∧ s.recovery = false ∧ (s.hostReach pa n = false ∨ s.sealedPhys pa n = true)) ∨
      ∃ f : HostAtomicOp, i = .hostAtomic pa f ∧ n = (if f.w64 then 8 else 4) ∧
        (s.hostReach pa n = false ∨ pa % n ≠ 0 ∨ s.sealedPhys pa n = true ∨ s.poisoned (.phys pa) n = true)) →
    exec i s = .next { s with hostOut := s.hostOut ++ [.error pa] }

/-- The host-visible registers. EN makes an absent slot run from a descriptor that R272 accepts, and marks another in CERR; STOP moves a
running context to STATE 2, whose save at the end of its drain leaves nothing of it resident; RESUME restores a stopped one or kills it
with KCAUSE 5; KILL discards all that a present one has; CLEAR empties a killed one's slot; QGEN reads the queue table again and GGEN
ends the broken groups, and keeps each group's sequence, which is the model's choice (log 23). CDESC, CERR and timelines take their writes. A shootdown record is taken once its ticket is there, and its
completion leaves no translation of its range and signals. -/
def Obligations.ContextControl : Prop :=
  (∀ ctx (s : State) d, ctx < s.ctxs.length → s.recovery = false → (s.ctx ctx).state = 0 → (s.ctx ctx).cdesc % 256 = 0 →
    physRange (s.ctx ctx).cdesc 256 = true → descOf (Memory.bytes s.mem (s.ctx ctx).cdesc 256) = some d →
    ∃ t, exec (.en ctx) s = .next t ∧ (t.ctx ctx).state = 1 ∧ (t.ctx ctx).desc = d ∧ t.mem = s.mem ∧ t.blocks = s.blocks) ∧
  (∀ ctx (s : State), ctx < s.ctxs.length → s.recovery = false → (s.ctx ctx).state = 0 → (s.ctx ctx).cdesc % 256 = 0 →
    physRange (s.ctx ctx).cdesc 256 = true → descOf (Memory.bytes s.mem (s.ctx ctx).cdesc 256) = none →
    exec (.en ctx) s = .next (s.setCerr ctx 4)) ∧
  (∀ ctx (s : State), ctx < s.ctxs.length → s.recovery = false → (s.ctx ctx).state = 1 →
    ∃ t, exec (.stop ctx) s = .next t ∧ (t.ctx ctx).state = 2 ∧ (t.ctx ctx).groups = [] ∧ (t.ctx ctx).byFront = false ∧
      t.blocks = s.blocks ∧ t.mem = s.mem) ∧
  (∀ ctx (s : State), ctx < s.ctxs.length → (s.ctx ctx).state = 2 → (∀ n ∈ s.counters ctx, n = 0) → s.drainTrap ctx = none →
    ∃ t, exec (.stopDrainComplete ctx) s = .next t ∧ (∀ b ∈ t.blocks, b.ctx ≠ ctx) ∧ (∀ f ∈ t.frames, f.ctx ≠ ctx) ∧
      ((t.ctx ctx).state = 3 ∧ (t.ctx ctx).stoppedAt = s.time.toNat ∨ (t.ctx ctx).state = 4 ∧ (t.ctx ctx).kcause = 3)) ∧
  (∀ ctx (s : State), ctx < s.ctxs.length → s.recovery = false → (s.ctx ctx).state = 3 →
    ∃ t, exec (.resume ctx) s = .next t ∧ match s.readSave ctx with
      | some (rs, _) => s.resumed t ctx rs
      | none => (t.ctx ctx).state = 4 ∧ (t.ctx ctx).kcause = 5) ∧
  (∀ ctx (s : State), ctx < s.ctxs.length → s.recovery = false → (s.ctx ctx).present = true →
    ∃ t, exec (.kill ctx) s = .next t ∧ (t.ctx ctx).state = 4 ∧ (t.ctx ctx).kcause = 1 ∧ (t.blocks = s.blocks.filter fun b => b.ctx != ctx) ∧
      (t.frames = s.frames.filter fun f => f.ctx != ctx) ∧ (∀ o ∈ t.aops, o.ctx ≠ ctx) ∧ (t.ctx ctx).seals = [] ∧ (t.ctx ctx).faults = [] ∧
      (t.ctx ctx).queues = [] ∧ ∀ l ∈ t.l1, l.ctx ≠ ctx) ∧
  (∀ ctx (s : State), ctx < s.ctxs.length → s.recovery = false → (s.ctx ctx).state = 4 →
    ∃ t, exec (.clear ctx) s = .next t ∧ t.ctx ctx = { s.ctx ctx with state := 0 } ∧ { t with ctxs := s.ctxs } = s) ∧
  (∀ ctx (s : State), ctx < s.ctxs.length → s.recovery = false → (s.ctx ctx).present = true →
    ∃ t, exec (.qgen ctx) s = .next t ∧ t.mem = s.mem ∧ t.blocks = s.blocks ∧ (t.ctx ctx).state = (s.ctx ctx).state ∧
      ∀ q ∈ (t.ctx ctx).queues, ∃ bs, s.devRead ctx ((s.ctx ctx).desc.qtab + 64 * q.idx) 64 = some bs ∧
        queueOf q.idx bs = some (some { q with inHand := none, poll := 0, word := 0 })) ∧
  (∀ ctx (s : State), ctx < s.ctxs.length → s.recovery = false →
    ∃ t, exec (.ggen ctx) s = .next t ∧ t.ctx ctx = { s.ctx ctx with broken := [] } ∧ { t with ctxs := s.ctxs } = s) ∧
  (∀ k value (s : State), s.recovery = false → (s.timeline k.toNat).valid = false →
    ∃ t, exec (.timelineControlWrite k .count value) s = .next t ∧ t.timeline k.toNat = { s.timeline k.toNat with count := value } ∧
      { t with timelines := s.timelines } = s) ∧
  (∀ k value (s : State), s.recovery = false →
    ∃ t, exec (.timelineControlWrite k .control value) s = .next t ∧ { t with timelines := s.timelines } = s ∧
      (t.timeline k.toNat).valid = bit value 15 ∧ (t.timeline k.toNat).err = ((s.timeline k.toNat).err && !bit value 14) ∧
      (t.timeline k.toNat).count = (s.timeline k.toNat).count ∧
      (t.timeline k.toNat).owner = if (s.timeline k.toNat).valid then (s.timeline k.toNat).owner else value.extractLsb' 0 12) ∧
  (∀ c value (s : State), c.toNat < s.ctxs.length → s.recovery = false →
    (∃ t, exec (.registerWrite (.cerr c) value) s = .next t ∧
      t.ctx c.toNat = { s.ctx c.toNat with cerr := (s.ctx c.toNat).cerr &&& ~~~(value.extractLsb' 0 7) } ∧ { t with ctxs := s.ctxs } = s) ∧
    ((s.ctx c.toNat).state = 0 → ∃ t, exec (.registerWrite (.cdesc c) value) s = .next t ∧
      t.ctx c.toNat = { s.ctx c.toNat with cdesc := bits value 47 0 } ∧ { t with ctxs := s.ctxs } = s)) ∧
  (∀ pa (s : State) base tail head slog, pa + 32 ≤ Config.nearEnd → s.shootRing pa = some (base, tail, head, slog) →
    exec (.invalidationRingEnable pa) s = .next { s with shootBlock := some (pa, base, slog), shootRead := head }) ∧
  (∀ (s : State) pa base slog d, s.shootBlock = some (pa, base, slog) → s.shootRead < Memory.nat s.mem (pa + 8) 8 →
    (s.shootdowns.filter fun d => d.record.isSome && !d.done).length < 8 → (∀ x ∈ s.shootdowns, x.id ≠ s.uid) →
    Memory.nat s.mem (base + s.shootRead % 2 ^ slog * 32 + 24) 4 = s.shootRead % 2 ^ 32 →
    shootOf s.uid s.shootRead (BitVec.ofNat 256 (Memory.nat s.mem (base + s.shootRead % 2 ^ slog * 32) 32)) = some d →
    ∃ t, exec .shootdownRecord s = .next t ∧ d ∈ t.shootdowns ∧ t.shootRead = s.shootRead + 1) ∧
  (∀ rec (s : State) d, (s.shootdowns.find? fun d => d.id == rec && !d.done && d.dropped.isNone) = some d →
    ∃ t, runAct (.shootDrop rec) s = .next t ∧ t.mem = s.mem ∧ (∀ x ∈ t.shootdowns, x.id = rec → x.dropped = some s.uid) ∧
      ∀ e ∈ t.tlb, ¬(e.ctx = d.ctx ∧ e.va < d.va + d.pages * 16384 ∧ d.va < e.va + e.size)) ∧
  ∀ rec (s : State) d n, (s.shootdowns.find? fun d => d.id == rec && !d.done) = some d → d.dropped = some n → s.oldAccess d n = false →
    s.heldWrite d = false →
    ∃ t, exec (.shootdownCompletion rec) s = .next t ∧ (∀ x ∈ t.shootdowns, x.id = rec → x.done = true) ∧ t.tlb = s.tlb ∧
      ∀ k, d.sigtl = some k → (s.timeline k).valid = true → (t.timeline k).count = (s.timeline k).count + 1

/-- Errors in storage are counted, at a rate that asks for a replacement by a threshold the model leaves open (log 24), and their part is
poisoned; the owner of a lost dirty part ends with KCAUSE 4, and an error that
cannot be contained, a failed bridge, a failed integrity check and a temperature of 105 degrees end every context with KCAUSE 6 and
leave the device in recovery. A code unit in error that has not issued is dropped and counted. A core is fenced once no context has a
block on it. After a reset the device runs only with an image that verifies; a staged image is stored, by the reset that ends its write,
only if it does, and a loss of power while it is written leaves no image. What image the bytes of the staging window make is a free value
of the model (log 4). A quote holds the nonce and both measurements. -/
def Obligations.Reliability : Prop :=
  (∀ p (s : State), (∀ b g u, p ≠ .codeUnissued b g u) → ∃ t, exec (.uncorrectableError p) s = .next t ∧
    t.ecntUncorrectable = (if s.ecntUncorrectable = 0xFFFF then s.ecntUncorrectable else s.ecntUncorrectable + 1) ∧
    (∀ part, (p = .homeDirty part ∨ p = .near part ∨ p = .far part) → part ∈ t.poison) ∧
    ∀ part c, (p = .homeDirty part ∨ p = .near part) → assocGet (part / 16) s.owners = some c → (s.ctx c).present = true →
      (t.ctx c).state = 4 ∧ (t.ctx c).kcause = 4) ∧
  (∀ blk gang unit (s : State), ∃ t, exec (.uncorrectableError (.codeUnissued blk gang unit)) s = .next t ∧ t.mem = s.mem ∧
    t.ecntUncorrectable = s.ecntUncorrectable ∧ (t.ecntDeferred = if s.ecntDeferred = 0xFFFF then s.ecntDeferred else s.ecntDeferred + 1) ∧
    ∀ g, t.gang? blk gang = some g → ∀ x ∈ g.code, x.1 ≠ unit) ∧
  (∀ n (s : State), exec (.scrubInterval n) s =
    .next { s with ecntCorrected := BitVec.ofNat 32 (min (2 ^ 32 - 1) (s.ecntCorrected.toNat + n)),
                   replace := s.replace || Config.rateExceeded n }) ∧
  (∀ temp (s : State), temp.toNat < 105 → exec (.powerLimit temp) s = .next { s with limiting := true, temp } ∧
    exec (.limitingEnd temp) s = .next { s with limiting := false, temp }) ∧
  (∀ i temp (s : State), i = .bridgeFailure ∨ i = .rootMonitorIntegrityFailure ∨
      (i = .overtempShutdown temp ∨ i = .powerLimit temp ∨ i = .limitingEnd temp) ∧ 105 ≤ temp.toNat ∨
      i = .uncorrectableError .ownerTag →
    ∃ t, exec i s = .next t ∧ t.recovery = true ∧ t.fw.running = false ∧
      ∀ c < Config.contexts, (s.ctx c).present = true → (t.ctx c).state = 4 ∧ (t.ctx c).kcause = 6) ∧
  (∀ core (s : State), core < 160 → (∀ b ∈ s.blocks, b.core ≠ core) →
    ∃ t, exec (.coreFence core) s = .next t ∧ t.fenced core = true ∧ t.replace = true ∧ (∀ k, k ≠ core → t.fenced k = s.fenced k) ∧
      { t with fenceC := s.fenceC, replace := s.replace } = s) ∧
  (∀ core (s : State) c b, s.slotsOk → c ∈ s.ctxs → c.state = 1 → b ∈ s.blocks → b.ctx = c.id → b.core = core →
    ∃ t, exec (.coreFence core) s = .next t ∧ (t.ctx c.id).state = 2 ∧ t.fenceC = s.fenceC ∧ t.blocks = s.blocks) ∧
  (∀ s : State, ∃ t, exec .deviceReset s = .next t ∧ (∀ c, (t.ctx c).state = 0) ∧ t.blocks = [] ∧ t.fw.mreg0 = Config.rootDigest ∧
    t.fw.store = (match s.fw.writing with | some i => some i | none => s.fw.store) ∧ t.fw.writing = none ∧
    t.fw.running = (match t.fw.store with | some i => imageVerifies i | none => false) ∧ t.recovery = !t.fw.running) ∧
  (∀ s : State, s.recovery = true → ∃ t, exec .imageCheckRequest s = .next t ∧ t.fw.staging = [] ∧ t.fw.store = s.fw.store ∧ t.recovery = true ∧
    if imageVerifies (Config.imageOf s.fw.staging) then
      t.fw.writing = some (Config.imageOf s.fw.staging) ∧ ∃ u, exec .deviceReset t = .next u ∧ u.fw.store = some (Config.imageOf s.fw.staging) ∧
        u.recovery = false ∧ u.fw.mreg1 = (Config.imageOf s.fw.staging).digest
    else t.fw.writing = s.fw.writing) ∧
  (∀ s : State, ∃ t, exec .powerLoss s = .next t ∧ (∀ c, (t.ctx c).state = 0) ∧
    if s.fw.writing.isSome then t.fw.store = none ∧ t.recovery = true else t.fw.store = s.fw.store) ∧
  (∀ nonce (s : State), s.fw.running = true → s.recovery = false → ∃ t bs, exec (.attestationQuote nonce) s = .next t ∧
    t.hostOut = s.hostOut ++ [.quote bs] ∧ bs.length = 240 ∧
    bs.take 176 = leBytes 32 nonce.toNat ++ leBytes 64 s.fw.mreg0.toNat ++ leBytes 64 s.fw.mreg1.toNat ++ leBytes 16 Config.serial.toNat)
end

