-- ==== Sys2Proof/Laws/Memory.lean ====
section
/-! SUPPORT. Laws of memory, of finite maps and of register files: every memory operation keeps the canonical form, a read
after a write gives what was written, and a write leaves every other place alone. -/

namespace Sys2Proof.Machine

/-! ### Register files and finite maps -/

theorem putAt_length {α : Type} (n : Nat) (d : α) (l : List α) (i : Nat) (v : α) : (putAt n d l i v).length = n := by
  simp [putAt]

theorem putAt_getD {α : Type} (n : Nat) (d : α) (l : List α) (i : Nat) (v : α) (j : Nat) (h : j < n) :
    (putAt n d l i v).getD j d = if j = i then v else l.getD j d := by
  simp [putAt, List.getD_eq_getElem?_getD, h]

theorem assocGet_assocSet {α : Type} (k j : Nat) (v : α) (l : List (Nat × α)) :
    assocGet j (assocSet k v l) = if j = k then some v else assocGet j l := by
  induction l with
  | nil =>
    by_cases h : j = k
    · simp [assocSet, assocGet, h]
    · have : ¬ k = j := fun e => h e.symm
      simp [assocSet, assocGet, h, this]
  | cons p l ih =>
    obtain ⟨i, u⟩ := p
    by_cases h : i = k
    · subst h
      by_cases hj : j = i
      · simp [assocSet, assocGet, hj]
      · have : ¬ i = j := fun e => hj e.symm
        simp [assocSet, assocGet, hj, this]
    · by_cases hi : i = j
      · subst hi
        simp [assocSet, assocGet, h]
      · simp [assocSet, assocGet, h, hi, ih]

/-! ### The canonical form -/

/-- A lower bound may be lowered. -/
theorem Memory.wfFrom_mono {m : List (Nat × Byte)} {lo : Option Nat} {b : Nat} (h : Memory.wfFrom (some b) m = true)
    (hb : ∀ l, lo = some l → l ≤ b) : Memory.wfFrom lo m = true := by
  cases m with
  | nil => rfl
  | cons p m =>
    obtain ⟨a, v⟩ := p
    cases lo with
    | none => simp_all [Memory.wfFrom]
    | some l =>
      have := hb l rfl
      simp only [Memory.wfFrom, Bool.and_eq_true, decide_eq_true_eq] at h ⊢
      exact ⟨⟨by omega, h.1.2⟩, h.2⟩

theorem Memory.wfFrom_set {m : List (Nat × Byte)} (a : Nat) (v : Byte) :
    ∀ {lo : Option Nat}, Memory.wfFrom lo m = true → (∀ l, lo = some l → l < a) →
      Memory.wfFrom lo (Memory.set m a v) = true := by
  induction m with
  | nil =>
    intro lo _ hl
    unfold Memory.set
    split
    · rfl
    · cases lo with
      | none => simp_all [Memory.wfFrom]
      | some l => have := hl l rfl; simp_all [Memory.wfFrom]
  | cons p m ih =>
    obtain ⟨b, u⟩ := p
    intro lo h hl
    simp only [Memory.wfFrom, Bool.and_eq_true] at h
    unfold Memory.set
    by_cases hab : a < b
    · rw [if_pos hab]
      by_cases hv : v = Memory.unlisted
      · rw [if_pos hv]; simp only [Memory.wfFrom, Bool.and_eq_true]; exact h
      · rw [if_neg hv]
        simp only [Memory.wfFrom, Bool.and_eq_true, decide_eq_true_eq]
        refine ⟨⟨?_, by simp [hv]⟩, ⟨hab, h.1.2⟩, h.2⟩
        cases lo with
        | none => rfl
        | some l => simpa using hl l rfl
    · rw [if_neg hab]
      by_cases he : a = b
      · rw [if_pos he]
        by_cases hv : v = Memory.unlisted
        · rw [if_pos hv]
          refine Memory.wfFrom_mono h.2 fun l e => ?_
          have := hl l e
          omega
        · rw [if_neg hv]
          simp only [Memory.wfFrom, Bool.and_eq_true]
          refine ⟨⟨?_, by simp [hv]⟩, he ▸ h.2⟩
          cases lo with
          | none => rfl
          | some l => simpa using hl l rfl
      · rw [if_neg he]
        simp only [Memory.wfFrom, Bool.and_eq_true]
        exact ⟨h.1, ih h.2 fun l e => by cases e; omega⟩

/-- A write of one byte keeps the canonical form. -/
theorem Memory.wf_set {m : List (Nat × Byte)} (h : Memory.wf m = true) (a : Nat) (v : Byte) :
    Memory.wf (Memory.set m a v) = true := Memory.wfFrom_set a v h (fun _ e => by cases e)

/-- A write of bytes keeps the canonical form. -/
theorem Memory.wf_write (bs : List Byte) : ∀ {m : List (Nat × Byte)} (a : Nat), Memory.wf m = true →
    Memory.wf (Memory.write m a bs) = true := by
  induction bs with
  | nil => intro m a h; exact h
  | cons b bs ih => intro m a h; exact ih (a + 1) (Memory.wf_set h a b)

/-! ### Reads after writes -/

/-- An address below a lower bound is not listed. -/
theorem Memory.get_below {m : List (Nat × Byte)} {l a : Nat} (h : Memory.wfFrom (some l) m = true) (ha : a ≤ l) :
    assocGet a m = none := by
  induction m generalizing l with
  | nil => rfl
  | cons p m ih =>
    obtain ⟨b, u⟩ := p
    simp only [Memory.wfFrom, Bool.and_eq_true, decide_eq_true_eq] at h
    have : ¬ b = a := by omega
    simp only [assocGet, if_neg this]
    exact ih h.2 (by omega)

theorem Memory.get_set_from {m : List (Nat × Byte)} (a : Nat) (v : Byte) (x : Nat) :
    ∀ {lo : Option Nat}, Memory.wfFrom lo m = true →
      Memory.get (Memory.set m a v) x = if x = a then v else Memory.get m x := by
  induction m with
  | nil =>
    intro lo _
    by_cases hv : v = Memory.unlisted
    · by_cases hx : x = a <;> simp [Memory.set, Memory.get, hv, assocGet, hx]
    · by_cases hx : x = a
      · simp [Memory.set, Memory.get, hv, assocGet, hx]
      · have : ¬ a = x := fun e => hx e.symm
        simp [Memory.set, Memory.get, hv, assocGet, hx, this]
  | cons p m ih =>
    obtain ⟨b, u⟩ := p
    intro lo h
    simp only [Memory.wfFrom, Bool.and_eq_true] at h
    have below : ∀ y, y ≤ b → assocGet y m = none := fun y hy => Memory.get_below h.2 hy
    unfold Memory.set
    by_cases hab : a < b
    · rw [if_pos hab]
      by_cases hx : x = a
      · subst hx
        have hb : ¬ b = x := by omega
        by_cases hv : v = Memory.unlisted
        · simp [hv, Memory.get, assocGet, hb, below x (by omega)]
        · simp [hv, Memory.get, assocGet]
      · have : ¬ a = x := fun e => hx e.symm
        by_cases hv : v = Memory.unlisted <;> simp [hv, Memory.get, assocGet, hx, this]
    · rw [if_neg hab]
      by_cases he : a = b
      · rw [if_pos he]
        subst he
        by_cases hx : x = a
        · subst hx
          by_cases hv : v = Memory.unlisted
          · simp [hv, Memory.get, below x (Nat.le_refl _)]
          · simp [hv, Memory.get, assocGet]
        · have : ¬ a = x := fun e => hx e.symm
          by_cases hv : v = Memory.unlisted <;> simp [hv, Memory.get, assocGet, hx, this]
      · rw [if_neg he]
        have := ih h.2
        by_cases hb : b = x
        · subst hb
          have hx : ¬ b = a := fun e => he e.symm
          simp [Memory.get, assocGet, hx]
        · simpa [Memory.get, assocGet, hb] using this

/-- A read after a write of one byte. -/
theorem Memory.get_set {m : List (Nat × Byte)} (h : Memory.wf m = true) (a : Nat) (v : Byte) (x : Nat) :
    Memory.get (Memory.set m a v) x = if x = a then v else Memory.get m x := Memory.get_set_from a v x h

/-- A read after a write of bytes. -/
theorem Memory.get_write (bs : List Byte) : ∀ {m : List (Nat × Byte)} (a : Nat), Memory.wf m = true → ∀ x,
    Memory.get (Memory.write m a bs) x = if a ≤ x ∧ x < a + bs.length then bs.getD (x - a) 0 else Memory.get m x := by
  induction bs with
  | nil =>
    intro m a _ x
    have hn : ¬(a ≤ x ∧ x < a + ([] : List Byte).length) := fun h => Nat.lt_irrefl _ (Nat.lt_of_le_of_lt h.1 h.2)
    rw [if_neg hn]
    rfl
  | cons b bs ih =>
    intro m a h x
    rw [Memory.write, ih (a + 1) (Memory.wf_set h a b), Memory.get_set h]
    by_cases hx : x = a
    · subst hx
      rw [if_neg (by omega), if_pos rfl, if_pos (And.intro (Nat.le_refl x) (by simp))]
      simp
    · by_cases hin : a ≤ x ∧ x < a + (b :: bs).length
      · have h1 : a + 1 ≤ x ∧ x < a + 1 + bs.length := by simp at hin; omega
        rw [if_pos h1, if_pos hin]
        obtain ⟨k, rfl⟩ : ∃ k, x = a + 1 + k := ⟨x - (a + 1), by omega⟩
        simp [show a + 1 + k - a = k + 1 by omega]
      · have h1 : ¬ (a + 1 ≤ x ∧ x < a + 1 + bs.length) := by simp at hin; omega
        rw [if_neg h1, if_neg hin, if_neg hx]

/-- Memory as the reset leaves it is in canonical form. -/
theorem reset_memory_wf : Memory.wf State.reset.mem = true := rfl

/-! ### The operations on memory that the machine has -/

theorem State.noteWrite_mem (s : State) (a n : Nat) : (s.noteWrite a n).mem = s.mem := rfl

theorem State.poke_wf {s : State} (h : Memory.wf s.mem = true) (pa : Nat) (bs : List Byte) :
    Memory.wf (s.poke pa bs).mem = true := Memory.wf_write bs pa h

theorem State.setOwner_mem (s : State) (pa c : Nat) : (s.setOwner pa c).mem = s.mem := rfl

theorem State.writeLoc_wf {s : State} (h : Memory.wf s.mem = true) (ctx : Nat) (l : Loc) (n : Nat) (data mask : W128) :
    Memory.wf (s.writeLoc ctx l n data mask).mem = true := by
  cases l with
  | phys a => exact Memory.wf_write _ _ h
  | shared b o => exact h

end Sys2Proof.Machine
end

