-- ==== Sys2Proof/Laws/State.lean ====
section
/-! SUPPORT. Laws of the state: what each update of one part leaves alone, field by field, and how a part reads after the
update. -/

namespace Sys2Proof.Machine

/-! ### updBlock -/

@[simp] theorem State.updBlock_agenda (s : State) (u : Nat) (f : Block → Block) : (s.updBlock u f).agenda = s.agenda := rfl
@[simp] theorem State.updBlock_cur (s : State) (u : Nat) (f : Block → Block) : (s.updBlock u f).cur = s.cur := rfl
@[simp] theorem State.updBlock_ctr (s : State) (u : Nat) (f : Block → Block) : (s.updBlock u f).ctr = s.ctr := rfl
@[simp] theorem State.updBlock_uid (s : State) (u : Nat) (f : Block → Block) : (s.updBlock u f).uid = s.uid := rfl
@[simp] theorem State.updBlock_time (s : State) (u : Nat) (f : Block → Block) : (s.updBlock u f).time = s.time := rfl
@[simp] theorem State.updBlock_mem (s : State) (u : Nat) (f : Block → Block) : (s.updBlock u f).mem = s.mem := rfl
@[simp] theorem State.updBlock_poison (s : State) (u : Nat) (f : Block → Block) : (s.updBlock u f).poison = s.poison := rfl
@[simp] theorem State.updBlock_owners (s : State) (u : Nat) (f : Block → Block) : (s.updBlock u f).owners = s.owners := rfl
@[simp] theorem State.updBlock_l1 (s : State) (u : Nat) (f : Block → Block) : (s.updBlock u f).l1 = s.l1 := rfl
@[simp] theorem State.updBlock_tlb (s : State) (u : Nat) (f : Block → Block) : (s.updBlock u f).tlb = s.tlb := rfl
@[simp] theorem State.updBlock_ops (s : State) (u : Nat) (f : Block → Block) : (s.updBlock u f).ops = s.ops := rfl
@[simp] theorem State.updBlock_aops (s : State) (u : Nat) (f : Block → Block) : (s.updBlock u f).aops = s.aops := rfl
@[simp] theorem State.updBlock_monitors (s : State) (u : Nat) (f : Block → Block) : (s.updBlock u f).monitors = s.monitors := rfl
@[simp] theorem State.updBlock_timelines (s : State) (u : Nat) (f : Block → Block) : (s.updBlock u f).timelines = s.timelines := rfl
@[simp] theorem State.updBlock_shootBlock (s : State) (u : Nat) (f : Block → Block) : (s.updBlock u f).shootBlock = s.shootBlock := rfl
@[simp] theorem State.updBlock_shootRead (s : State) (u : Nat) (f : Block → Block) : (s.updBlock u f).shootRead = s.shootRead := rfl
@[simp] theorem State.updBlock_shootdowns (s : State) (u : Nat) (f : Block → Block) : (s.updBlock u f).shootdowns = s.shootdowns := rfl
@[simp] theorem State.updBlock_ctxs (s : State) (u : Nat) (f : Block → Block) : (s.updBlock u f).ctxs = s.ctxs := rfl
@[simp] theorem State.updBlock_frames (s : State) (u : Nat) (f : Block → Block) : (s.updBlock u f).frames = s.frames := rfl
@[simp] theorem State.updBlock_running (s : State) (u : Nat) (f : Block → Block) : (s.updBlock u f).running = s.running := rfl
@[simp] theorem State.updBlock_seqLast (s : State) (u : Nat) (f : Block → Block) : (s.updBlock u f).seqLast = s.seqLast := rfl
@[simp] theorem State.updBlock_latches (s : State) (u : Nat) (f : Block → Block) : (s.updBlock u f).latches = s.latches := rfl
@[simp] theorem State.updBlock_devid (s : State) (u : Nat) (f : Block → Block) : (s.updBlock u f).devid = s.devid := rfl
@[simp] theorem State.updBlock_routes (s : State) (u : Nat) (f : Block → Block) : (s.updBlock u f).routes = s.routes := rfl
@[simp] theorem State.updBlock_partitions (s : State) (u : Nat) (f : Block → Block) : (s.updBlock u f).partitions = s.partitions := rfl
@[simp] theorem State.updBlock_ato (s : State) (u : Nat) (f : Block → Block) : (s.updBlock u f).ato = s.ato := rfl
@[simp] theorem State.updBlock_colto (s : State) (u : Nat) (f : Block → Block) : (s.updBlock u f).colto = s.colto := rfl
@[simp] theorem State.updBlock_seqs (s : State) (u : Nat) (f : Block → Block) : (s.updBlock u f).seqs = s.seqs := rfl
@[simp] theorem State.updBlock_flares (s : State) (u : Nat) (f : Block → Block) : (s.updBlock u f).flares = s.flares := rfl
@[simp] theorem State.updBlock_fabOut (s : State) (u : Nat) (f : Block → Block) : (s.updBlock u f).fabOut = s.fabOut := rfl
@[simp] theorem State.updBlock_selfPkts (s : State) (u : Nat) (f : Block → Block) : (s.updBlock u f).selfPkts = s.selfPkts := rfl
@[simp] theorem State.updBlock_retired (s : State) (u : Nat) (f : Block → Block) : (s.updBlock u f).retired = s.retired := rfl
@[simp] theorem State.updBlock_collIn (s : State) (u : Nat) (f : Block → Block) : (s.updBlock u f).collIn = s.collIn := rfl
@[simp] theorem State.updBlock_fabErr (s : State) (u : Nat) (f : Block → Block) : (s.updBlock u f).fabErr = s.fabErr := rfl
@[simp] theorem State.updBlock_rx (s : State) (u : Nat) (f : Block → Block) : (s.updBlock u f).rx = s.rx := rfl
@[simp] theorem State.updBlock_fenceC (s : State) (u : Nat) (f : Block → Block) : (s.updBlock u f).fenceC = s.fenceC := rfl
@[simp] theorem State.updBlock_fenceP (s : State) (u : Nat) (f : Block → Block) : (s.updBlock u f).fenceP = s.fenceP := rfl
@[simp] theorem State.updBlock_replace (s : State) (u : Nat) (f : Block → Block) : (s.updBlock u f).replace = s.replace := rfl
@[simp] theorem State.updBlock_limiting (s : State) (u : Nat) (f : Block → Block) : (s.updBlock u f).limiting = s.limiting := rfl
@[simp] theorem State.updBlock_recovery (s : State) (u : Nat) (f : Block → Block) : (s.updBlock u f).recovery = s.recovery := rfl
@[simp] theorem State.updBlock_temp (s : State) (u : Nat) (f : Block → Block) : (s.updBlock u f).temp = s.temp := rfl
@[simp] theorem State.updBlock_ecntCorrected (s : State) (u : Nat) (f : Block → Block) : (s.updBlock u f).ecntCorrected = s.ecntCorrected := rfl
@[simp] theorem State.updBlock_ecntUncorrectable (s : State) (u : Nat) (f : Block → Block) : (s.updBlock u f).ecntUncorrectable = s.ecntUncorrectable := rfl
@[simp] theorem State.updBlock_ecntDeferred (s : State) (u : Nat) (f : Block → Block) : (s.updBlock u f).ecntDeferred = s.ecntDeferred := rfl
@[simp] theorem State.updBlock_fw (s : State) (u : Nat) (f : Block → Block) : (s.updBlock u f).fw = s.fw := rfl
@[simp] theorem State.updBlock_hostOut (s : State) (u : Nat) (f : Block → Block) : (s.updBlock u f).hostOut = s.hostOut := rfl

/-! ### updFrame -/

@[simp] theorem State.updFrame_agenda (s : State) (u : Nat) (f : Frame → Frame) : (s.updFrame u f).agenda = s.agenda := rfl
@[simp] theorem State.updFrame_cur (s : State) (u : Nat) (f : Frame → Frame) : (s.updFrame u f).cur = s.cur := rfl
@[simp] theorem State.updFrame_ctr (s : State) (u : Nat) (f : Frame → Frame) : (s.updFrame u f).ctr = s.ctr := rfl
@[simp] theorem State.updFrame_uid (s : State) (u : Nat) (f : Frame → Frame) : (s.updFrame u f).uid = s.uid := rfl
@[simp] theorem State.updFrame_time (s : State) (u : Nat) (f : Frame → Frame) : (s.updFrame u f).time = s.time := rfl
@[simp] theorem State.updFrame_mem (s : State) (u : Nat) (f : Frame → Frame) : (s.updFrame u f).mem = s.mem := rfl
@[simp] theorem State.updFrame_poison (s : State) (u : Nat) (f : Frame → Frame) : (s.updFrame u f).poison = s.poison := rfl
@[simp] theorem State.updFrame_owners (s : State) (u : Nat) (f : Frame → Frame) : (s.updFrame u f).owners = s.owners := rfl
@[simp] theorem State.updFrame_l1 (s : State) (u : Nat) (f : Frame → Frame) : (s.updFrame u f).l1 = s.l1 := rfl
@[simp] theorem State.updFrame_tlb (s : State) (u : Nat) (f : Frame → Frame) : (s.updFrame u f).tlb = s.tlb := rfl
@[simp] theorem State.updFrame_ops (s : State) (u : Nat) (f : Frame → Frame) : (s.updFrame u f).ops = s.ops := rfl
@[simp] theorem State.updFrame_aops (s : State) (u : Nat) (f : Frame → Frame) : (s.updFrame u f).aops = s.aops := rfl
@[simp] theorem State.updFrame_monitors (s : State) (u : Nat) (f : Frame → Frame) : (s.updFrame u f).monitors = s.monitors := rfl
@[simp] theorem State.updFrame_timelines (s : State) (u : Nat) (f : Frame → Frame) : (s.updFrame u f).timelines = s.timelines := rfl
@[simp] theorem State.updFrame_shootBlock (s : State) (u : Nat) (f : Frame → Frame) : (s.updFrame u f).shootBlock = s.shootBlock := rfl
@[simp] theorem State.updFrame_shootRead (s : State) (u : Nat) (f : Frame → Frame) : (s.updFrame u f).shootRead = s.shootRead := rfl
@[simp] theorem State.updFrame_shootdowns (s : State) (u : Nat) (f : Frame → Frame) : (s.updFrame u f).shootdowns = s.shootdowns := rfl
@[simp] theorem State.updFrame_ctxs (s : State) (u : Nat) (f : Frame → Frame) : (s.updFrame u f).ctxs = s.ctxs := rfl
@[simp] theorem State.updFrame_blocks (s : State) (u : Nat) (f : Frame → Frame) : (s.updFrame u f).blocks = s.blocks := rfl
@[simp] theorem State.updFrame_running (s : State) (u : Nat) (f : Frame → Frame) : (s.updFrame u f).running = s.running := rfl
@[simp] theorem State.updFrame_seqLast (s : State) (u : Nat) (f : Frame → Frame) : (s.updFrame u f).seqLast = s.seqLast := rfl
@[simp] theorem State.updFrame_latches (s : State) (u : Nat) (f : Frame → Frame) : (s.updFrame u f).latches = s.latches := rfl
@[simp] theorem State.updFrame_devid (s : State) (u : Nat) (f : Frame → Frame) : (s.updFrame u f).devid = s.devid := rfl
@[simp] theorem State.updFrame_routes (s : State) (u : Nat) (f : Frame → Frame) : (s.updFrame u f).routes = s.routes := rfl
@[simp] theorem State.updFrame_partitions (s : State) (u : Nat) (f : Frame → Frame) : (s.updFrame u f).partitions = s.partitions := rfl
@[simp] theorem State.updFrame_ato (s : State) (u : Nat) (f : Frame → Frame) : (s.updFrame u f).ato = s.ato := rfl
@[simp] theorem State.updFrame_colto (s : State) (u : Nat) (f : Frame → Frame) : (s.updFrame u f).colto = s.colto := rfl
@[simp] theorem State.updFrame_seqs (s : State) (u : Nat) (f : Frame → Frame) : (s.updFrame u f).seqs = s.seqs := rfl
@[simp] theorem State.updFrame_flares (s : State) (u : Nat) (f : Frame → Frame) : (s.updFrame u f).flares = s.flares := rfl
@[simp] theorem State.updFrame_fabOut (s : State) (u : Nat) (f : Frame → Frame) : (s.updFrame u f).fabOut = s.fabOut := rfl
@[simp] theorem State.updFrame_selfPkts (s : State) (u : Nat) (f : Frame → Frame) : (s.updFrame u f).selfPkts = s.selfPkts := rfl
@[simp] theorem State.updFrame_retired (s : State) (u : Nat) (f : Frame → Frame) : (s.updFrame u f).retired = s.retired := rfl
@[simp] theorem State.updFrame_collIn (s : State) (u : Nat) (f : Frame → Frame) : (s.updFrame u f).collIn = s.collIn := rfl
@[simp] theorem State.updFrame_fabErr (s : State) (u : Nat) (f : Frame → Frame) : (s.updFrame u f).fabErr = s.fabErr := rfl
@[simp] theorem State.updFrame_rx (s : State) (u : Nat) (f : Frame → Frame) : (s.updFrame u f).rx = s.rx := rfl
@[simp] theorem State.updFrame_fenceC (s : State) (u : Nat) (f : Frame → Frame) : (s.updFrame u f).fenceC = s.fenceC := rfl
@[simp] theorem State.updFrame_fenceP (s : State) (u : Nat) (f : Frame → Frame) : (s.updFrame u f).fenceP = s.fenceP := rfl
@[simp] theorem State.updFrame_replace (s : State) (u : Nat) (f : Frame → Frame) : (s.updFrame u f).replace = s.replace := rfl
@[simp] theorem State.updFrame_limiting (s : State) (u : Nat) (f : Frame → Frame) : (s.updFrame u f).limiting = s.limiting := rfl
@[simp] theorem State.updFrame_recovery (s : State) (u : Nat) (f : Frame → Frame) : (s.updFrame u f).recovery = s.recovery := rfl
@[simp] theorem State.updFrame_temp (s : State) (u : Nat) (f : Frame → Frame) : (s.updFrame u f).temp = s.temp := rfl
@[simp] theorem State.updFrame_ecntCorrected (s : State) (u : Nat) (f : Frame → Frame) : (s.updFrame u f).ecntCorrected = s.ecntCorrected := rfl
@[simp] theorem State.updFrame_ecntUncorrectable (s : State) (u : Nat) (f : Frame → Frame) : (s.updFrame u f).ecntUncorrectable = s.ecntUncorrectable := rfl
@[simp] theorem State.updFrame_ecntDeferred (s : State) (u : Nat) (f : Frame → Frame) : (s.updFrame u f).ecntDeferred = s.ecntDeferred := rfl
@[simp] theorem State.updFrame_fw (s : State) (u : Nat) (f : Frame → Frame) : (s.updFrame u f).fw = s.fw := rfl
@[simp] theorem State.updFrame_hostOut (s : State) (u : Nat) (f : Frame → Frame) : (s.updFrame u f).hostOut = s.hostOut := rfl

/-! ### updCtx -/

@[simp] theorem State.updCtx_agenda (s : State) (c : Nat) (f : Ctx → Ctx) : (s.updCtx c f).agenda = s.agenda := rfl
@[simp] theorem State.updCtx_cur (s : State) (c : Nat) (f : Ctx → Ctx) : (s.updCtx c f).cur = s.cur := rfl
@[simp] theorem State.updCtx_ctr (s : State) (c : Nat) (f : Ctx → Ctx) : (s.updCtx c f).ctr = s.ctr := rfl
@[simp] theorem State.updCtx_uid (s : State) (c : Nat) (f : Ctx → Ctx) : (s.updCtx c f).uid = s.uid := rfl
@[simp] theorem State.updCtx_time (s : State) (c : Nat) (f : Ctx → Ctx) : (s.updCtx c f).time = s.time := rfl
@[simp] theorem State.updCtx_mem (s : State) (c : Nat) (f : Ctx → Ctx) : (s.updCtx c f).mem = s.mem := rfl
@[simp] theorem State.updCtx_poison (s : State) (c : Nat) (f : Ctx → Ctx) : (s.updCtx c f).poison = s.poison := rfl
@[simp] theorem State.updCtx_owners (s : State) (c : Nat) (f : Ctx → Ctx) : (s.updCtx c f).owners = s.owners := rfl
@[simp] theorem State.updCtx_l1 (s : State) (c : Nat) (f : Ctx → Ctx) : (s.updCtx c f).l1 = s.l1 := rfl
@[simp] theorem State.updCtx_tlb (s : State) (c : Nat) (f : Ctx → Ctx) : (s.updCtx c f).tlb = s.tlb := rfl
@[simp] theorem State.updCtx_ops (s : State) (c : Nat) (f : Ctx → Ctx) : (s.updCtx c f).ops = s.ops := rfl
@[simp] theorem State.updCtx_aops (s : State) (c : Nat) (f : Ctx → Ctx) : (s.updCtx c f).aops = s.aops := rfl
@[simp] theorem State.updCtx_monitors (s : State) (c : Nat) (f : Ctx → Ctx) : (s.updCtx c f).monitors = s.monitors := rfl
@[simp] theorem State.updCtx_timelines (s : State) (c : Nat) (f : Ctx → Ctx) : (s.updCtx c f).timelines = s.timelines := rfl
@[simp] theorem State.updCtx_shootBlock (s : State) (c : Nat) (f : Ctx → Ctx) : (s.updCtx c f).shootBlock = s.shootBlock := rfl
@[simp] theorem State.updCtx_shootRead (s : State) (c : Nat) (f : Ctx → Ctx) : (s.updCtx c f).shootRead = s.shootRead := rfl
@[simp] theorem State.updCtx_shootdowns (s : State) (c : Nat) (f : Ctx → Ctx) : (s.updCtx c f).shootdowns = s.shootdowns := rfl
@[simp] theorem State.updCtx_blocks (s : State) (c : Nat) (f : Ctx → Ctx) : (s.updCtx c f).blocks = s.blocks := rfl
@[simp] theorem State.updCtx_frames (s : State) (c : Nat) (f : Ctx → Ctx) : (s.updCtx c f).frames = s.frames := rfl
@[simp] theorem State.updCtx_running (s : State) (c : Nat) (f : Ctx → Ctx) : (s.updCtx c f).running = s.running := rfl
@[simp] theorem State.updCtx_seqLast (s : State) (c : Nat) (f : Ctx → Ctx) : (s.updCtx c f).seqLast = s.seqLast := rfl
@[simp] theorem State.updCtx_latches (s : State) (c : Nat) (f : Ctx → Ctx) : (s.updCtx c f).latches = s.latches := rfl
@[simp] theorem State.updCtx_devid (s : State) (c : Nat) (f : Ctx → Ctx) : (s.updCtx c f).devid = s.devid := rfl
@[simp] theorem State.updCtx_routes (s : State) (c : Nat) (f : Ctx → Ctx) : (s.updCtx c f).routes = s.routes := rfl
@[simp] theorem State.updCtx_partitions (s : State) (c : Nat) (f : Ctx → Ctx) : (s.updCtx c f).partitions = s.partitions := rfl
@[simp] theorem State.updCtx_ato (s : State) (c : Nat) (f : Ctx → Ctx) : (s.updCtx c f).ato = s.ato := rfl
@[simp] theorem State.updCtx_colto (s : State) (c : Nat) (f : Ctx → Ctx) : (s.updCtx c f).colto = s.colto := rfl
@[simp] theorem State.updCtx_seqs (s : State) (c : Nat) (f : Ctx → Ctx) : (s.updCtx c f).seqs = s.seqs := rfl
@[simp] theorem State.updCtx_flares (s : State) (c : Nat) (f : Ctx → Ctx) : (s.updCtx c f).flares = s.flares := rfl
@[simp] theorem State.updCtx_fabOut (s : State) (c : Nat) (f : Ctx → Ctx) : (s.updCtx c f).fabOut = s.fabOut := rfl
@[simp] theorem State.updCtx_selfPkts (s : State) (c : Nat) (f : Ctx → Ctx) : (s.updCtx c f).selfPkts = s.selfPkts := rfl
@[simp] theorem State.updCtx_retired (s : State) (c : Nat) (f : Ctx → Ctx) : (s.updCtx c f).retired = s.retired := rfl
@[simp] theorem State.updCtx_collIn (s : State) (c : Nat) (f : Ctx → Ctx) : (s.updCtx c f).collIn = s.collIn := rfl
@[simp] theorem State.updCtx_fabErr (s : State) (c : Nat) (f : Ctx → Ctx) : (s.updCtx c f).fabErr = s.fabErr := rfl
@[simp] theorem State.updCtx_rx (s : State) (c : Nat) (f : Ctx → Ctx) : (s.updCtx c f).rx = s.rx := rfl
@[simp] theorem State.updCtx_fenceC (s : State) (c : Nat) (f : Ctx → Ctx) : (s.updCtx c f).fenceC = s.fenceC := rfl
@[simp] theorem State.updCtx_fenceP (s : State) (c : Nat) (f : Ctx → Ctx) : (s.updCtx c f).fenceP = s.fenceP := rfl
@[simp] theorem State.updCtx_replace (s : State) (c : Nat) (f : Ctx → Ctx) : (s.updCtx c f).replace = s.replace := rfl
@[simp] theorem State.updCtx_limiting (s : State) (c : Nat) (f : Ctx → Ctx) : (s.updCtx c f).limiting = s.limiting := rfl
@[simp] theorem State.updCtx_recovery (s : State) (c : Nat) (f : Ctx → Ctx) : (s.updCtx c f).recovery = s.recovery := rfl
@[simp] theorem State.updCtx_temp (s : State) (c : Nat) (f : Ctx → Ctx) : (s.updCtx c f).temp = s.temp := rfl
@[simp] theorem State.updCtx_ecntCorrected (s : State) (c : Nat) (f : Ctx → Ctx) : (s.updCtx c f).ecntCorrected = s.ecntCorrected := rfl
@[simp] theorem State.updCtx_ecntUncorrectable (s : State) (c : Nat) (f : Ctx → Ctx) : (s.updCtx c f).ecntUncorrectable = s.ecntUncorrectable := rfl
@[simp] theorem State.updCtx_ecntDeferred (s : State) (c : Nat) (f : Ctx → Ctx) : (s.updCtx c f).ecntDeferred = s.ecntDeferred := rfl
@[simp] theorem State.updCtx_fw (s : State) (c : Nat) (f : Ctx → Ctx) : (s.updCtx c f).fw = s.fw := rfl
@[simp] theorem State.updCtx_hostOut (s : State) (c : Nat) (f : Ctx → Ctx) : (s.updCtx c f).hostOut = s.hostOut := rfl

/-! ### A part after an update -/

@[simp] theorem State.updBlock_blocks (s : State) (u : Nat) (f : Block → Block) :
    (s.updBlock u f).blocks = s.blocks.map fun b => if b.uid = u then f b else b := rfl

@[simp] theorem State.updFrame_frames (s : State) (u : Nat) (f : Frame → Frame) :
    (s.updFrame u f).frames = s.frames.map fun x => if x.uid = u then f x else x := rfl

@[simp] theorem State.updCtx_ctxs (s : State) (c : Nat) (f : Ctx → Ctx) :
    (s.updCtx c f).ctxs = s.ctxs.mapIdx fun j x => if j = c then f x else x := rfl

end Sys2Proof.Machine
end

