-- ==== Sys2Proof/Laws/Thread.lean ====
section
/-! SUPPORT. Laws of the issuing group: what the updates of its gang read back as, which parts of the machine they leave alone,
and what the outcome of an instruction comes to. -/

namespace Sys2Proof.Machine

/-! ### Blocks and gangs after an update -/

theorem find?_map_id {α : Type} (p : α → Bool) (f : α → α) (hf : ∀ a, p (f a) = p a) (l : List α) :
    (l.map f).find? p = (l.find? p).map f := by
  induction l with
  | nil => rfl
  | cons a l ih => simp only [List.map_cons, List.find?_cons, hf]; split <;> simp_all

theorem State.block?_updBlock (s : State) (u : Nat) (f : Block → Block) (hf : ∀ b, (f b).uid = b.uid) (k : Nat) :
    (s.updBlock u f).block? k = (s.block? k).map fun b => if b.uid = u then f b else b := by
  unfold State.block? State.updBlock
  apply find?_map_id
  intro b
  by_cases h : b.uid = u <;> simp [h, hf]

theorem Block.gang?_updGang (b : Block) (n : Nat) (f : Gang → Gang) (hf : ∀ g, (f g).name = g.name) (k : Nat) :
    (b.updGang n f).gang? k = (b.gang? k).map fun g => if g.name = n then f g else g := by
  unfold Block.gang? Block.updGang
  apply find?_map_id
  intro g
  by_cases h : g.name = n <;> simp [h, hf]

theorem State.block?_uid {s : State} {u : Nat} {b : Block} (h : s.block? u = some b) : b.uid = u := by
  have := List.find?_some h; simpa using this

theorem Block.gang?_name {b : Block} {n : Nat} {g : Gang} (h : b.gang? n = some g) : g.name = n := by
  have := List.find?_some h; simpa using this

/-- The gang of a name after an update of the gang of that name. -/
theorem State.gang?_updGang (s : State) (u n : Nat) (f : Gang → Gang) (hf : ∀ g, (f g).name = g.name) :
    (s.updGang u n f).gang? u n = (s.gang? u n).map f := by
  unfold State.gang? State.updGang
  rw [State.block?_updBlock s u (fun b => b.updGang n f) (fun _ => rfl)]
  cases hb : s.block? u with
  | none => rfl
  | some b =>
    have hu := State.block?_uid hb
    simp only [Option.map_some, Option.bind_some, if_pos hu]
    rw [Block.gang?_updGang _ _ _ hf]
    cases hg : b.gang? n with
    | none => rfl
    | some g => simp [Block.gang?_name hg]

/-- Two updates of one gang are one. -/
theorem State.updGang_updGang (s : State) (u n : Nat) (f g : Gang → Gang) (hf : ∀ x, (f x).name = x.name) :
    (s.updGang u n f).updGang u n g = s.updGang u n (g ∘ f) := by
  unfold State.updGang State.updBlock
  simp only [List.map_map]
  congr 1
  apply List.map_congr_left
  intro b _
  by_cases h : b.uid = u
  · simp only [Function.comp, if_pos h, Block.updGang]
    simp only [h, List.map_map]
    congr 1
    apply List.map_congr_left
    intro x _
    by_cases hx : x.name = n <;> simp [Function.comp, hx, hf]
  · simp [Function.comp, h]

/-! ### What is left alone -/

theorem State.onlyBlocks_refl (s : State) : s.onlyBlocks s := rfl

theorem State.onlyBlocks_trans {s t u : State} (h : s.onlyBlocks t) (k : t.onlyBlocks u) : s.onlyBlocks u := by
  unfold State.onlyBlocks at *
  have e : { u with blocks := s.blocks, ctr := s.ctr } = { ({ u with blocks := t.blocks, ctr := t.ctr } : State) with blocks := s.blocks, ctr := s.ctr } := rfl
  rw [e, k, h]

theorem State.updBlock_onlyBlocks (s : State) (u : Nat) (f : Block → Block) : s.onlyBlocks (s.updBlock u f) := rfl

/-- What `onlyBlocks` says field by field. -/
theorem State.onlyBlocks.fields {s t : State} (h : s.onlyBlocks t) :
    t.mem = s.mem ∧ t.ctxs = s.ctxs ∧ t.timelines = s.timelines ∧ t.ops = s.ops ∧ t.aops = s.aops ∧ t.frames = s.frames ∧
      t.l1 = s.l1 ∧ t.tlb = s.tlb ∧ t.monitors = s.monitors ∧ t.poison = s.poison ∧ t.time = s.time := by
  unfold State.onlyBlocks at h
  rw [← h]
  exact ⟨rfl, rfl, rfl, rfl, rfl, rfl, rfl, rfl, rfl, rfl, rfl⟩

theorem State.onlyGang_refl (s : State) (v : View) : s.onlyGang s v :=
  ⟨rfl, id, fun _ => rfl, by
    unfold State.updGang State.updBlock Block.updGang
    simp⟩

theorem State.updGang_blocks_congr {s t : State} (h : t.blocks = s.blocks) (u n : Nat) (f : Gang → Gang) :
    (t.updGang u n f).blocks = (s.updGang u n f).blocks := by
  unfold State.updGang State.updBlock; simp [h]

/-- What keeps a gang's rest keeps its name. -/
theorem Gang.rest_name {g h : Gang} (e : g.rest = h.rest) : g.name = h.name := by
  have := congrArg Gang.name e; simpa [Gang.rest] using this

theorem State.onlyGang_updIssuer {s t : State} {v : View} (h : s.onlyGang t v) (f : Gang → Gang) (hf : ∀ g, (f g).rest = g.rest) :
    s.onlyGang (t.updIssuer v f) v := by
  obtain ⟨ho, k, hk, hb⟩ := h
  refine ⟨State.onlyBlocks_trans ho (State.updBlock_onlyBlocks _ _ _), f ∘ k, fun g => (hf (k g)).trans (hk g), ?_⟩
  unfold State.updIssuer
  rw [State.updGang_blocks_congr hb, State.updGang_updGang _ _ _ _ _ fun g => Gang.rest_name (hk g)]

theorem State.onlyGang_ctr {s t : State} {v : View} (h : s.onlyGang t v) (n : Nat) : s.onlyGang { t with ctr := n } v := by
  obtain ⟨ho, k, hk, hb⟩ := h
  exact ⟨State.onlyBlocks_trans ho rfl, k, hk, hb⟩

/-! ### Lanes and slices of the issuing group -/

theorem View.mem_lt {s : State} {v : View} (h : s.view? = some v) {i : Nat} (hi : i ∈ v.m) : i < 8 := by
  unfold State.view? at h
  split at h <;> try contradiction
  split at h <;> try contradiction
  split at h <;> try contradiction
  split at h <;> try contradiction
  rename_i hm
  cases h
  have : i ∈ Gang.members _ _ := hm ▸ hi
  unfold Gang.members at this
  simpa using (List.mem_filter.mp this).1

theorem View.gang {s : State} {v : View} (h : s.view? = some v) : s.gang? v.b.uid v.g.name = some v.g := by
  unfold State.view? at h
  split at h <;> try contradiction
  split at h <;> try contradiction
  rename_i hb
  split at h <;> try contradiction
  rename_i hg
  split at h <;> try contradiction
  cases h
  unfold State.gang?
  rw [State.block?_uid hb, hb]
  simp [Block.gang?_name hg, hg]

theorem View.lane_lt {s : State} {v : View} (h : s.view? = some v) {l : Nat} (hl : l ∈ v.lanes) : l < 32 := by
  unfold View.lanes at hl
  simp only [List.mem_flatMap, List.mem_map, List.mem_filter, List.mem_range] at hl
  obtain ⟨i, hi, k, ⟨hk, _⟩, rfl⟩ := hl
  have := View.mem_lt h hi
  omega

/-- A member of the issuing group is a slice of its gang. -/
theorem View.slice_mem {s : State} {v : View} (h : s.view? = some v) {i : Nat} (hi : i ∈ v.m) :
    v.g.slices[i]? = some (v.slice i) := by
  unfold State.view? at h
  split at h <;> try contradiction
  split at h <;> try contradiction
  split at h <;> try contradiction
  split at h <;> try contradiction
  rename_i hm
  cases h
  have : i ∈ Gang.members _ _ := hm ▸ hi
  unfold Gang.members at this
  have hp := (List.mem_filter.mp this).2
  unfold View.slice
  rw [List.getD_eq_getElem?_getD]
  split at hp
  · rename_i x hx; simp only [] at hx ⊢; rw [hx]; rfl
  · exact absurd hp (by simp)

/-! ### Registers of a gang after a write -/

theorem Gang.setV_name (n : Nat) : ∀ (g : Gang) (r l x : Nat), (g.setV r l n x).name = g.name := by
  induction n with
  | zero => intros; rfl
  | succ n ih => intro g r l x; exact ih _ _ _ _

theorem Gang.setV_slices (n : Nat) : ∀ (g : Gang) (r l x : Nat), (g.setV r l n x).slices = g.slices := by
  induction n with
  | zero => intros; rfl
  | succ n ih => intro g r l x; exact ih _ _ _ _

theorem Gang.setV_groups (n : Nat) : ∀ (g : Gang) (r l x : Nat), (g.setV r l n x).groups = g.groups := by
  induction n with
  | zero => intros; rfl
  | succ n ih => intro g r l x; exact ih _ _ _ _

theorem Gang.setV_p (n : Nat) : ∀ (g : Gang) (r l x : Nat), (g.setV r l n x).p = g.p := by
  induction n with
  | zero => intros; rfl
  | succ n ih => intro g r l x; exact ih _ _ _ _

/-- A lane of a register after the write of `n` registers of one lane. -/
theorem Gang.vreg_setV (n : Nat) : ∀ (g : Gang) (r l x r' l' : Nat), l < 32 → l' < 32 →
    (g.setV r l n x).vreg r' l' =
      if l' = l ∧ r ≤ r' ∧ r' < r + n then BitVec.ofNat 32 (x / 2 ^ (32 * (r' - r))) else g.vreg r' l' := by
  induction n with
  | zero => intro g r l x r' l' _ _; rw [if_neg (by omega)]; rfl
  | succ n ih =>
    intro g r l x r' l' hl hl'
    rw [Gang.setV, ih _ _ _ _ _ _ hl hl']
    by_cases h1 : l' = l ∧ r + 1 ≤ r' ∧ r' < r + 1 + n
    · rw [if_pos h1, if_pos (by omega)]
      obtain ⟨k, rfl⟩ : ∃ k, r' = r + 1 + k := ⟨r' - (r + 1), by omega⟩
      rw [show r + 1 + k - (r + 1) = k by omega, show r + 1 + k - r = k + 1 by omega, Nat.div_div_eq_div_mul, Nat.mul_add, Nat.pow_add, Nat.mul_comm (2 ^ (32 * k))]
    · rw [if_neg h1]
      unfold Gang.vreg
      simp only [assocGet_assocSet]
      by_cases h2 : r' = r ∧ l' = l
      · obtain ⟨rfl, rfl⟩ := h2
        rw [if_pos rfl, if_pos (by omega)]
        simp
      · rw [if_neg (by omega), if_neg (by omega)]

/-- A lane of a register after writes of lanes: the value that the lane's own write gives, and nothing else. -/
theorem Gang.vreg_setVs (n r : Nat) (f : Nat → Nat) (ls : List Nat) : ∀ (g : Gang) (r' l' : Nat), (∀ l ∈ ls, l < 32) → l' < 32 →
    ((ls.map fun l => (l, f l)).foldl (fun g x => g.setV r x.1 n x.2) g).vreg r' l' =
      if l' ∈ ls ∧ r ≤ r' ∧ r' < r + n then BitVec.ofNat 32 (f l' / 2 ^ (32 * (r' - r))) else g.vreg r' l' := by
  induction ls with
  | nil => intro g r' l' _ _; simp
  | cons l ls ih =>
    intro g r' l' h hl'
    rw [List.map_cons, List.foldl_cons, ih _ _ _ (fun k hk => h k (List.mem_cons_of_mem _ hk)) hl',
      Gang.vreg_setV _ _ _ _ _ _ _ (h l (List.mem_cons_self ..)) hl']
    by_cases h1 : l' ∈ ls ∧ r ≤ r' ∧ r' < r + n
    · rw [if_pos h1, if_pos ⟨List.mem_cons_of_mem _ h1.1, h1.2⟩]
    · rw [if_neg h1]
      by_cases h2 : l' = l ∧ r ≤ r' ∧ r' < r + n
      · rw [if_pos h2, if_pos ⟨h2.1 ▸ List.mem_cons_self .., h2.2⟩, h2.1]
      · rw [if_neg h2, if_neg]
        rintro ⟨hm, hr⟩
        rcases List.mem_cons.mp hm with e | e
        · exact h2 ⟨e, hr⟩
        · exact h1 ⟨e, hr⟩

/-! ### The outcome of an instruction -/

/-- A thread instruction answers a next state as soon as a group issues it. -/
theorem runThread_next {s : State} {v : View} (h : s.view? = some v) (f : View → State → Res) :
    runThread s f = .next (s.finish v 8 (f v s)) := by unfold runThread; rw [h]

/-- Without an issuing group a thread instruction faults. -/
theorem runThread_none {s : State} (h : s.view? = none) (f : View → State → Res) : runThread s f = .fault .noIssuer := by
  unfold runThread; rw [h]

/-- A thread instruction is never refused. -/
theorem runThread_refused (s : State) (f : View → State → Res) (r : Refusal) : runThread s f ≠ .refused r := by
  unfold runThread; split <;> simp

/-- A source list that names no invalid latch lets the instruction run. -/
theorem View.fresh_ok {v : View} {xs : List Src} (h : v.stale xs = none) (r : Res) : v.fresh xs r = r := by
  unfold View.fresh; rw [h]

end Sys2Proof.Machine
end

