-- ==== Sys2Proof/Tests/Slice0.lean ====
section
/-! SUPPORT. Tests: words of the spec's encodings, refusals of ill-formed terms, one-step results computed by hand from the spec,
and for each statement concrete states that meet its hypotheses. -/

namespace Sys2Proof.Tests
open Sys2Proof Sys2Proof.Machine

set_option Elab.async false

/-! ### Small states -/

/-- What a state of the tests changes: the block, its gangs, its slices, its context, the frame. -/
def onBlock (f : Block → Block) (s : State) : State := { s with blocks := s.blocks.map f }
/-- The gangs changed. -/
def onGang (f : Gang → Gang) : State → State := onBlock fun b => { b with gangs := b.gangs.map f }
/-- The slices changed. -/
def onSlice (f : Slice → Slice) : State → State := onGang fun g => { g with slices := g.slices.map f }
/-- The first context changed. -/
def onCtx (f : Ctx → Ctx) (s : State) : State := s.updCtx 0 f
/-- Bytes of memory. -/
def bytesAt (a : Nat) (bs : List Byte) (s : State) : State := { s with mem := Memory.write s.mem a bs }
/-- A number of `n` bytes in memory. -/
def numAt (a n x : Nat) : State → State := bytesAt a (leBytes n x)
/-- V registers: register, and its value in each of the first four lanes. -/
def withV (xs : List (Nat × Nat)) : State → State :=
  onGang fun g => xs.foldl (fun g x => (List.range 4).foldl (fun g l => g.setV x.1 l 1 x.2) g) g
/-- S registers. -/
def withS (xs : List (Nat × W64)) : State → State :=
  onGang fun g => { g with groups := g.groups.map fun r => { r with s := xs.foldl (fun s x => putAt 64 0 s x.1 x.2) r.s } }

/-- A thread state: the placed group issues. A second GiB, at 0x40000000, may be read and written; S2, S4, S5, S6, S8 and S11 hold
addresses of it, S7 the shared window's first; its block has 4,096 bytes of shared memory and a buffer table of two records. -/
def th : State :=
  { (State.reset.withFetchWord 64 0 |> numAt 0x102008 8 0x4000001A) with cur := .group 1 0 0 }
  |> onBlock (fun b => { b with kernel := { b.kernel with shared := 4096, priv := 64, brtab := 0x40003000, brcount := 2 } })
  |> withS [(1, 1), (2, 0x40000100), (3, 3), (4, 0x40004000), (5, 0x4000), (6, 0x40008000), (7, 0x01FFFE0000000000),
      (8, 0x40001000), (9, 1), (10, 4), (11, 0x40000200)]

/-- What holds of the issuing group. -/
def group (s : State) (p : View → Bool) : Bool := match s.view? with | some v => p v | none => false
/-- What holds of the issuing tile context. -/
def tile (s : State) (p : TView → Bool) : Bool := match s.tview? with | some v => p v | none => false
/-- What holds of the next state. -/
def next (i : Instr) (s : State) (p : State → Bool) : Bool := match exec i s with | .next t => p t | _ => false
/-- What holds of the state after a move of the model. -/
def moved (a : Act) (s : State) (p : State → Bool) : Bool := match runAct a s with | .next t => p t | _ => false
/-- What holds after an instruction and the event that ends its access. -/
def chained (i e : Instr) (s : State) (p : State → Bool) : Bool := next i s fun t => next e t p
/-- No access is in flight, and no operation of fixed latency. -/
def still (s : State) : Bool := s.ops.isEmpty && s.frames.all fun f => f.fixed.isEmpty
/-- What holds of a result. -/
def okAnd {ε α : Type} (x : Except ε α) (p : α → Bool) : Bool := match x with | .ok a => p a | .error _ => false
/-- What holds of a value that is there. -/
def someAnd {α : Type} (x : Option α) (p : α → Bool) : Bool := match x with | some a => p a | none => false
/-- No release wait holds the instruction. -/
def rel (s : State) (v : View) (o : Order) : Bool := !orderRel o || s.releaseDone v.b.uid v.b.core v.issuer
/-- A guard that is always true. -/
def pt : Guard := ⟨false, 0⟩
/-- A V destination. -/
def vd (n : BitVec 8) : VDst := ⟨n, false, 0⟩

/-! ### Thread set: registers -/

theorem witness_NeverAndYield :
    neverForm .nop = true ∧ neverForm (.rft true) = true ∧ group th (fun v => (v.slice v.low).again = .fresh) = true ∧
    next .nop th (fun t => group t fun v => v.pc = 0x10008) = true ∧
    next (.yield ⟨false, false, 0⟩) th (fun t => group t fun v => v.pc = 0x10008 ∧ v.g.active = false) = true := by decide +kernel

/-- A state in which latch 0 is valid and holds 5, V2 holds 7 and V3 holds 2. -/
def thY : State :=
  th |> onSlice (fun x => { x with yValid := 1 }) |> withV [(2, 7), (3, 2)] |> onGang (fun g => { g with y := (List.range 4).map fun l => (l, 5) })

theorem witness_VectorResult :
    aluForm (.iadd pt (vd 255) .i32 false false (.v 2) (.y 0)) = some (pt, vd 255, .iadd .i32 false false, .v 2, .y 0, noSrc) ∧
    group thY (fun v => v.stale [.v 2, .y 0, noSrc] = none) = true ∧
    next (.iadd pt (vd 255) .i32 false false (.v 2) (.y 0)) thY (fun t => group t fun v => v.g.vreg 255 3 = 12) = true := by decide +kernel

/-- LEA of the last byte of private memory: arena 0, lane 3 of gang 0, 64 bytes each. -/
theorem witness_ValueResult :
    group thY (fun v => someAnd (valueForm (.lea pt (vd 6) true 0 (.s 12) (.imm 0))) fun x =>
      v.stale x.2.2.2.1 = none && (v.exec x.1).all fun l => x.2.2.2.2.2 (withS [(12, 0x01FFFF000000003F)] thY) v l) = true ∧
    next (.lea pt (vd 6) true 0 (.s 12) (.imm 0)) (withS [(12, 0x01FFFF000000003F)] thY)
      (fun t => group t fun v => v.g.vwide 6 3 2 = 255) = true := by decide +kernel

/-- REDUX.min and VOTE.ballot over lanes 0 to 3, of which lane 1 does not vote, and SRD of a core count and of a feature word. -/
theorem witness_ValueResult_values :
    (let s := onGang (fun g => { g with v := [(2 * 32, 0x80000000), (2 * 32 + 1, 0), (2 * 32 + 2, 5), (2 * 32 + 3, 7)] }) th
     group s (fun v => v.exec pt = [0, 1, 2, 3] ∧ (valueForm (.redux pt (vd 6) .minI (.v 2))).isSome ∧ (valueForm (.srd pt (vd 6) 0x0C)).isSome) ∧
      next (.redux pt (vd 6) .minI (.v 2)) s (fun t => group t fun v => v.g.vreg 6 3 = 0x80000000#32) ∧
      next (.redux pt (vd 6) .minN (.v 2)) s (fun t => group t fun v => v.g.vreg 6 3 = 0) ∧
      next (.vote pt (.ballot (vd 6)) (.v 2)) s (fun t => group t fun v => v.g.vreg 6 0 = 13) ∧
      next (.srd pt (vd 6) 0x0C) { s with fenceC := 5 } (fun t => group t fun v => v.g.vreg 6 0 = 158) ∧
      next (.srd pt (vd 6) 0x37) s (fun t => group t fun v => v.g.vwide 6 0 2 = 0) ∧ featureBit 17 ∧ !featureBit 18) := by decide +kernel

theorem witness_PredicateResult :
    group thY (fun v => someAnd (predForm (.iset pt ⟨false, 7⟩ .le .i32 (.v 3) (.y 0))) fun x => v.stale x.2.2.1 = none) = true ∧
    next (.iset pt ⟨false, 7⟩ .le .i32 (.v 3) (.y 0)) thY (fun t => group t fun v => v.g.pred 7 0) = true := by decide +kernel

theorem witness_SetfmtSwr :
    group thY (fun v => v.stale [.s 3] = none) = true ∧
    group (withS [(12, 2 ^ 57 - 1)] th) (fun v => v.stale [.s 12] = none ∧ v.exec pt ≠ [] ∧ v.uni 64 (.s 12) / 2 ^ 57 = 0) = true ∧
    next (.setfmt pt 8 (.s 12)) (withS [(12, 0xABCD3FFF)] th) (fun t => group t fun v => (v.slice 0).fmt = 0xABCD0000#32) = true := by
  decide +kernel

theorem witness_UniformResult :
    group th (fun v => okAnd (v.uniOp th (v.exec pt) (.alu (.iadd .i64 true false) (.s 1) (.s 3) noSrc)) fun r => r.2.1 = 2 ^ 64 - 2 ∧
      v.stale (UniOp.srcs (.alu (.iadd .i64 true false) (.s 1) (.s 3) noSrc)) = none) = true := by decide +kernel

theorem witness_PairResult :
    aluForm (.mov pt (vd 4) .b32 (.s 1)) = some (pt, vd 4, .mov .b32, .s 1, noSrc, noSrc) ∧
    group th (fun v => okAnd (v.uniOp th (v.exec pt) (.movi 9)) fun _ => v.stale (UniOp.srcs (.movi 9)) = none ∧
      v.stale [.s 1, noSrc, noSrc] = none) = true ∧
    next (.pairWord pt ⟨1, false, 0⟩ (.movi 9) (.mov pt (vd 4) .b32 (.s 1))) th
      (fun t => group t fun v => v.r.sreg 1 = 9 ∧ v.g.vreg 4 0 = 1 ∧ v.pc = 0x10010) = true := by decide +kernel

theorem witness_TableLoads :
    group th (fun v => okAnd (th.loadRange (v.who th) v.b.uid (v.uniAddr (.s 2) 0 16) 32 32) fun _ => true) = true ∧
    group th (fun v => okAnd (th.loadRange (v.who th) v.b.uid (v.uniAddr (.s 2) 1 8) 40 8) fun x => 1 < v.b.kernel.brcount ∧
      (okAnd (x.2.checkRange (v.who th) .store (BitVec.ofNat 64 (v.b.kernel.brtab + 40)) 40 8) fun ps =>
        (∀ p ∈ ps, x.2.earlierBusy v.b.uid p.1 p.2 = false) ∧ ps.Pairwise (fun p q => p.1.overlaps p.2 q.1 q.2 = false)) = true) = true ∧
    Memory.wf th.mem = true := by decide +kernel

/-- A prefix-code table at byte 256 of shared memory (codeword 0 stands for 5, codeword 1 for 6), and a stream that begins 0, 1. -/
def thPc : State := th |> onBlock (fun b => { b with
  shared := (0, 0xAA) :: (leBytes 128 (5 + 2 ^ 32 + 2 ^ 64 * (6 + 2 ^ 16 + 2 ^ 32))).mapIdx fun i x => (256 + i, x) }) |> withS [(12, 256), (13, 0)]

theorem witness_DecwResult :
    group thPc (fun v => v.uni 32 (.imm 2) = 2 ∧
      okAnd (v.b.decode (.pc 12) (pcTable (v.b.sharedBytes 256 128)) (v.r.sreg 13).toNat 2) fun x => x = ([5, 6], 2)) = true ∧
    thPc.earlierBusy 1 (.shared 1 256) 128 = false ∧ thPc.earlierBusy 1 (.shared 1 0) 1 = false ∧
    group th (fun v => okAnd (v.b.decode (.cb 0) [] 0 64) fun x => x.2 = 256) = true ∧
    next (.decw pt 8 0 13 (.imm 2) (.pc 12) 0) thPc (fun t => group t fun v => v.g.vreg 8 0 = 0x60005#32 ∧ v.r.sreg 13 = 2) = true := by
  decide +kernel

/-- An operation on integers, and its value at the end of the range. -/
theorem witness_VectorResult_values :
    integerOp (.iadd .i32 false true) = true ∧ (0x7FFFFFFF : Nat) < 2 ^ (AluOp.widths (.iadd .i32 false true)).2.1 ∧
    aluEval (.iadd .i32 false true) 0 [] 0x7FFFFFFF 1 0 = (0x7FFFFFFF, 0) := by decide +kernel

/-- A pair whose second half is MOVI. -/
theorem witness_PairResult_values :
    (someAnd (valueForm (underGuard pt (.movi pt (vd 4) 0x33))) fun x => x.2.2.1 = 32 ∧ Instr.secondHalf (.movi pt (vd 4) 0x33) = true) = true ∧
    next (.pairWord pt ⟨1, false, 0⟩ (.movi 9) (.movi pt (vd 4) 0x33)) th
      (fun t => group t fun v => v.r.sreg 1 = 9 ∧ v.g.vreg 4 3 = 0x33 ∧ v.pc = 0x10010) = true := by decide +kernel

theorem witness_ExactSpecials : (-149 : Int) ≤ 127 ∧ intPat 1 = 0x3F800000#32 ∧ pow2Pat false (-149) = 1 ∧
    (16777215 : Int).natAbs < 2 ^ 24 ∧ (f32v 0x7F800001).isNan = true ∧ (f32v 0x3F800000).isNan = false ∧ (f32v 0x3F800000).isZero = false ∧
    (f32v 0x3F800000).isInf = false := by decide +kernel

/-! ### Thread set: memory -/

/-- The address S2, and S2 + 8 x the lane's V2. -/
def atS2 : MemAddr := ⟨.s 2, .imm 0, 0, 0⟩

theorem witness_LoadIssues :
    loadForm (.ldnc pt 254 (.acq .dev) .b64 atS2) = some (pt, 254, .acq .dev, .b64, atS2, true) ∧
    group th (fun v => v.stale [atS2.base, atS2.index] = none ∧
      okAnd (th.checkLanes v .load 8 ((v.exec pt).map fun l => (l, v.addr atS2 8 l))) fun ls => ls ≠ [] ∧
        th.poisonHit ((v.exec pt).map fun l => (l, v.addr atS2 8 l)) (ls.map (th.loadUnit v true 8 fun l => .v l 254)) = none) = true := by
  decide +kernel

/-- Lane 0 alone is active; V2 holds 0xABCD and 9 stands at S2. -/
def th1 : State := onSlice (fun x => { x with active := 1 }) thY |> withV [(2, 0xABCD)] |> numAt 0x40000100 8 9

theorem witness_single_lane :
    group th1 (fun v => still th1 && rel th1 v .rlx && v.exec pt = [0] && v.stale [atS2.base, atS2.index] = none && Memory.wf th1.mem &&
      okAnd (th1.check (th1.whoLane v (some 0)) .load (v.addr atS2 8 0) 8 8) (fun k => k = .phys 0x40000100 && !th1.poisoned k 8) &&
      okAnd (th1.check (th1.whoLane v (some 0)) .store (v.addr atS2 4 0) 4 4) (fun k => k = .phys 0x40000100) &&
      okAnd (th1.check (th1.whoLane v (some 0)) .atomic 0x40000100 4 4) (fun k => k = .phys 0x40000100)) = true ∧
    chained (.ld pt 8 .rlx .b64 atS2) (.loadDataReturn 3 0) th1 (fun t => group t fun v => v.g.vwide 8 0 2 = 9 ∧ v.pc = 0x10008) = true ∧
    chained (.st pt 2 .rlx .b32 atS2) (.storeAcknowledgement 3 0) th1 (fun t => Memory.nat t.mem 0x40000100 8 = 0xABCD) = true ∧
    chained (.atom pt 8 .add .rlx false (.s 2) (.imm 5)) (.loadDataReturn 3 0) th1 (fun t => Memory.nat t.mem 0x40000100 8 = 14 ∧
      group t fun v => v.g.vreg 8 0 = 9) = true := by decide +kernel

theorem witness_single_lane_atomics :
    chained (.cas pt 2 .rlx .b32 (.s 2) (.imm 5)) (.loadDataReturn 3 0) th1 (fun t => Memory.nat t.mem 0x40000100 8 = 9 ∧
      group t fun v => v.g.vreg 2 0 = 9) = true ∧
    chained (.red pt .umax .rlx false (.s 2) (.imm 60)) (.storeAcknowledgement 3 0) th1 (fun t => Memory.nat t.mem 0x40000100 8 = 60) = true := by
  decide +kernel

/-- Record 0: 16 binary32 elements from 0x40000000, as binary32, interleaved as one row of 64, out of range reads 0. -/
def thRec : State := th |> numAt 0x40003000 40 (0x40000000 + 2 ^ 64 * 16 + 2 ^ 104 * 1 + 2 ^ 110 * 1 + 2 ^ 116 * 6 + 2 ^ 192 * 256 + 2 ^ 224) |> withS [(12, 15), (13, 16)]

theorem witness_BufferAccesses :
    group thRec (fun v => v.stale [.s 12, .imm 0] = none ∧ okAnd (thRec.elemsScaled v pt .load 0 (.s 12) (.imm 0) 0) fun x => x.2.2.1 ≠ [] ∧
      x.2.2.2.poisonHit (x.2.2.1.map fun y => (y.1.lane, y.1.va)) (x.2.2.1.map fun y => x.2.2.2.loadUnit v false y.1.n
        (fun _ => .elem y.1.lane 9 x.1.menc x.1.rfmt y.1.nib (v.fmt y.1.lane) (v.bookOf x.1.menc) y.2) (y.1.lane, y.1.loc)) = none) = true ∧
    group thRec (fun v => okAnd (thRec.elemsScaled v pt .store 0 (.s 12) (.imm 0) 0) fun x => x.2.2.1 ≠ []) = true ∧
    next (.ldb pt 9 0 (.s 13) (.imm 0) 0) thRec (fun t => group t fun v => v.g.vreg 9 3 = 0 ∧ v.pc = 0x10008) = true := by decide +kernel

/-- The record's element 15 holds 1.0, and lane 0 alone is active. -/
def thRec1 : State := onSlice (fun x => { x with active := 1 }) thRec |> numAt 0x4000003C 4 0x3F800000 |> withV [(9, 0x40000000)]

theorem witness_BufferAccesses_single :
    group thRec1 (fun v => still thRec1 ∧ okAnd (thRec1.elemsScaled v pt .load 0 (.s 12) (.imm 0) 0) (fun x =>
        x.2.2.1.map (fun y => (y.1.lane, y.1.loc, y.1.n)) = [(0, .phys 0x4000003C, 4)] ∧ thRec1.poisoned (.phys 0x4000003C) 4 = false) ∧
      okAnd (thRec1.elemsScaled v pt .store 0 (.s 12) (.imm 0) 0) (fun x => x.2.2.1.map (fun y => (stbPart v 9 x.1 y).1.kind) =
        [.store 0x40000000 0xFFFFFFFF])) = true ∧
    chained (.ldb pt 10 0 (.s 12) (.imm 0) 0) (.loadDataReturn 3 0) thRec1 (fun t => group t fun v => v.g.vreg 10 0 = 0x3F800000#32) = true ∧
    chained (.stb pt 9 0 (.s 12) (.imm 0) 0) (.storeAcknowledgement 3 0) thRec1 (fun t => Memory.nat t.mem 0x4000003C 4 = 0x40000000) = true := by
  decide +kernel

theorem witness_StoreIssues :
    group thY (fun v => okAnd (thY.checkLanes v .store 16 ((v.exec pt).map fun l => (l, v.addr atS2 16 l))) fun ls => ls ≠ [] ∧
      rel thY v (.rel .sys) = true) = true ∧
    next (.st pt 2 (.rel .sys) .b32 atS2) thY (fun t => t.ops.length = 1 ∧ group t fun v => v.pc = 0x10008) = true := by decide +kernel

theorem witness_AtomicIssues :
    atomForm (.red pt .fadd .rlx false (.s 2) (.v 3)) = some (pt, .op .fadd, 4, .rlx, none, (fun _ _ => 0), .s 2, .v 3) ∧
    group thY (fun v => v.stale [.s 2, .v 3] = none ∧
      okAnd (thY.checkLanes v .atomic 4 ((v.exec pt).map fun l => (l, BitVec.ofNat 64 (v.src .int 64 l (.s 2))))) fun ls => ls ≠ [] ∧
        (∀ x ∈ ls, thY.poisoned x.2 4 = false) ∧ rel thY v .rlx = true) = true ∧
    next (.cas pt 8 (.ar .dev) .b64 (.s 2) (.v 2)) thY (fun t => t.ops.length = 1 ∧ t.view?.isSome) = true := ⟨rfl, by decide +kernel, by decide +kernel⟩

theorem witness_FenceCompletes : group th (fun v => rel th v (.ar .sys)) = true := by decide +kernel

/-- Seal entry 0 holds 0x40004000 and the next 16 KiB. -/
def thSeal : State := th |> onCtx fun c => { c with seals := [⟨0, 0x40004000, 16384, 2, 0, .none⟩] }

theorem witness_SealUnseal :
    group th (fun v => v.b.ctx < th.ctxs.length ∧ v.exec pt ≠ [] ∧ v.uni 64 (.s 4) = 0x40004000 ∧ v.uni 64 (.s 5) = 16384 ∧
      okAnd (th.sealChecks v 0x40004000 16384) (fun _ => rel th v (.rel .sys)) ∧ (th.ctx 0).seals = [] ∧
      th.regionWriting 0 0x40004000 16384 = false) = true ∧
    group thSeal (fun v => v.b.ctx < thSeal.ctxs.length ∧ (∀ x ∈ (thSeal.ctx 0).seals, ¬(x.by_ = v.issuer ∧ x.stage = 3)) ∧
      rel thSeal v (.ar .sys) ∧
      someAnd ((thSeal.ctx 0).seals.find? fun x => x.base == v.uni 64 (.s 4) && x.stage == 2) fun e => e.busy = false) = true ∧
    next (.sealRegion pt ⟨true, 7⟩ (.s 4) (.s 5)) th (fun t => group t fun v => (t.ctx 0).seals.length = 1 ∧ bit v.r.q 7) = true := by
  decide +kernel

/-- A page table that maps the 16 KiB at 0x80000000, and a frame pool of one frame, none of it free; the page's own lane in hand. -/
def thPool : State :=
  th |> numAt 0x102010 8 0x103001 |> numAt 0x103000 8 0x104001 |> numAt 0x104000 8 0x4000401A |> numAt 0x40003000 8 0x100000000 |>
    onCtx (fun c => { c with desc := { c.desc with fpool := 0x40003000 } }) |>
    onSlice (fun x => { x with active := 1, again := .lanes 0 0 (some (9, 0x40004000)) }) |> withS [(12, 0x80000000)]

theorem witness_PagePool :
    group (onSlice (fun x => { x with again := .fresh }) thPool) (fun v => v.stale [.s 12] = none ∧
      okAnd (v.pageLanes pt (.s 12)) (fun xs => xs = [(0, 0x80000000)]) ∧ v.progress = (0, 0, none) ∧ rel thPool v (.rel .dev)) = true ∧
    (someAnd (level0 thPool.mem thPool.poison 0x80000000 walkLevels (thPool.ctx 0).desc.root) fun x => bits x.2 1 0 = 2) = true ∧
    group thPool (fun v => okAnd (v.pageLanes pt (.s 12)) (fun xs => xs = [(0, 0x80000000)]) ∧ v.progress = (0, 0, some (9, 0x40004000))) = true ∧
    next (.maprelease pt 2 (.s 12)) thPool (fun t => group t fun v => v.g.pred 2 0 ∧ Memory.nat t.mem 0x40003000 4 = 1 ∧
      Memory.nat t.mem 0x40003008 8 = 0x40004000) = true := by decide +kernel

/-- MAPRELEASE where the pool has no room, and where it has: with two lanes, the first is marked as done, or waits for its shootdown. -/
theorem witness_PagePool_releases :
    (let s := onSlice (fun x => { x with active := 3, again := .fresh }) thPool
     group s (fun v => okAnd (v.pageLanes pt (.s 12)) (fun xs => xs = [(0, 0x80000000), (1, 0x80000000)]) ∧ v.progress = (0, 0, none)) ∧
      (s.releaseLane 0 0x80000000).1 = some (s.uid, 0x40004000) ∧ s.framePool 0 = some (0, 1) ∧ (s.ctx 0).sealedAt 0x80000000 = false ∧
      next (.maprelease pt 2 (.s 12)) s (fun t => Memory.nat t.mem 0x104000 8 = 0x4000401B ∧
        (t.gang? 1 0).map (fun g => g.slices.map fun x => (x.wait, x.again)) =
          some [(.retry (.shootdown s.uid), .lanes 0 0 (some (s.uid, 0x40004000)))])) ∧
    (let s := onSlice (fun x => { x with active := 3, again := .fresh }) (numAt 0x40003000 8 0x100000001 thPool)
     (s.releaseLane 0 0x80000000).1 = none ∧
      next (.maprelease pt 2 (.s 12)) s (fun t => t.mem = s.mem ∧
        (t.gang? 1 0).map (fun g => g.slices.map fun x => (x.wait, x.again)) = some [(.none, .lanes 1 0 none)])) ∧
    group (onSlice (fun x => { x with active := 0 }) thPool) (fun v => okAnd (v.pageLanes pt (.s 12)) fun xs => xs = []) := by decide +kernel

/-- The page is reserved, and the pool's one frame is free. -/
def thReserved : State :=
  onSlice (fun x => { x with again := .fresh }) thPool |> numAt 0x104000 8 0x1B |> numAt 0x40003000 8 0x100000001 |> numAt 0x40003008 8 0x80000

theorem witness_PagePool_commits :
    (someAnd (level0 thReserved.mem thReserved.poison 0x80000000 walkLevels (thReserved.ctx 0).desc.root) fun x => x.1 = 0x104000 ∧ bits x.2 1 0 = 3) = true ∧
    thReserved.framePool 0 = some (1, 1) ∧ thReserved.devNat 0 0x40003008 8 = some 0x80000 ∧
    thReserved.devRange 0 true 0x40003000 4 = some [0x40003000, 0x40003001, 0x40003002, 0x40003003] ∧ Memory.wf thReserved.mem = true ∧
    (let t := thReserved.commitLane 0 0x80000000
     t.1 = true ∧ Memory.nat t.2.mem 0x104000 8 = 0x8001A ∧ Memory.nat t.2.mem 0x40003000 4 = 0) ∧
    thPool.framePool 0 = some (0, 1) ∧ (thPool.devRange 0 true 0x40003008 8).isSome = true ∧
    (someAnd (thPool.devWrite 0 0x40003008 (leBytes 8 0x80000)) fun t =>
      t.devRange 0 true 0x40003000 4 = some [0x40003000, 0x40003001, 0x40003002, 0x40003003]) = true ∧
    (thPool.pushFrame 0 0x80000).1 = true := by decide +kernel

/-- A pool of 2 blocks of 16 bytes at 0x40005000, its stack at 0x40006000, its state bytes at 0x40007000; block 1 is free. -/
def thAlloc : State :=
  th |> numAt 0x40001000 64 (0x40005000 + 2 ^ 64 * 16 + 2 ^ 96 * 2 + 2 ^ 128 * 0x40006000 + 2 ^ 192 * 0x40007000 + 2 ^ 256 * 1) |>
    numAt 0x40006000 4 1 |> numAt 0x40007000 1 1 |> onSlice (fun x => { x with active := 3 }) |> withS [(8, 0x40001000)] |> withV [(2, 0x40005000), (3, 0)]

theorem witness_Allocator :
    group thAlloc (fun v => v.exec pt ≠ [] ∧ okAnd (thAlloc.pcbLoc v (v.uniAddr (.s 8) 0 8)) fun l =>
      okAnd (thAlloc.poolgets v l (v.exec pt)) fun x => x.1 = [(0, some 0x40005010), (1, none)]) = true ∧
    group (onSlice (fun x => { x with active := 1 }) thAlloc) (fun v => rel thAlloc v (.rel .dev) ∧
      okAnd (thAlloc.pcbLoc v (v.uniAddr (.s 8) 0 8)) fun l =>
        okAnd ((v.exec pt).foldlM (fun t lane => t.poolput1 v l lane (v.g.vwide 2 lane 2)) thAlloc) fun t => Memory.nat t.mem 0x40001020 4 = 2) = true ∧
    next (.poolget pt 8 3 (.s 8) 0) thAlloc (fun t => group t fun v => v.g.vreg 8 0 = 0x40005010#32 ∧ v.g.pred 3 0 ∧ !v.g.pred 3 1) = true := by
  decide +kernel

/-- A get of the block 1 and, when it is taken, its put back. -/
theorem witness_Allocator_lanes :
    (someAnd (Pcb.ofBytes (thAlloc.readLoc (.phys 0x40001000) 64)) fun p => p.top = 1 ∧ p.count = 2 ∧ p.stack = 0x40006000 ∧ p.state = 0x40007000) = true ∧
    group thAlloc (fun v => okAnd (thAlloc.poolLoc v 0x40006000 4) (fun k => leNat (thAlloc.readPieces k) = 1) ∧
      okAnd (thAlloc.poolLoc v 0x40007001 1) (fun k => k = [(.phys 0x40007001, 1)] ∧ thAlloc.readNat (.phys 0x40007001) 1 = 0) ∧
      okAnd (thAlloc.poolget1 v (runOf (.phys 0x40001000) 64) 0) (fun r => r.1 = some 0x40005010 ∧
        okAnd (r.2.poolget1 v (runOf (.phys 0x40001000) 64) 1) fun q => q.1 = none)) = true ∧
    group thAlloc (fun v => thAlloc.readNat (.phys 0x40007000) 1 = 1 ∧
      okAnd (thAlloc.poolLoc v 0x40006004 4) (fun k => k = [(.phys 0x40006004, 4)]) ∧
      okAnd (thAlloc.poolput1 v (runOf (.phys 0x40001000) 64) 0 0x40005000) fun t =>
        Memory.nat t.mem 0x40001020 4 = 2 ∧ Memory.nat t.mem 0x40006004 4 = 0 ∧ t.readNat (.phys 0x40007000) 1 = 0) = true := by decide +kernel

/-! ### Thread set: copies, waits and rings -/

theorem witness_CopyQueue :
    group th (fun v => v.stale [.s 4, .s 2, .imm 32] = none ∧
      okAnd (((v.exec pt).map fun l => CpyReq.mk l (BitVec.ofNat 64 (v.src .int 64 l (.s 4))) (BitVec.ofNat 64 (v.src .int 64 l (.s 2)))
        (BitVec.ofNat 64 (v.src .int 32 l (.imm 32)))).mapM (th.cpyLane v .toLocal)) fun ws => (th.copies v.b.uid v.g.name).length + ws.length ≤ 32) = true ∧
    next (.cpy pt .toLocal (.s 4) (.s 2) (.imm 32)) th (fun t => t.aops.length = 4 ∧ group t fun v => v.pc = 0x10008) = true ∧
    next (.cpbatch false ⟨9, false, 0⟩) th (fun t => group t fun v => v.r.sreg 9 = 1) = true := by decide +kernel

/-- Timeline 4095 of context 0 stands at 5. -/
def thTl : State := { th with timelines := [⟨4095, 5, true, false, 0⟩] } |> withS [(12, 4095)]

theorem witness_WaitsEnd :
    group th (fun v => th.batchDone v.b.uid v.g.name 0 = true ∧ (v.g.cpyErr.report fun b => decide (b ≤ 0)) = none) = true ∧
    group thTl (fun v => v.uni 64 (.s 12) < 4096 ∧ thTl.holdsTimeline v.b.ctx (v.uni 64 (.s 12)) = true ∧
      ((thTl.timeline (v.uni 64 (.s 12))).count - BitVec.ofNat 64 (v.uni 64 (.imm 5))).toNat < 2 ^ 63) = true ∧
    group (onBlock (fun b => { b with shared := (leBytes 8 (2 ^ 32 + 2 ^ 16 + 1)).mapIdx fun i x => (4088 + i, x) }) th) (fun v =>
      okAnd (State.pbarOff v (v.uniAddr (.s 7) 511 8)) fun o => o = 4088 ∧ th.earlierBusy v.b.uid (.shared v.b.uid o) 8 = false ∧
        bits (BitVec.ofNat 64 ((onBlock (fun b => { b with shared := (leBytes 8 (2 ^ 32 + 2 ^ 16 + 1)).mapIdx fun i x => (4088 + i, x) }) th).readNat
          (.shared v.b.uid o) 8)) 32 32 ≠ v.uni 32 (.imm 0) % 2) = true ∧
    group th (fun v => v.stale [.s 2, .imm 0] = none ∧ okAnd (th.monLoads v pt .eq (wSel true) (.s 2) (.imm 0)) fun xs =>
      xs ≠ [] ∧ ∀ x ∈ xs, x.2.2.2 = true) = true ∧
    next (.monwait pt 8 .eq (.acq .sys) true (.s 2) (.imm 0)) th (fun t => group t fun v => v.g.vwide 8 3 2 = 0 ∧ v.pc = 0x10008) = true := by
  decide +kernel

/-- A barrier at byte 4088 that expects 2 arrivals, of which 2 are pending. -/
def thBar : State := th |> onBlock fun b => { b with shared := (leBytes 8 (2 ^ 17 + 2)).mapIdx fun i x => (4088 + i, x) }

theorem witness_PhaseBarrier :
    group thBar (fun v => okAnd (State.pbarOff v (v.uniAddr (.s 7) 511 8)) fun o => o = 4088 ∧
      thBar.earlierBusy v.b.uid (.shared v.b.uid o) 8 = false ∧ v.uni 32 (.imm 1) % 2 ^ 16 ≠ 0 ∧ thBar.retired = []) = true ∧
    next (.pbarrive false (.s 7) (.imm 1) 511) thBar (fun t => t.readNat (.shared 1 4088) 8 = 2 ^ 16 + 2) = true ∧
    next (.pbarrive false (.s 7) (.imm 2) 511) thBar (fun t => t.readNat (.shared 1 4088) 8 = 2 ^ 32 + 2 ^ 17 + 2) = true := by decide +kernel

/-- A ring of 4 slots of 16 bytes at 0x40005000: slot 1 is acquired and slot 0 committed. -/
def thRing : State := th |> numAt 0x40001000 32 (0x40005000 + 2 ^ 64 * 16 + 2 ^ 96 * 4 + 2 ^ 128 * 2 + 2 ^ 160 * 1) |> withS [(12, 0x40005010)]

theorem witness_Rings :
    ringTakeForm (.racq false 20 .dev (.s 8) 0) = some (true, 20, .dev, .s 8, 0) ∧
    ringMarkForm (.rcommit false .sys (.s 8) 12 0) = some (true, .sys, .s 8, 12, 0) ∧
    group thRing (fun v => okAnd (thRing.rcbLoc (v.ringParty thRing) (v.uniAddr (.s 8) 0 8)) fun l =>
      l = runOf (.phys 0x40001000) 32 ∧ rel thRing v (.rel .sys) = true ∧ Memory.wf thRing.mem = true) = true ∧
    (someAnd (Rcb.ofBytes (thRing.readLoc (.phys 0x40001000) 32)) fun r => r.next true = some 2 ∧ r.next false = some 0 ∧
      r.span true = (1, 2) ∧ r.slotNumber 0x40005010 1 2 = some 1 ∧ thRing.ringMarked true (.phys 0x40001000) 1 = false) = true ∧
    next (.racq false 20 .dev (.s 8) 0) thRing (fun t => group t fun v => v.r.sreg 20 = 0x40005020 ∧ Memory.nat t.mem 0x40001010 8 = 3 + 2 ^ 32) = true ∧
    next (.rpeek false 20 .dev (.s 8) 0) thRing (fun t => group t fun v => v.r.sreg 20 = 0x40005000) = true ∧
    next (.rcommit false .sys (.s 8) 12 0) thRing (fun t => Memory.nat t.mem 0x40001014 4 = 2) = true :=
  ⟨rfl, rfl, by decide +kernel, by decide +kernel, by decide +kernel, by decide +kernel, by decide +kernel⟩

/-- The same ring with slots 1 and 2 acquired. Slot 2, at S13, is committed first. -/
def thRing2 : State := thRing |> numAt 0x40001010 4 3 |> withS [(13, 0x40005020)]

/-- Slot 2 is marked, and slot 1 then moves CTAIL over both. -/
theorem witness_Rings_marks :
    (someAnd (Rcb.ofBytes (thRing2.readLoc (.phys 0x40001000) 32)) fun r => r.span true = (1, 3) ∧ r.slotNumber 0x40005020 1 3 = some 2 ∧
      thRing2.ringMarked true (.phys 0x40001000) 2 = false ∧
      someAnd (Loc.slice? (.phys 0x40001000)) (fun h => thRing2.monsAt h < Config.monitorsPerSlice) = true) = true ∧
    next (.rcommit false .sys (.s 8) 13 0) thRing2 (fun t => Memory.nat t.mem 0x40001014 4 = 1 ∧ t.ringMarked true (.phys 0x40001000) 2 = true ∧
      next (.rcommit false .sys (.s 8) 12 0) t (fun u => Memory.nat u.mem 0x40001014 4 = 3 ∧ u.monitors = []) = true) = true := by decide +kernel

/-! ### Thread set: control -/

/-- P1 holds in lanes 0 and 1 alone; V2 holds 1 in every lane; a branch table stands at S2. -/
def thDiv : State :=
  th |> onGang (fun g => { g with p := [2, 2, 0, 0] ++ List.replicate 28 0 }) |> withV [(2, 1)] |> numAt 0x40000104 4 7

theorem witness_Branches :
    group thDiv (fun v => inSpace (branchTo v.pc 4) = some (v.pc + 40) ∧ (∀ i ∈ v.m, (v.slice i).active ≠ 0 ∧ (v.slice i).stack.length ≤ 14)) = true ∧
    group thDiv (fun v => v.stale [.s 2, .v 2] = none ∧ (∀ l ∈ v.bexec ⟨false, false, 1⟩, v.src .int 32 l (.v 2) < 2) ∧
      okAnd (thDiv.brxEntries v (.s 2) ((v.bexec ⟨false, false, 1⟩).map fun l => (l, v.src .int 32 l (.v 2)))) (fun x =>
        ∀ l ∈ v.bexec ⟨false, false, 1⟩, someAnd (x.1.find? fun e => e.1 == l) (fun e => inSpace (branchTo v.pc e.2) = some (v.pc + 64)) = true) ∧
      ∀ i ∈ v.m, (v.slice i).active ≠ 0 ∧ (v.slice i).stack.length ≤ 12) = true ∧
    next (.bra ⟨false, false, 1⟩ 4) thDiv (fun t => group t fun v => (v.slice 0).pc = 0x10008 ∧ (v.slice 0).active = 12 ∧ (v.slice 0).stack.length = 2) = true ∧
    next (.brx ⟨false, false, 1⟩ (.s 2) (.v 2) 2) thDiv (fun t => group t fun v => (v.slice 0).pc = 0x10040 ∧ (v.slice 0).active = 3) = true := by
  decide +kernel

/-- The lanes of the slice go three ways: V2 is 1, 2, 0 and 0, and the table at S2 stands for 4, 7 and 9 instructions on. -/
def thWays : State :=
  th |> onGang (fun g => (((g.setV 2 0 1 1).setV 2 1 1 2).setV 2 2 1 0).setV 2 3 1 0) |> numAt 0x40000100 12 (4 + 2 ^ 32 * 7 + 2 ^ 64 * 9)

theorem witness_Branches_ways :
    group thWays (fun v => (∀ l ∈ v.bexec ⟨false, false, 0⟩, v.src .int 32 l (.v 2) < 3) ∧
      okAnd (thWays.brxEntries v (.s 2) ((v.bexec ⟨false, false, 0⟩).map fun l => (l, v.src .int 32 l (.v 2)))) fun x =>
        x.1.map (·.2) = [7, 9, 4, 4] ∧ ∀ l ∈ v.bexec ⟨false, false, 0⟩, someAnd (x.1.find? fun e => e.1 == l) (fun e => (inSpace (branchTo v.pc e.2)).isSome) = true) = true ∧
    next (.brx ⟨false, false, 0⟩ (.s 2) (.v 2) 3) thWays (fun t => group t fun v => (v.slice 0).pc = 0x10040 ∧ (v.slice 0).active = 1 ∧
      (v.slice 0).dtag = 0 ∧ (v.slice 0).stack.map (fun e => (e.kind, e.mask, e.pc, e.outer)) =
        [(.rejoin, 15, 0, 63), (.path, 2, 0x10050, 0), (.path, 12, 0x10028, 0)]) = true := by decide +kernel

/-- An entry of a mask stack. -/
def entry (kind : EntryKind) (pc : VAddr) (mask : BitVec 4) (outer tag : BitVec 6) : Entry :=
  { kind, pc, fmt := Config.fmtReset, mask, outer, tag, arr := false, waited := 0 }

/-- A slice inside a divergence of tag 0, its path of two lanes left over, above a call. -/
def thJoin : State := th |> onSlice fun x => { x with
  active := 12, dtag := 0, stack := [entry .call 0x20000 15 0 63, entry .rejoin 0 15 63 0, entry .path 0x30000 3 0 0] }

theorem witness_CallRetJoin :
    group th (fun v => v.bexec ⟨false, false, 0⟩ ≠ [] ∧ inSpace (branchTo v.pc (-1)) = some v.pc ∧ ∀ i ∈ v.m, (v.slice i).stack.length < 16) = true ∧
    group (onSlice (fun x => { x with stack := [entry .call 0x20000 15 0 63] }) th) (fun v => v.bexec ⟨false, false, 0⟩ ≠ [] ∧
      ∀ i ∈ v.m, (v.slice i).stack = [] ++ entry .call 0x20000 15 0 63 :: [] ∧ (v.slice i).active &&& ~~~15#4 = 0 ∧ (v.slice i).dtag = 63) = true ∧
    group thJoin (fun v => ∀ i ∈ v.m, (v.slice i).stack.length ≤ 16 ∧ (v.slice i).dtag ≠ 63 ∧
      (rejoinOf (v.slice i).stack (v.slice i).dtag).isSome ∧ lowestDesc (v.slice i).stack (v.slice i).dtag = some 2) = true ∧
    next (.ret ⟨false, false, 0⟩) (onSlice (fun x => { x with stack := [entry .call 0x20000 15 0 63] }) th)
      (fun t => group t fun v => v.pc = 0x20000 ∧ (v.slice 0).stack = []) = true ∧
    next (.join false) thJoin (fun t => group t fun v => v.pc = 0x30000 ∧ (v.slice 0).active = 3) = true := by decide +kernel

/-- A JOIN with a path left records where the lanes wait; the last JOIN closes the divergence, for the lanes that have not exited. -/
theorem witness_CallRetJoin_closes :
    next (.join false) thJoin (fun t => group t fun v => (v.slice 0).dtag = 0 ∧
      (v.slice 0).stack = [entry .call 0x20000 15 0 63, { entry .rejoin 0x10000 15 63 0 with arr := true }]) = true ∧
    (let s := onSlice (fun x => { x with gone := 4, stack := [entry .call 0x20000 15 0 63, { entry .rejoin 0x10000 15 63 0 with arr := true }] }) thJoin
     group s (fun v => (v.slice 0).dtag ≠ 63 ∧ (rejoinOf (v.slice 0).stack (v.slice 0).dtag).isSome ∧ lowestDesc (v.slice 0).stack (v.slice 0).dtag = none) ∧
      next (.join false) s (fun t => group t fun v => v.pc = 0x10008 ∧ (v.slice 0).active = 11 ∧ (v.slice 0).dtag = 63 ∧
        (v.slice 0).stack = [entry .call 0x20000 15 0 63])) := by decide +kernel

theorem witness_BarrierCompletes :
    group th (fun v => v.g.spawned = false ∧ (∀ f ∈ th.frames, f.blk ≠ v.b.uid) ∧ v.b.claims = [] ∧
      someAnd ((th.arrive v (.bar 15 false)).block? v.b.uid) fun b => b.allWait fun w => w == .bar 15 false || w == .bar 15 true) = true ∧
    group th (fun v => (∃ i ∈ v.m, (v.slice i).again ≠ .woken) ∧ ∀ b ∈ (th.arrive v (.cbar false)).blocks, b.cluster = v.b.cluster →
      (b.allWait fun w => w == .cbar false || w == .cbar true) = true ∧ th.storesDone b.uid b.core = true) = true ∧
    next (.bar false 15) th (fun t => group t fun v => v.pc = 0x10008 ∧ (v.slice 0).wait = .none) = true := by decide +kernel

theorem witness_RegangCompletes :
    group th (fun v => v.bexec ⟨false, false, 0⟩ ≠ [] ∧ (∀ f ∈ th.frames, f.blk ≠ v.b.uid) ∧ v.b.claims = [] ∧
      ∀ i ∈ v.m, regangMet 255 v th i = true) = true ∧
    (th.view?.map fun v => ((th.regangArrive v 255).settle v.b.uid).regangDeadlock v.b.uid v.g.name) =
      th.view?.map (fun v => (th.regangArrive v 255).settle v.b.uid) ∧
    next (.regang ⟨false, false, 0⟩ 255) th (fun t => someAnd (t.gang? 1 0) fun g => (g.slices.map fun x => (x.pc, x.wait)) = [(0x10008, .none)]) = true :=
  ⟨by decide +kernel, rfl, by decide +kernel⟩

/-- Two slices in groups of their own, whose group registers S1 differ: slice 0 waits at the REGANG, and slice 1 runs. -/
def thTwo : State := th |> onGang (fun g => { g with
  slices := g.slices.flatMap fun x => [{ x with group := 1, wait := .regang 3 }, { x with group := 0 }],
  groups := g.groups.flatMap fun r => [r, { r with id := 1, s := putAt 64 0 r.s 1 77 }] })

theorem witness_RegangCompletes_merges :
    group thTwo (fun v => v.m = [1] ∧ v.bexec ⟨false, false, 0⟩ ≠ [] ∧ (∀ i ∈ v.m, regangMet 255 v thTwo i = true) ∧
      maskSlices (v.g.regangMask 255 1) = [0, 1] ∧ someAnd (thTwo.sliceGroup v 0) fun r => r.sreg 1 = 77) = true ∧
    next (.regang ⟨false, false, 0⟩ 255) thTwo (fun t => someAnd (t.gang? 1 0) fun g =>
      g.slices.map (fun x => (x.pc, x.wait)) = [(0x10008, .none), (0x10008, .none)] ∧ g.groups.map (·.sreg 1) = [77]) = true := by
  decide +kernel

/-- Lanes 0 and 1 exit, and 2 and 3 stay. -/
theorem witness_ExitLanes_stay :
    group thDiv (fun v => v.bexec ⟨false, false, 1⟩ = [0, 1] ∧ (∀ f ∈ thDiv.frames, f.blk ≠ v.b.uid) ∧ v.b.claims = []) = true ∧
    next (.exit ⟨false, false, 1⟩) thDiv (fun t => group t fun v => v.pc = 0x10008 ∧ (v.slice 0).active = 12 ∧ (v.slice 0).gone = 3) = true := by
  decide +kernel

theorem witness_ExitLanes :
    group th (fun v => v.bexec ⟨false, false, 0⟩ ≠ [] ∧ (∀ i ∈ v.m, (v.slice i).stack.length ≤ 16) ∧ v.b.gangs = [v.g] ∧
      th.gangBusy v.b.uid v.g.name = false ∧ (∀ o ∈ th.aops, o.blk ≠ v.b.uid) ∧ v.m = v.g.live ∧
      ∀ i ∈ v.m, ∀ k < 4, bit (v.slice i).gone k = true ∨ (4 * i + k) ∈ v.bexec ⟨false, false, 0⟩) = true ∧
    next (.exit ⟨false, false, 0⟩) th (fun t => t.blocks = []) = true := by decide +kernel

/-- A gate table of one descriptor at 0x40001000 with no binding: the tile function is at 0x20000. -/
def thGate : State := th |> numAt 0x40001000 128 0x20000 |> onBlock (fun b => { b with kernel := { b.kernel with gtab := 0x40001000, gaten := 1 } })

theorem witness_GateArrives :
    group (onBlock (fun b => { b with gangs := b.gangs ++ b.gangs.map fun g => { g with name := 7, no := 1, slot := 1 } }) thGate) (fun v =>
      v.g.spawned = false ∧ (∀ i ∈ v.m, (v.slice i).trapMode = none ∧ (v.slice i).stack = []) ∧
      someAnd (((onBlock (fun b => { b with gangs := b.gangs ++ b.gangs.map fun g => { g with name := 7, no := 1, slot := 1 } }) thGate).arrive v
        (.gate 0)).settle v.b.uid |>.block? v.b.uid) fun b => b.gateComplete = false) = true ∧
    group thGate (fun v => let u := (thGate.arrive v (.gate 0)).settle v.b.uid
      someAnd (u.block? v.b.uid) fun b => b.gateComplete && decide (0 < b.kernel.gaten) && someAnd b.refGang fun r => someAnd (b.gateView r) fun w =>
        (b.gateGangs.all fun g => g.live.all fun i => someAnd (g.slices[i]?) fun x => x.wait == .gate 0) &&
        okAnd (u.gateReads w (b.kernel.gtab + 128 * 0)) fun x => (b.gateDesc x.1 x.2.1).isSome && b.gateSince.isNone && !x.2.2.gateFull b) = true ∧
    next (.gate false 0) thGate (fun t => t.frames.length = 1 ∧ someAnd (t.frame? 3) fun f => f.pc = 0x20000 ∧ f.regs.k.getD 2 0 = 0x40000100#64) = true := by
  decide +kernel

/-- The placed gang holds 250 registers; 6 are free. -/
def thPart : State := th |> onGang (fun g => { g with holding := 250 }) |> onBlock (fun b => { b with freePart := 6 })

theorem witness_GangResources :
    group (onBlock (fun b => { b with freePart := 256 }) th) (fun v => v.bexec ⟨false, false, 0⟩ ≠ [] ∧ (inSpace (branchTo v.pc 100)).isSome ∧
      (th.freeContext v.b.core v.g.quad).isSome ∧ ((List.range 32).find? fun n => !v.b.gangs.any fun g => g.no == n && !g.ended) = some 1 ∧
      v.g.holding ≤ v.b.freePart ∧ v.g.name ≠ th.uid) = true ∧
    group thPart (fun v => (∀ f ∈ thPart.frames, f.blk ≠ v.b.uid) ∧ v.b.claims = [] ∧ (∀ i ∈ v.m, (v.slice i).wait = .none) ∧
      246 + 4 ≤ v.g.holding ∧ v.g.holding + 6 ≤ 256 ∧ 6 ≤ v.b.freePart) = true ∧
    next (.spawn ⟨false, false, 0⟩ 3 2 100) (onBlock (fun b => { b with freePart := 256 }) th) (fun t => group t fun v => bit v.r.q 3 ∧
      someAnd (t.gang? 1 3) fun g => (g.groups.map fun r => r.sreg 0) = [0x40000100#64]) = true ∧
    next (.regclaim false 6) thPart (fun t => group t fun v => v.g.holding = 256 ∧ v.b.freePart = 0) = true := by decide +kernel

/-- SPAWN into quadrant 1 where all contexts of quadrant 0 are in use, and one for which the free part is short of registers. -/
theorem witness_GangResources_spawns :
    (let full := (List.range 16).map fun k => Gang.start (k + 1) (k + 20) 0 k 0 true [Slice.start 0x10000 0 15] []
     let s := onBlock (fun b => { b with freePart := 256, gangs := b.gangs ++ full }) th
     group s (fun v => s.freeContext v.b.core v.g.quad = none ∧ s.freeContext v.b.core 1 = some 0 ∧ v.g.quad = 0 ∧
        ((List.range 32).find? fun n => !v.b.gangs.any fun g => g.no == n && !g.ended) = some 17) ∧
      next (.spawn ⟨false, false, 0⟩ 3 2 100) s (fun t => group t fun v => bit v.r.q 3 ∧
        someAnd (t.gang? 1 3) fun g => g.quad = 1 ∧ g.slot = 0 ∧ g.no = 17)) ∧
    group th (fun v => v.g.quad < 4 ∧ v.b.freePart < v.g.holding) ∧
    next (.spawn ⟨false, false, 0⟩ 3 2 100) (onGang (fun g => { g with groups := g.groups.map fun r => { r with q := 0xFF } }) th)
      (fun t => group t fun v => v.r.q = 0xF7 ∧ v.pc = 0x10008) := by decide +kernel

/-- A request of lane 0 answered with code 4, its waiter woken. -/
def thFlare : State :=
  { (th |> onSlice fun x => { x with active := 1, again := .woken }) with
    flares := [⟨9, .group 1 0 0, 0, ⟨0, 0, 0, 9, 0, 0, 0, 0, 0, 0, 0, 32, 2, 0, true, [], none⟩, some 4, 0⟩] }

/-- Fault entry 3 of context 0 in use, its waiter a group of the block; V2 of lane 0 holds its token. REPLAY has been sent. -/
def thFault : State :=
  th |> onSlice (fun x => { x with active := 1, again := .waited 0 }) |> withV [(2, 3 + 2 ^ 12)] |>
    onCtx fun c => { c with desc := { c.desc with ftcount := 16 }, faults := [⟨3, 1, 1, .group 1 0 0, none⟩] }

theorem witness_FlareReplay :
    group th (fun v => v.exec pt ≠ [] ∧ (v.slice v.low).again ≠ .woken ∧ rel th v (.rel .sys)) = true ∧
    group thFlare (fun v => (v.slice v.low).again = .woken ∧ ∀ l ∈ v.exec pt,
      someAnd (thFlare.flares.find? fun r => r.issuer == v.issuer && r.lane == l) (fun r => r.answer = some 4) = true) = true ∧
    group thFault (fun v => v.stale [.v 2] = none ∧ v.exec pt = [0] ∧ (v.slice v.low).again ≠ .fresh ∧ v.b.ctx < thFault.ctxs.length ∧
      (thFault.ctx 0).state < 2 ∧
      someAnd ((thFault.ctx v.b.ctx).faultOf (BitVec.ofNat 32 (v.src .int 32 0 (.v 2)))) (fun e => e.waiter = .group 1 0 0 ∧ (thFault.block? 1).isSome)) = true ∧
    group (withV [(2, 4 + 2 ^ 12)] thFault) (fun v => (thFault.ctx v.b.ctx).faultOf (BitVec.ofNat 32 (v.src .int 32 0 (.v 2))) = none) = true ∧
    (let s := onSlice (fun x => { x with again := .fresh }) thFault
     group s (fun v => v.exec pt ≠ [] ∧ rel s v (.rel .dev)) ∧ group (onSlice (fun x => { x with active := 0 }) s) (fun v => v.exec pt = []) ∧
      next (.replay pt 2 (.v 2)) s (fun t => (t.ctx 0).faults.length = 1 ∧ group t fun v => v.pc = 0x10000 ∧ (v.slice 0).wait = .retry .replay)) ∧
    (let s := withV [(16, 0x1234)] th |> withS [(1, 0x8ABC + 2 ^ 45 * 0x77 + 2 ^ 43 * 2 + 2 ^ 31 * 0x123 + 2 ^ 19 * 0x45)]
     next (.flare pt 2 (some 9) 16 (.s 1) true true) s (fun t => t.flares.map (fun r =>
        (r.lane, r.pkt.ddev, r.pkt.dctx, r.pkt.hidx, r.pkt.prio, r.pkt.stag, r.pkt.flags)) ==
      (List.range 4).map fun l => (l, 0x8ABC, 0x45, 0x123, 2, 0x77, 1))) ∧
    next (.replay pt 2 (.v 2)) thFault (fun t => (t.ctx 0).faults = [] ∧ group t fun v => v.g.pred 2 0) = true ∧
    next (.flare pt 2 (some 9) 16 (.s 1) true true) thFlare (fun t => group t fun v => v.g.pred 2 0 ∧ v.g.vreg 9 0 = 4) = true := by decide +kernel

/-- The context has a handler at 0x50000. -/
def thTrap : State := th |> onCtx fun c => { c with desc := { c.desc with thandler := 0x50000 } }

theorem witness_TrapAndReturn :
    group thTrap (fun v => v.exec pt ≠ [] ∧ v.b.claims = [] ∧ (thTrap.ctx v.b.ctx).desc.thandler % 2 ^ 57 ≠ 0 ∧ ∀ i ∈ v.m, (v.slice i).trapMode = none) = true ∧
    group (onSlice (fun x => { x with trapMode := some (0, 63), tpc := 0x60000, tcause := 0x0C }) th) (fun v =>
      (∀ i ∈ v.m, (v.slice i).trapMode = some ((v.slice i).stack.length, (v.slice i).dtag)) ∧ (v.slice v.low).memErr = false ∧
        bit (v.slice v.low).tcause 8 = false) = true ∧
    next (.trap pt 0x42) thTrap (fun t => group t fun v => v.pc = 0x50000 ∧ (v.slice 0).tpc = 0x10000 ∧ (v.slice 0).tcause = 0x0C ∧ (v.slice 0).tinfo = 0x42) = true ∧
    next (.rft false) (onSlice (fun x => { x with trapMode := some (0, 63), tpc := 0x60000, tcause := 0x0C }) th) (fun t => group t fun v => v.pc = 0x60000) = true := by
  decide +kernel

/-- RFT outside trap mode, at another depth, and of a tile trap at the V slot of a bundle. -/
theorem witness_TrapAndReturn_returns :
    next (.rft false) thTrap (fun t => group t fun v => v.pc = 0x50000 ∧ (v.slice 0).tcause = 2 ∧ (v.slice 0).tinfo = 1) = true ∧
    (let s := onSlice (fun x => { x with trapMode := some (1, 63) }) th
     group s (fun v => v.b.ctx < s.ctxs.length ∧ ∀ i ∈ v.m, (v.slice i).trapMode ≠ some ((v.slice i).stack.length, (v.slice i).dtag)) ∧
      next (.rft false) s (fun t => (t.ctx 0).state = 4 ∧ (t.ctx 0).kcause = 2 ∧ t.blocks = [])) ∧
    (let s := { (State.reset.withFetchWord 256 0) with cur := .group 1 0 0, running := [] }
     let u := onSlice (fun x => { x with wait := .none, trapMode := some (0, 63), tcause := 0x10C, tpc := 0x20020, gframe := 0x10000, tstat := 3 * 8 + 3 }) s
     let w := { u with frames := u.frames.map fun f => { f with status := 3, retpc := 0x30000, pc := 0x20000 } }
     group w (fun v => (v.slice v.low).memErr = false ∧ bit (v.slice v.low).tcause 8 ∧
        (∀ i ∈ v.m, (v.slice i).trapMode = some ((v.slice i).stack.length, (v.slice i).dtag)) ∧
        someAnd (w.frames.find? fun f => f.blk == v.b.uid && f.number.toNat == (v.slice v.low).gframe.toNat % 2 ^ 16) fun f => w.frame? f.uid = some f) ∧
      next (.rft false) w (fun t => (t.frame? 2).map (fun f => (f.status, f.pc, f.sresume)) = some (1, 0x20020, 3) ∧
        group t fun v => v.pc = 0x2FFF8 ∧ (v.slice 0).wait = .frame 2)) := by decide +kernel

/-- The group is in trap mode at the GATE of a frame that holds it. -/
def thAtGate : State :=
  { (onSlice (fun x => { x with trapMode := some (0, 63), tpc := 0x2FFF8, tcause := 0x0C }) th) with
    frames := (State.reset.withFetchWord 256 0).frames.map fun f => { f with blk := 1, gangs := [0], retpc := 0x30000 } }

/-- RFT goes back to the GATE, which waits. -/
theorem witness_TrapAndReturn_gate :
    group thAtGate (fun v => (∀ i ∈ v.m, (v.slice i).trapMode = some ((v.slice i).stack.length, (v.slice i).dtag)) ∧ (v.slice v.low).memErr = false ∧
      bit (v.slice v.low).tcause 8 = false) = true ∧
    next (.rft false) thAtGate (fun t => group t fun v => v.pc = 0x2FFF8 ∧ (v.slice 0).trapMode = none ∧
      someAnd (t.frames[0]?) fun f => (v.slice 0).wait = .frame f.uid) = true := by decide +kernel

/-! ### Tile set -/

/-- A tile register: space, base, shape index, element format. -/
def treg (space base shi ef : Nat) : W256 := BitVec.ofNat 256 (space + 8 * base + 2 ^ 60 * shi + 2 ^ 62 * ef)
/-- A shape register: rows, columns, pitch. -/
def shape (rows cols pitch : Nat) : W128 := BitVec.ofNat 128 (2 ^ 112 * rows + 2 ^ 96 * cols + 2 ^ 64 * pitch)

/-- A tile state: the placed frame issues, its windows are 4, 8 and 16 KiB. Of its tiles T0 is in Z, T1 in X (bfloat16), T2 in W
(bfloat16), T3 in X (binary32), T4 and T5 global (binary32), T6 global (bfloat16), T7 in shared memory (binary32), T8 in X past T3
(binary32); T9 to T11 are T3 with shapes 1 to 3. The second GiB may be read and written. -/
def ti : State :=
  let s := State.reset.withFetchWord 256 0 |> numAt 0x102008 8 0x4000001A
  let sh (a b c d : W128) : List W128 := [a, b, c, d]
  { s with
    cur := .tile 2,
    blocks := s.blocks.map fun b => { b with kernel := { b.kernel with shared := 4096, wwin := 1, xwin := 2, zwin := 1 } },
    frames := s.frames.map fun f => { f with regs := { f.regs with
      k := [0, 1, 0x40000100, 3, 0x40001000, 0x20000, 6, 8] ++ List.replicate 24 0,
      t := [treg 4 0 0 1, treg 3 0 1 3, treg 2 0 2 3, treg 3 0 0 1, treg 6 0x40002000 0 1, treg 6 0x40003000 0 1, treg 6 0x40004000 2 3,
            treg 5 0 0 1, treg 3 4096 0 1, treg 3 0 1 1, treg 3 0 2 1, treg 3 0 3 1] ++ List.replicate 20 0,
      live := sh (shape 8 8 64) (shape 8 8 64) (shape 8 8 64) (shape 8 8 64) ++ sh (shape 8 8 64) (shape 8 8 64) (shape 8 8 64) (shape 8 8 64) ++
        sh (shape 8 8 64) (shape 8 1 32) (shape 8 2 32) (shape 8 8 64) ++ sh (shape 64 64 256) (shape 64 32 64) (shape 32 64 128) (shape 8 8 64) } } }

/-- The frame changed. -/
def onFrame (f : Frame → Frame) (s : State) : State := { s with frames := s.frames.map f }
/-- Its registers changed. -/
def onRegs (f : TileRegs → TileRegs) : State → State := onFrame fun x => { x with regs := f x.regs }
/-- Latch 0 of the core is this frame's: bfloat16, dense. -/
def tiLatch : State := { ti with latches := [⟨0, 0, 2, 3, 0, 0, 0, [], true⟩] }

theorem witness_ScalarSlots :
    tile ti (fun v => someAnd (scalarForm (.kcmp 7 .le true 1 (.imm 1)) v ti) (fun x => x = (47, 1)) ∧
      slotWait (.kcmp 7 .le true 1 (.imm 1)) v ti = none ∧ slotWait (.kmul 31 true 2 (.reg 3)) v ti = none ∧ slotWait (.setfmtK 3 15) v ti = none ∧
      slotWait (.shpw .m 3 .pitch (.imm 64)) v ti = none) = true ∧
    next (.kadd 31 false 1 (.imm 0xFFFF)) ti (fun t => tile t fun v => v.f.regs.scalar 31 = 0) = true ∧
    next (.kcmp 7 .le true 1 (.imm 1)) ti (fun t => tile t fun v => v.f.regs.f = 0x80) = true ∧
    next (.shpw .m 3 .pitch (.imm 32)) ti (fun t => tile t fun v => v.f.regs.shadow.getD 15 0 = shape 0 0 32) = true := by decide +kernel

theorem witness_SlotMemory :
    tile ti (fun v => slotWait (.kld .b64 5 2 8) v ti = none ∧ slotWait (.kld .desc 31 2 0) v ti = none ∧ slotWait (.kst .b8 63 2 0xFFFF) v ti = none ∧
      slotWait (.cbloadK 7 2) v ti = none ∧ okAnd (ti.check (ti.whoTile v) .load (v.k ti 2 + 8) 8 8) (fun l => ti.poisoned l 8 = false) ∧
      okAnd (ti.loadRange (ti.whoTile v) v.b.uid (v.k ti 2) 32 8) (fun x => leNat x.1 % 8 ≠ 1) ∧
      okAnd (ti.checkRange (ti.whoTile v) .store (v.k ti 2 + (0xFFFF#16).signExtend 64) 1 1) (fun _ => true) ∧
      okAnd (ti.loadRange (ti.whoTile v) v.b.uid (v.k ti 2) 32 32) (fun _ => true)) = true ∧
    tile ti (fun v => still ti ∧ Memory.wf ti.mem ∧ v.f.landings = [] ∧
      okAnd (ti.checkRange (ti.whoTile v) .store (v.k ti 2) 8 8) (fun ps => ps = [(.phys 0x40000100, 8)]) ∧
      okAnd (ti.checkRange (ti.whoTile v) .load (v.k ti 2) 32 32) (fun ps => ps.all fun p => !ti.poisoned p.1 p.2)) = true ∧
    chained (.kld .b32 5 2 0) (.loadDataReturn 3 0) (numAt 0x40000100 8 0x123456789 ti) (fun t =>
      next (.kldLanding 2 3) t fun u => tile u fun v => v.f.regs.scalar 5 = 0x23456789 ∧ v.f.landings = []) = true ∧
    chained (.kst .b64 3 2 0) (.storeAcknowledgement 3 0) ti (fun t => Memory.nat t.mem 0x40000100 9 = 3) = true ∧
    next (.cbloadK 5 2) (numAt 0x40000100 8 0x77 ti) (fun t => someAnd (t.block? 1) fun b => b.cb.getD 5 0 = 0x77) = true ∧
    next (.kst .desc 3 2 0) ti (fun t => t.ops.length = 1) = true ∧
    next (.kld .desc 31 2 0) (numAt 0x40000100 32 0x30 ti) (fun t => tile t fun v => v.f.regs.t.getD 31 0 = 0x30) = true := by decide +kernel

/-- Forms of fixed latency of the D, V and M slots, each of which passes its checks. -/
def fixedForms : List Instr :=
  [.dmov none 8 3, .dmov none 7 3, .tfill none 3 2, .tew none 8 3 (.tile .add 3), .tew none 3 3 (.scalar .max 1), .tew none 8 3 .neg, .teu none 8 3 .ex2,
   .tcvt none 8 3, .trans none 8 3, .rowred none 9 3 .sum, .rowstat none 10 3, .rowscale none 0 10 9, .mzero none 0]

theorem witness_FixedIssues :
    tile (onRegs (fun r => { r with live := r.live.set 12 (shape 8 8 64) }) ti) (fun v => fixedForms.all fun i =>
      (slotWait i v ti).isNone && v.f.fixed.isEmpty && someAnd (fixedForm i v ti) fun x => okAnd x.ok fun _ => true) = true ∧
    tile tiLatch (fun v => slotWait (.mma none 0 1 0) v tiLatch = none ∧
      okAnd (tiLatch.loopOk v ⟨v.r.side .m 0, v.r.side .m 1, none, 0, 1, 0, 0⟩ 0 false) fun ps =>
        ∀ p ∈ (v.env v.r ps []).parts (v.r.side .m 1) .a, (match p with | .mem _ => false | _ => true) = true) = true ∧
    tile tiLatch (fun v => (v.env v.r [] []).parts (v.r.side .m 1) .a ≠ []) = true ∧
    tile ti (fun v => slotWait (.mlatch none 3 2) v ti = none ∧ (v.r.side .m 2).t.space = 2 ∧
      okAnd (v.tilesOk [⟨v.r.side .m 2, [2, 6], false, .b⟩] (v.r.side .m 2).badB) (fun _ => true) ∧ (v.env v.r [] []).parts (v.r.side .m 2) .b ≠ []) = true := by
  decide +kernel

/-- A copy from global to X, a gather and a scatter by the indices at K4, a latch fill from memory, a drain to memory, a loop of K6
steps over the latches. -/
def asyncForms : List Instr :=
  [.tcopy none 3 4 false none, .tgath none 3 4 4 false, .tscat none 5 7 4, .mlatch none 1 6, .mdrain none 5 0 .plain, .mdrain none 5 0 .add]

/-- Every latch of the core is the frame's, and A is narrow enough for two steps. -/
def tiLoop : State := { ti with latches := (List.range 4).map fun j => ⟨0, j, 2, 3, 0, 0, 0, [], true⟩ } |> onRegs fun r => { r with k := r.k.set 10 1 }

theorem witness_AsyncIssues :
    tile ti (fun v => (asyncForm (.tcopy none 3 4 false none) v).isSome ∧ slotWait (.tcopy none 3 4 false none) v ti = none ∧
      okAnd (copyShapes (v.r.side .c 4) (v.r.side .c 3) false false false false) (fun _ => true) ∧
      okAnd (ti.copyPages v (.tcopy none 3 4 false none) (v.env v.r [] []) false false) (fun _ => true)) = true ∧
    tile ti (fun v => okAnd (ti.loadRange (ti.whoTile v) v.b.uid (v.k ti 4) 32 4) (fun x =>
      okAnd (x.2.copyPages v (.tgath none 3 4 4 false) (v.env v.r [] ((wordsOf x.1).map BitVec.toNat)) false false) (fun _ => true) ∧
      okAnd (x.2.copyPages v (.tscat none 5 7 4) (v.env v.r [] ((wordsOf x.1).map BitVec.toNat)) false false) (fun _ => true)) ∧
      okAnd ((v.r.side .c 3).fits v .none) (fun _ => true) ∧ okAnd ((v.r.side .c 7).fits v .none) (fun _ => true) ∧
      okAnd (copyShapes (v.r.side .c 7) (v.r.side .c 5) false false false false) (fun _ => true)) = true ∧
    tile ti (fun v => (asyncForm (.mlatch none 1 6) v).isSome ∧ slotWait (.mlatch none 1 6) v ti = none ∧
      okAnd (v.tilesOk [⟨v.r.side .m 6, [2, 6], false, .b⟩] (v.r.side .m 6).badB) (fun _ => true) ∧
      okAnd (ti.sidePages v .load (v.r.side .m 6) .b) (fun _ => true)) = true ∧
    tile ti (fun v => okAnd ((v.r.side .m 0).access [4] false) (fun _ => true) ∧ okAnd ((v.r.side .m 5).access [1, 5, 6] true) (fun _ => true) ∧
      okAnd ((v.r.side .m 0).shape) (fun _ => true) ∧ okAnd ((v.r.side .m 5).shape) (fun _ => true) ∧ sameWin (v.r.side .m 0) (v.r.side .m 5) = true ∧
      drainEf .add 1 = true ∧ okAnd ((v.r.side .m 0).aligned) (fun _ => true) ∧ okAnd ((v.r.side .m 5).aligned) (fun _ => true) ∧
      okAnd ((v.r.side .m 0).bounds v .none 0x20) (fun _ => true) ∧ okAnd ((v.r.side .m 5).bounds v .none 0x20) (fun _ => true) ∧
      okAnd (ti.sidePages v .store (v.r.side .m 5) .none) (fun _ => true)) = true ∧
    tile tiLoop (fun v => someAnd (loopOf (.mloop none 0 1 0 6 0 .cycle) v.r 6 0) fun x => x.steps = 6 ∧ x.steps ≤ 4096 ∧
      okAnd (tiLoop.loopOk v x 2 false) (fun _ => true)) = true ∧
    (asyncForms.all fun i => next i ti fun t => t.aops.length == 1 && t.mem == ti.mem) = true ∧
    next (.mloop none 0 1 0 6 0 .cycle) tiLoop (fun t => t.aops.length = 1) = true := by decide +kernel

/-- Group 0 of the context: two members, this one of rank 0; K8 names 64 elements of it. -/
def tiColl : State :=
  ti |> onCtx (fun c => { c with desc := { c.desc with gtab := 0x40005000, gcount := 1 } }) |> numAt 0x40005000 32 (2 + 2 ^ 64 * 0x40005100) |>
    numAt 0x40005104 4 4096 |> onRegs fun r => { r with k := r.k.set 8 (64 * 2 ^ 16) }

theorem witness_AsyncIssues_coll :
    tile tiColl (fun v => slotWait (.coll none 4 5 8 .allreduce .sum .f32) v tiColl = none ∧
      tiColl.groupReady v.b.ctx 0 = some (2, 0) ∧ (TReg.ofBits (v.r.t.getD 4 0)).space = 6 ∧
      okAnd (tiColl.pagesFor (tiColl.whoTile v) .load [(0x40003000, 256)]) (fun _ => true) ∧
      okAnd (tiColl.pagesFor (tiColl.whoTile v) .store [(0x40002000, 256)]) (fun _ => true)) = true ∧
    next (.coll none 4 5 8 .allreduce .sum .f32) tiColl (fun t => (t.aops.map fun o => o.err) = [none]) = true := by decide +kernel

/-- The ring of the thread tests, for a tile context. -/
def tiRing : State := ti |> numAt 0x40001000 32 (0x40005000 + 2 ^ 64 * 16 + 2 ^ 96 * 4 + 2 ^ 128 * 2 + 2 ^ 160 * 1) |> onRegs fun r => { r with k := r.k.set 12 0x40005010 }

theorem witness_SlotRings :
    tileTakeForm (.rpeekTile none .gang 9 4) = some (none, false, .gang, 9, 4) ∧
    tileMarkForm (.rcommitTile none .dev 12 4) = some (none, true, 12, 4) ∧
    tile tiRing (fun v => slotWait (.rpeekTile none .gang 9 4) v tiRing = none ∧ slotWait (.rcommitTile none .dev 12 4) v tiRing = none ∧
      okAnd (tiRing.rcbLoc (v.ringParty tiRing) (v.k tiRing 4)) fun l => l = runOf (.phys 0x40001000) 32 ∧ Memory.wf tiRing.mem = true) = true ∧
    (someAnd (Rcb.ofBytes (tiRing.readLoc (.phys 0x40001000) 32)) fun r => r.next false = some 0 ∧ r.slotNumber 0x40005010 (r.span true).1 (r.span true).2 = some 1 ∧
      (r.span true).1 = 1 ∧ tiRing.ringMarked true (.phys 0x40001000) 1 = false) = true ∧
    next (.rpeekTile none .gang 9 4) tiRing (fun t => tile t fun v => v.f.regs.scalar 9 = 0x40005000) = true ∧
    next (.rcommitTile none .dev 12 4) tiRing (fun t => Memory.nat t.mem 0x40001014 4 = 2) = true :=
  ⟨rfl, rfl, by decide +kernel, by decide +kernel, by decide +kernel, by decide +kernel⟩

/-- The frame's operation 1 on the copy timeline has completed. -/
def tiDone : State := ti |> onFrame fun f => { f with issuedOps := [1, 0, 0], doneOps := [1, 0, 0] }

theorem witness_BranchSlot :
    tile ti (fun v => slotWait (.tbr ⟨false, 1, 0, 2⟩) v ti = none ∧ slotWait (.tcall ⟨true, 1, 63, 0xFFFFF⟩) v ti = none ∧ v.test ti ⟨false, 1, 0, 2⟩ = true ∧
      v.f.pc.toNat + 32 + 32 * 2 < 2 ^ 57 ∧ slotWait (.tret 5) v ti = none ∧ (v.k ti 5).toNat < 2 ^ 57 ∧ (v.k ti 5).toNat % 32 = 0 ∧
      slotWait .gret v ti = none ∧ slotWait (.nextw 4) v ti = none ∧
      okAnd (ti.check (ti.whoTile v) .atomic (v.k ti 4) 32 32) (fun l => ti.poisoned l 32 = false)) = true ∧
    tile tiDone (fun v => slotWait (.tlwaitTile .copy 1) v tiDone = none ∧
      ((v.f.errs.getD 0 { entries := [], ovf := false }).report fun m => decide (m ≤ 1)) = none) = true ∧
    tile (onCtx (fun c => { c with desc := { c.desc with thandler := 0x50000 } }) ti) (fun v => slotWait (.trapTile 1) v ti = none ∧
      (ti.gang? v.f.blk v.f.refGang).isSome) = true ∧
    next (.tcall ⟨false, 1, 0, 2⟩) ti (fun t => tile t fun v => v.f.pc = 0x10060 ∧ v.f.regs.scalar 31 = 0x10020) = true ∧
    next (.trapTile 0x42) (onCtx (fun c => { c with desc := { c.desc with thandler := 0x50000 } }) ti) (fun t => someAnd (t.gang? 1 0) fun g =>
      (g.slices.map fun x => (x.pc, x.tcause, x.tinfo)) = [(0x50000, 0x10C, 0x42)]) = true := by decide +kernel

/-- A bundle of one K slot: KADD K4 := K4 + 1. -/
def kaddBundle : W256 := BitVec.ofNat 256 (2 ^ 255 + 2 ^ 200 * 0x0441200020)

theorem witness_BundleIssues :
    tile ti (fun v => ti.bundleWait 0 v = none ∧ v.f.sresume = 0 ∧ v.f.draining = false ∧ ti.bundleWait kaddBundle v = none ∧
      ti.missingFeature v.f.ctx (.kadd 4 false 4 (.imm 1)) = none) = true ∧
    kaddBundle.toNat / 2 ^ 240 % 256 = 0 := by decide +kernel

/-- A bundle of two slots: KADD K31 := K4 + 1, and TCALL by K1 to the second bundle behind the next. -/
def callBundle : W256 := BitVec.ofNat 256 (2 ^ 255 + 2 ^ 250 + 2 ^ 200 * 0x05F1200020 + 0x0804000002)

theorem witness_BundleIssues_slots :
    tile ti (fun v => (match bundleSlot callBundle .k, bundleSlot callBundle .b with
      | .ok (.op (.kadd d _ _ _)), .ok (.op (.tcall t)) => d == 31 && v.test ti t | _, _ => false) && (ti.bundleWait callBundle v).isNone) = true ∧
    callBundle.toNat / 2 ^ 240 % 256 = 0 ∧
    next (.tileBundle callBundle) ti (fun t => tile t fun v => v.f.regs.scalar 31 = 0x10020) = true := by decide +kernel

/-! ### Encoding and the step -/

theorem witness_DecodeWords : (1 : W64) ≠ 0 ∧ (TWord.split 1).opc = 0 ∧ (TWord.split 1).fmt = 0 := by decide +kernel

theorem witness_ThreadRoundTrip :
    Instr.wf (.ld ⟨true, 7⟩ 255 (.acq .sys) .b8 ⟨.s 62, .v 255, 3, 0x200⟩) = true ∧
    (match encode (.ld ⟨true, 7⟩ 255 (.acq .sys) .b8 ⟨.s 62, .v 255, 3, 0x200⟩) with | .word _ => true | _ => false) = true := by decide +kernel

theorem witness_SlotRoundTrip :
    Instr.wf (.coll (some 3) 31 31 53 .allToAll .sum .n32) = true ∧
    (match encode (.coll (some 3) 31 31 53 .allToAll .sum .n32) with | .slot .c _ => true | _ => false) = true := by decide +kernel

/-- The pair of spec/12 R319's example. -/
def samplePair : Instr := .pairWord pt ⟨4, false, 0⟩ (.alu (.iadd .i64 false false) (.s 4) (.imm 8) noSrc) (.ffma pt ⟨3, false, 1⟩ false false false (.v 1) (.v 2) (.v 3))

theorem witness_ThreadRoundTrip_pair :
    samplePair.wf = true ∧ encode samplePair = .pair 0xA02008209C800002 0x0440064020201808 := by decide +kernel

/-- A bundle of KADD in the K slot and MLOOP in the M slot, its other slots left out. -/
theorem witness_SlotRoundTrip_bundle :
    encode (.kadd 4 false 4 (.imm 1)) = .slot .k 0x0441200020 ∧ encode (.mloop none 8 2 0 10 11 (.streamW 3)) = .slot .m 0x08204328B004 ∧
    (let w := bundleWord true false fun x => match x with | .k => some 0x0441200020#48 | .m => some 0x08204328B004#48 | _ => none
     w.toNat = 2 ^ 255 + 2 ^ 251 + 2 ^ 249 + 0x0441200020 * 2 ^ 200 + 0x08204328B004 * 2 ^ 40 ∧ Instr.wf (.tileBundle w) = true) := by decide +kernel

/-- The state of `th` before its issue, with a word at its program counter. -/
def fetching (w : Nat) : State := { th with agenda := [.issue 0 0, .event (.stop 0)], cur := .none } |> numAt 0x10000 8 w

/-- The issue of the head of the agenda up to the fetch. -/
def fetched (s : State) (p : View → W64 × W64 × State → Bool) : Bool :=
  let s0 : State := State.promotions 0 0 Config.quadActive (({ s with agenda := [.event (.stop 0)] } : State).dueRotations 0 0)
  someAnd (s0.choose 0 0) fun c =>
    let s1 : State := { ((s0.issueCycle 0 0).updGang c.blk c.gang fun g => g.issues c.grp) with cur := .group c.blk c.gang c.grp }
    group s1 fun v => okAnd (s1.fetchThread v) (p v)

theorem witness_StepRuns :
    fetched (fetching 0x4C2002205C000800) (fun v x => okAnd (decodeThread v.g.holding (decide (v.pc.toNat % 16 = 0)) x.1 x.2.1) fun i =>
      x.2.2.missingFeature v.b.ctx i = none ∧ next i x.2.2 (fun _ => true) = true) = true ∧
    fetched (fetching 1) (fun v x => !okAnd (decodeThread v.g.holding (decide (v.pc.toNat % 16 = 0)) x.1 x.2.1) fun _ => true) = true ∧
    (someAnd ((ti.running.find? fun r => r.1 == 0).bind fun r => ti.frame? r.2) fun f => ti.tileReady f && tile { ti with agenda := [], cur := .tile f.uid } fun v =>
      okAnd (ti.fetchCode (ti.whoTile v) f.pc 32 32) fun x => (ti.ctx f.ctx).state = 1 ∧
        next (.tileBundle (BitVec.ofNat 256 x.1)) { x.2 with cur := .tile f.uid } (fun _ => true) = true) = true ∧
    Instr.isEvent (.stop 0) = true ∧ next (.stop 0) th (fun t => (t.ctx 0).state = 2) = true := by decide +kernel

theorem witness_StepKeepsForms : Memory.wf th.mem = true ∧ th.ctxs.map (·.id) = List.range Config.contexts := by decide +kernel

/-! ### Events: accesses, completions, landings -/

/-- A state in which an instruction has been executed. -/
def after (i : Instr) (s : State) : State := match exec i s with | .next t => t | _ => s

/-- LD of 8 bytes and an ATOM in flight, one part each of lane 0. -/
def evLoad : State := after (.ldnc pt 8 .rlx .b64 atS2) (onSlice (fun x => { x with active := 1 }) th |> numAt 0x40000100 8 0x123456789)
/-- An atomic add in flight. -/
def evAtom : State := after (.atom pt 8 .add .rlx false (.s 2) (.imm 5)) (onSlice (fun x => { x with active := 3 }) th)
/-- A store and a reduction in flight. -/
def evStore : State := after (.st pt 2 .rlx .b32 atS2) (onSlice (fun x => { x with active := 1 }) th |> withV [(2, 0xABCD)])
/-- A reduction in flight. -/
def evRed : State := after (.red pt .add .rlx false (.s 2) (.imm 5)) (onSlice (fun x => { x with active := 3 }) th)

theorem witness_LoadReturns :
    (someAnd (evLoad.unit? 3 0) fun x => x.2.returns && evLoad.unitReady x.1 x.2 && x.2.loc == .phys 0x40000100 &&
      someAnd (evLoad.gang? x.1.blk x.1.gang) fun g => !g.finished) = true ∧
    (someAnd (evAtom.unit? 3 0) fun x => x.2.returns && evAtom.unitReady x.1 x.2 && (match x.2.kind with | .atom _ reqs (some _) => (reqs.map (·.lane)) == [0, 1] | _ => false)) = true ∧
    next (.loadDataReturn 3 0) evLoad (fun t => t.ops = [] ∧ (t.gang? 1 0).map (fun g => (g.vreg 8 0, g.vreg 9 0, g.slices.map (·.wait))) = some (0x23456789, 1, [.none])) = true ∧
    next (.loadDataReturn 3 0) evAtom (fun t => Memory.nat t.mem 0x40000100 4 = 10 ∧ (t.gang? 1 0).map (fun g => (g.vreg 8 0, g.vreg 8 1)) = some (0, 5)) = true := by
  decide +kernel

theorem witness_StoreArrives :
    (someAnd (evStore.unit? 3 0) fun x => !x.2.returns && evStore.unitReady x.1 x.2 && x.2.loc == .phys 0x40000100 && decide (x.2.n ≤ 16)) = true ∧
    (someAnd (evRed.unit? 3 0) fun x => !x.2.returns && evRed.unitReady x.1 x.2) = true ∧
    (someAnd (evStore.gang? 1 0) fun g => !g.finished) = true ∧ Memory.wf evStore.mem = true ∧
    next (.storeAcknowledgement 3 0) evStore (fun t => t.ops = [] ∧ Memory.nat t.mem 0x40000100 8 = 0xABCD) = true ∧
    next (.storeAcknowledgement 3 0) evRed (fun t => t.ops = [] ∧ Memory.nat t.mem 0x40000100 8 = 10) = true := by decide +kernel

/-- Operation 5, started, of the placed block. -/
def aop5 (i : Issuer) (k : TlKind) (w : AWork) : AOp :=
  { id := 5, lead := 5, ctx := 0, blk := 1, core := 0, owner := i, kind := k, number := 1, batch := none, grid := 0, work := w, started := true,
    srcs := [], got := [], ahead := [], writes := [], parts := [], err := none, seals := [], wruns := [], since := 0 }
/-- It has nothing left to do. -/
def evDone (k : TlKind) (i : Issuer) (err : Option AsyncErr) : State := { ti with aops := [{ aop5 i k (.cpy 0 [] [] [] false []) with err }] }

theorem witness_Completions :
    (someAnd ((evDone .matrix (.tile 2) (some ⟨1, 0x0E, 0, 0⟩)).aop? 5) fun o => (evDone .matrix (.tile 2) (some ⟨1, 0x0E, 0, 0⟩)).completable o &&
      ((evDone .matrix (.tile 2) none).frame? 2).isSome) = true ∧
    (someAnd ((evDone .copy (.group 1 0 0) none).aop? 5) fun o => (evDone .copy (.group 1 0 0) none).completable o && ((evDone .copy (.group 1 0 0) none).gang? 1 0).isSome) = true ∧
    next (.matrixOperationCompletion 5) (evDone .matrix (.tile 2) (some ⟨1, 0x0E, 0, 0⟩)) (fun t => t.aops = [] ∧
      (t.frame? 2).map (fun f => (f.doneOps, f.errs.map fun q => q.entries.length)) = some ([0, 1, 0], [0, 1, 0])) = true := by decide +kernel

/-- A collective that read a poisoned part and was then cut short reports both. -/
theorem witness_Completions_cut :
    (let o := { aop5 (.tile 2) .coll (.coll .nop ⟨2, 1, 0, 0, TileRegs.start [] [] 0, [], [], [], [], [], 0⟩ 6 1 3 0 2 []) with
       got := [⟨.mem (.phys 0), 0⟩], err := some ⟨1, 0x0E, 0, 0x100⟩, cut := true }
     let s := { ti with aops := [o] }
     s.completable o ∧ o.group? = some 6 ∧ next (.collectiveCompletion 5) s (fun t =>
      (t.frame? 2).map (fun f => f.errs.map (·.entries)) = some [[], [], [⟨1, 0x0F, 6, 0⟩, ⟨1, 0x0E, 0, 0x100⟩]])) := by decide +kernel

/-- A fixed-latency operation with one write to X, a KMUL and a NEXTW that are back. -/
def evLand : State := ti |> onFrame fun f => { f with
  bundles := 11,
  fixed := [⟨7, .mzero none 0, ⟨2, 1, 0, 0, f.regs, [], [], [], [], [], 0⟩, 0, 0, [], [], true, [⟨.buf 2 3 16, 16, 0xFF00, BitVec.allOnes 128, []⟩], [], [], []⟩],
  landings := [⟨8, 41, some 11, some 3⟩, ⟨9, 5, none, some 77⟩], nextws := [⟨10, some 0x42, 11, 7⟩] }

theorem witness_Landings :
    (someAnd (evLand.frame? 2) fun f => someAnd (f.fixed.find? fun y => y.id == 7) fun x => someAnd (x.writes[0]?) fun w => x.computed && evLand.fixedWritable f x w &&
      f.fixed.all (fun y => !x.before y)) = true ∧
    (someAnd (evLand.frame? 2) fun f => (f.landings.map fun l => (l.reg, l.due, l.value)) = [(41, some 11, some 3), (5, none, some 77)] ∧ f.bundles = 11 ∧
      (f.nextws.map fun l => (l.value, l.due, l.target)) = [(some 0x42, 11, 7)]) = true ∧
    next (.fixedLatencyWriteVisible 2 7 0) evLand (fun t => someAnd (t.frame? 2) fun f => f.fixed.all fun x => x.writes.isEmpty) = true ∧
    next (.kmulLanding 2 8) evLand (fun t => someAnd (t.frame? 2) fun f => f.regs.f = 2 ∧ f.landings.length = 1) = true ∧
    next (.nextwLanding 2) evLand (fun t => someAnd (t.frame? 2) fun f => f.regs.scalar 39 = 0x42) = true := by decide +kernel

/-- One write of an operation of fixed latency, computed, to a V-tile, to shared memory or to a latch. -/
def evWrite (p : Place) (mask : W128) : State := tiLatch |> onFrame fun f => { f with
  fixed := [⟨7, .dmov none 8 3, ⟨2, 1, 0, 0, f.regs, [], [], [], [], [], 0⟩, 0, 0, [], [], true, [⟨p, 16, 0xABCD, mask, []⟩], [], [], []⟩] }

/-- What the clause of a fixed-latency write asks of a state. -/
def landsAt (p : Place) (mask : W128) : Bool :=
  let s := evWrite p mask
  (someAnd (s.frame? 2) fun f => someAnd (f.fixed[0]?) fun x => someAnd (x.writes[0]?) fun w => x.computed && s.fixedWritable f x w &&
    s.hasPlace 2 w.place && f.fixed.all (fun y => !x.before y)) && Memory.wf s.mem

theorem witness_Landings_places :
    landsAt (.vreg 1 0 31 7 false) 0xFFFF = true ∧ landsAt (.mem (.shared 1 4080)) (BitVec.allOnes 128) = true ∧
    landsAt (.latch 0 0 32) 0xFF = true ∧ landsAt (.buf 2 3 16) 0xFF00 = true := by decide +kernel

/-- A group that waits in MONWAIT, its monitor hit; one that polls. -/
def evWake (w : Wait) : State := { (th |> onSlice fun x => { x with wait := w }) with monitors := [⟨0, .phys 0x40000100, .waiter (.group 1 0 0), [], true⟩] }

theorem witness_WakeUps :
    (((evWake (.monwait none)).gang? 1 0).isSome && (evWake (.monwait none)).monitors.any fun m => m.kind == .waiter (.group 1 0 0) && m.hit) = true ∧
    ((onFrame (fun f => { f with wait := .ring (.phys 0) }) ti).frame? 2).map (·.wait) = some (.ring (.phys 0)) ∧
    next (.monwaitWake (.group 1 0 0)) (evWake (.monwait none)) (fun t => t.monitors = [] ∧ (t.gang? 1 0).map (fun g => g.slices.map fun x => (x.wait, x.again)) = some [(.none, .woken)]) = true ∧
    next (.monwaitPoll (.group 1 0 0)) (evWake (.monwait (some 256))) (fun t => (t.gang? 1 0).map (fun g => g.slices.map fun x => (x.wait, x.again)) = some [(.none, .polled 256)]) = true ∧
    next (.ringWaitWake (.tile 2)) (onFrame (fun f => { f with wait := .ring (.phys 0) }) ti) (fun t => (t.frame? 2).map (·.wait) = some .none) = true := by decide +kernel

/-- RACQ waits at a full ring, and RPEEK at an empty one: a wake that finds a slot completes it, and another leaves it waiting. -/
theorem witness_WakeUps_rings :
    (let w (peek : Bool) (s : State) : State := onSlice (fun x => { x with wait := .retry (.ringTake peek 20 .dev 0x40001000), again := .waited 0 }) s
     let full := numAt 0x40001010 4 4 thRing
     group (w false thRing) (fun v => (v.slice v.low).wait = .retry (.ringTake false 20 .dev 0x40001000) ∧ ((w false thRing).ctx v.b.ctx).state = 1 ∧
        okAnd (((w false thRing).disarm v.issuer).rcbLoc (v.ringParty (w false thRing)) 0x40001000) fun l => l = runOf (.phys 0x40001000) 32) ∧
      (someAnd (Rcb.ofBytes (full.readLoc (.phys 0x40001000) 32)) fun r => r.next true = none) ∧
      next (.ringWaitWake (.group 1 0 0)) (w false thRing) (fun t => group t fun v => v.r.sreg 20 = 0x40005020 ∧ v.pc = 0x10008 ∧ (v.slice 0).wait = .none) ∧
      next (.ringWaitWake (.group 1 0 0)) (w true thRing) (fun t => group t fun v => v.r.sreg 20 = 0x40005000 ∧ v.pc = 0x10008) ∧
      next (.ringWaitWake (.group 1 0 0)) (w false full) (fun t => t.blocks = (w false full).blocks)) := by decide +kernel

/-- The frame drains after its GRET. -/
def evGret : State := ti |> onFrame fun f => { f with draining := true, status := 5, retpc := 0x30000, regs := { f.regs with k := f.regs.k.set 7 0x99 } }
/-- A slice whose path has issued 64 times over a left-over path. -/
def evRotate : State := thJoin |> onSlice fun x => { x with issued := 64 }

theorem witness_Turns :
    (someAnd (evGret.frame? 2) fun f => evGret.drained f && (f.lowestErr).isNone && someAnd (evGret.gang? f.blk 0) fun g => !g.finished && f.gangs.contains 0) = true ∧
    (someAnd ((onFrame (fun f => { f with errs := f.errs.set 2 ⟨[⟨1, 0x0F, 0, 0⟩], false⟩ }) evGret).frame? 2) fun f =>
      (onFrame (fun f => { f with errs := f.errs.set 2 ⟨[⟨1, 0x0F, 0, 0⟩], false⟩ }) evGret).drained f && (f.lowestErr).isSome) = true ∧
    (let s := { (onFrame (fun f => { f with tctx := none, status := 0 }) ti) with running := [] }
     someAnd (s.frame? 2) fun f => decide (s.queuedFrames 0 = [f]) && someAnd (s.block? 1) fun b => (s.tilePlace 0 b.kernel).isSome && b.gateSince.isNone) = true ∧
    (let s := { ti with running := [] }; someAnd (s.nextTile 0) fun f => f.uid = 2) = true ∧
    (someAnd (evRotate.gang? 1 0) fun g => someAnd (g.slices[0]?) fun x => x.wait = .none ∧ x.again = .fresh ∧ x.exited = false ∧ x.mustRotate = true ∧
      g.slices.length ≤ 8 ∧ (∀ y ∈ g.slices, y.stack.length ≤ 16) ∧ (g.groups.find? fun r => r.id == x.group).isSome) = true ∧
    (let s := onGang (fun g => { g with active := false }) th
     someAnd (s.block? 1) fun b => someAnd (b.gang? 0) fun g => g.finished = false ∧ g.active = false ∧ s.gangReady b g = true) = true ∧
    next (.gretCompletion 2) evGret (fun t => t.frames = [] ∧ (t.gang? 1 0).map (fun g => (g.slices.map fun x => (x.pc, x.wait), g.groups.map fun r => r.sreg 7)) = some ([(0x30000, .none)], [0x99])) = true ∧
    next (.gretCompletion 2) (onSlice (fun x => { x with wait := .none, trapMode := some (0, 63), tpc := 0x2FFF8 }) evGret) (fun t =>
      (t.gang? 1 0).map (fun g => g.slices.map fun x => (x.pc, x.tpc)) = some [(0x10000, 0x30000)]) = true ∧
    next (.gretCompletion 2) { evGret with latches := [⟨0, 0, 2, 3, 0, 0, 0, [(0, 9)], true⟩] } (fun t => t.latches.map (fun l => (l.valid, l.bytes)) = [(false, [(0, 9)])]) = true ∧
    next (.sliceRotation 1 0 0) evRotate (fun t => (t.gang? 1 0).map (fun g => g.slices.map fun x => (x.pc, x.active)) = some [(0x30000, 3)]) = true ∧
    (let s := onGang (fun g => { g with active := true, leaves := true, issuedActive := 9 }) (onSlice (fun x => { x with yValid := 3 }) th)
     (someAnd (s.gang? 1 0) fun g => g.atEdge ∧ g.finished = false) ∧ next (.pendingGangPromotion 0 0) s (fun t =>
      (t.gang? 1 0).map (fun g => (g.leaves, g.issuedActive, g.slices.map (·.yValid))) = some (false, 0, [0]))) ∧
    next (.pendingGangPromotion 0 0) (onGang (fun g => { g with active := false }) th) (fun t => (t.gang? 1 0).map (·.active) = some true) = true := by decide +kernel

/-! ### Events: Flares, intake, launches, placement -/

/-- The placed context with tables of its own: handlers at 0x40010000, queues of four packets, one fault entry, arena slots. -/
def dv : State :=
  th |> onCtx (fun c => { c with
      desc := { c.desc with htab := 0x40010000, hcount := 1, arena := 0x30000000, aslots := 8, ftab := 0x40014000, ftcount := 1, fhidx := 0, savelen := 1, tslice := 1 },
      intake := List.replicate 4 { cap := 4, scap := 0, base := 0x40012000, spillBase := 0x40013000, queue := [], spill := [] } })
    |> numAt 0x40010000 32 (0x8000 + 2 ^ 90 + 4 * 2 ^ 95 + 2 ^ 104)
/-- A packet of this device for itself. -/
def pkt (kind flags : Nat) : Packet :=
  { kind := BitVec.ofNat 4 kind, flags := BitVec.ofNat 4 flags, seq := 0, stag := 7, sctx := 0, sdev := 0, prio := 1, hidx := 0, dctx := 0, ddev := 0,
    addr := 0, len := 0, nflit := if kind = 0 then 1 else 0, reserved := 0, checkOk := true, data := if kind = 0 then List.replicate 32 3 else [] }
/-- The packet on its way. -/
def onWay (p : Packet) (s : State) : State := { s with selfPkts := [p] }
/-- A handler entry. -/
def hand : HEntry := { code := 0x8000, window := 0, maxg := 1, regs := 4, idem := false, spill := false, shared := 0, priv := 0 }
/-- A request that waits. -/
def waits : FlareReq := ⟨9, .group 1 0 0, 0, pkt 0 0, none, 0⟩
/-- A remote copy of 16 bytes from or to device 0, its part sent at time 0. -/
def copying (toRemote : Bool) : AOp :=
  { aop5 (.group 1 0 0) .copy (.cpyRemote 0x40000100 0 0 0x40000800 16 toRemote [(0, .phys 0x40000100, 16)] [] [(.phys 0x40000100, 16)]) with parts := [⟨7, 0x40000800, 16, 0, some 0⟩] }

theorem witness_FlareTraffic_requests :
    (let p := { pkt 0 0 with dctx := 5 }; let s := onWay p dv
     (someAnd (s.receive p) fun u => !u.admits 5 0) ∧ next (.flareRequest p) s (fun t => t.selfPkts.map (fun q => (q.kind, q.flags, q.stag)) = [(1, 3, 7)])) ∧
    (let p := { pkt 0 0 with hidx := 1 }; let s := onWay p dv
     (someAnd (s.receive p) fun u => u.admits 0 0 && (u.handlerEntry 0 1).1.isNone) ∧
      next (.flareRequest p) s (fun t => t.selfPkts.map (fun q => (q.kind, q.flags)) = [(1, 2)] ∧ (t.ctx 0).cerr = 2)) ∧
    (let p := pkt 0 0; let s := onWay p dv
     (someAnd (s.receive p) fun u => u.admits 0 0 && someAnd (u.handlerEntry 0 0).1 fun h => h == hand && (u.enqueue 0 1 p h).isSome &&
        ((u.ctx 0).intake.getD 1 .empty).spill.isEmpty) ∧
      next (.flareRequest p) s (fun t => t.selfPkts.map (fun q => (q.kind, q.flags)) = [(1, 0)] ∧ (t.ctx 0).intake.map (fun x => x.queue.length) = [0, 1, 0, 0] ∧
        (t.ctx 0).groups.map (fun g => g.pkts.length) = [1] ∧ t.mem != s.mem)) := by decide +kernel

theorem witness_FlareTraffic_answers :
    (let p := pkt 1 4; let s := { onWay p dv with flares := [waits] }
     (someAnd (s.receive p) fun u => u.flares.find? (fun r => r.answeredBy p) == some waits) ∧
      next (.flareAnswer p) s (fun t => t.flares.map (·.answer) = [some 4])) ∧
    (let s := { dv with flares := [waits], time := 0x4000000 }
     (waits.sent + s.ato ≤ s.time.toNat ∧ next (.answerTimeout 9) s (fun t => t.flares.map (·.answer) = [some 5]))) ∧
    (let s := { dv with aops := [copying false], time := 0x4000000 }
     (s.aop? 5 = some (copying false) ∧ 0 + s.ato ≤ s.time.toNat ∧ next (.answerTimeout 7) s (fun t => t.aops.map (fun o => (o.parts, o.err.map (·.tinfo))) = [([], some 7)]))) := by
  decide +kernel

/-- Groups of the context: one open since time 4, one closed at time 0. -/
def twoGroups : List CGroup :=
  [⟨20, 0, 0, { hand with window := 8 }, [⟨0, some 0, pkt 0 0, hand⟩], 4, none, 0⟩, ⟨21, 1, 0, hand, [⟨1, some 1, pkt 0 0, hand⟩], 0, some 0, 0⟩]

theorem witness_Intake :
    next (.coalescingWindowExpiry 0 20) (onCtx (fun c => { c with groups := twoGroups }) { dv with time := 12 })
      (fun t => (t.ctx 0).groups.map (·.closed) = [some 12, some 0]) ∧
    next (.coalescingWindowExpiry 0 20) (onCtx (fun c => { c with groups := twoGroups }) { dv with time := 11 })
      (fun t => (t.ctx 0).groups.map (·.closed) = [none, some 0]) ∧
    next (.groupAgePromotion 0 21) (onCtx (fun c => { c with groups := twoGroups }) { dv with time := 16384 })
      (fun t => (t.ctx 0).groups.map (·.bumped) = [0, 1]) ∧
    (let s := onCtx (fun c => { c with faultWaits := [⟨.group 1 0 0, 0x5008, 1⟩] }) (onSlice (fun x => { x with wait := .fault none }) dv)
     let left := s.updCtx 0 fun x => { x with faultWaits := [] }
     s.freeFaultEntry 0 0 (s.ctx 0).desc.ftcount = some (some (0, 0)) ∧
      (someAnd (left.devWrite 0 0x40014000 (left.faultBytes 0 (.group 1 0 0))) fun t => (t.handlerEntry 0 0).1 == some hand) ∧
      next (.faultEntryAssign 0) s (fun t => (t.ctx 0).faultWaits = [] ∧ (t.ctx 0).faults.map (fun e => (e.idx, e.state, e.held.map (·.pkt.prio))) = [(0, 1, some 3)] ∧
        Memory.nat t.mem 0x40014000 4 = 1 ∧ (t.gang? 1 0).map (fun g => g.slices.map (·.wait)) = some [.fault (some 0)])) ∧
    (let s := onCtx (fun c => { c with groups := twoGroups }) dv
     (someAnd (s.nextHandler 0) fun x => x.1.uid == 21 && x.2 == (1, 1)) ∧
      next (.handlerGangPlacement 0) { s with uid := 30 } (fun t => (t.ctx 0).groups.map (·.uid) = [20] ∧
        t.blocks.map (fun b => (b.core, b.slot, b.handler.isSome)) = [(0, 0, false), (1, 1, true)] ∧
        (t.blocks.drop 1).map (fun b => b.gangs.map fun g => (g.vreg 7 0, (g.groups.map fun r => r.sreg 0))) = [[(0x03030303, [1])]])) := by decide +kernel

/-- A queue of the context, its ring at 0x40020000, tail 0x40021000 and head 0x40021008. -/
def que : Queue := { idx := 3, base := 0x40020000, tail := 0x40021000, head := 0x40021008, cring := 0, crlog := 0, slog := 1, prio := 2, inHand := none, poll := 0, word := 0 }
/-- Record 5 of a launch: one block of the kernel at 0x40022000. -/
def recLaunch : Nat := 5 + 0x40022000 * 2 ^ 64 + 2 ^ 192 + 2 ^ 208 + 2 ^ 224
/-- Record 5 of neither kind, which signals timeline 9. -/
def recSignal : Nat := 5 + 9 * 2 ^ 44 + 2 ^ 57 + 2 ^ 63
/-- Record 5 of a graph at 0x40024000. -/
def recGraph : Nat := 5 + 2 ^ 62 + 0x40024000 * 2 ^ 64
/-- A kernel of 4 lanes and 4 registers at 0x8000. -/
def krn : Kernel := { placedKernel with addr := 0x40022000, entry := 0x8000, regs := 4, lanes := 4 }
/-- The bytes other than 0, with their addresses. -/
def nonZero : Nat → List Byte → List (Nat × Byte)
  | _, [] => []
  | a, b :: bs => if b = 0 then nonZero (a + 1) bs else (a, b) :: nonZero (a + 1) bs
/-- The context with a queue whose record is published; timeline 9 is the context's; a graph of one node lies sealed. -/
def fe (rec : Nat) (q : Queue) : State :=
  { (dv |> onCtx (fun c => { c with queues := [q], seals := [⟨0, 0x40024000, 16384, 2, 0, .group 1 0 0⟩] })) with
    timelines := [⟨9, 40, true, false, 0⟩],
    mem := [(0x100000, 1), (0x100001, 0x10), (0x100002, 0x10), (0x101000, 1), (0x101001, 0x20), (0x101002, 0x10), (0x102000, 0x22),
        (0x102008, 0x1A), (0x10200B, 0x40)] ++ nonZero 0x40020040 (leBytes 64 rec) ++ [(0x40021000, 6), (0x40021008, 5)] ++
      nonZero 0x40022000 (leBytes 64 (0x8000 + 4 * 2 ^ 320 + 4 * 2 ^ 331 + 2 ^ 340)) ++ nonZero 0x40024000 (leBytes 16 (1 + 0x40025000 * 2 ^ 64)) }
/-- The record as read. -/
def rec5 (w : Nat) : Record := recordOf 5 (BitVec.ofNat 512 w)
/-- A grid of one block of that kernel. -/
def grd : Grid := { uid := 50, queue := 3, record := rec5 recLaunch, node := none, kernel := krn, next := 0, live := 0, total := 1, order := 50, unfitSince := none, reserved := false, trapExit := false }

/-- What FrontEnd's first clause asks of a record. -/
def published (s : State) (q : Queue) (w : Nat) : Bool :=
  (s.ctx 0).queue? 3 == some q && (s.ctx 0).state == 1 && (someAnd (s.awaits 0 q) fun x => x.1 == 5 && x.2.2) &&
    s.devRead 0 0x40020040 64 == some (leBytes 64 w) && s.recordOk 0 (BitVec.ofNat 512 w)

theorem witness_FrontEnd_taken :
    (let s := fe recLaunch que
     published s que recLaunch ∧ (rec5 recLaunch).kind = 0 ∧ (s.kernelAt 0 0x40022000 0).1 = some krn ∧
      next (.launchTicketSeen 0 3) s (fun t => (t.ctx 0).queues.map (·.inHand) = [some (rec5 recLaunch, some krn)])) ∧
    (let s := fe recGraph que
     published s que recGraph ∧ (rec5 recGraph).kind = 1 ∧ (okAnd (s.graphAt 0 0x40024000) fun x => x == (1, 0x40025000)) ∧
      next (.launchTicketSeen 0 3) s (fun t => (t.ctx 0).queues.map (·.inHand) = [some (rec5 recGraph, none)])) ∧
    (let s := fe recSignal { que with poll := 256 }
     published s { que with poll := 256 } recSignal ∧ (rec5 recSignal).kind = 2 ∧
      next (.frontEndPoll 0 3) s (fun t => (t.ctx 0).queues.map (·.inHand) = [some (rec5 recSignal, none)])) := by decide +kernel

theorem witness_FrontEnd_runs :
    (let q := { que with poll := 40000, word := 0x40021000 }; let s := numAt 0x40021000 8 5 (fe recLaunch q)
     (someAnd (s.awaits 0 q) fun x => !x.2.2 && x.2.1 == q.word) ∧ next (.frontEndPoll 0 3) s (fun t => (t.ctx 0).queues.map (·.poll) = [65536])) ∧
    (let q := { que with inHand := some (rec5 recLaunch, some krn) }; let s := fe recLaunch q
     s.waitsHold (rec5 recLaunch) ∧ next (.recordStart 0 (.queue 3)) s (fun t => (t.ctx 0).grids.map (fun g => (g.kernel, g.total, g.live)) = [(krn, 1, 0)] ∧
      Memory.nat t.mem 0x40021008 8 = 6)) ∧
    (let q := { que with inHand := some (rec5 recSignal, none) }; let s := fe recSignal q
     s.waitsHold (rec5 recSignal) ∧ (rec5 recSignal).sigmode = 1 ∧ (s.timeline 9).valid ∧
      next (.recordStart 0 (.queue 3)) s (fun t => (t.ctx 0).grids = [] ∧ (t.timeline 9).count = 41)) ∧
    (let l : Launch := { uid := 70, queue := 3, record := rec5 recGraph, nodes := 1, succ := 0x40025000, counts := [0], states := [1], trapExit := false,
                         taken := [(0, rec5 recLaunch, some krn)] }
     let s := onCtx (fun c => { c with launches := [l] }) (fe recGraph que)
     l.bad = false ∧ s.waitsHold (rec5 recLaunch) ∧ next (.recordStart 0 (.node 70 0)) s (fun t => (t.ctx 0).grids.map (fun g => (g.kernel, g.node)) = [(krn, some (70, 0))] ∧
      (t.ctx 0).launches.map (fun l => (l.states, l.taken)) = [([2], [])])) ∧
    (let g := { grd with next := 1, record := rec5 recSignal }; let s := onCtx (fun c => { c with grids := [g] }) (fe recSignal que)
     s.gridDone g ∧ next (.recordFinish 0 50) s (fun t => (t.ctx 0).grids = [] ∧ (t.timeline 9).count = 41)) := by decide +kernel

/-- A second context, of the same priority, with a grid that wants 4,100 gangs' registers. -/
def withRival (s : State) : State :=
  { s with ctxs := s.ctxs.set 1 { Ctx.absent 1 with state := 1, desc := { (Ctx.absent 1).desc with aslots := 1 }, grids := [{ grd with uid := 60, kernel := { krn with resv := 4100 } }] } }
/-- The first context stopped by the front end, nothing of it resident; its save area at 0x40040000 holds an end frame of one frame, with
the frame's CRC-32C. -/
def stopped : State :=
  { (dv |> onCtx fun c => { c with state := 3, byFront := true, desc := { c.desc with save := 0x40040000 } }) with
    blocks := [],
    mem := [(0x100000, 1), (0x100001, 0x10), (0x100002, 0x10), (0x101000, 1), (0x101001, 0x20), (0x101002, 0x10), (0x102000, 0x22), (0x102008, 0x1A),
      (0x10200B, 0x40), (0x40040000, 5), (0x40040004, 64), (0x40040038, 142), (0x40040039, 252), (0x4004003A, 3), (0x4004003B, 12), (0x40040040, 1)] }

set_option maxRecDepth 4000 in
theorem witness_Placement :
    (let s := onCtx (fun c => { c with grids := [{ grd with record := { grd.record with gx := 2, gy := 3 }, total := 6, next := 3 }] }) dv
     s.wants = [.next 0 50] ∧ !s.argsLost (gridBlock 0 { grd with record := { grd.record with gx := 2, gy := 3 }, total := 6, next := 3 } 0 3) ∧ s.fitWant (.next 0 50) = some ([1], [1]) ∧ dieOf 1 = 0 ∧
      next (.blockPlacement 0) s (fun t => (t.ctx 0).grids.map (fun g => (g.next, g.live)) = [(4, 1)] ∧
        (t.blocks.drop 1).map (fun b => (b.core, b.slot, b.number, b.bx, b.bY, b.bz)) = [(1, 1, 3, 1, 1, 0)] ∧
        (t.blocks.drop 1).map (fun b => b.gangs.map fun g => g.slices.map (·.pc)) = [[[0x8000]]])) ∧
    next (.gridReservation 0 50) (onCtx (fun c => { c with grids := [{ grd with unfitSince := some 7 }] }) { dv with time := 65543 })
      (fun t => (t.ctx 0).grids.map (·.reserved) = [true]) ∧
    (let s := onCtx (fun c => { c with used := 1024 }) (withRival dv)
     s.holdsCore 0 ∧ s.unfit 1 ∧ s.ctxs.map (·.id) = List.range Config.contexts ∧ next (.timeSliceExpiry 0) s (fun t => (t.ctx 0).state = 2 ∧ (t.ctx 0).byFront = true)) ∧
    (stopped.nextResume 0 ∧ stopped.resumeFits 0 ∧ (stopped.readSave 0).map (fun x => (x.1.length, x.2.length)) = some (0, 0) ∧
      next (.contextAutoResume 0) stopped (fun t => (t.ctx 0).state = 1)) ∧
    (let s := numAt 0x40040000 8 3 stopped
     s.nextResume 0 ∧ s.resumeFits 0 ∧ (s.readSave 0).isNone ∧ next (.contextAutoResume 0) s (fun t => (t.ctx 0).state = 4 ∧ (t.ctx 0).kcause = 5)) := by
  decide +kernel

/-! ### Events: fabric, host, control, reliability -/

/-- A remote access of 20 bytes at 0x40000810 from this device. -/
def rpk (kind : Nat) : Packet :=
  { pkt kind 0 with addr := 0x40000810, len := 20, nflit := if kind = 2 then 1 else 0, data := if kind = 2 then List.replicate 32 9 else [] }

theorem witness_RemoteParts_homes :
    (let p := rpk 2; let s := onWay p dv
     (someAnd (s.receive p) fun u => u.remoteTarget p true == some 0x40000810) ∧ (s.shootdownAt 0 0x40000810).isNone ∧ Memory.wf s.mem ∧
      next (.remoteWrite p) s (fun t => Memory.bytes t.mem 0x40000810 21 = List.replicate 20 9 ++ [0] ∧ t.selfPkts.map (fun q => (q.kind, q.flags, q.stag)) = [(5, 0, 7)])) ∧
    (let p := { rpk 2 with addr := 0x810 }; let s := onWay p dv
     (someAnd (s.receive p) fun u => (u.remoteTarget p true).isNone) ∧ (s.shootdownAt 0 0x810).isNone ∧
      next (.remoteWrite p) s (fun t => t.selfPkts.map (fun q => (q.kind, q.flags)) = [(5, 1)])) ∧
    (let p := rpk 3; let s := onWay p (numAt 0x40000820 4 0xABCDEF01 dv)
     (someAnd (s.receive p) fun u => u.remoteTarget p false == some 0x40000810 && !u.poisoned (.phys 0x40000810) 20) ∧
      next (.remoteReadRequest p) s (fun t => t.selfPkts.map (fun q => (q.kind, q.flags, q.len, leNat (q.data.drop 16))) = [(4, 0, 20, 0xABCDEF01)])) ∧
    (let p := rpk 3; let s := { onWay p dv with poison := [0x4000082] }
     (someAnd (s.receive p) fun u => u.remoteTarget p false == some 0x40000810 && u.poisoned (.phys 0x40000810) 20) ∧
      next (.remoteReadRequest p) s (fun t => t.selfPkts.map (fun q => (q.kind, q.flags, q.len)) = [(4, 1, 20)])) := by decide +kernel

theorem witness_RemoteParts_answers :
    (let p := pkt 5 1; let s := { onWay p dv with aops := [copying true] }
     (someAnd (s.receive p) fun u => u.partOf p == some (copying true, ⟨7, 0x40000800, 16, 0, some 0⟩)) ∧ (copying true).remote? = some (0, 0, true) ∧
      next (.writeAcknowledgement p) s (fun t => t.aops.map (fun o => (o.parts, o.err.map (·.tinfo))) = [([], some 6)])) ∧
    (let p := pkt 5 0; let s := { onWay p dv with aops := [copying true] }
     (someAnd (s.receive p) fun u => u.partOf p == some (copying true, ⟨7, 0x40000800, 16, 0, some 0⟩)) ∧
      next (.writeAcknowledgement p) s (fun t => t.aops.map (fun o => (o.parts, o.err)) = [([], none)])) ∧
    (let p := { pkt 4 0 with len := 16, nflit := 1, data := List.replicate 32 9 }; let s := { onWay p dv with aops := [copying false] }
     (someAnd (s.receive p) fun u => u.partOf p == some (copying false, ⟨7, 0x40000800, 16, 0, some 0⟩)) ∧ (copying false).remote? = some (0, 0, false) ∧
      Memory.wf s.mem ∧ next (.readResponse p) s (fun t => t.aops.map (fun o => (o.parts, o.err)) = [([], none)] ∧ t.mem = s.mem ∧
        someAnd (t.aop? 5) fun y => t.selfLocs y (cutGranules [(0x40000800, 16)]) = [(.phys 0x40000800, 16)] ∧ Memory.bytes (t.asyncPart y 0).mem 0x40000100 17 = List.replicate 16 9 ++ [0])) := by decide +kernel

/-- Member 1 of 3 in an allreduce of two elements, which has its own input. -/
def gathering : AOp :=
  aop5 (.tile 2) .coll (.coll (.coll none 4 5 8 .allreduce .sum .f32) ⟨2, 1, 0, 0, TileRegs.start [] [] 0, [], [], [], [], [], 0⟩ 6 1 3 0 2 [(1, leBytes 8 1)])
/-- What another member sends: a count and its rank. -/
def sentBy (rank count : Nat) : Packet :=
  { pkt 6 0 with prio := 0, hidx := 6, len := 8, nflit := 1, data := leBytes 32 7, coll := some ⟨rank, 0, .allreduce, .sum, .f32, count, 0⟩ }
/-- The context has seven groups. -/
def dvGroups : State := onCtx (fun c => { c with desc := { c.desc with gcount := 7 } }) dv
/-- What CollectivesAndLinks asks of data that comes. -/
def dataComes (s : State) (p : Packet) : Bool := someAnd (s.receive p) fun u => u.admits 0 0 && !(u.ctx 0).broken.contains 6 && decide (6 < (u.ctx 0).desc.gcount)

theorem witness_CollectivesAndLinks_data :
    (let p := sentBy 2 2; let s := onWay p dvGroups
     dataComes s p ∧ (s.aops.find? (collMatch 0 6 0)) = none ∧ next (.collectiveData p) s (fun t => t.collIn = [p])) ∧
    (let p := sentBy 2 2; let s := { onWay p dvGroups with aops := [gathering], collIn := [sentBy 0 2] }
     dataComes s p ∧ (s.aops.find? (collMatch 0 6 0)) = some gathering ∧ (s.collIn ++ [p]).all (fun q => collFor q 0 6 0) ∧
      ([0, 2].map fun r => rankInput (s.collIn ++ [p]) r 8) = [some (leBytes 8 7), some (leBytes 8 7)] ∧
      next (.collectiveData p) s (fun t => t.aops.map (fun o => (o.got.isEmpty, o.err.isNone)) = [(false, true)])) ∧
    (let p := sentBy 2 3; let s := { onWay p dvGroups with aops := [gathering] }
     dataComes s p ∧ next (.collectiveData p) s (fun t => (t.ctx 0).broken = [6] ∧ t.aops.map (fun o => o.cut) = [true])) ∧
    (let p := sentBy 2 3; let s := onCtx (fun c => { c with collSeq := [(6, 1)], collPast := [(6, ⟨1, 0, .allreduce, .sum, .f32, 2, 0⟩)] }) (onWay p dvGroups)
     dataComes s p ∧ (s.aops.find? (collMatch 0 6 0)) = none ∧ next (.collectiveData p) s (fun t => (t.ctx 0).broken = [6])) := by decide +kernel

theorem witness_CollectivesAndLinks_broken :
    (let s := { dv with aops := [gathering], time := 0x8000000 }
     gathering.since + s.colto ≤ s.time.toNat ∧ gathering.group? = some 6 ∧
      next (.collectiveTimeout 0 6) s (fun t => (t.ctx 0).broken = [6] ∧ t.aops.map (fun o => o.cut) = [true])) ∧
    (let p := { pkt 7 0 with hidx := 6 }; let s := { onWay p dv with aops := [gathering] }
     (someAnd (s.receive p) fun u => u.admits 0 0) ∧ next (.collectiveAbort p.hidx p) s (fun t => (t.ctx 0).broken = [6] ∧ t.aops.map (fun o => o.cut) = [true])) ∧
    (let o := { gathering with work := .coll (.coll none 4 5 8 .allreduce .sum .f32) ⟨2, 1, 0, 0, TileRegs.start [] [] 0, [], [], [], [], [], 0⟩ 0 0 2 0 64 [] }
     let s := { tiColl with aops := [o], routes := [(3, [4, 5])], flares := [waits], fabOut := [(0, { pkt 0 0 with ddev := 3 }), (0, { pkt 0 0 with ddev := 2 })] }
     s.groupOn 0 0 [1] 5 ∧ !s.groupOn 0 0 [] 5 ∧ next (.linkFailure 5 [1]) s (fun t => t.fenceP = 32 ∧ t.routes = [(3, [4])] ∧ t.flares = [waits] ∧ (t.ctx 0).broken = [0] ∧
      t.aops.map (fun o => o.cut) = [true])) ∧
    packetOk { pkt 1 0 with checkOk := false } = false ∧
    (let s := { dv with time := 0x10000, fabOut := [(0, { pkt 0 0 with ddev := 3, prio := 1 }), (0, { pkt 0 0 with ddev := 3, prio := 0 })] }
     next (.flitPriorityAgeing 0) s (fun t => t.fabOut.map (·.2.prio) = [0, 1])) := by decide +kernel

/-- A host atomic: add 5 to 8 bytes. -/
def hostAdd : HostAtomicOp := ⟨.add, true, 5⟩

theorem witness_HostAccesses :
    (let s := numAt 0x40000100 8 0xFFFFFFFFFFFFFFFE dv
     s.hostReach 0x40000100 8 ∧ !s.poisoned (.phys 0x40000100) 8 ∧ Memory.wf s.mem ∧ !s.sealedPhys 0x40000100 8 ∧
      next (.hostLoad 0x40000100 8) s (fun t => t.hostOut = [.loaded 0x40000100 [0xFE, 0xFF, 0xFF, 0xFF, 0xFF, 0xFF, 0xFF, 0xFF]]) ∧
      next (.hostStore 0x40000100 [1, 0]) s (fun t => Memory.nat t.mem 0x40000100 8 = 0xFFFFFFFFFFFF0001 ∧ t.hostOut = [.stored 0x40000100]) ∧
      next (.hostAtomic 0x40000100 hostAdd) s (fun t => Memory.nat t.mem 0x40000100 8 = 3 ∧ t.hostOut = [.old 0x40000100 0xFFFFFFFFFFFFFFFE])) ∧
    (let s := { dv with recovery := true }
     !hostOwn 0x3FFFFFE 2 ∧ next (.hostStore 0x3FFFFFE [8, 9]) s (fun t => t.fw.staging = [(0x3FFFFFE, 8), (0x3FFFFFF, 9)])) ∧
    (let s := { dv with recovery := true }
     !s.hostReach 0x100 4 ∧ next (.hostLoad 0x100 4) s (fun t => t.hostOut = [.error 0x100])) ∧
    (let s := { dv with poison := [0x10] }
     s.poisoned (.phys 0x100) 4 ∧ next (.hostLoad 0x100 4) s (fun t => t.hostOut = [.error 0x100])) ∧
    (let s := onCtx (fun c => { c with seals := [⟨0, 0x40000000, 16384, 2, 0, .group 1 0 0⟩] }) dv
     s.sealedPhys 0x40000100 8 ∧ next (.hostAtomic 0x40000100 hostAdd) s (fun t => t.hostOut = [.error 0x40000100] ∧ t.mem == dv.mem)) ∧
    next (.hostAtomic 0x40000101 hostAdd) dv (fun t => t.hostOut = [.error 0x40000101]) ∧
    (let s := onCtx (fun c => { c with seals := [⟨0, 0x40000000, 16384, 2, 0, .group 1 0 0⟩] }) dv
     s.sealedPhys 0x40000100 2 ∧ next (.hostStore 0x40000100 [8, 9]) s (fun t => t.hostOut = [.error 0x40000100] ∧ t.mem == dv.mem)) := by decide +kernel

/-- An absent slot, and memory with a context descriptor at 0x40050000. -/
def blank (aslots : Byte) : State :=
  { (dv |> onCtx fun c => { c with state := 0, cdesc := 0x40050000 }) with
    mem := [(0x40050002, 0x10), (0x40050020, aslots), (0x40050030, 1), (0x40050048, 1), (0x4005004C, 1), (0x40050072, 1), (0x40050074, 1)] }

theorem witness_ContextControl_en :
    (0 < (blank 1).ctxs.length ∧ ((blank 1).ctx 0).state = 0 ∧ physRange 0x40050000 256 ∧
      (descOf (Memory.bytes (blank 1).mem 0x40050000 256)).map (fun d => [d.root, d.aslots, d.ftcount, d.gcount, d.hcount, d.savelen, d.tslice]) =
        some [0x100000, 1, 1, 1, 1, 1, 1]) ∧
    (let s := { blank 1 with mem := ((blank 1).mem.filter fun x => x.1 != 0x40050020) }
     (descOf (Memory.bytes s.mem 0x40050000 256)).isNone ∧ next (.en 0) s (fun t => (t.ctx 0).state = 0 ∧ (t.ctx 0).cerr = 16)) := by decide +kernel

set_option maxRecDepth 4000 in
theorem witness_ContextControl_states :
    next (.stop 0) dv (fun t => (t.ctx 0).state = 2 ∧ (t.ctx 0).byFront = false) ∧
    (let s := onCtx (fun c => { c with state := 2, desc := { c.desc with savelen := 0 } }) dv
     (s.counters 0).all (· == 0) ∧ (s.drainTrap 0).isNone ∧ next (.stopDrainComplete 0) { s with blocks := [] } (fun t => (t.ctx 0).state = 4 ∧ (t.ctx 0).kcause = 3)) ∧
    (let s := onCtx (fun c => { c with state := 2, desc := { c.desc with save := 0x40040000 } }) { dv with blocks := [] }
     next (.stopDrainComplete 0) s (fun t => (t.ctx 0).state = 3)) ∧
    next (.resume 0) stopped (fun t => (t.ctx 0).state = 1) ∧
    next (.resume 0) (numAt 0x40040000 8 3 stopped) (fun t => (t.ctx 0).state = 4 ∧ (t.ctx 0).kcause = 5) ∧
    ((dv.ctx 0).present ∧ next (.kill 0) { dv with aops := [copying true] } (fun t => (t.ctx 0).state = 4 ∧ (t.ctx 0).kcause = 1 ∧ t.blocks = [] ∧ t.aops = [])) ∧
    next (.clear 0) (onCtx (fun c => { c with state := 4 }) dv) (fun t => (t.ctx 0).state = 0) ∧
    next (.ggen 0) (onCtx (fun c => { c with broken := [3] }) dv) (fun t => (t.ctx 0).broken = []) := by decide +kernel

/-- An invalidation ring: control block at 0x40060000, its record 5 for one page of context 0, which signals timeline 9. -/
def shooting : State :=
  { dv with
    timelines := [⟨9, 40, true, true, 3⟩], shootBlock := some (0x40060000, 0x40061000, 1), shootRead := 5, tlb := [⟨0, 0, 0x40000000, 0x40000000, 0x40000000, false, false, true, true⟩],
    mem := [(0x40060001, 0x10), (0x40060002, 6), (0x40060003, 0x40), (0x40060008, 6), (0x40060010, 5), (0x40060018, 1)] ++
      [(0x40061023, 0x40), (0x40061029, 0x90), (0x4006102C, 1), (0x40061038, 5)] }
/-- That record. -/
def shot : Shootdown := { id := 3, record := some 5, ctx := 0, va := 0x40000000, pages := 1, sigtl := some 9, dropped := none, done := false }

theorem witness_ContextControl_registers :
    next (.timelineControlWrite 8 .count 77) shooting (fun t => (t.timeline 8).count = 77 ∧ (t.timeline 9).count = 40) ∧
    next (.timelineControlWrite 9 .control 0xC005) shooting (fun t => t.timeline 9 = ⟨9, 40, true, false, 3⟩) ∧
    next (.registerWrite (.cerr 0) 2) (onCtx (fun c => { c with cerr := 7 }) dv) (fun t => (t.ctx 0).cerr = 5) ∧
    next (.registerWrite (.cdesc 1) 0x1000) dv (fun t => (t.ctx 1).cdesc = 0x1000) ∧
    (shooting.shootRing 0x40060000 = some (0x40061000, 6, 5, 1) ∧
      next (.invalidationRingEnable 0x40060000) { shooting with shootBlock := none, shootRead := 0 } (fun t => t.shootBlock = some (0x40060000, 0x40061000, 1) ∧ t.shootRead = 5)) ∧
    (shooting.uid = 3 ∧ shooting.shootRead < 6 ∧ Memory.nat shooting.mem 0x40061038 4 = 5 ∧
      shootOf 3 5 (BitVec.ofNat 256 (Memory.nat shooting.mem 0x40061020 32)) = some shot ∧
      next .shootdownRecord shooting (fun t => t.shootdowns = [shot] ∧ t.shootRead = 6)) ∧
    (let s := { shooting with shootdowns := [shot] }
     (s.shootdowns.find? fun d => d.id == 3 && !d.done && d.dropped.isNone) = some shot ∧
      moved (.shootDrop 3) s (fun t => t.tlb = [] ∧ t.shootdowns = [{ shot with dropped := some s.uid }])) ∧
    (let d := { shot with dropped := some shooting.uid }; let s := { shooting with shootdowns := [d], tlb := [] }
     (s.shootdowns.find? fun d => d.id == 3 && !d.done) = some d ∧ !s.oldAccess d s.uid ∧ !s.heldWrite d ∧
      next (.shootdownCompletion 3) s (fun t => t.shootdowns = [] ∧ (t.timeline 9).count = 41 ∧ Memory.nat t.mem 0x40060010 8 = 6)) := by decide +kernel

theorem witness_Reliability :
    (let s := { dv with owners := [(0x400000, 0)] }
     assocGet (0x4000001 / 16) s.owners = some 0 ∧ (s.ctx 0).present ∧
      next (.uncorrectableError (.near 0x4000001)) s (fun t => t.ecntUncorrectable = 1 ∧ t.poison = [0x4000001] ∧ (t.ctx 0).state = 4 ∧ (t.ctx 0).kcause = 4)) ∧
    next (.uncorrectableError (.codeUnissued 1 0 0x800)) (onGang (fun g => { g with code := [(0x800, 5), (0x801, 6)] }) { dv with ecntDeferred := 0xFFFF })
      (fun t => t.ecntDeferred = 0xFFFF ∧ t.ecntUncorrectable = 0 ∧ (t.gang? 1 0).map (fun g => g.code.map (·.1)) = some [0x801]) ∧
    next (.scrubInterval 3) { dv with ecntCorrected := 0xFFFFFFFE } (fun t => t.ecntCorrected = 0xFFFFFFFF) ∧
    next (.powerLimit 90) dv (fun t => t.limiting = true ∧ t.recovery = false) ∧
    next (.powerLimit 105) dv (fun t => t.recovery = true ∧ (t.ctx 0).kcause = 6) ∧
    next (.overtempShutdown 105) dv (fun t => t.recovery = true ∧ (t.ctx 0).state = 4 ∧ (t.ctx 0).kcause = 6) ∧
    next (.overtempShutdown 104) dv (fun t => t.recovery = false ∧ (t.ctx 0).state = 1) ∧
    next (.coreFence 3) dv (fun t => t.fenced 3 = true ∧ t.fenced 2 = false ∧ t.replace = true) ∧
    next (.coreFence 0) dv (fun t => t.fenced 0 = false ∧ (t.ctx 0).state = 2) ∧
    dv.ctxs.map (·.id) = List.range Config.contexts ∧
    next .deviceReset dv (fun t => t.recovery = true ∧ t.blocks = [] ∧ (t.ctx 0).state = 0) ∧
    ({ dv with recovery := true } : State).recovery = true ∧
    next .powerLoss dv (fun t => t.fw.store = none ∧ (t.ctx 0).state = 0) ∧
    (let s := { dv with fw := { dv.fw with running := true } }
     s.recovery = false ∧ next (.attestationQuote 0) s (fun t => t.hostOut.length = 1)) := by decide +kernel

/-! ### Decoding -/

/-- Whether each word decodes to its instruction. -/
def reads (l : List (W64 × Instr)) : Bool := l.all fun x => okAnd (decodeWord 256 x.1) (· == x.2)
/-- Whether each slot's bits decode to its operation. -/
def readsSlots (l : List (Slot × BitVec 48 × Instr)) : Bool := l.all fun x =>
  match decodeSlot true x.1 x.2.1 with | .ok (.op i) => i == x.2.2 | _ => false

/-- Integer and move words, their fields placed as spec/11 R305 and spec/12 R316-R318 say. -/
theorem test_decode_integer : reads [
    (0x0000000000000000, .nop),
    (0x0036080050300022, .iadd ⟨true, 3⟩ ⟨4, false, 0⟩ .i64 true false (.v 2) (.s 3)),
    (0x0020018058000041, .iadd ⟨false, 0⟩ ⟨0, true, 2⟩ .n32 false true (.v 2) (.imm 64)),
    (0x00401200F4100021, .imul ⟨false, 0⟩ ⟨9, false, 0⟩ .n32 true (.v 7) (.y 1)),
    (0x00601800C0805002, .imad ⟨false, 0⟩ ⟨12, false, 0⟩ .i64 false (.v 6) (.v 8) (.v 10)),
    (0x0080040033F00021, .imnmx ⟨false, 0⟩ ⟨2, false, 0⟩ .n32 true (.v 1) (.s 63)),
    (0x00A00A002FF00060, .iset ⟨false, 0⟩ ⟨false, 5⟩ .le .i32 (.v 1) (.v 255)),
    (0x00C00800202018E8, .lop3 ⟨false, 0⟩ ⟨4, false, 0⟩ false 0xE8 (.v 1) (.v 2) (.v 3)),
    (0x00E008005FF00072, .shf ⟨false, 0⟩ ⟨4, false, 0⟩ true true true (.v 2) (.imm 63)),
    (0x01000A0040000012, .popc ⟨false, 0⟩ ⟨5, false, 0⟩ true (.v 2)),
    (0x01200A0060000011, .clz ⟨false, 0⟩ ⟨5, false, 0⟩ false (.v 3)),
    (0x01400AC060000011, .brev ⟨false, 0⟩ ⟨5, false, 3⟩ false (.v 3)),
    (0x01600A007C4E4031, .bfx ⟨false, 0⟩ ⟨5, false, 0⟩ false true (.v 3) (.imm 4) (.imm 8)),
    (0x01800A0060480811, .bfi ⟨false, 0⟩ ⟨5, false, 0⟩ false (.v 3) (.v 4) (.s 1)),
    (0x01A00A00604001D1, .sel ⟨false, 0⟩ ⟨5, false, 0⟩ false 6 true (.v 3) (.v 4)),
    (0x01C0100080000013, .mov ⟨false, 0⟩ ⟨8, false, 0⟩ .b128 (.v 4)),
    (0x21E010001FFFFFFE, .movi ⟨false, 0⟩ ⟨8, false, 0⟩ 0x1FFFFFFE),
    (0x02000C20404000F2, .lea ⟨false, 0⟩ ⟨6, false, 0⟩ true 3 (.s 2) (.v 4)),
    (0x0220080020201840, .idot4 ⟨false, 0⟩ ⟨4, false, 0⟩ false true (.v 1) (.v 2) (.v 3))] = true := by decide +kernel

/-- Floating point, conversion, table and lane words; the FFMA is the example of spec/12 R319, the VOTE that of spec/18. -/
theorem test_decode_float : reads [
    (0x0400080020200048, .fadd ⟨false, 0⟩ ⟨4, false, 0⟩ false true (.v 1) (.v 2)),
    (0x042008003C200028, .fmul ⟨false, 0⟩ ⟨4, false, 0⟩ true false (.v 1) (.imm 2)),
    (0x0440064020201808, .ffma ⟨false, 0⟩ ⟨3, false, 1⟩ false false false (.v 1) (.v 2) (.v 3)),
    (0x0460080020200028, .fmnmx ⟨false, 0⟩ ⟨4, false, 0⟩ true (.v 1) (.v 2)),
    (0x0480060020200188, .fset ⟨false, 0⟩ ⟨false, 3⟩ .gt true (.v 1) (.v 2)),
    (0x04A008002020002A, .hadd2 ⟨false, 0⟩ ⟨4, false, 0⟩ true true false (.v 1) (.v 2)),
    (0x04C0080020201889, .hfma2 ⟨false, 0⟩ ⟨4, false, 0⟩ false false false true (.v 1) (.v 2) (.v 3)),
    (0x04E0080020000048, .sfn ⟨false, 0⟩ ⟨4, false, 0⟩ .ex2 (.v 1)),
    (0x08000800200004C8, .fcvt ⟨false, 0⟩ ⟨4, false, 0⟩ true (.ty .i8) .f32 (.v 1)),
    (0x08000800200E31C9, .fcvt ⟨false, 0⟩ ⟨4, false, 0⟩ false (.cb4 6) .f16 (.v 1)),
    (0x0820002060000120, .setfmt ⟨false, 0⟩ 9 (.s 3)),
    (0x48500E209C0013FE, .cbload true 7 (.s 4) 0x3FE),
    (0x08601060B06E1B0A, .decw ⟨false, 0⟩ 8 1 5 (.s 6) (.cb 3) 3),
    (0x08601020BC9E0031, .decw ⟨false, 0⟩ 8 0 5 (.imm 9) (.zb 2) 0),
    (0x08601020BC983850, .decw ⟨false, 0⟩ 8 0 5 (.imm 9) (.pc 7) 0),
    (0x488190209C000C05, .brecld false 200 (.s 4) 5),
    (0x0A00080020200051, .shfl ⟨false, 0⟩ ⟨4, false, 0⟩ .down (.v 1) (.v 2)),
    (0x0A201400A0000020, .vote ⟨false, 0⟩ (.pred .any ⟨true, 2⟩) (.v 5)),
    (0x0A200C00A0000060, .vote ⟨false, 0⟩ (.ballot ⟨6, false, 0⟩) (.v 5)),
    (0x0A400C00A0000041, .redux ⟨false, 0⟩ ⟨6, false, 0⟩ .maxN (.v 5))] = true := by decide +kernel

/-- Memory words; the LD is the worked encoding of spec/11, the LDNC, ATOM, FENCE and UNSEAL those of their entries. -/
theorem test_decode_memory : reads [
    (0x4C04082040198810, .ld ⟨false, 2⟩ 4 (.acq .dev) .b32 ⟨.s 2, .v 1, 2, 16⟩),
    (0x4C4010205C018C01, .ldnc ⟨false, 0⟩ 8 (.acq .dev) .b64 ⟨.s 2, .imm 0, 0, 1⟩),
    (0x4C201800D01E5200, .st ⟨false, 0⟩ 12 (.rel .block) .b128 ⟨.v 6, .s 1, 3, 512⟩),
    (0x4C600820403408FF, .ldb ⟨false, 0⟩ 4 255 (.s 2) (.v 3) 1),
    (0x4C8008011C000807, .stb ⟨false, 0⟩ 4 7 (.v 8) (.imm 0) 0),
    (0x4CA0100040538800, .atom ⟨false, 0⟩ 8 .add (.ar .dev) false (.v 2) (.v 5)),
    (0x4CC008204083B000, .cas ⟨false, 0⟩ 4 (.ar .sys) .b128 (.s 2) (.v 8)),
    (0x4CE0000040500807, .red ⟨false, 0⟩ .fadd .rlx false (.v 2) (.v 5)),
    (0x4D00000000018000, .fence false (.acq .dev)),
    (0x0D201220D0700000, .sealRegion ⟨false, 0⟩ ⟨true, 1⟩ (.s 6) (.s 7)),
    (0x0D400220C0000000, .unseal ⟨false, 0⟩ ⟨false, 1⟩ (.s 6)),
    (0x0D600400C0000000, .mapcommit ⟨false, 0⟩ 2 (.v 6)),
    (0x0D800620C0000000, .maprelease ⟨false, 0⟩ 3 (.s 6)),
    (0x4DA01420DC500C08, .poolget ⟨false, 0⟩ 10 5 (.s 6) 8),
    (0x4DC01420DC000C08, .poolput ⟨false, 0⟩ 10 (.s 6) 8)] = true := by decide +kernel

/-- Copy, wait and barrier words. -/
theorem test_decode_wait : reads [
    (0x1000000040483040, .cpy ⟨false, 0⟩ .fromRemote (.v 2) (.v 4) (.s 6)),
    (0x10200A4000000000, .cpbatch false ⟨5, false, 1⟩),
    (0x30400020BFFFFFFF, .cpwait false (.s 5) 0x1FFFFFFF),
    (0x1060002070400000, .tlwait false (.s 3) (.s 4)),
    (0x320000000000000F, .bar false 15),
    (0x3230000000000000, .cbar true),
    (0x52400020D0100C02, .pbarrive false (.s 6) (.s 1) 2),
    (0x52600020DC100C02, .pbwait false (.s 6) (.imm 1) 2),
    (0x52801020C021AC04, .monwait ⟨false, 0⟩ 8 .ltu (.acq .sys) true (.s 6) (.v 2)),
    (0x52A02820DC018C01, .racq false 20 .dev (.s 6) 1),
    (0x52C00020D1424C00, .rcommit false .block (.s 6) 20 0),
    (0x52E02820DC016C00, .rpeek false 20 .clus (.s 6) 0),
    (0x53000020D142AC00, .rrel false .sys (.s 6) 20 0)] = true := by decide +kernel

/-- Control words; RET, JOIN, YIELD, REGGIVE, REGCLAIM, SRD, SWR, TRAP and RFT are the words of their entries. -/
theorem test_decode_control : reads [
    (0x74140020FFFFFFFD, .bra ⟨true, true, 2⟩ 0xFFFFFFFD),
    (0x7422001060100004, .brx ⟨false, false, 1⟩ (.s 6) (.v 2) 4),
    (0x7440000000000009, .call ⟨false, false, 0⟩ 9),
    (0x7460000000000000, .ret ⟨false, false, 0⟩),
    (0x7480000000000000, .join false),
    (0x74A00000000000F0, .regang ⟨false, false, 0⟩ 0xF0),
    (0x74C0000000000000, .yield ⟨false, false, 0⟩),
    (0x74E6000000000000, .exit ⟨false, false, 3⟩),
    (0x360000000000003F, .gate false 63),
    (0x762016308007FFFE, .spawn ⟨true, false, 0⟩ 3 8 0x7FFFE),
    (0x164002011040A020, .flare ⟨false, 0⟩ 1 (some 20) 8 (.s 4) true false),
    (0x3660000000000038, .reggive false 56),
    (0x368000000000001C, .regclaim false 28),
    (0x16A0080040000000, .replay ⟨false, 0⟩ 4 (.v 2)),
    (0x9A00040000000000, .srd ⟨false, 0⟩ ⟨2, false, 0⟩ 0),
    (0x9A20003802200000, .swr ⟨false, 0⟩ 0x11 (.imm 0)),
    (0x3A40000000000042, .trap ⟨false, 0⟩ 0x42),
    (0x9A60000000000000, .rft false)] = true := by decide +kernel

/-- Words of FORMAT 6 (spec/11 R533). -/
theorem test_decode_uniform : reads [
    (0xC02008A09C800002, .uniformWord ⟨false, 0⟩ ⟨4, false, 2⟩ (.alu (.iadd .i64 false false) (.s 4) (.imm 8) (.v 0))),
    (0xC1E07E000000004D, .uniformWord ⟨false, 0⟩ ⟨63, false, 0⟩ (.movi 77)),
    (0xCA400C00A00000B1, .uniformWord ⟨false, 0⟩ ⟨6, false, 0⟩ (.redux .xor (.v 5))),
    (0xCA200C00A0000060, .uniformWord ⟨false, 0⟩ ⟨6, false, 0⟩ (.ballot (.v 5))),
    (0xDA000C0006E00000, .uniformWord ⟨false, 0⟩ ⟨6, false, 0⟩ (.srd 0x37)),
    (0xC2000C2050400052, .uniformWord ⟨false, 0⟩ ⟨6, false, 0⟩ (.lea false 1 (.s 2) (.s 4)))] = true := by decide +kernel

/-- K and D slots (spec/11 R308, spec/12 R320, R321). -/
theorem test_decode_slots_kd : readsSlots [
    (.k, 0x441200020, .kadd 4 false 4 (.imm 1)),
    (.k, 0x6FFD00001, .kadd 47 true 63 (.reg 32)),
    (.k, 0x851BFFFE1, .kmul 5 true 6 (.imm 0xFFFF)),
    (.k, 0xC51838005, .klop 5 .shr 6 (.reg 7)),
    (.k, 0x109FFFFFFD, .kmovi 9 0xFFFFFFD),
    (.k, 0x16A041000B, .kcmp 2 .le true 1 (.reg 2)),
    (.k, 0x19F17FF820, .kld .desc 31 5 0xFFE0),
    (.k, 0x1CC1400618, .kst .b64 12 5 24),
    (.k, 0x231C000040, .shpw .m 0 .row0 (.imm 64)),
    (.k, 0x2190900000, .shpw .c 2 .pitch (.reg 9)),
    (.k, 0x2430000008, .setfmtK 3 8),
    (.k, 0x2860000005, .cbloadK 5 6),
    (.d, 0x4104000, .dmov none 4 2),
    (.d, 0xB0C0380, .tfill (some 2) 3 7),
    (.d, 0xC000314, .racqTile none .dev 2 6),
    (.d, 0x1000037B, .rcommitTile none .clus 15 6),
    (.d, 0x1400030A, .rpeekTile none .block 1 6),
    (.d, 0x18000315, .rrelTile none .sys 2 6)] = true := by decide +kernel

/-- C and V slots. -/
theorem test_decode_slots_cv : readsSlots [
    (.c, 0x418A000, .tcopy none 6 5 false none),
    (.c, 0x418A483, .tcopy none 6 5 true (some 9)),
    (.c, 0xB98A481, .tgath (some 3) 6 5 9 true),
    (.c, 0xC18A480, .tscat none 6 5 9),
    (.c, 0x10082190, .coll none 2 1 3 .allreduce .sum .bf16),
    (.c, 0x100821B5, .coll none 2 1 3 .reduceScatter .max .i32),
    (.v, 0x40C85000003, .tew none 3 4 (.tile .max 5)),
    (.v, 0x68C80028022, .tew (some 1) 3 4 (.scalar .mul 40)),
    (.v, 0x40C80000006, .tew none 3 4 .neg),
    (.v, 0x80C80000006, .teu none 3 4 .tanh),
    (.v, 0xC0C80000000, .tcvt none 3 4),
    (.v, 0x100C80000000, .trans none 3 4),
    (.v, 0x140C80000002, .rowred none 3 4 .sum),
    (.v, 0x180C80000000, .rowstat none 3 4),
    (.v, 0x1C0C85000000, .rowscale none 3 4 5)] = true := by decide +kernel

/-- M and B slots. -/
theorem test_decode_slots_mb : readsSlots [
    (.m, 0x42040000003, .mma none 8 2 3),
    (.m, 0x8204328B004, .mloop none 8 2 0 10 11 (.streamW 3)),
    (.m, 0xB204028B001, .mloop (some 2) 8 2 1 10 11 .cycle),
    (.m, 0xC00E0000002, .mlatch none 2 7),
    (.m, 0x101900000002, .mdrain none 6 8 .add),
    (.m, 0x142000000000, .mzero none 8),
    (.b, 0x48FF00002, .tbr ⟨false, 0x23, 63, 2⟩),
    (.b, 0x9FC0FFFFF, .tcall ⟨true, 63, 0, 0xFFFFF⟩),
    (.b, 0xC70000000, .tret 7),
    (.b, 0x1000000000, .gret),
    (.b, 0x1460000000, .nextw 6),
    (.b, 0x1890000001, .tlwaitTile .matrix 9),
    (.b, 0x1C00000042, .trapTile 0x42)] = true := by decide +kernel

/-- The pair of spec/12 R319's example, and a bundle with a K slot, STOP and SAFE. -/
theorem test_decode_whole :
    okAnd (decodePair 256 0xA02008209C800002 0x0440064020201808) (· == .pairWord ⟨false, 0⟩ ⟨4, false, 0⟩
      (.alu (.iadd .i64 false false) (.s 4) (.imm 8) (.v 0)) (.ffma ⟨false, 0⟩ ⟨3, false, 1⟩ false false false (.v 1) (.v 2) (.v 3))) = true ∧
    okAnd (decodeBundle 0x8300044120002000000000000000000000000000000000000000000000000000) (· == .tileBundle 0x8300044120002000000000000000000000000000000000000000000000000000) = true ∧
    bundleSafe 0x8300044120002000000000000000000000000000000000000000000000000000 = true ∧
    bundleStop 0x8300044120002000000000000000000000000000000000000000000000000000 = true ∧
    (match bundleSlot 0x8300044120002000000000000000000000000000000000000000000000000000 .k with | .ok (.op i) => i == .kadd 4 false 4 (.imm 1) | _ => false) = true := by decide +kernel

/-- Words that the decoder refuses, with the %tinfo of spec/11 R300, R306 and R307 and spec/12 R315 and R321. -/
theorem test_decode_refused :
    (match decodeWord 256 1 with | .error (.enc 0) => true | _ => false) = true ∧
    (match decodeWord 256 0x0240000000000000 with | .error .opcode => true | _ => false) = true ∧
    (match decodeWord 256 0xE020000000000000 with | .error (.enc 0) => true | _ => false) = true ∧
    (match decodeWord 256 0x2020000000000000 with | .error (.enc 5) => true | _ => false) = true ∧
    (match decodeWord 4 (0x0020000000000000 + 2 ^ 41 * 4) with | .error (.enc 2) => true | _ => false) = true ∧
    (match decodePair 256 0xA02008009C800002 0x0440064020201808 with | .error (.enc 3) => true | _ => false) = true ∧
    (match decodeSlot true .v 0x40C80000028 with | .error (.enc 1) => true | _ => false) = true ∧
    (match decodeSlot true .k 0x2C00000000 with | .error .opcode => true | _ => false) = true ∧
    (match decodeSlot true .k 0x0560200000 with | .ok (.op _) => true | _ => false) = true ∧
    (match decodeSlot true .k 0x0760200000 with | .error (.enc 1) => true | _ => false) = true := by decide +kernel

/-! ### Ill-formed terms -/

/-- An always-true guard of format B. -/
def bt : BGuard := ⟨false, false, 0⟩
/-- Whether each term is refused. -/
def illFormed (l : List Instr) : Bool := l.all fun i => !i.wf

/-- Vector and uniform words: a misaligned pair, a wide operand past V255 or of a latch, a field that is not there and not 0, a no-write-back
form with a destination, an odd 128-bit S pair, a modifier without its form, a per-lane source where a uniform one is asked for. -/
theorem test_wf_words : illFormed [
    .iadd pt (vd 5) .i64 false false (.v 2) (.v 4), .iadd pt (vd 4) .i64 false false (.v 3) (.v 4), .iadd pt (vd 4) .i64 false false (.v 2) (.y 1),
    .mov pt (vd 8) .b128 (.v 254), .mov pt (vd 8) .b128 (.s 3), .fadd pt ⟨3, true, 1⟩ false false (.v 1) (.v 2),
    .iset pt ⟨true, 1⟩ .eq .i32 (.v 1) (.s 2), .fset pt ⟨true, 1⟩ .eq false (.s 1) (.v 2), .shf pt (vd 4) false false true (.v 1) (.v 2),
    .fcvt pt (vd 4) false (.ty .f16) .f16 (.v 1), .fcvt pt (vd 4) true (.cb4 1) .f32 (.v 1), .fcvt pt (vd 4) true (.ty .f16) .f32 (.v 1),
    .fcvt pt (vd 4) false (.cb4 1) .i32 (.v 1), .sel pt (vd 5) true 1 false (.v 2) (.v 4), .lea pt (vd 5) false 0 (.v 2) (.v 4),
    .setfmt pt 1 (.v 3), .cbload false 0 (.v 2) 0, .decw pt 253 0 0 (.s 1) (.cb 0) 3, .decw pt 8 0 0 (.v 1) (.cb 0) 0, .decw pt 8 0 0 (.s 1) (.zb 3) 0,
    .brecld false 0 (.v 2) 0, .vote pt (.ballot ⟨1, true, 0⟩) (.v 5), .srd pt (vd 2) 0x12, .srd pt (vd 3) 0x0F, .swr pt 0x0F (.s 1), .swr pt 0x21 (.v 2),
    .uniformWord pt ⟨4, false, 0⟩ (.alu (.iadd .i32 false false) (.v 1) (.s 2) (.v 0)), .uniformWord pt ⟨5, false, 0⟩ (.alu (.mov .b128) (.s 2) (.v 0) (.v 0)),
    .uniformWord pt ⟨4, true, 0⟩ (.movi 1), .uniformWord pt ⟨4, false, 0⟩ (.srd 0), .uniformWord pt ⟨4, false, 0⟩ (.alu (.iadd .i32 false false) (.s 1) (.s 2) (.s 3))] = true := by
  decide +kernel

/-- Memory, wait and control words: registers, orders, scopes, operations and guards that have no encoding. -/
theorem test_wf_memory : illFormed [
    .ld pt 5 .rlx .b64 ⟨.s 2, .imm 0, 0, 0⟩, .ld pt 4 (.rel .dev) .b32 ⟨.s 2, .imm 0, 0, 0⟩, .st pt 4 (.acq .dev) .b32 ⟨.s 2, .imm 0, 0, 0⟩,
    .ldnc pt 4 .rlx .b32 ⟨.v 3, .imm 0, 0, 0⟩, .st pt 254 .rlx .b128 ⟨.s 2, .imm 0, 0, 0⟩, .ldb pt 4 0 (.v 1) (.imm 0) 0, .stb pt 4 0 (.y 1) (.imm 0) 0,
    .atom pt 8 .fadd .rlx true (.s 2) (.v 4), .atom pt 9 .add .rlx true (.s 2) (.v 4), .cas pt 4 .rlx .b16 (.s 2) (.v 4), .cas pt 6 .rlx .b128 (.s 2) (.v 4),
    .red pt .exch .rlx false (.s 2) (.v 4), .red pt .add (.acq .dev) false (.s 2) (.v 4), .fence false .rlx, .sealRegion pt ⟨false, 1⟩ (.v 2) (.s 2),
    .unseal pt ⟨false, 1⟩ (.v 2), .mapcommit pt 1 (.v 3), .maprelease pt 1 (.y 0), .poolget pt 3 1 (.s 2) 0, .poolput pt 4 (.v 2) 0,
    .cpy pt .toRemote (.v 2) (.v 4) (.v 5), .cpbatch false ⟨1, true, 0⟩, .cpwait false (.v 1) 0, .tlwait false (.v 1) (.s 2), .pbarrive false (.v 2) (.s 1) 0,
    .pbwait false (.s 2) (.v 1) 0, .monwait pt 8 .eq (.rel .dev) false (.s 2) (.v 1), .monwait pt 9 .eq .rlx true (.s 2) (.v 2),
    .racq false 1 .gang (.s 2) 0, .rcommit false .slice (.s 2) 1 0, .rpeek false 1 .dev (.v 2) 0, .rrel false .gang (.s 2) 1 0,
    .brx bt (.s 2) (.v 1) 0, .brx bt (.v 3) (.v 1) 4, .call ⟨false, false, 1⟩ 0, .ret ⟨false, true, 2⟩, .regang ⟨false, false, 1⟩ 1, .yield ⟨false, false, 3⟩,
    .spawn bt 0 3 0, .spawn ⟨false, false, 1⟩ 0 8 0, .flare pt 1 none 9 (.s 4) false false, .flare pt 1 none 8 (.y 1) false false,
    .reggive false 0, .reggive false 6, .regclaim false 0, .regclaim false 10, .swr pt 0x12 (.s 1), .tileBundle (2 ^ 240)] = true := by
  decide +kernel

/-- Pairs: an operation that may not be first, a second word that may not be second, is guarded, or captures in the same latch. -/
theorem test_wf_pairs : illFormed [
    .pairWord pt ⟨1, false, 0⟩ (.alu (.sfn .rcp) (.s 1) (.v 0) (.v 0)) .nop, .pairWord pt ⟨1, false, 0⟩ (.lea false 0 (.s 1) (.s 2)) .nop,
    .pairWord pt ⟨1, false, 0⟩ (.redux .add (.s 1)) .nop, .pairWord pt ⟨1, false, 0⟩ (.srd 1) .nop,
    .pairWord pt ⟨1, false, 0⟩ (.movi 1) (.ld pt 4 .rlx .b32 ⟨.s 2, .imm 0, 0, 0⟩), .pairWord pt ⟨1, false, 0⟩ (.movi 1) (.trap pt 1),
    .pairWord pt ⟨1, false, 1⟩ (.movi 1) (.fadd ⟨false, 1⟩ (vd 4) false false (.v 1) (.v 2)), .pairWord pt ⟨1, false, 0⟩ (.movi 1) (.bar true 1),
    .pairWord pt ⟨1, false, 0⟩ (.movi 1) (.fadd pt (vd 4) false false (.v 1) (.v 2)),
    .pairWord pt ⟨1, false, 1⟩ (.movi 1) (.pairWord pt ⟨1, false, 2⟩ (.movi 1) .nop)] = true := by decide +kernel

/-- Slots: reserved scalar numbers, a KCMP-like test of a flag's bit, a tile register above T31, a scope below block, a reduction where none is. -/
theorem test_wf_slots : illFormed [
    .kadd 54 false 1 (.imm 0), .kadd 51 false 1 (.imm 0), .kmul 1 false 62 (.imm 0), .klop 1 .and 2 (.reg 60), .kmovi 52 0, .kcmp 0 .eq false 58 (.imm 0),
    .kld .desc 32 1 0, .kld .b64 48 1 0, .kst .desc 40 1 0, .kst .b8 55 1 0, .kst .b8 1 55 0, .shpw .m 0 .rows (.reg 54), .setfmtK 57 1, .cbloadK 0 58,
    .tfill none 1 54, .racqTile none .gang 0 1, .rcommitTile none .slice 0 1, .rpeekTile none .dev 0 62, .rrelTile none .gang 0 1,
    .tcopy none 1 2 false (some 54), .tgath none 1 2 55 false, .tscat none 1 2 56, .coll none 1 2 3 .allgather .max .f32, .coll none 1 2 54 .allreduce .sum .f32,
    .tew none 1 2 (.scalar .add 57), .mloop none 1 2 0 54 1 .cycle, .mloop none 1 2 0 1 54 .cycle, .tbr ⟨false, 40, 1, 0⟩, .tcall ⟨false, 54, 0, 0⟩,
    .tret 61, .nextw 62, .tlwaitTile .copy 54] = true := by decide +kernel

end Sys2Proof.Tests
end

/-! SUPPORT. Every step goes on (spec/00 R7). The model's one fault answers an instruction that runs without its issuer, so the proof is
three facts: an event needs no issuer, the decoder reads nothing for a group but thread words and pairs, and between the choice of an
issuer and its instruction the fetch only fills the TLB and the gang's fetch units. -/

namespace Sys2Proof.Machine

/-! ### Outcomes that go on -/

/-- An outcome that is a next state, no fault and no refusal. -/
def Continues (r : Host.Outcome State Fault Refusal) : Prop := ∃ t, r = .next t

theorem continues_next (s : State) : Continues (.next s) := ⟨s, rfl⟩

theorem continues_event (c : Bool) (s t : State) : Continues (event c s t) := continues_next _

theorem continues_hostWrite (c : Bool) (s t : State) : Continues (hostWrite c s t) := continues_event ..

/-! ### What the decoder reads for a group: a thread word or a pair -/

theorem AluOp.encOne_instr_isSome (g : Guard) (d : VDst) (op : AluOp) (a b c : Src) : (encOne (op.instr g d a b c)).isSome := by
  cases op <;> rfl

theorem encOne_vote_isSome (g : Guard) (d : VoteDst) (a : Src) : (encOne (.vote g d a)).isSome := by
  cases d <;> rfl

theorem encOne_decR_isSome (hold : Nat) (t : TWord) : (encOne (decR hold t).2).isSome := by
  unfold decR
  dsimp only
  split
  · exact AluOp.encOne_instr_isSome ..
  · split
    case h_9 => exact encOne_vote_isSome ..
    all_goals rfl

theorem encOne_decI_isSome (hold : Nat) (t : TWord) : (encOne (decI hold t).2).isSome := by
  unfold decI
  dsimp only
  split <;> rfl

theorem encOne_decM_isSome (hold : Nat) (t : TWord) : (encOne (decM hold t).2).isSome := by
  unfold decM
  dsimp only
  split <;> rfl

theorem encOne_decB_isSome (hold : Nat) (t : TWord) : (encOne (decB hold t).2).isSome := by
  unfold decB
  dsimp only
  split <;> rfl

theorem encOne_decX_isSome (hold : Nat) (t : TWord) : (encOne (decX hold t).2).isSome := by
  unfold decX
  dsimp only
  split <;> rfl

theorem encOne_decOwn_isSome (hold fmt : Nat) (t : TWord) : (encOne (decOwn hold fmt t).2).isSome := by
  unfold decOwn
  split
  · exact encOne_decR_isSome ..
  · exact encOne_decI_isSome ..
  · exact encOne_decM_isSome ..
  · exact encOne_decB_isSome ..
  · exact encOne_decX_isSome ..

theorem eq_of_decided_ok {errs : List Nat} {i j : Instr} (h : decided errs i = .ok j) : j = i := by
  cases errs with
  | nil => exact (Except.ok.inj h).symm
  | cons e es => cases h

theorem encOne_isSome_of_decodeWord {hold : Nat} {w : W64} {i : Instr} (h : decodeWord hold w = .ok i) : (encOne i).isSome := by
  unfold decodeWord at h
  dsimp only at h
  split at h
  · cases h
  split at h
  · cases h
  split at h
  · cases h
  split at h
  · split at h
    · rw [eq_of_decided_ok h]; rfl
    · cases h
  split at h
  · cases h
  · rw [eq_of_decided_ok h]; exact encOne_decOwn_isSome ..

theorem eq_pairWord_of_decodePair {hold : Nat} {w w2 : W64} {i : Instr} (h : decodePair hold w w2 = .ok i) :
    ∃ g d op second, i = .pairWord g d op second := by
  unfold decodePair at h
  dsimp only at h
  split at h
  · split at h
    · cases h
    split at h
    · cases h
    split at h
    · cases h
    split at h
    · cases h
    split at h
    · cases h
    · exact ⟨_, _, _, _, eq_of_decided_ok h⟩
  · cases h

/-- A group issues a single thread word or a pair: never a slot operation, a bundle or an event. -/
theorem decodeFor_ok {s : State} {v : View} {w w2 : W64} {i : Instr} (h : s.decodeFor v w w2 = .ok i) :
    (encOne i).isSome ∨ ∃ g d op second, i = .pairWord g d op second := by
  unfold State.decodeFor at h
  split at h
  · cases h
  · next j hj =>
    split at h
    · cases h
    · obtain rfl := Except.ok.inj h
      unfold decodeThread at hj
      split at hj
      · exact .inr (eq_pairWord_of_decodePair hj)
      · exact .inl (encOne_isSome_of_decodeWord hj)

/-! ### Thread words, pairs and bundles go on for their issuer -/

/-- A single thread word is run by `runThread`, whatever the state. -/
theorem exec_eq_runThread {i : Instr} (h : (encOne i).isSome) : ∃ f, ∀ s, exec i s = runThread s f := by
  cases i with
  | pairWord | tileBundle
  | kadd | kmul | klop | kmovi | kcmp | kld | kst | shpw | setfmtK | cbloadK | dmov | tfill | racqTile | rcommitTile | rpeekTile
  | rrelTile | tcopy | tgath | tscat | coll | tew | teu | tcvt | trans | rowred | rowstat | rowscale | mma | mloop | mlatch
  | mdrain | mzero | tbr | tcall | tret | gret | nextw | tlwaitTile | trapTile
  | loadDataReturn | storeAcknowledgement | flareAnswer | answerTimeout | copyCompletion | matrixOperationCompletion
  | collectiveCompletion | fixedLatencyWriteVisible | kldLanding | kmulLanding | nextwLanding | monwaitWake | monwaitPoll
  | ringWaitWake | gretCompletion | frameTakesTileContext | tileContextSwitch | sliceRotation | pendingGangPromotion
  | launchTicketSeen | frontEndPoll | recordStart | recordFinish | blockPlacement | gridReservation | timeSliceExpiry
  | contextAutoResume | handlerGangPlacement | coalescingWindowExpiry | groupAgePromotion | flareRequest | remoteWrite
  | remoteReadRequest | readResponse | writeAcknowledgement | collectiveData | collectiveAbort | collectiveTimeout | linkFailure
  | hostLoad | hostStore | hostAtomic | faultEntryAssign | shootdownRecord | shootdownCompletion | invalidationRingEnable
  | en | stop | resume | kill | clear | qgen | ggen | timelineControlWrite | registerWrite | stopDrainComplete
  | uncorrectableError | scrubInterval | powerLimit | overtempShutdown | bridgeFailure | coreFence | deviceReset
  | imageCheckRequest | powerLoss | attestationQuote | droppedPacket | linkRetransmission | flitPriorityAgeing | limitingEnd
  | rootMonitorIntegrityFailure => cases h
  | _ => exact ⟨_, fun _ => rfl⟩

theorem continues_pairWord {s : State} {v : View} (h : s.view? = some v) (g : Guard) (d : SDst) (op : UniOp) (second : Instr) :
    Continues (exec (.pairWord g d op second) s) := by
  change Continues (execPairWord g d op second s)
  unfold execPairWord
  rw [h]
  exact continues_next _

theorem continues_tileBundle {s : State} {v : TView} (h : s.tview? = some v) (w : W256) : Continues (exec (.tileBundle w) s) := by
  change Continues (execTileBundle w s)
  unfold execTileBundle
  rw [h]
  exact continues_next _

/-- What the decoder reads for a group goes on for every issuing group. -/
theorem continues_decoded {s t : State} {v u : View} {w w2 : W64} {i : Instr} (hd : s.decodeFor v w w2 = .ok i)
    (hv : t.view? = some u) : Continues (exec i t) := by
  rcases decodeFor_ok hd with h | ⟨g, d, op, second, rfl⟩
  · obtain ⟨f, hf⟩ := exec_eq_runThread h
    rw [hf]
    exact ⟨_, runThread_next hv f⟩
  · exact continues_pairWord hv g d op second

/-! ### The issuer stands after the fetch -/

theorem except_bind_ok {ε α β : Type} {x : Except ε α} {f : α → Except ε β} {b : β} (h : (x >>= f) = .ok b) :
    ∃ a, x = .ok a ∧ f a = .ok b := by
  cases x with
  | error e => cases h
  | ok a => exact ⟨a, rfl, h⟩

theorem State.tlbFill_eq (s : State) (core ctx va : Nat) : ∃ l, s.tlbFill core ctx va = { s with tlb := l } := by
  unfold State.tlbFill
  split
  · exact ⟨_, rfl⟩
  · split <;> exact ⟨_, rfl⟩

/-- A fetch changes the TLB alone. -/
theorem State.fetchCode_eq {s t : State} {w : Who} {pc : VAddr} {align n x : Nat} (h : s.fetchCode w pc align n = .ok (x, t)) :
    ∃ l, t = { s with tlb := l } := by
  unfold State.fetchCode at h
  obtain ⟨_, -, h⟩ := except_bind_ok h
  split at h
  · cases h
  obtain ⟨_, -, h⟩ := except_bind_ok h
  obtain ⟨_, -, h⟩ := except_bind_ok h
  split at h
  · cases h
  · cases h
    exact s.tlbFill_eq ..

theorem State.fetchCode_view {s t : State} {w : Who} {pc : VAddr} {align n x : Nat} (h : s.fetchCode w pc align n = .ok (x, t)) :
    t.view? = s.view? := by
  obtain ⟨l, rfl⟩ := State.fetchCode_eq h
  rfl

theorem State.fetchCode_tview {s t : State} {w : Who} {pc : VAddr} {align n x : Nat} (h : s.fetchCode w pc align n = .ok (x, t)) :
    t.tview? = s.tview? := by
  obtain ⟨l, rfl⟩ := State.fetchCode_eq h
  rfl

/-- What the view of the issuing group is made of: the gang's part is `View.gang`. -/
theorem View.of_view {s : State} {v : View} (h : s.view? = some v) :
    s.cur = .group v.b.uid v.g.name v.r.id ∧ v.g.groups.find? (fun r => r.id == v.r.id) = some v.r ∧
      ∃ m ms, v.g.members v.r.id = m :: ms := by
  unfold State.view? at h
  split at h <;> try contradiction
  next bu gn gi hcur =>
  split at h <;> try contradiction
  next b hb =>
  split at h <;> try contradiction
  next g hg =>
  split at h <;> try contradiction
  next r m ms hr hm =>
  obtain rfl := Option.some.inj h
  obtain rfl : r.id = gi := by simpa using List.find?_some hr
  exact ⟨by rw [State.block?_uid hb, Block.gang?_name hg]; exact hcur, hr, m, ms, hm⟩

/-- A resident group with members that `State.cur` names has a view. -/
theorem State.exists_view {s : State} {bu gn gi : Nat} {g : Gang} {r : Group} {m : Nat} {ms : List Nat}
    (hcur : s.cur = .group bu gn gi) (hg : s.gang? bu gn = some g) (hr : g.groups.find? (fun r => r.id == gi) = some r)
    (hm : g.members gi = m :: ms) : ∃ v, s.view? = some v := by
  unfold State.gang? at hg
  obtain ⟨b, hb, hg⟩ := Option.bind_eq_some_iff.mp hg
  exact ⟨{ b, g, r, m := m :: ms }, by simp only [State.view?, hcur, hb, hg, hr, hm]⟩

theorem State.holdCode_view {s : State} {v : View} (h : s.view? = some v) (w : Who) (va : Nat) :
    ∃ u, (s.holdCode w v.b.uid v.g.name va).view? = some u := by
  unfold State.holdCode
  split
  · next n _ _ =>
    obtain ⟨hcur, hr, m, ms, hm⟩ := View.of_view h
    have hg := s.gang?_updGang v.b.uid v.g.name
      (fun g => { g with code := assocSet (va / 32) (BitVec.ofNat 256 n) g.code }) (fun _ => rfl)
    rw [View.gang h] at hg
    exact State.exists_view hcur hg hr hm
  · exact ⟨v, h⟩

theorem State.fetchThread_view {s t : State} {v : View} {w w2 : W64} (h : s.view? = some v)
    (hf : s.fetchThread v = .ok (w, w2, t)) : ∃ u, t.view? = some u := by
  unfold State.fetchThread at hf
  dsimp only at hf
  generalize (if v.pc.toNat % 8 = 0 then assocGet (v.pc.toNat / 32) v.g.code else none) = held at hf
  cases held with
  | some u => cases hf; exact ⟨v, h⟩
  | none =>
    obtain ⟨⟨x, t1⟩, h1, hf⟩ := except_bind_ok hf
    dsimp only at hf
    split at hf
    · obtain ⟨⟨y, t2⟩, h2, hf⟩ := except_bind_ok hf
      cases hf
      exact State.holdCode_view ((State.fetchCode_view h2).trans h) ..
    · cases hf
      exact State.holdCode_view ((State.fetchCode_view h1).trans h) ..

/-! ### Issue cycles and bundles go on -/

theorem continues_issueAt {s : State} {v : View} (h : s.view? = some v) : Continues (s.issueAt v) := by
  unfold State.issueAt
  split
  · exact continues_next _
  · next hf =>
    obtain ⟨u, hu⟩ := State.fetchThread_view h hf
    split
    · exact continues_next _
    · next hd => exact continues_decoded hd hu

theorem continues_issueCand (s : State) (c : Cand) : Continues (s.issueCand c) := by
  unfold State.issueCand
  dsimp only
  split
  · exact continues_next _
  · next hv => exact continues_issueAt hv

theorem continues_runIssue (s : State) (core quad : Nat) : Continues (s.runIssue core quad) := by
  unfold State.runIssue
  dsimp only
  split
  · exact continues_next _
  · exact continues_issueCand ..

theorem continues_runBundle (s : State) (core : Nat) : Continues (s.runBundle core) := by
  unfold State.runBundle
  split
  · exact continues_next _
  dsimp only
  split
  · exact continues_next _
  next v hv =>
  split
  · exact continues_next _
  split
  · exact continues_next _
  · exact continues_next _
  · exact continues_next _
  · next hf =>
    split
    · exact continues_next _
    · exact continues_tileBundle ((State.fetchCode_tview hf).trans hv) _

/-! ### Events of accesses, engines, tile contexts and gangs go on -/

theorem continues_execLoadDataReturn (op unit : Nat) (s : State) : Continues (execLoadDataReturn op unit s) := by
  unfold execLoadDataReturn
  split
  · exact continues_next _
  · exact continues_event ..

theorem continues_execStoreAcknowledgement (op unit : Nat) (s : State) : Continues (execStoreAcknowledgement op unit s) := by
  unfold execStoreAcknowledgement
  split
  · exact continues_next _
  · exact continues_event ..

theorem continues_completion (s : State) (kind : TlKind) (op : Nat) : Continues (s.completion kind op) := by
  unfold State.completion
  split
  · exact continues_next _
  · exact continues_event ..

theorem continues_landing (s : State) (frame op : Nat) (ok : Frame → Landing → Bool) : Continues (s.landing frame op ok) := by
  unfold State.landing
  repeat' split
  all_goals exact continues_next _

theorem continues_execFixedLatencyWriteVisible (frame op part : Nat) (s : State) :
    Continues (execFixedLatencyWriteVisible frame op part s) := by
  unfold execFixedLatencyWriteVisible
  split
  · exact continues_next _
  split
  · exact continues_next _
  split
  · exact continues_next _
  · exact continues_event ..

theorem continues_execNextwLanding (frame : Nat) (s : State) : Continues (execNextwLanding frame s) := by
  unfold execNextwLanding
  split
  · exact continues_next _
  split
  · exact continues_next _
  split
  · exact continues_event ..
  · exact continues_next _

theorem continues_execRingWaitWake (i : Issuer) (s : State) : Continues (execRingWaitWake i s) := by
  unfold execRingWaitWake
  split
  · exact continues_event ..
  split
  · exact continues_next _
  split
  · exact continues_event ..
  · exact continues_next _

theorem continues_execGretCompletion (frame : Nat) (s : State) : Continues (execGretCompletion frame s) := by
  unfold execGretCompletion
  split
  · exact continues_next _
  · exact continues_event ..

theorem continues_execTileContextSwitch (core : Nat) (s : State) : Continues (execTileContextSwitch core s) := by
  unfold execTileContextSwitch
  split
  · exact continues_next _
  · exact continues_event ..

theorem continues_execSliceRotation (blk gang slice : Nat) (s : State) : Continues (execSliceRotation blk gang slice s) := by
  unfold execSliceRotation
  split
  · exact continues_next _
  · exact continues_event ..

theorem continues_execAnswerTimeout (req : Nat) (s : State) : Continues (execAnswerTimeout req s) := by
  unfold execAnswerTimeout
  dsimp only
  split
  · exact continues_event ..
  split
  · exact continues_next _
  · exact continues_event ..

/-! ### Events of the front end go on -/

theorem continues_execLaunchTicketSeen (ctx queue : Nat) (s : State) : Continues (execLaunchTicketSeen ctx queue s) := by
  unfold execLaunchTicketSeen
  split
  · exact continues_next _
  split
  · exact continues_next _
  split
  · exact continues_next _
  · exact continues_next _
  · exact continues_event ..

theorem continues_execFrontEndPoll (ctx queue : Nat) (s : State) : Continues (execFrontEndPoll ctx queue s) := by
  unfold execFrontEndPoll
  split
  · exact continues_next _
  split
  · exact continues_next _
  split <;> exact continues_next _

theorem continues_execRecordStart (ctx : Nat) (src : RecSrc) (s : State) : Continues (execRecordStart ctx src s) := by
  unfold execRecordStart
  split
  · exact continues_next _
  split
  · split
    · split
      · exact continues_event ..
      · exact continues_next _
    · exact continues_next _
  · split
    · exact continues_event ..
    · exact continues_next _

theorem continues_execRecordFinish (ctx rec : Nat) (s : State) : Continues (execRecordFinish ctx rec s) := by
  unfold execRecordFinish
  split
  · exact continues_next _
  · exact continues_event ..

theorem continues_execHandlerGangPlacement (ctx : Nat) (s : State) : Continues (execHandlerGangPlacement ctx s) := by
  unfold execHandlerGangPlacement
  split <;> exact continues_next _

/-! ### Packets go on -/

theorem continues_execFlareRequest (p : Packet) (s : State) : Continues (execFlareRequest p s) := by
  unfold execFlareRequest
  split
  · exact continues_next _
  split <;> exact continues_next _

theorem continues_execFlareAnswer (p : Packet) (s : State) : Continues (execFlareAnswer p s) := by
  unfold execFlareAnswer
  split
  · exact continues_next _
  split
  · exact continues_next _
  split <;> exact continues_next _

theorem continues_execRemoteWrite (p : Packet) (s : State) : Continues (execRemoteWrite p s) := by
  unfold execRemoteWrite
  split
  · exact continues_next _
  split
  · exact continues_next _
  split <;> exact continues_next _

theorem continues_execRemoteReadRequest (p : Packet) (s : State) : Continues (execRemoteReadRequest p s) := by
  unfold execRemoteReadRequest
  split
  · exact continues_next _
  split
  · exact continues_next _
  split
  · exact continues_next _
  split <;> exact continues_next _

theorem continues_execReadResponse (p : Packet) (s : State) : Continues (execReadResponse p s) := by
  unfold execReadResponse
  split
  · exact continues_next _
  split
  · exact continues_next _
  split
  · exact continues_next _
  split
  · exact continues_next _
  split
  · exact continues_next _
  dsimp only
  split <;> exact continues_next _

theorem continues_execWriteAcknowledgement (p : Packet) (s : State) : Continues (execWriteAcknowledgement p s) := by
  unfold execWriteAcknowledgement
  split
  · exact continues_next _
  split
  · exact continues_next _
  split
  · exact continues_next _
  split <;> exact continues_next _

theorem continues_execCollectiveData (p : Packet) (s : State) : Continues (execCollectiveData p s) := by
  unfold execCollectiveData
  dsimp only
  repeat' split
  all_goals exact continues_next _

theorem continues_execCollectiveAbort (group : BitVec 12) (p : Packet) (s : State) : Continues (execCollectiveAbort group p s) := by
  unfold execCollectiveAbort
  split <;> exact continues_next _

/-! ### Control, translation and failures go on -/

theorem continues_execTimelineControlWrite (t : BitVec 12) (w : TlWord) (value : W64) (s : State) :
    Continues (execTimelineControlWrite t w value s) := by
  cases w with
  | count => exact continues_hostWrite ..
  | control => exact continues_hostWrite ..

theorem continues_execRegisterWrite (r : HostReg) (value : W64) (s : State) : Continues (execRegisterWrite r value s) := by
  cases r with
  | cstat | fsc | reserved => exact continues_next _
  | _ => exact continues_hostWrite ..

theorem continues_execInvalidationRingEnable (pa : Nat) (s : State) : Continues (execInvalidationRingEnable pa s) := by
  unfold execInvalidationRingEnable
  generalize (if pa + 32 ≤ Config.nearEnd then s.shootRing pa else none) = ring
  cases ring <;> exact continues_next _

theorem continues_execShootdownRecord (s : State) : Continues (execShootdownRecord s) := by
  unfold execShootdownRecord
  split
  · exact continues_next _
  dsimp only
  split <;> exact continues_next _

theorem continues_execShootdownCompletion (rec : Nat) (s : State) : Continues (execShootdownCompletion rec s) := by
  unfold execShootdownCompletion
  split
  · exact continues_next _
  · exact continues_event ..

theorem continues_execUncorrectableError (p : ErrPlace) (s : State) : Continues (execUncorrectableError p s) := by
  cases p <;> exact continues_next _

theorem continues_execCoreFence (core : Nat) (s : State) : Continues (execCoreFence core s) := by
  unfold execCoreFence
  dsimp only
  split <;> exact continues_next _

/-! ### Every event goes on, in every state -/

theorem encode_eq_none_of_isEvent {i : Instr} (h : Instr.isEvent i = true) : encode i = .none := by
  unfold Instr.isEvent at h
  split at h
  · cases h
  · exact beq_iff_eq.mp h

theorem continues_of_isEvent {i : Instr} (h : Instr.isEvent i = true) (s : State) : Continues (exec i s) := by
  have hn := encode_eq_none_of_isEvent h
  cases i with
  | loadDataReturn op unit => exact continues_execLoadDataReturn op unit s
  | storeAcknowledgement op unit => exact continues_execStoreAcknowledgement op unit s
  | copyCompletion | matrixOperationCompletion | collectiveCompletion => exact continues_completion ..
  | kldLanding | kmulLanding => exact continues_landing ..
  | fixedLatencyWriteVisible frame op part => exact continues_execFixedLatencyWriteVisible frame op part s
  | nextwLanding frame => exact continues_execNextwLanding frame s
  | ringWaitWake w => exact continues_execRingWaitWake w s
  | gretCompletion frame => exact continues_execGretCompletion frame s
  | tileContextSwitch core => exact continues_execTileContextSwitch core s
  | sliceRotation blk gang slice => exact continues_execSliceRotation blk gang slice s
  | answerTimeout req => exact continues_execAnswerTimeout req s
  | launchTicketSeen ctx queue => exact continues_execLaunchTicketSeen ctx queue s
  | frontEndPoll ctx queue => exact continues_execFrontEndPoll ctx queue s
  | recordStart ctx src => exact continues_execRecordStart ctx src s
  | recordFinish ctx rec => exact continues_execRecordFinish ctx rec s
  | handlerGangPlacement ctx => exact continues_execHandlerGangPlacement ctx s
  | flareRequest p => exact continues_execFlareRequest p s
  | flareAnswer p => exact continues_execFlareAnswer p s
  | remoteWrite p => exact continues_execRemoteWrite p s
  | remoteReadRequest p => exact continues_execRemoteReadRequest p s
  | readResponse p => exact continues_execReadResponse p s
  | writeAcknowledgement p => exact continues_execWriteAcknowledgement p s
  | collectiveData p => exact continues_execCollectiveData p s
  | collectiveAbort group p => exact continues_execCollectiveAbort group p s
  | timelineControlWrite t w value => exact continues_execTimelineControlWrite t w value s
  | registerWrite r value => exact continues_execRegisterWrite r value s
  | invalidationRingEnable pa => exact continues_execInvalidationRingEnable pa s
  | shootdownRecord => exact continues_execShootdownRecord s
  | shootdownCompletion rec => exact continues_execShootdownCompletion rec s
  | uncorrectableError p => exact continues_execUncorrectableError p s
  | coreFence core => exact continues_execCoreFence core s
  | monwaitWake | timeSliceExpiry | contextAutoResume | stopDrainComplete | collectiveTimeout | droppedPacket
  | overtempShutdown | imageCheckRequest => exact continues_event ..
  | en | stop | resume | kill | clear | qgen | ggen => exact continues_hostWrite ..
  | monwaitPoll | frameTakesTileContext | pendingGangPromotion | blockPlacement | gridReservation | coalescingWindowExpiry
  | groupAgePromotion | linkFailure | hostLoad | hostStore | hostAtomic | faultEntryAssign | scrubInterval | powerLimit
  | bridgeFailure | deviceReset | powerLoss | attestationQuote | linkRetransmission | flitPriorityAgeing | limitingEnd
  | rootMonitorIntegrityFailure => exact continues_next _
  | vote g d => cases d <;> cases hn
  | pairWord => cases h
  | _ => cases hn

/-! ### Every move and every step goes on -/

theorem continues_runAct (a : Act) (s : State) : Continues (runAct a s) := by
  cases a with
  | event i =>
    change Continues (if Instr.isEvent i then exec i s else .next s)
    split
    · next h => exact continues_of_isEvent h s
    · exact continues_next _
  | issue core quad => exact continues_runIssue s core quad
  | bundle core => exact continues_runBundle s core
  | _ => exact continues_next _

/-- Settles O43: the head of the agenda or the free choice gives a move, a move always goes on, and time then passes. -/
theorem stepGoesOn : Obligations.StepGoesOn := by
  intro s
  unfold State.goesOn step
  split
  · exact continues_next _
  · next a t _ =>
    obtain ⟨u, hu⟩ := continues_runAct a t
    rw [hu]
    exact continues_next _

end Sys2Proof.Machine

/-! SUPPORT. Errors in storage, device failures, fencing and firmware (spec/01 R23, spec/07 R203-R205, spec/10 R284-R290): what a kill,
a trap and a stop request leave alone, and the equation of each event in each of its cases. -/

namespace Sys2Proof.Machine

/-! ### Folds and branches that keep a part of the state -/

theorem ite_keeps {α γ : Type} {π : α → γ} {p : Prop} [Decidable p] {a b : α} {c : γ} (ha : π a = c) (hb : π b = c) :
    π (if p then a else b) = c := by
  split
  · exact ha
  · exact hb

theorem foldl_keeps {α β γ : Type} {π : α → γ} {f : α → β → α} (h : ∀ a b, π (f a b) = π a) (l : List β) :
    ∀ a, π (l.foldl f a) = π a := by
  induction l with
  | nil => exact fun _ => rfl
  | cons b l ih => exact fun a => (ih (f a b)).trans (h a b)

theorem foldlM_keeps {ε α β γ : Type} {π : α → γ} {f : α → β → Except ε α} (h : ∀ a b c, f a b = .ok c → π c = π a) (l : List β) :
    ∀ a c, l.foldlM f a = .ok c → π c = π a := by
  induction l with
  | nil => intro a c e; cases e; rfl
  | cons b l ih =>
    intro a c e
    rw [List.foldlM_cons] at e
    obtain ⟨d, hd, hc⟩ := except_bind_ok e
    exact (ih d c hc).trans (h a b d hd)

/-! ### The contexts after an update -/

theorem State.ctxs_length_updCtx (s : State) (c : Nat) (f : Ctx → Ctx) : (s.updCtx c f).ctxs.length = s.ctxs.length := by
  simp

theorem State.ctx_updCtx (s : State) (c : Nat) (f : Ctx → Ctx) (j : Nat) :
    (s.updCtx c f).ctx j = if j = c ∧ j < s.ctxs.length then f (s.ctx j) else s.ctx j := by
  unfold State.ctx
  by_cases hj : j < s.ctxs.length
  · by_cases h : j = c
    · subst h; simp [hj]
    · simp [hj, h]
  · simp [hj]

/-- A present context stands in a slot: past the last slot, all are absent. -/
theorem State.lt_of_present {s : State} {c : Nat} (h : (s.ctx c).present = true) : c < s.ctxs.length := by
  refine Nat.lt_of_not_le fun hc => ?_
  have ha : s.ctx c = Ctx.absent c := by
    rw [State.ctx, List.getD_eq_getElem?_getD, List.getElem?_eq_none hc, Option.getD_none]
  rw [ha] at h
  cases h

/-! ### The health registers, which no kill and no trap writes (spec/10 R286) -/

/-- The error counters, the fences and the replacement request. -/
def State.health (s : State) : BitVec 32 × BitVec 16 × BitVec 16 × BitVec 160 × BitVec 32 × Bool :=
  (s.ecntCorrected, s.ecntUncorrectable, s.ecntDeferred, s.fenceC, s.fenceP, s.replace)

/-- Those, the poisoned parts, and each context's STATE and KCAUSE: what the discards of a kill leave alone. -/
def State.standing (s : State) : (BitVec 32 × BitVec 16 × BitVec 16 × BitVec 160 × BitVec 32 × Bool) × List Nat × List (Nat × Nat) :=
  (s.health, s.poison, s.ctxs.map fun c => (c.state, c.kcause))

theorem State.health_of_standing {s t : State} (h : t.standing = s.standing) : t.health = s.health := congrArg (·.1) h

theorem State.poison_of_standing {s t : State} (h : t.standing = s.standing) : t.poison = s.poison := congrArg (·.2.1) h

theorem State.ctxs_length_of_standing {s t : State} (h : t.standing = s.standing) : t.ctxs.length = s.ctxs.length := by
  simpa [State.standing] using congrArg (·.2.2.length) h

theorem State.ctx_of_standing {s t : State} (h : t.standing = s.standing) (j : Nat) :
    (t.ctx j).state = (s.ctx j).state ∧ (t.ctx j).kcause = (s.ctx j).kcause := by
  have hj := congrArg (fun x => x.2.2.getD j (0, 0)) h
  have key (u : State) : u.standing.2.2.getD j (0, 0) = ((u.ctx j).state, (u.ctx j).kcause) := by
    simp only [State.standing, State.ctx, List.getD_eq_getElem?_getD, List.getElem?_map]
    cases u.ctxs[j]? <;> rfl
  simpa only [key, Prod.mk.injEq] using hj

theorem State.updCtx_standing (s : State) (c : Nat) {f : Ctx → Ctx} (hf : ∀ x, (f x).state = x.state ∧ (f x).kcause = x.kcause) :
    (s.updCtx c f).standing = s.standing := by
  have h : (s.updCtx c f).ctxs.map (fun x => (x.state, x.kcause)) = s.ctxs.map fun x => (x.state, x.kcause) := by
    refine List.ext_getElem (by simp) fun j _ _ => ?_
    simp only [State.updCtx_ctxs, List.getElem_map, List.getElem_mapIdx]
    split <;> simp [hf]
  exact congrArg (fun l => (s.health, s.poison, l)) h

theorem State.ecntUncorrectable_of_health {s t : State} (h : t.health = s.health) : t.ecntUncorrectable = s.ecntUncorrectable :=
  congrArg (·.2.1) h

/-! ### A kill -/

theorem State.sendMember_standing (s : State) (kind ctx g : Nat) (m : Nat × Nat) (f : Packet → Packet) :
    (s.sendMember kind ctx g m f).standing = s.standing := by
  unfold State.sendMember State.send
  dsimp only
  by_cases hr : s.routed (f { s.packet kind m.1 m.2 ctx 0 with hidx := BitVec.ofNat 12 g }).ddev.toNat
  · simp only [hr, Bool.not_true, Bool.false_eq_true, if_false]
    split <;> rfl
  · simp [hr]

theorem State.sendAborts_standing (s : State) (c : Nat) : (s.sendAborts c).standing = s.standing := by
  refine foldl_keeps (π := State.standing) (fun t g => ?_) _ s
  split
  · split
    · exact foldl_keeps (π := State.standing) (fun t x => t.sendMember_standing 7 c g x id) _ t
    · rfl
  · rfl

theorem State.uncount_standing (s : State) (c : Nat) (seals : List Nat) : (s.uncount c seals).standing = s.standing :=
  s.updCtx_standing c fun _ => ⟨rfl, rfl⟩

theorem State.dropAops_standing (s : State) (f : AOp → Bool) : (s.dropAops f).standing = s.standing :=
  foldl_keeps (π := State.standing) (fun t (o : AOp) => t.uncount_standing o.ctx o.seals) _ s

theorem State.setCerr_standing (s : State) (c k : Nat) : (s.setCerr c k).standing = s.standing :=
  s.updCtx_standing c fun _ => ⟨rfl, rfl⟩

/-- Bytes written by the device itself clear no poison: they are no store of a whole part (spec/07 R204). -/
theorem State.devWrite_standing {s t : State} {c va : Nat} {bs : List Byte} (h : s.devWrite c va bs = some t) :
    t.standing = s.standing := by
  obtain ⟨ps, -, rfl⟩ := Option.map_eq_some_iff.mp h
  exact foldl_keeps (π := State.standing) (f := fun t p => (t.setOwner p c).noteWrite p 1) (fun _ _ => rfl) ps _

theorem State.devWrite_or_setCerr_standing (s : State) (c va k : Nat) (bs : List Byte) :
    ((s.devWrite c va bs).getD (s.setCerr c k)).standing = s.standing := by
  cases h : s.devWrite c va bs with
  | none => exact s.setCerr_standing c k
  | some t => exact State.devWrite_standing h

theorem State.freeFault_standing (s : State) (c : Nat) (e : FaultEntry) : (s.freeFault c e).standing = s.standing := by
  refine Eq.trans (State.updCtx_standing _ c ?_) (s.devWrite_or_setCerr_standing ..)
  exact fun _ => ⟨rfl, rfl⟩

theorem State.killFaults_standing (s : State) (c : Nat) : (s.killFaults c).standing = s.standing := by
  refine foldl_keeps (π := State.standing) (fun t i => ?_) _ s
  split
  · exact t.freeFault_standing ..
  · split
    · split
      · rfl
      · exact t.devWrite_or_setCerr_standing ..
    · rfl

/-- A kill ends its context, whose slot it marks, over a state that stands as the one before. -/
theorem State.kill_eq (s : State) (c cause : Nat) :
    ∃ (t : State) (f : Ctx → Ctx), s.kill c cause = t.updCtx c f ∧ t.standing = s.standing ∧ ∀ x, (f x).state = 4 ∧ (f x).kcause = cause := by
  refine ⟨_, _, rfl, ?_, fun _ => ⟨rfl, rfl⟩⟩
  refine (State.killFaults_standing _ c).trans ((State.dropAops_standing _ _).trans ?_)
  split
  · rfl
  · exact s.sendAborts_standing c

theorem State.kill_health (s : State) (c cause : Nat) : (s.kill c cause).health = s.health := by
  obtain ⟨t, f, e, ht, -⟩ := s.kill_eq c cause
  rw [e]
  exact (State.health_of_standing ht :)

theorem State.kill_poison (s : State) (c cause : Nat) : (s.kill c cause).poison = s.poison := by
  obtain ⟨t, f, e, ht, -⟩ := s.kill_eq c cause
  rw [e]
  exact (State.poison_of_standing ht :)

theorem State.kill_self {s : State} {c : Nat} (h : (s.ctx c).present = true) (cause : Nat) :
    ((s.kill c cause).ctx c).state = 4 ∧ ((s.kill c cause).ctx c).kcause = cause := by
  obtain ⟨t, f, e, ht, hf⟩ := s.kill_eq c cause
  rw [e, State.ctx_updCtx, if_pos ⟨rfl, State.ctxs_length_of_standing ht ▸ State.lt_of_present h⟩]
  exact hf _

theorem State.kill_other {s : State} {c j : Nat} (h : j ≠ c) (cause : Nat) :
    ((s.kill c cause).ctx j).state = (s.ctx j).state ∧ ((s.kill c cause).ctx j).kcause = (s.ctx j).kcause := by
  obtain ⟨t, f, e, ht, -⟩ := s.kill_eq c cause
  rw [e, State.ctx_updCtx, if_neg fun k => h k.1]
  exact State.ctx_of_standing ht j

/-! ### Traps and the ends that they bring leave the health registers alone -/

theorem State.discardFrame_health (s : State) (f : Frame) : (s.discardFrame f).health = s.health := by
  unfold State.discardFrame
  refine Eq.trans (foldl_keeps (π := State.health) ?_ f.gangs _) (foldl_keeps (π := State.health) ?_ f.fixed s)
  · intro t gn
    split <;> rfl
  · exact fun _ _ => rfl

theorem State.cbars_health (s : State) (cluster : Nat) : (s.cbars cluster).health = s.health := by
  unfold State.cbars
  dsimp only
  split
  · split
    · exact foldl_keeps (π := State.health) (f := fun t (b : Block) => t.l1Acquire b.core) (fun _ _ => rfl) _ _
    · rfl
  · rfl

theorem State.endGangs_health (s : State) (blk : Nat) : (s.endGangs blk).health = s.health := by
  unfold State.endGangs
  split <;> rfl

theorem State.grants_health (blk : Nat) : ∀ n (s : State), (State.grants blk n s).health = s.health
  | 0, _ => rfl
  | n + 1, s => by
    unfold State.grants
    split
    · rfl
    · split
      · rfl
      · exact State.grants_health blk n _

theorem State.retire_health (s : State) (blk : Nat) : (s.retire blk).health = s.health := by
  unfold State.retire
  split
  · rfl
  · dsimp only
    split <;> rfl

theorem State.settleBlock_health (s : State) (blk : Nat) : (s.settleBlock blk).health = s.health := by
  unfold State.settleBlock
  split
  · rfl
  · dsimp only
    rw [State.retire_health, State.grants_health, State.endGangs_health, State.cbars_health]
    exact foldl_keeps (π := State.health) State.discardFrame_health _ s

theorem State.writeLoc_health (s : State) (ctx : Nat) (l : Loc) (n : Nat) (data mask : W128) :
    (s.writeLoc ctx l n data mask).health = s.health := by
  cases l <;> rfl

theorem ok_of_guard {ε α : Type} {p : Prop} [Decidable p] {e : ε} {x : Except ε α} {a : α}
    (h : (if p then .error e else x) = .ok a) : x = .ok a := by
  split at h
  · cases h
  · exact h

theorem State.spillMove_health {s t : State} {v : View} {i k : Nat} {e : Option Entry} (h : s.spillMove v i k e = .ok t) :
    t.health = s.health := by
  unfold State.spillMove at h
  dsimp only at h
  split at h
  · cases h
  · have h := ok_of_guard (ok_of_guard (ok_of_guard h))
    cases e with
    | none => cases h; rfl
    | some e => cases h; exact s.writeLoc_health ..

theorem State.spillSlice_health {s t : State} {v : View} {i : Nat} {old new : List Entry} (h : s.spillSlice v i old new = .ok t) :
    t.health = s.health := by
  refine foldlM_keeps (π := State.health) (fun a k c hc => ?_) _ s t h
  split at hc
  · cases hc; rfl
  · have store {u : State} (hu : (if k < new.length - 16 then u.spillMove v i k new[k]? else .ok u) = .ok c) : c.health = u.health := by
      split at hu
      · exact State.spillMove_health hu
      · cases hu; rfl
    dsimp only at hc
    split at hc
    · obtain ⟨u, hu, hc⟩ := except_bind_ok hc
      exact (store hc).trans (State.spillMove_health hu)
    · exact store hc

theorem State.spills_health {v : View} {s t : State} (h : State.spills v s = .ok t) : t.health = s.health := by
  unfold State.spills at h
  split at h
  · cases h; rfl
  · refine foldlM_keeps (π := State.health) (fun a i c hc => ?_) _ s t h
    split at hc
    · split at hc
      · cases hc; rfl
      · exact State.spillSlice_health hc
    · cases hc; rfl

theorem State.trapExits_health (s : State) (b : Block) (g : Gang) (ms : List Nat) (replay : Bool) :
    (s.trapExits b g ms replay).1.health = s.health := by
  unfold State.trapExits
  dsimp only
  split
  next t h => exact (State.spills_health h).trans rfl
  · split <;> rfl
  · split <;> rfl
  · rfl

theorem State.seekRoutine_health (s : State) (c : Nat) (t : Trap) : (s.seekRoutine c t).health = s.health := by
  unfold State.seekRoutine
  dsimp only
  split <;> rfl

theorem State.enterTraps_health (s : State) (blk name : Nat) (ms : List (Nat × Trap)) (replay : Bool) :
    (s.enterTraps blk name ms replay).health = s.health := by
  unfold State.enterTraps
  split
  next b g i t0 rest hb hg =>
    have hs := s.seekRoutine_health b.ctx t0
    dsimp only
    split
    · exact (State.kill_health _ _ _).trans hs
    · split
      · have he := (State.trapExits_health (s.seekRoutine b.ctx t0) b g ((i, t0) :: rest |>.map (·.1)) replay).trans hs
        split
        · exact (State.settleBlock_health _ _).trans he
        · exact he
      · exact hs
  · rfl

theorem State.poolDeadlock_health (s : State) (blk : Nat) : (s.poolDeadlock blk).health = s.health := by
  unfold State.poolDeadlock
  split
  · rfl
  · dsimp only
    split
    · rfl
    · exact (foldl_keeps (π := State.health) (fun t (g : Gang) => t.enterTraps_health blk g.name _ false) _ _).trans rfl

theorem State.takeTrap_health (s : State) (blk name : Nat) (ms : List (Nat × Trap)) (replay : Bool) :
    (s.takeTrap blk name ms replay).health = s.health :=
  (State.poolDeadlock_health _ blk).trans (s.enterTraps_health blk name ms replay)

theorem State.tileTrap_health (s : State) (f : Frame) (slot : Nat) (t : Trap) : (s.tileTrap f slot t).health = s.health := by
  have hs : ((s.suspendFrame f.uid slot).seekRoutine f.ctx t).health = s.health := State.seekRoutine_health ..
  unfold State.tileTrap State.settle
  refine ite_keeps (π := State.health) ((State.kill_health ..).trans hs) (ite_keeps (π := State.health) ?_ hs)
  rw [State.poolDeadlock_health, State.settleBlock_health, State.discardFrame_health, hs]

theorem State.trapAt_health (s : State) (f slot : Nat) (t : Trap) : (s.trapAt f slot t).health = s.health := by
  unfold State.trapAt
  split
  · exact s.tileTrap_health ..
  · rfl

theorem State.blockError_health (s : State) (blk : Nat) : (s.blockError blk).health = s.health := by
  unfold State.blockError
  split
  · rfl
  next b _ =>
    split
    · refine foldl_keeps (π := State.health) ?_ (s.frames.filter fun f => f.blk == blk) s
      intro t f
      refine foldl_keeps (π := State.health) ?_ f.fixed t
      exact fun _ _ => rfl
    · refine foldl_keeps (π := State.health) ?_ b.gangs s
      exact fun t g => State.takeTrap_health ..

/-! ### Errors in storage (spec/07 R203-R205, spec/10 R284) -/

theorem State.codeError_health (s : State) (i : Issuer) : (s.codeError i).health = s.health := by
  cases i with
  | none => rfl
  | group b gn gi =>
    unfold State.codeError
    dsimp only
    split
    · exact s.takeTrap_health ..
    · rfl
  | tile f =>
    unfold State.codeError
    dsimp only
    split
    · exact s.trapAt_health ..
    · rfl

theorem State.arrayError_health (s : State) (blk : Nat) : (s.arrayError blk).health = s.health :=
  ite_keeps (π := State.health) rfl (s.blockError_health blk)

theorem State.poisonPart_mem (s : State) (part : Nat) : part ∈ (s.poisonPart part).poison := by
  unfold State.poisonPart
  dsimp only
  split
  next h => exact List.contains_iff_mem.mp h
  · exact List.mem_cons_self

theorem State.ownerEnds_health (s : State) (part : Nat) : (s.ownerEnds part).health = s.health := by
  unfold State.ownerEnds
  split
  · exact ite_keeps (π := State.health) (s.kill_health ..) rfl
  · rfl

theorem State.ownerEnds_poison (s : State) (part : Nat) : (s.ownerEnds part).poison = s.poison := by
  unfold State.ownerEnds
  split
  · exact ite_keeps (π := State.poison) (s.kill_poison ..) rfl
  · rfl

theorem State.ownerEnds_kills {s : State} {part c : Nat} (ho : assocGet (part / 16) s.owners = some c)
    (hp : (s.ctx c).present = true) : ((s.ownerEnds part).ctx c).state = 4 ∧ ((s.ownerEnds part).ctx c).kcause = 4 := by
  simpa only [State.ownerEnds, ho, if_pos hp] using State.kill_self hp 4

/-- The kills of an uncontainable error: of some context slots, those that are present end with KCAUSE 6. -/
def State.killEach (s : State) (cs : List Nat) : State := cs.foldl (fun t c => if (t.ctx c).present then t.kill c 6 else t) s

theorem State.uncontainable_eq (s : State) :
    s.uncontainable = { s.killEach (List.range Config.contexts) with
      recovery := true, fw := { (s.killEach (List.range Config.contexts)).fw with running := false } } := by
  unfold State.uncontainable State.killEach
  generalize List.range Config.contexts = cs
  rfl

theorem State.killEach_health (s : State) (cs : List Nat) : (s.killEach cs).health = s.health :=
  foldl_keeps (π := State.health) (fun t c => ite_keeps (π := State.health) (t.kill_health c 6) rfl) cs s

theorem State.uncontainable_health (s : State) : s.uncontainable.health = s.health := by
  rw [State.uncontainable_eq]
  generalize List.range Config.contexts = cs
  exact s.killEach_health cs

theorem Ctx.present_of_state {x y : Ctx} (h : x.state = y.state) : x.present = y.present := by
  simp [Ctx.present, h]

/-- A present context among those to kill ends, and one that has ended stays as it is. -/
theorem State.killEach_ends {j : Nat} (cs : List Nat) : ∀ {s : State},
    (j ∈ cs ∧ (s.ctx j).present = true) ∨ ((s.ctx j).state = 4 ∧ (s.ctx j).kcause = 6) →
    ((s.killEach cs).ctx j).state = 4 ∧ ((s.killEach cs).ctx j).kcause = 6 := by
  induction cs with
  | nil => exact fun h => h.resolve_left fun k => List.not_mem_nil k.1
  | cons c cs ih =>
    intro s h
    refine ih (s := if (s.ctx c).present then s.kill c 6 else s) ?_
    by_cases hc : (s.ctx c).present = true
    · rw [if_pos hc]
      by_cases hj : j = c
      · subst hj
        exact .inr (State.kill_self hc 6)
      · obtain ⟨hs, hk⟩ := State.kill_other (s := s) hj 6
        rw [Ctx.present_of_state hs, hs, hk]
        exact h.imp_left fun k => ⟨(List.mem_cons.mp k.1).resolve_left hj, k.2⟩
    · rw [if_neg hc]
      refine h.imp_left fun k => ⟨(List.mem_cons.mp k.1).resolve_left ?_, k.2⟩
      rintro rfl
      exact hc k.2

/-- An error that cannot be contained: recovery, no image, and every context ended with KCAUSE 6 (spec/10 R284). -/
theorem State.uncontainable_ends (s : State) : s.uncontainable.recovery = true ∧ s.uncontainable.fw.running = false ∧
    ∀ c < Config.contexts, (s.ctx c).present = true → (s.uncontainable.ctx c).state = 4 ∧ (s.uncontainable.ctx c).kcause = 6 := by
  have h (c : Nat) (hc : c < Config.contexts) (hp : (s.ctx c).present = true) :=
    State.killEach_ends (List.range Config.contexts) (.inl ⟨List.mem_range.mpr hc, hp⟩)
  rw [State.uncontainable_eq]
  generalize List.range Config.contexts = cs at h
  exact ⟨rfl, rfl, h⟩

theorem State.atTemp_cool {temp : Byte} (h : temp.toNat < 105) (s : State) : s.atTemp temp = { s with temp } := by
  unfold State.atTemp
  exact if_neg (by omega)

theorem State.atTemp_hot {temp : Byte} (h : 105 ≤ temp.toNat) (s : State) : s.atTemp temp = ({ s with temp } : State).uncontainable := by
  unfold State.atTemp
  exact if_pos h

/-- The failures of the whole device are uncontainable errors, over the contexts as they are. -/
theorem exec_deviceFailure {i : Instr} {temp : Byte} (s : State)
    (h : i = .bridgeFailure ∨ i = .rootMonitorIntegrityFailure ∨
      (i = .overtempShutdown temp ∨ i = .powerLimit temp ∨ i = .limitingEnd temp) ∧ 105 ≤ temp.toNat ∨
      i = .uncorrectableError .ownerTag) :
    ∃ u : State, exec i s = .next u.uncontainable ∧ u.ctxs = s.ctxs := by
  obtain rfl | rfl | ⟨rfl | rfl | rfl, ht⟩ | rfl := h
  · exact ⟨s, rfl, rfl⟩
  · exact ⟨s, rfl, rfl⟩
  · refine ⟨{ s with temp }, ?_, rfl⟩
    change event (decide (105 ≤ temp.toNat)) s (s.atTemp temp) = _
    rw [event, if_pos (decide_eq_true ht), State.atTemp_hot ht]
  · exact ⟨{ s with limiting := true, temp }, congrArg Host.Outcome.next (State.atTemp_hot ht _), rfl⟩
  · exact ⟨{ s with limiting := false, temp }, congrArg Host.Outcome.next (State.atTemp_hot ht _), rfl⟩
  · exact ⟨s.countError, rfl, rfl⟩

/-- An error in storage outside code that has not issued is counted as uncorrectable, once. -/
theorem execUncorrectableError_counts {p : ErrPlace} (hp : ∀ b g u, p ≠ .codeUnissued b g u) (s : State) :
    ∃ t, execUncorrectableError p s = .next t ∧ t.health = s.countError.health := by
  cases p with
  | l1Line core line => exact ⟨_, rfl, rfl⟩
  | homeClean part => exact ⟨_, rfl, rfl⟩
  | homeDirty part => exact ⟨_, rfl, State.ownerEnds_health (s.countError.poisonPart part) part⟩
  | near part => exact ⟨_, rfl, State.ownerEnds_health (s.countError.poisonPart part) part⟩
  | far part => exact ⟨_, rfl, rfl⟩
  | block blk => exact ⟨_, rfl, s.countError.arrayError_health blk⟩
  | codeUnissued blk gang unit => exact absurd rfl (hp blk gang unit)
  | codeIssued i => exact ⟨_, rfl, s.countError.codeError_health i⟩
  | ownerTag => exact ⟨_, rfl, s.countError.uncontainable_health⟩

/-- A part of memory in error is poisoned. -/
theorem execUncorrectableError_poisons {p : ErrPlace} {part : Nat} (hp : p = .homeDirty part ∨ p = .near part ∨ p = .far part)
    {s t : State} (h : execUncorrectableError p s = .next t) : part ∈ t.poison := by
  obtain rfl | rfl | rfl := hp <;> cases h
  · exact State.ownerEnds_poison (s.countError.poisonPart part) part ▸ State.poisonPart_mem _ _
  · exact State.ownerEnds_poison (s.countError.poisonPart part) part ▸ State.poisonPart_mem _ _
  · exact s.countError.poisonPart_mem part

/-- The context that owns a dirty part in error ends. -/
theorem execUncorrectableError_kills {p : ErrPlace} {part c : Nat} (hp : p = .homeDirty part ∨ p = .near part)
    {s t : State} (h : execUncorrectableError p s = .next t) (ho : assocGet (part / 16) s.owners = some c)
    (hc : (s.ctx c).present = true) : (t.ctx c).state = 4 ∧ (t.ctx c).kcause = 4 := by
  obtain rfl | rfl := hp <;> cases h
  · exact State.ownerEnds_kills (s := s.countError.poisonPart part) ho hc
  · exact State.ownerEnds_kills (s := s.countError.poisonPart part) ho hc

/-- A code unit that a gang holds and has not issued is dropped. -/
theorem gang?_dropUnit (s : State) (blk gang unit : Nat) {g : Gang}
    (h : (s.updGang blk gang fun g => { g with code := g.code.filter fun x => x.1 != unit }).gang? blk gang = some g) :
    ∀ x ∈ g.code, x.1 ≠ unit := by
  rw [State.gang?_updGang s blk gang (fun g => { g with code := g.code.filter fun x => x.1 != unit }) fun _ => rfl] at h
  obtain ⟨y, -, rfl⟩ := Option.map_eq_some_iff.mp h
  intro x hx
  simpa using (List.mem_filter.mp hx).2

/-! ### Fencing (spec/10 R285) -/

theorem bit_or_one_shiftLeft (x : BitVec 160) {core : Nat} (h : core < 160) (k : Nat) :
    bit (x ||| (1#160 <<< core)) k = (bit x k || decide (k = core)) := by
  have e : (1#160 <<< core).getLsbD k = decide (k = core) := by
    by_cases hk : k = core
    · simp [hk, h]
    · by_cases hlt : k < core
      · simp [hlt, hk]
      · simp [hk]; omega
  rw [bit, BitVec.getLsbD_or, e, bit]

theorem execCoreFence_of_empty {core : Nat} {s : State} (h : ∀ b ∈ s.blocks, b.core ≠ core) :
    execCoreFence core s = .next { s with fenceC := s.fenceC ||| (1#160 <<< core), replace := true } := by
  refine if_neg ?_
  simp only [List.any_eq_true, Bool.and_eq_true, beq_iff_eq, not_exists, not_and]
  exact fun _ _ b hb _ => h b hb

/-- A stop request touches the front end's monitors and its own slot alone. -/
theorem State.requestStop_eq (s : State) (c : Nat) (front : Bool) :
    ∃ (t : State) (f : Ctx → Ctx), s.requestStop c front = t.updCtx c f ∧ { t with monitors := s.monitors } = s ∧ ∀ x, (f x).state = 2 := by
  refine ⟨_, _, rfl, ?_, fun _ => rfl⟩
  refine foldl_keeps (π := fun t : State => { t with monitors := s.monitors }) ?_ (s.ctx c).queues s
  exact fun _ _ => rfl

theorem State.requestStop_frame (s : State) (c : Nat) (front : Bool) : (s.requestStop c front).fenceC = s.fenceC ∧
    (s.requestStop c front).blocks = s.blocks ∧ (s.requestStop c front).ctxs.length = s.ctxs.length := by
  obtain ⟨t, f, e, ht, -⟩ := s.requestStop_eq c front
  rw [e, State.ctxs_length_updCtx, ← ht]
  exact ⟨rfl, rfl, rfl⟩

theorem State.requestStop_ctx (s : State) (c : Nat) (front : Bool) (j : Nat) :
    ((s.requestStop c front).ctx j).state = if j = c ∧ j < s.ctxs.length then 2 else (s.ctx j).state := by
  obtain ⟨t, f, e, ht, hf⟩ := s.requestStop_eq c front
  have hl : t.ctxs = s.ctxs := (congrArg State.ctxs ht :)
  rw [e, State.ctx_updCtx, State.ctx, State.ctx, hl]
  split
  · exact hf _
  · rfl

/-- The stop requests for some contexts. -/
def State.stopEach (s : State) (cs : List Ctx) : State := cs.foldl (fun t c => t.requestStop c.id true) s

theorem State.stopEach_frame (s : State) (cs : List Ctx) : (s.stopEach cs).fenceC = s.fenceC ∧ (s.stopEach cs).blocks = s.blocks :=
  ⟨foldl_keeps (π := State.fenceC) (fun t (c : Ctx) => (t.requestStop_frame c.id true).1) cs s,
   foldl_keeps (π := State.blocks) (fun t (c : Ctx) => (t.requestStop_frame c.id true).2.1) cs s⟩

/-- A context that is asked to stop stops, and one that is stopping goes on stopping. -/
theorem State.stopEach_stops {j : Nat} (cs : List Ctx) : ∀ {s : State}, j < s.ctxs.length →
    j ∈ cs.map (·.id) ∨ (s.ctx j).state = 2 → ((s.stopEach cs).ctx j).state = 2 := by
  induction cs with
  | nil => exact fun _ h => h.resolve_left List.not_mem_nil
  | cons c cs ih =>
    intro s hj h
    refine ih (s := s.requestStop c.id true) ((s.requestStop_frame c.id true).2.2 ▸ hj) ?_
    rw [State.requestStop_ctx]
    by_cases hc : j = c.id
    · exact .inr (if_pos ⟨hc, hj⟩)
    · rw [if_neg fun k => hc k.1]
      exact h.imp_left fun k => (List.mem_cons.mp k).resolve_left hc

theorem State.id_lt_length {s : State} {c : Ctx} (h : s.slotsOk) (hc : c ∈ s.ctxs) : c.id < s.ctxs.length := by
  have hl : s.ctxs.length = Config.contexts := by simpa using congrArg List.length h
  have hm : c.id ∈ s.ctxs.map (·.id) := List.mem_map_of_mem hc
  rw [h, List.mem_range] at hm
  omega

/-- A core with a block on it is not fenced yet: the running contexts that have one there are stopped first. -/
theorem execCoreFence_of_block {core : Nat} {s : State} {c : Ctx} {b : Block} (hc : c ∈ s.ctxs) (hs : c.state = 1)
    (hb : b ∈ s.blocks) (hbc : b.ctx = c.id) (hcore : b.core = core) :
    ∃ cs, c ∈ cs ∧ execCoreFence core s = .next (s.stopEach cs) := by
  have on : (s.blocks.any fun b => b.ctx == c.id && b.core == core) = true :=
    List.any_eq_true.mpr ⟨b, hb, by simp [hbc, hcore]⟩
  refine ⟨_, ?_, if_pos (List.any_eq_true.mpr ⟨c, hc, on⟩)⟩
  exact List.mem_filter.mpr ⟨hc, by simp [hs, on]⟩

/-! ### Firmware (spec/10 R287-R290) -/

theorem State.boot_ctx (s : State) (store : Option Image) (c : Nat) : ((s.boot store).ctx c).state = 0 := by
  change (((List.range Config.contexts).map Ctx.absent).getD c (Ctx.absent c)).state = 0
  by_cases h : c < Config.contexts
  · simp [h, Ctx.absent]
  · simp [h, Ctx.absent]

theorem State.boot_verified (s : State) {i : Image} (h : imageVerifies i = true) :
    (s.boot (some i)).recovery = false ∧ (s.boot (some i)).fw.mreg1 = i.digest := by
  simp [State.boot, h]

theorem execImageCheckRequest_of_recovery {s : State} (h : s.recovery = true) : execImageCheckRequest s =
    .next { s with fw := { s.fw with staging := [], writing :=
        (if imageVerifies (Config.imageOf s.fw.staging) then some (Config.imageOf s.fw.staging) else s.fw.writing) } } :=
  congrArg Host.Outcome.next (if_pos h)

/-- The reset that ends the write of an image starts with that image. -/
theorem execDeviceReset_of_writing {s : State} {i : Image} (h : s.fw.writing = some i) :
    execDeviceReset s = .next (s.boot (some i)) := by
  simp only [execDeviceReset, h]

theorem length_leBytes : ∀ n v : Nat, (leBytes n v).length = n
  | 0, _ => rfl
  | n + 1, v => congrArg (· + 1) (length_leBytes n (v / 256))

theorem State.quoteHead_length (s : State) (nonce : W256) : (s.quoteHead nonce).length = 176 := by
  simp [State.quoteHead, length_leBytes]

theorem execAttestationQuote_of_running (nonce : W256) {s : State} (hr : s.fw.running = true) (hv : s.recovery = false) :
    execAttestationQuote nonce s = .next (s.toHost (.quote (s.quoteHead nonce ++
      leBytes 64 (Config.identitySign (Config.sha512 (s.quoteHead nonce))).toNat))) :=
  congrArg Host.Outcome.next (if_pos (by simp [hr, hv]))

/-! ### The statement -/

/-- Settles O60, event by event. A kill writes STATE and KCAUSE of its own context alone and clears no poison, a trap counts no error a
second time, and a stop request touches its own slot, so that each event's counts, ends and fences stand in its last state. -/
theorem reliability : Obligations.Reliability := by
  unfold Obligations.Reliability
  refine ⟨?_, ?_, ?_, ?_, ?_, ?_, ?_, ?_, ?_, ?_, ?_⟩
  · intro p s hp
    obtain ⟨t, ht, hh⟩ := execUncorrectableError_counts hp s
    exact ⟨t, ht, State.ecntUncorrectable_of_health hh, fun part h => execUncorrectableError_poisons h ht,
      fun part c h ho hc => execUncorrectableError_kills h ht ho hc⟩
  · intro blk gang unit s
    exact ⟨_, rfl, rfl, rfl, rfl, fun g hg => gang?_dropUnit s blk gang unit hg⟩
  · exact fun n s => rfl
  · exact fun temp s h => ⟨congrArg Host.Outcome.next (State.atTemp_cool h _), congrArg Host.Outcome.next (State.atTemp_cool h _)⟩
  · intro i temp s h
    obtain ⟨u, hu, hc⟩ := exec_deviceFailure s h
    obtain ⟨hr, hf, hk⟩ := u.uncontainable_ends
    refine ⟨_, hu, hr, hf, fun c hlt hp => hk c hlt ?_⟩
    rwa [State.ctx, hc]
  · intro core s hlt h
    refine ⟨_, execCoreFence_of_empty h, ?_, rfl, fun k hk => ?_, rfl⟩
    · simp [State.fenced, bit_or_one_shiftLeft _ hlt]
    · simp [State.fenced, bit_or_one_shiftLeft _ hlt, hk]
  · intro core s c b hok hc hs hb hbc hcore
    obtain ⟨cs, hm, ht⟩ := execCoreFence_of_block hc hs hb hbc hcore
    obtain ⟨hf, hbl⟩ := s.stopEach_frame cs
    exact ⟨_, ht, State.stopEach_stops cs (State.id_lt_length hok hc) (.inl (List.mem_map_of_mem hm)), hf, hbl⟩
  · exact fun s => ⟨_, rfl, s.boot_ctx _, rfl, rfl, rfl, rfl, rfl, rfl⟩
  · intro s h
    refine ⟨_, execImageCheckRequest_of_recovery h, rfl, rfl, h, ?_⟩
    split
    next hv => exact ⟨rfl, _, execDeviceReset_of_writing rfl, rfl, State.boot_verified _ hv⟩
    · rfl
  · intro s
    refine ⟨_, rfl, s.boot_ctx _, ?_⟩
    split
    · exact ⟨rfl, rfl⟩
    · rfl
  · intro nonce s hr hv
    refine ⟨_, _, execAttestationQuote_of_running nonce hr hv, rfl, ?_, List.take_left' (s.quoteHead_length nonce)⟩
    rw [List.length_append, State.quoteHead_length, length_leBytes]

end Sys2Proof.Machine
